-- ==== Sys2Proof/Word.lean ====
section
/-! DEFINITION. The word types of the block (`00_scope.md` R5, R9; `10_state.md` R12; `30_encoding.md` R60). -/

namespace Sys2Proof

/-- One element of the channel, `TW = 8` bits (R5). -/
abbrev Byte := BitVec 8

/-- `IW = 16` bits: a capacity, an index, a view, a count, a command's operand field (R5). -/
abbrev Half := BitVec 16

/-- A command word, a payload word or a response word (R60, R62, R63). -/
abbrev Word := BitVec 32

end Sys2Proof
end

