-- ==== Sys2Proof/Syntax.lean ====
section
/-! DEFINITION. The ports, the buffers, the seventeen commands (`30_encoding.md` R64) and the events of a run
(`42_bottom_half_and_agents.md` R123, R124, R133; `30_encoding.md` R71). -/

namespace Sys2Proof

/-- A command port, one per execution context (`00_scope.md` R7). -/
inductive Port where
  | fg   -- the foreground
  | bh   -- the bottom-half
  deriving DecidableEq, Repr, Inhabited

/-- A buffer of the channel (`00_scope.md` R9). -/
inductive BufSel where
  | inbound    -- `IN`, `sel = 0`
  | outbound   -- `OUT`, `sel = 1`
  deriving DecidableEq, Repr, Inhabited

/-- The commands, one constructor per row of the opcode table (R64). -/
inductive Instr where
  /-- `CB.WRITE sel, value` (`40_circular_buffer.md` R80). -/
  | cbWrite (b : BufSel) (value : Byte)
  /-- `CB.READ sel` (R81). -/
  | cbRead (b : BufSel)
  /-- `CB.RESIZE sel, newCapacity` (R82). -/
  | cbResize (b : BufSel) (newCap : Half)
  /-- `CB.ISEMPTY sel` (R83). -/
  | cbIsEmpty (b : BufSel)
  /-- `CB.ISFULL sel` (R84). -/
  | cbIsFull (b : BufSel)
  /-- `CB.COUNT sel` (R85). -/
  | cbCount (b : BufSel)
  /-- `SC.BRDB` (`41_serial_channel.md` R100). -/
  | scBrdb
  /-- `SC.BWRB b` (R101). -/
  | scBwrb (v : Byte)
  /-- `SC.BWRITE bytes` (R102): the null flag, the length field and the payload that followed the header (R63). -/
  | scBwrite (np : Bool) (len : Half) (bytes : List Byte)
  /-- `SC.ENQ b` (R103). -/
  | scEnq (v : Byte)
  /-- `SC.DEQ` (R104). -/
  | scDeq
  /-- `SC.RESIZE newCapacity` (R105). -/
  | scResize (newCap : Half)
  /-- `SC.BHALF` (`42_bottom_half_and_agents.md` R120). -/
  | scBhalf
  /-- `SC.ARMRX` (`41_serial_channel.md` R106). -/
  | scArmrx
  /-- `SC.ARMTX` (R107). -/
  | scArmtx
  /-- `SC.DISTX` (R108). -/
  | scDistx
  /-- `SC.STAT` (R109). -/
  | scStat
  deriving DecidableEq, Repr

/-- What the schedule of a run can name next. `run p 0` is one atomic unit of port `p` (`20_memory.md` R47,
`70_reset_and_hazards.md` R177); `run p n` is one unit and then up to `n` further units of the same command with
no other agent's unit in between (the script line `p: CMD` of `30_encoding.md` R71). -/
inductive Event where
  /-- Port `p` runs one unit, then at most `more` further units of the same command. -/
  | run (p : Port) (more : Nat)
  /-- `SyncW(b, x)` (R123). -/
  | syncW (b : BufSel) (x : Half)
  /-- `SyncR(b, x)` (R124). -/
  | syncR (b : BufSel) (x : Half)
  /-- `EnvRx(v)` (R133). -/
  | envRx (v : Byte)
  /-- `EnvTxReady` (R133). -/
  | envTxReady
  /-- The feeder of port `p` presents one more word (`10_state.md` R11). -/
  | present (p : Port) (w : Word)
  deriving DecidableEq, Repr, Inhabited

end Sys2Proof
end

