-- ==== Sys2Proof/WellFormed.lean ====
section
/-! DEFINITION. Which command terms a command word stands for (`30_encoding.md` R61, R63). Every operand but the
payload of `SC.BWRITE` is in range by its type. -/

namespace Sys2Proof

/-- Why a command term stands for no command word. -/
inductive WfError where
  /-- A null-flagged `SC.BWRITE` with payload bytes: "If `np = 1` or `len = 0`, no payload word follows" (R63). -/
  | payloadUnderNull
  /-- An `SC.BWRITE` whose payload has not `len` bytes (R63). -/
  | payloadLength
  deriving DecidableEq, Repr

/-- The check of R61 and R63 on a command term. -/
def Instr.wfError : Instr → Option WfError
  | .scBwrite true _ bytes => if bytes = [] then none else some .payloadUnderNull
  | .scBwrite false len bytes => if bytes.length = len.toNat then none else some .payloadLength
  | .cbWrite _ _ => none
  | .cbRead _ => none
  | .cbResize _ _ => none
  | .cbIsEmpty _ => none
  | .cbIsFull _ => none
  | .cbCount _ => none
  | .scBrdb => none
  | .scBwrb _ => none
  | .scEnq _ => none
  | .scDeq => none
  | .scResize _ => none
  | .scBhalf => none
  | .scArmrx => none
  | .scArmtx => none
  | .scDistx => none
  | .scStat => none

/-- A command term that some sequence of command words stands for. -/
abbrev Instr.Wf (i : Instr) : Prop := i.wfError = none

end Sys2Proof
end

