-- ==== Sys2Proof/Decode.lean ====
section
/-! DEFINITION. Command words: the decoder and, after it, the encoder (`30_encoding.md` R60 to R64, R67). The unit of
a command stream is the 32-bit word; it reaches a port whole (log 17). -/

namespace Sys2Proof

/-! ### Fields of a command word (R60) -/

/-- `opc`, bits 31 to 24. -/
def wordOpc (w : Word) : BitVec 8 := w.extractLsb' 24 8

/-- `sel`, bit 23. -/
def wordSel (w : Word) : Bool := w.getLsbD 23

/-- `np`, bit 22. -/
def wordNp (w : Word) : Bool := w.getLsbD 22

/-- `rsv`, bits 21 to 16. -/
def wordRsv (w : Word) : BitVec 6 := w.extractLsb' 16 6

/-- `imm`, bits 15 to 0. -/
def wordImm (w : Word) : Half := w.extractLsb' 0 16

/-- The buffer a `sel` bit names: 0 is `IN`, 1 is `OUT`. -/
def BufSel.ofBit : Bool → BufSel
  | false => .inbound
  | true => .outbound

/-- The `sel` bit of a buffer. -/
def BufSel.toBit : BufSel → Bool
  | .inbound => false
  | .outbound => true

/-! ### Payload words (R63, `20_memory.md` R43) -/

/-- Byte lane `k` of a payload word: bits `8k+7` to `8k`. -/
def byteLane (w : Word) (k : Nat) : Byte := w.extractLsb' (8 * k) 8

/-- All byte lanes of the payload words, in transmit order. -/
def payloadLanes : List Word → List Byte
  | [] => []
  | w :: ws => byteLane w 0 :: byteLane w 1 :: byteLane w 2 :: byteLane w 3 :: payloadLanes ws

/-- How many payload words `len` payload bytes take: `ceil(len / 4)`. -/
def payloadWordsOf (len : Half) : Nat := (len.toNat + 3) / 4

/-- How many payload words a header announces: those of an `opc = 0x12` header with `np = 0`, whether or not its other
fields are legal (R63, R67). -/
def announcedWords (h : Word) : Nat :=
  if wordOpc h = 0x12 ∧ wordNp h = false then payloadWordsOf (wordImm h) else 0

/-- How many words a command takes on its port (R63). -/
def wordCount : Instr → Nat
  | .scBwrite false len _ => 1 + payloadWordsOf len
  | _ => 1

/-! ### The decoder -/

/-- Why a command is illegal (R67). -/
inductive DecodeError where
  /-- `opc` is not one of the seventeen. -/
  | reservedOpcode
  /-- `rsv` is not 0. -/
  | rsvNotZero
  /-- `sel` is 1 in a command that does not use it. -/
  | selNotZero
  /-- `np` is 1 in a command that does not use it. -/
  | npNotZero
  /-- A bit of `imm` that the command does not use is 1; for an element, a bit at or above `TW`. -/
  | immNotZero
  /-- A padding byte lane of the last payload word of `SC.BWRITE` is not 0. -/
  | paddingNotZero
  deriving DecidableEq, Repr

/-- The rule of R61 for one word: `rsv` is 0, and so is each field the command does not use; `immUsed` is the bits of
`imm` it uses. -/
def fieldError (w : Word) (usesSel usesNp : Bool) (immUsed : Half) : Option DecodeError :=
  if wordRsv w ≠ 0 then some .rsvNotZero
  else if usesSel = false ∧ wordSel w = true then some .selNotZero
  else if usesNp = false ∧ wordNp w = true then some .npNotZero
  else if wordImm w &&& ~~~immUsed ≠ 0 then some .immNotZero
  else none

/-- The command `i` if the fields of `w` are as R61 asks. -/
def checked (w : Word) (usesSel usesNp : Bool) (immUsed : Half) (i : Instr) : Except DecodeError Instr :=
  match fieldError w usesSel usesNp immUsed with
  | some e => .error e
  | none => .ok i

/-- `SC.BWRITE` with its payload words: the fields, then the padding lanes (R63, R67). -/
def decodeBwrite (w : Word) (payload : List Word) : Except DecodeError Instr :=
  let lanes := payloadLanes payload
  let len := (wordImm w).toNat
  match fieldError w false true 0xFFFF with
  | some e => .error e
  | none =>
    if (lanes.drop len).all (fun v => v == 0) then .ok (.scBwrite (wordNp w) (wordImm w) (lanes.take len))
    else .error .paddingNotZero

/-- The command of a header word and the payload words it announces (R61, R63, R64). -/
def decodeCommand (w : Word) (payload : List Word) : Except DecodeError Instr :=
  let b := BufSel.ofBit (wordSel w)
  match (wordOpc w).toNat with
  | 0x01 => checked w true false 0x00FF (.cbWrite b ((wordImm w).setWidth 8))
  | 0x02 => checked w true false 0x0000 (.cbRead b)
  | 0x03 => checked w true false 0xFFFF (.cbResize b (wordImm w))
  | 0x04 => checked w true false 0x0000 (.cbIsEmpty b)
  | 0x05 => checked w true false 0x0000 (.cbIsFull b)
  | 0x06 => checked w true false 0x0000 (.cbCount b)
  | 0x10 => checked w false false 0x0000 .scBrdb
  | 0x11 => checked w false false 0x00FF (.scBwrb ((wordImm w).setWidth 8))
  | 0x12 => decodeBwrite w payload
  | 0x13 => checked w false false 0x00FF (.scEnq ((wordImm w).setWidth 8))
  | 0x14 => checked w false false 0x0000 .scDeq
  | 0x15 => checked w false false 0xFFFF (.scResize (wordImm w))
  | 0x16 => checked w false false 0x0000 .scBhalf
  | 0x17 => checked w false false 0x0000 .scArmrx
  | 0x18 => checked w false false 0x0000 .scArmtx
  | 0x19 => checked w false false 0x0000 .scDistx
  | 0x1A => checked w false false 0x0000 .scStat
  | _ => .error .reservedOpcode

/-- What stands at the head of a command stream. -/
inductive Decoded where
  /-- The last word of the command has not arrived: it is not accepted yet (R63). -/
  | starved
  /-- An illegal command of `n` words (R67). -/
  | illegal (why : DecodeError) (n : Nat)
  /-- A legal command of `n` words. -/
  | legal (i : Instr) (n : Nat)
  deriving DecidableEq, Repr

/-- The command at the head of a stream of words: total. An illegal `opc = 0x12` word still takes the payload words
its header announces (R67). -/
def decode : List Word → Decoded
  | [] => .starved
  | h :: rest =>
    let n := announcedWords h
    if rest.length < n then .starved
    else
      match decodeCommand h (rest.take n) with
      | .ok i => .legal i (1 + n)
      | .error e => .illegal e (1 + n)

/-! ### The encoder -/

/-- A command word from its fields (R60). -/
def header (opc : BitVec 8) (sel np : Bool) (imm : Half) : Word :=
  opc ++ BitVec.ofBool sel ++ BitVec.ofBool np ++ (0 : BitVec 6) ++ imm

/-- A payload word from its byte lanes, lane 0 lowest (R63). -/
def payloadWord (v0 v1 v2 v3 : Byte) : Word := v3 ++ v2 ++ v1 ++ v0

/-- The payload words of a byte list, padding lanes 0 (R63). -/
def packPayload : List Byte → List Word
  | [] => []
  | [a] => [payloadWord a 0 0 0]
  | [a, b] => [payloadWord a b 0 0]
  | [a, b, c] => [payloadWord a b c 0]
  | a :: b :: c :: d :: rest => payloadWord a b c d :: packPayload rest

/-- The words of a command (R61, R63, R64). -/
def encode : Instr → List Word
  | .cbWrite b v => [header 0x01 b.toBit false (v.setWidth 16)]
  | .cbRead b => [header 0x02 b.toBit false 0]
  | .cbResize b n => [header 0x03 b.toBit false n]
  | .cbIsEmpty b => [header 0x04 b.toBit false 0]
  | .cbIsFull b => [header 0x05 b.toBit false 0]
  | .cbCount b => [header 0x06 b.toBit false 0]
  | .scBrdb => [header 0x10 false false 0]
  | .scBwrb v => [header 0x11 false false (v.setWidth 16)]
  | .scBwrite np len bytes => header 0x12 false np len :: packPayload bytes
  | .scEnq v => [header 0x13 false false (v.setWidth 16)]
  | .scDeq => [header 0x14 false false 0]
  | .scResize n => [header 0x15 false false n]
  | .scBhalf => [header 0x16 false false 0]
  | .scArmrx => [header 0x17 false false 0]
  | .scArmtx => [header 0x18 false false 0]
  | .scDistx => [header 0x19 false false 0]
  | .scStat => [header 0x1A false false 0]

/-! ### The opcode table (R64) -/

/-- One row of the opcode map: a word `w` is this command when `w &&& mask = pattern`. -/
structure OpcodeRow where
  mnemonic : String
  pattern : Word
  mask : Word
  deriving DecidableEq, Repr

/-- The opcode map of R64, in its order, for `TW = 8`. -/
def opcodeTable : List OpcodeRow := [
  ⟨"CB.WRITE", 0x01000000, 0xFF7FFF00⟩,
  ⟨"CB.READ", 0x02000000, 0xFF7FFFFF⟩,
  ⟨"CB.RESIZE", 0x03000000, 0xFF7F0000⟩,
  ⟨"CB.ISEMPTY", 0x04000000, 0xFF7FFFFF⟩,
  ⟨"CB.ISFULL", 0x05000000, 0xFF7FFFFF⟩,
  ⟨"CB.COUNT", 0x06000000, 0xFF7FFFFF⟩,
  ⟨"SC.BRDB", 0x10000000, 0xFFFFFFFF⟩,
  ⟨"SC.BWRB", 0x11000000, 0xFFFFFF00⟩,
  ⟨"SC.BWRITE", 0x12000000, 0xFFBF0000⟩,
  ⟨"SC.ENQ", 0x13000000, 0xFFFFFF00⟩,
  ⟨"SC.DEQ", 0x14000000, 0xFFFFFFFF⟩,
  ⟨"SC.RESIZE", 0x15000000, 0xFFFF0000⟩,
  ⟨"SC.BHALF", 0x16000000, 0xFFFFFFFF⟩,
  ⟨"SC.ARMRX", 0x17000000, 0xFFFFFFFF⟩,
  ⟨"SC.ARMTX", 0x18000000, 0xFFFFFFFF⟩,
  ⟨"SC.DISTX", 0x19000000, 0xFFFFFFFF⟩,
  ⟨"SC.STAT", 0x1A000000, 0xFFFFFFFF⟩]

/-- The row's `w & mask = match` test. -/
def OpcodeRow.covers (r : OpcodeRow) (w : Word) : Bool := w &&& r.mask == r.pattern

/-- The mnemonic of a command in the opcode table. -/
def Instr.mnemonic : Instr → String
  | .cbWrite _ _ => "CB.WRITE"
  | .cbRead _ => "CB.READ"
  | .cbResize _ _ => "CB.RESIZE"
  | .cbIsEmpty _ => "CB.ISEMPTY"
  | .cbIsFull _ => "CB.ISFULL"
  | .cbCount _ => "CB.COUNT"
  | .scBrdb => "SC.BRDB"
  | .scBwrb _ => "SC.BWRB"
  | .scBwrite _ _ _ => "SC.BWRITE"
  | .scEnq _ => "SC.ENQ"
  | .scDeq => "SC.DEQ"
  | .scResize _ => "SC.RESIZE"
  | .scBhalf => "SC.BHALF"
  | .scArmrx => "SC.ARMRX"
  | .scArmtx => "SC.ARMTX"
  | .scDistx => "SC.DISTX"
  | .scStat => "SC.STAT"

/-! ### The table's numbering of a command's bits -/

/-- The words of a command whose bits are `w`, the first word lowest: the header, then the payload words it announces.
Bits at and above `nbits` are 0. -/
def tableWords (nbits w : Nat) : List Word :=
  let bits := w % 2 ^ nbits
  let h : Word := BitVec.ofNat 32 bits
  h :: (List.range (announcedWords h)).map (fun k => BitVec.ofNat 32 (bits / 2 ^ (32 * (k + 1))))

/-- The command the decoder reads from a command whose bits are `w`. -/
def decodeTableWord (nbits w : Nat) : Option Instr :=
  match decode (tableWords nbits w) with
  | .legal i _ => some i
  | .illegal _ _ => none
  | .starved => none

end Sys2Proof
end

