-- ==== Sys2Proof/Config.lean ====
section
/-! DEFINITION. The implementation parameters (`00_scope.md` R5) and the free values of a run (`10_state.md` R30). -/

namespace Sys2Proof

/-- How each side sees the other side's index (`20_memory.md` R50). -/
inductive Sync where
  | lagged
  | direct
  deriving DecidableEq, Repr, Inhabited

/-- Which transmit primitive the bottom-half uses (`42_bottom_half_and_agents.md` R120). -/
inductive Backend where
  | register
  | host
  deriving DecidableEq, Repr, Inhabited

/-- The open parameters that a rule reads after construction (R5). Constant along a run. -/
structure Params where
  sync : Sync
  backend : Backend
  deriving DecidableEq, Repr

/-- `TW` of a stand-alone buffer: "OPEN, 1 to 16, for a stand-alone CircularBuffer" (R5). Another width has no model. -/
structure ElementWidth where
  bits : Nat
  least : 1 ≤ bits
  most : bits ≤ 16
  deriving DecidableEq, Repr

/-- The default of `CAP_INIT`: "default 128 elements if unspecified" (R5, `10_state.md` R32). -/
def Config.defaultCapInit : Half := 128

/-- The default of `SYNC` (R5). -/
def Config.defaultSync : Sync := .lagged

/-- `BACKEND` of the machine at `State.reset`: the spec gives no default ("a claim names it or holds for both",
`92_eei_decisions.md`), so it is an open constant. Log 6. -/
opaque Config.backend : Backend

/-- The event the schedule names when the scripted schedule has run out: free (`20_memory.md` R47: "Nothing else
constrains the order"). Read at the counter `tick`. Log 1. -/
opaque Config.freeEvent : Nat → Event

/-- A `draw {0, 1}` when the scripted draws have run out: free (`42_bottom_half_and_agents.md` R129). Read at the
counter `tick`. Log 4. -/
opaque Config.freeDraw : Nat → Bool

end Sys2Proof
end

