-- ==== Sys2Proof/Machine/State.lean ====
section
/-! DEFINITION. The state of the block (`10_state.md`), the ways a step can stop (`60_exceptions.md` R155), and the
state right after construction (`10_state.md` R32, `70_reset_and_hazards.md` R160 to R162). -/

namespace Sys2Proof.Machine

/-- `FAULT` (R19): "one of {Initialised, NoFault, DataError}". The code 3 is reserved and never produced. -/
inductive FaultState where
  | initialised
  | noFault
  | dataError
  deriving DecidableEq, Repr

/-- The status of a response (`30_encoding.md` R65). -/
inductive Status where
  | ok
  | bufferFull
  | bufferEmpty
  | invalidCapacity
  | dataError
  | truncated
  | illegalCommand
  deriving DecidableEq, Repr

/-- The role of a port for a buffer (`40_circular_buffer.md` R79). -/
inductive Role where
  | producer
  | consumer
  deriving DecidableEq, Repr

/-- One circular buffer (R12 to R14, R34), of elements of type `α`. `mem` lists the slots that hold a value, slot
indices strictly rising; an unlisted slot holds no value (log 9). -/
structure CBuf (α : Type) where
  cap : Half
  wr : Half
  rd : Half
  wrv : Half
  rdv : Half
  mem : List (Nat × α)
  rsz : Bool
  deriving DecidableEq, Repr

/-- The label of an atomic unit in a command's pseudocode. `u7` is the unit of that name under `BACKEND = REGISTER`,
`u7a` and `u7b` are the two units it stands for under `BACKEND = HOST` (`42_bottom_half_and_agents.md` R120). -/
inductive Label where
  | u1 | u2 | u3 | u4 | u5 | u6 | u7 | u7a | u7b | u8 | u9
  deriving DecidableEq, Repr

/-- The locals of a command in flight (`00_scope.md` R9, R26): `r` the status of `SC.ENQ`'s write, `v` the byte of
`SC.BHALF`, `k` the byte counter of `SC.BWRITE`, `tin` the inbound outcome of `SC.RESIZE`. -/
structure Locals where
  r : Status
  v : Byte
  k : Nat
  tin : Bool
  deriving DecidableEq, Repr

/-- The record of a command in flight (R26): its decoded fields, the next unit, its locals. -/
structure InFlight where
  cmd : Instr
  unit : Label
  locals : Locals
  deriving DecidableEq, Repr

/-- `INFL[p]` (R26). -/
inductive Infl where
  | idle
  | busy (c : InFlight)
  deriving DecidableEq, Repr

/-- One command port (`00_scope.md` R7) with its feeder's position (R11), the words the feeder has presented from the
start, and the response words the port has answered (`30_encoding.md` R62), oldest first. -/
structure PortState where
  pos : Nat
  stream : List Word
  infl : Infl
  rsps : List Word
  deriving DecidableEq, Repr

/-- One entry of `TRACE` (R28). -/
inductive TraceEvent where
  | trd (p : Port) (v : Byte)
  | twr (p : Port) (v : Byte)
  | enRx (p : Port)
  | enTx (p : Port)
  | disTx (p : Port)
  deriving DecidableEq, Repr

/-- The turn the schedule has granted: the port whose unit runs, and how many further units of the same command it may
run with no other agent's unit in between. The model's own field (log 2). -/
structure Turn where
  port : Port
  more : Nat
  deriving DecidableEq, Repr

/-- Why a step stops with a fault (`60_exceptions.md` R155). Each is safe: the run stops where the source gives no
behaviour. -/
inductive Fault where
  /-- A command on a port that the table of R152 forbids. Raised by `CB.WRITE`, `CB.READ`, `SC.ENQ`, `SC.DEQ`,
  `SC.BHALF`. Safe. -/
  | portDiscipline
  /-- A CircularBuffer primitive on `b` while `RSZ[b] = 1` (`10_state.md` R34). Raised by every command that touches a
  buffer. Safe. -/
  | resizeRace
  /-- `transportReadByte()` with `RXQ = []`, or `transportWriteByte()` with `TXRDY = 0`
  (`42_bottom_half_and_agents.md` R128, R129). Raised by `SC.BRDB`, `SC.BWRB`, `SC.BWRITE`, `SC.BHALF`. Safe. -/
  | transportNotReady
  /-- A load from a slot that holds no value (`93_implementation_defined.md` U9, `10_state.md` R14). Raised by a read or
  a resize in a state that breaks the invariants, and in no other. Safe. Log 9. -/
  | slotWithoutValue
  /-- An access to a slot index at or above `CAP[b]`, which is no address (`20_memory.md` R40). Raised by a read or a
  write in a state that breaks R15, and in no other. Safe. Log 10. -/
  | noSuchSlot
  deriving DecidableEq, Repr

/-- Why a step is refused. -/
inductive Refusal where
  /-- An instruction that has no meaning yet. Raised by no arm of `exec`. Safe. -/
  | notModelled (mnemonic : String)
  /-- An in-flight record that no accepted command leads to (a unit label its command does not have, a payload byte
  beyond the payload). Raised by a meaning on such a record, and in no reachable state. Safe. Log 14. -/
  | malformedRecord
  deriving DecidableEq, Repr

/-- The whole state (`10_state.md`). The last four fields are the model's own: the schedule and the draws of the run
(R30). -/
structure State where
  par : Params
  inb : CBuf Byte
  outb : CBuf Byte
  fault : FaultState
  txArm : Bool
  rxArm : Bool
  evTx : Bool
  evRx : Bool
  rxq : List Byte
  txReady : Bool
  txLog : List Byte
  trace : List TraceEvent
  fg : PortState
  bh : PortState
  turn : Turn
  script : List Event
  draws : List Bool
  tick : Nat
  deriving DecidableEq, Repr

/-- The locals of a command that has just been accepted. No unit reads one before an earlier unit wrote it. -/
def Locals.init : Locals := ⟨.ok, 0, 0, false⟩

/-- A buffer right after construction: empty, no slot holds a value (R32, R33). -/
def CBuf.init (α : Type) (capInit : Half) : CBuf α := ⟨capInit, 0, 0, 0, 0, [], false⟩

/-- A port right after construction: idle, nothing presented (R32). -/
def PortState.init : PortState := ⟨0, [], .idle, []⟩

/-- The state right after construction with a legal capacity (R32; `70_reset_and_hazards.md` R161). `rxq` and `txReady`
are whatever `ENV` chooses. -/
def State.init (par : Params) (capInit : Half) (rxq : List Byte) (txReady : Bool) : State where
  par := par
  inb := CBuf.init Byte capInit
  outb := CBuf.init Byte capInit
  fault := .initialised
  txArm := false
  rxArm := false
  evTx := false
  evRx := false
  rxq := rxq
  txReady := txReady
  txLog := []
  trace := []
  fg := PortState.init
  bh := PortState.init
  turn := ⟨.fg, 0⟩
  script := []
  draws := []
  tick := 0

/-- Construction (`70_reset_and_hazards.md` R160, R162): rejected with `InvalidCapacity` for capacity 0, total on 1 to
65535. -/
def State.construct (par : Params) (capInit : Half) (rxq : List Byte) (txReady : Bool) : Except Status State :=
  if capInit = 0 then .error .invalidCapacity else .ok (State.init par capInit rxq txReady)

/-- The machine right after reset: construction with the default capacity and the default `SYNC` (`00_scope.md` R5).
`BACKEND` has no default and is an open constant (log 6). `RXQ` and `TXRDY` are `[]` and 0: `ENV` steps at the head of
the schedule lead to every other choice (log 5). -/
def State.reset : State :=
  State.init ⟨Config.defaultSync, Config.backend⟩ Config.defaultCapInit [] false

end Sys2Proof.Machine
end

