-- ==== Sys2Proof/Machine/Ring.lean ====
section
/-! DEFINITION. Ring arithmetic (`00_scope.md` R9, `40_circular_buffer.md` R89) and the storage array of a buffer as a
list of slots (`10_state.md` R14, `20_memory.md` R40). -/

namespace Sys2Proof.Machine

/-- `inc(x, c) = (x + 1) mod c` (R9). -/
def inc (x c : Half) : Half := BitVec.ofNat 16 ((x.toNat + 1) % c.toNat)

/-- `occ(x, y, c) = (y - x) mod c` over the integers (R9): the slots from `x` forward to `y`. -/
def occ (x y c : Half) : Nat := (((y.toNat : Int) - (x.toNat : Int)) % (c.toNat : Int)).toNat

/-! ### Storage: slots strictly rising, an unlisted slot holds no value -/

/-- The value of slot `i`, if it holds one. -/
def memGet {α : Type} : List (Nat × α) → Nat → Option α
  | [], _ => none
  | (j, v) :: rest, i => if i = j then some v else memGet rest i

/-- `MEM[b][i] <- v`, keeping the slots strictly rising. -/
def memSet {α : Type} : List (Nat × α) → Nat → α → List (Nat × α)
  | [], i, v => [(i, v)]
  | (j, w) :: rest, i, v =>
    if i < j then (i, v) :: (j, w) :: rest
    else if i = j then (i, v) :: rest
    else (j, w) :: memSet rest i v

/-- The canonical form of a storage list: slot indices strictly rising. Every entry is a value, so none equals what an
unlisted slot reads as. -/
def memWf {α : Type} : List (Nat × α) → Bool
  | [] => true
  | [_] => true
  | (i, _) :: (j, w) :: rest => decide (i < j) && memWf ((j, w) :: rest)

/-- The first `n` elements from `start` forward round a ring of `c` slots, as the slots `at0, at0 + 1, ...` of a new
storage; `none` if one of the slots read holds no value (`40_circular_buffer.md` R82, the copy loop). -/
def copyRing {α : Type} (mem : List (Nat × α)) (start c : Nat) : Nat → Nat → Option (List (Nat × α))
  | 0, _ => some []
  | n + 1, at0 =>
    match memGet mem ((start + at0) % c), copyRing mem start c n (at0 + 1) with
    | some v, some rest => some ((at0, v) :: rest)
    | _, _ => none

end Sys2Proof.Machine
end

