-- ==== Sys2Proof/Machine/Operands.lean ====
section
/-! DEFINITION. What a port may do with a buffer, and which of its indices it sees (`40_circular_buffer.md` R79, R83 to
R85; `60_exceptions.md` R152). -/

namespace Sys2Proof.Machine

/-- `role(p, b)` (R79): the bottom-half writes `IN` and reads `OUT`, the foreground writes `OUT` and reads `IN`. -/
def roleOf : Port → BufSel → Role
  | .bh, .inbound => .producer
  | .fg, .outbound => .producer
  | .fg, .inbound => .consumer
  | .bh, .outbound => .consumer

/-- The read index a query uses: the producer's view, or the consumer's own index. -/
def seenRead {α : Type} (role : Role) (c : CBuf α) : Half :=
  match role with
  | .producer => c.rdv
  | .consumer => c.rd

/-- The write index a query uses: the producer's own index, or the consumer's view. -/
def seenWrite {α : Type} (role : Role) (c : CBuf α) : Half :=
  match role with
  | .producer => c.wr
  | .consumer => c.wrv

/-- The true occupancy `N[b]` (`10_state.md` R16). -/
def CBuf.count {α : Type} (c : CBuf α) : Nat := occ c.rd c.wr c.cap

/-- The queued elements, oldest first: the slots from `RD[b]` forward to `WR[b]`. -/
def CBuf.queued {α : Type} (c : CBuf α) : List α :=
  (List.range c.count).filterMap (fun i => memGet c.mem ((c.rd.toNat + i) % c.cap.toNat))

/-- The port table (R152): whether a command may be issued on a port. -/
def portAllows (p : Port) : Instr → Bool
  | .cbWrite b _ => roleOf p b == .producer
  | .cbRead b => roleOf p b == .consumer
  | .scEnq _ => p == .fg
  | .scDeq => p == .fg
  | .scBhalf => p == .bh
  | .cbResize _ _ => true
  | .cbIsEmpty _ => true
  | .cbIsFull _ => true
  | .cbCount _ => true
  | .scBrdb => true
  | .scBwrb _ => true
  | .scBwrite _ _ _ => true
  | .scResize _ => true
  | .scArmrx => true
  | .scArmtx => true
  | .scDistx => true
  | .scStat => true

end Sys2Proof.Machine
end

