-- ==== Sys2Proof/Machine/Flags.lean ====
section
/-! DEFINITION. The flag registers, the status word, the response word and the event level (`10_state.md` R19, R29;
`30_encoding.md` R62, R65; `60_exceptions.md` R146). -/

namespace Sys2Proof.Machine

/-- The code of `FAULT` (R19). -/
def FaultState.code : FaultState → BitVec 2
  | .initialised => 0
  | .noFault => 1
  | .dataError => 2

/-- The code of a status (R65). -/
def Status.code : Status → BitVec 4
  | .ok => 0
  | .bufferFull => 1
  | .bufferEmpty => 2
  | .invalidCapacity => 3
  | .dataError => 4
  | .truncated => 5
  | .illegalCommand => 15

/-- The response word (R62): `status` in bits 31 to 28, `value` in bits 15 to 0, zero between. -/
def rspWord (st : Status) (value : Half) : Word := st.code ++ (0 : BitVec 12) ++ value

/-- The value of a query's answer (`30_encoding.md` R73). -/
def boolValue (b : Bool) : Half := if b then 1 else 0

/-- The status word of `SC.STAT` (R29): `FAULT` in bits 1 and 0, `TXARM` in bit 2, `RXARM` in bit 3, zero above. -/
def statusWord (s : State) : Half :=
  (0 : BitVec 12) ++ BitVec.ofBool s.rxArm ++ BitVec.ofBool s.txArm ++ s.fault.code

/-- The value of a truncating `SC.RESIZE` (R73): bit 0 for `IN`, bit 1 for `OUT`. -/
def truncatedValue (tin tout : Bool) : Half := (0 : BitVec 14) ++ BitVec.ofBool tout ++ BitVec.ofBool tin

/-- `transportDataAvailable()` (`42_bottom_half_and_agents.md` R126). -/
def dataAvailable (s : State) : Bool := !s.rxq.isEmpty

/-- `transportReadyToSend()` (R127). -/
def readyToSend (s : State) : Bool := s.txReady

/-- The event level `IRQ` (R146). -/
def irq (s : State) : Bool := (s.evRx && dataAvailable s) || (s.evTx && readyToSend s)

end Sys2Proof.Machine
end

