-- ==== Sys2Proof/Machine/Ops.lean ====
section
/-! DEFINITION. The shared operations: the CircularBuffer primitives (`40_circular_buffer.md` R80 to R85), the transport
primitives and platform actions (`42_bottom_half_and_agents.md` R126 to R132), retirement and typed results
(`30_encoding.md` R62, R66; `60_exceptions.md` R140), and the running of a command unit by unit (`20_memory.md` R47). -/

namespace Sys2Proof.Machine

/-! ### One buffer, elements of any type (`40_circular_buffer.md` R88) -/

/-- `MemRead(b:i, 1)`: an address is a slot index below `CAP[b]` (`20_memory.md` R40). -/
def CBuf.load {α : Type} (c : CBuf α) (i : Half) : Except Fault α :=
  if i.toNat < c.cap.toNat then
    match memGet c.mem i.toNat with
    | some v => .ok v
    | none => .error .slotWithoutValue
  else .error .noSuchSlot

/-- `MemWrite(b:i, 1, v)`. -/
def CBuf.store {α : Type} (c : CBuf α) (i : Half) (v : α) : Except Fault (CBuf α) :=
  if i.toNat < c.cap.toNat then .ok { c with mem := memSet c.mem i.toNat v } else .error .noSuchSlot

/-- `cb_write` (R80) on one buffer by a port of role `role`: the status, and the buffer after. -/
def CBuf.write {α : Type} (sync : Sync) (role : Role) (c : CBuf α) (v : α) : Except Fault (Status × CBuf α) :=
  if c.rsz then .error .resizeRace
  else if role ≠ .producer then .error .portDiscipline
  else if inc c.wr c.cap = c.rdv then .ok (.bufferFull, c)
  else
    match c.store c.wr v with
    | .error f => .error f
    | .ok d =>
      let w := inc c.wr c.cap
      .ok (.ok, { d with wr := w, wrv := if sync = .direct then w else d.wrv })

/-- `cb_read` (R81): the element taken, or none for `BufferEmpty`, and the buffer after. The slot read keeps its
content. -/
def CBuf.read {α : Type} (sync : Sync) (role : Role) (c : CBuf α) : Except Fault (Option α × CBuf α) :=
  if c.rsz then .error .resizeRace
  else if role ≠ .consumer then .error .portDiscipline
  else if c.wrv = c.rd then .ok (none, c)
  else
    match c.load c.rd with
    | .error f => .error f
    | .ok v =>
      let r := inc c.rd c.cap
      .ok (some v, { c with rd := r, rdv := if sync = .direct then r else c.rdv })

/-- Unit u1 of `cb_resize` (R82): the window opens, or `InvalidCapacity`. -/
def CBuf.resizeOpen {α : Type} (c : CBuf α) (newCap : Half) : Except Fault (Status × CBuf α) :=
  if c.rsz then .error .resizeRace
  else if newCap = 0 then .ok (.invalidCapacity, c)
  else .ok (.ok, { c with rsz := true })

/-- Unit u2 of `cb_resize` (R82): the number of elements dropped, and the buffer after. -/
def CBuf.resizeCopy {α : Type} (c : CBuf α) (newCap : Half) : Except Fault (Nat × CBuf α) :=
  let n := c.count
  let keep := min n (newCap.toNat - 1)
  let drop := n - keep
  match copyRing c.mem (c.rd.toNat + drop) c.cap.toNat keep 0 with
  | none => .error .slotWithoutValue
  | some stored =>
    .ok (drop, ⟨newCap, BitVec.ofNat 16 keep, 0, BitVec.ofNat 16 keep, 0, stored, false⟩)

/-- `CB.ISEMPTY` (R83): `w = r` as the issuer sees them. -/
def CBuf.isEmptyFor {α : Type} (role : Role) (c : CBuf α) : Bool := seenWrite role c == seenRead role c

/-- `CB.ISFULL` (R84): `inc(w, c) = r` as the issuer sees them. -/
def CBuf.isFullFor {α : Type} (role : Role) (c : CBuf α) : Bool := inc (seenWrite role c) c.cap == seenRead role c

/-- `CB.COUNT` (R85): `occ(r, w, c)` as the issuer sees them. -/
def CBuf.countFor {α : Type} (role : Role) (c : CBuf α) : Nat := occ (seenRead role c) (seenWrite role c) c.cap

/-- A query is answered outside a resize window only (R79). -/
def CBuf.query {α β : Type} (c : CBuf α) (answer : β) : Except Fault β :=
  if c.rsz then .error .resizeRace else .ok answer

/-- Whether `SyncW(b, x)` is enabled (`42_bottom_half_and_agents.md` R123). -/
def CBuf.mayMoveWrv {α : Type} (c : CBuf α) (x : Half) : Bool :=
  decide (x.toNat < c.cap.toNat) && decide (occ c.wrv x c.cap ≤ occ c.wrv c.wr c.cap)

/-- Whether `SyncR(b, x)` is enabled (R124). -/
def CBuf.mayMoveRdv {α : Type} (c : CBuf α) (x : Half) : Bool :=
  decide (x.toNat < c.cap.toNat) && decide (occ c.rdv x c.cap ≤ occ c.rdv c.rd c.cap)

/-! ### Access to the parts of the state -/

/-- The buffer a selector names. -/
def State.buf (s : State) : BufSel → CBuf Byte
  | .inbound => s.inb
  | .outbound => s.outb

/-- The state with one buffer replaced. -/
def State.setBuf (s : State) (b : BufSel) (c : CBuf Byte) : State :=
  match b with
  | .inbound => { s with inb := c }
  | .outbound => { s with outb := c }

/-- The port of a name. -/
def State.port (s : State) : Port → PortState
  | .fg => s.fg
  | .bh => s.bh

/-- The state with one port replaced. -/
def State.setPort (s : State) (p : Port) (q : PortState) : State :=
  match p with
  | .fg => { s with fg := q }
  | .bh => { s with bh := q }

/-- The state with `INFL[p]` replaced. -/
def State.setInfl (s : State) (p : Port) (x : Infl) : State := s.setPort p { s.port p with infl := x }

/-- `TRACE` gains one entry (`10_state.md` R28). -/
def State.note (s : State) (e : TraceEvent) : State := { s with trace := s.trace ++ [e] }

/-! ### The primitives on the channel's state -/

/-- `cb_write(p, b, value)` (R80). -/
def cbWrite (p : Port) (b : BufSel) (v : Byte) (s : State) : Except Fault (Status × State) :=
  match (s.buf b).write s.par.sync (roleOf p b) v with
  | .error f => .error f
  | .ok (st, c) => .ok (st, s.setBuf b c)

/-- `cb_read(p, b)` (R81). -/
def cbRead (p : Port) (b : BufSel) (s : State) : Except Fault (Option Byte × State) :=
  match (s.buf b).read s.par.sync (roleOf p b) with
  | .error f => .error f
  | .ok (v, c) => .ok (v, s.setBuf b c)

/-- `cb_resize`, unit u1 (R82). -/
def cbResizeOpen (b : BufSel) (newCap : Half) (s : State) : Except Fault (Status × State) :=
  match (s.buf b).resizeOpen newCap with
  | .error f => .error f
  | .ok (st, c) => .ok (st, s.setBuf b c)

/-- `cb_resize`, unit u2 (R82). -/
def cbResizeCopy (b : BufSel) (newCap : Half) (s : State) : Except Fault (Nat × State) :=
  match (s.buf b).resizeCopy newCap with
  | .error f => .error f
  | .ok (n, c) => .ok (n, s.setBuf b c)

/-- The next draw of `{0, 1}`: the script's if it fixes one, else free (`42_bottom_half_and_agents.md` R129, log 4). -/
def takeDraw (s : State) : Bool × State :=
  match s.draws with
  | d :: ds => (d, { s with draws := ds })
  | [] => (Config.freeDraw s.tick, { s with tick := s.tick + 1 })

/-- `transportReadByte()` by port `p` (R128). -/
def transportRead (p : Port) (s : State) : Except Fault (Byte × State) :=
  match s.rxq with
  | [] => .error .transportNotReady
  | v :: rest => .ok (v, ({ s with rxq := rest } : State).note (.trd p v))

/-- `transportWriteByte(v)` by port `p` (R129). -/
def transportWrite (p : Port) (v : Byte) (s : State) : Except Fault State :=
  if s.txReady then
    let d := takeDraw s
    .ok (({ d.2 with txLog := d.2.txLog ++ [v], txReady := d.1 } : State).note (.twr p v))
  else .error .transportNotReady

/-- `enableReceiveEvent()` (R130). -/
def enableReceive (p : Port) (s : State) : State := ({ s with evRx := true } : State).note (.enRx p)

/-- `enableTransmitEvent()` (R131). -/
def enableTransmit (p : Port) (s : State) : State := ({ s with evTx := true } : State).note (.enTx p)

/-- `disableTransmitEvent()` (R132). -/
def disableTransmit (p : Port) (s : State) : State := ({ s with evTx := false } : State).note (.disTx p)

/-! ### Retirement, and the running of a command -/

/-- `retire(status, value)` of a command of `n` words (R62, `10_state.md` R11, R26): the port becomes idle, its feeder's
position moves past the command, and the response word is answered. -/
def State.retire (s : State) (p : Port) (n : Nat) (st : Status) (value : Half) : State :=
  let q := s.port p
  s.setPort p { q with pos := q.pos + n, infl := .idle, rsps := q.rsps ++ [rspWord st value] }

/-- What one atomic unit does. -/
inductive UnitResult where
  /-- The command stays in flight: its next unit and its locals. -/
  | goto (l : Label) (x : Locals) (s : State)
  /-- `retire(status, value)`. -/
  | retire (st : Status) (value : Half) (s : State)
  /-- `wait until P` with `P` false: the port has no step (`00_scope.md` R9). -/
  | hold
  /-- `fault F`. -/
  | fault (f : Fault)
  /-- No unit of this command. -/
  | refuse (r : Refusal)

/-- `raise E` (`30_encoding.md` R66): the one operation by which a command reports a typed result. It retires with value
0 and changes nothing further; nothing is saved and control goes nowhere (`60_exceptions.md` R140). -/
def raise (e : Status) (s : State) : UnitResult := .retire e 0 s

/-- `wait until P` (R9): the unit is done if `P` holds. -/
def waitUntil (ready : Bool) (l : Label) (x : Locals) (s : State) : UnitResult :=
  if ready then .goto l x s else .hold

/-- The unit of a primitive that can fault. -/
def attempt {α : Type} (r : Except Fault α) (k : α → UnitResult) : UnitResult :=
  match r with
  | .error f => .fault f
  | .ok a => k a

/-- The state with the command left in flight at a unit. -/
def State.suspend (s : State) (p : Port) (i : Instr) (l : Label) (x : Locals) : State :=
  s.setInfl p (.busy ⟨i, l, x⟩)

/-- Runs one unit of `i` on port `p`, then at most `more` further units with no other agent's unit in between, until the
command retires, holds, or stops the run. -/
def drive (i : Instr) (unit : Port → Label → Locals → State → UnitResult) (p : Port) :
    Nat → Label → Locals → State → Host.Outcome State Fault Refusal
  | 0, l, x, s =>
    match unit p l x s with
    | .goto l' x' s' => .next (s'.suspend p i l' x')
    | .retire st value s' => .next (s'.retire p (wordCount i) st value)
    | .hold => .next (s.suspend p i l x)
    | .fault f => .fault f
    | .refuse r => .refused r
  | more + 1, l, x, s =>
    match unit p l x s with
    | .goto l' x' s' => drive i unit p more l' x' s'
    | .retire st value s' => .next (s'.retire p (wordCount i) st value)
    | .hold => .next (s.suspend p i l x)
    | .fault f => .fault f
    | .refuse r => .refused r

/-- The turn's port runs the command `i`: from unit u1 if the port is idle (acceptance, `00_scope.md` R7, R26), from the
unit it stands at if `i` is the command in flight. A port that has another command in flight does not accept `i`
(log 15). -/
def runCommand (i : Instr) (unit : Port → Label → Locals → State → UnitResult) (s : State) :
    Host.Outcome State Fault Refusal :=
  match (s.port s.turn.port).infl with
  | .idle => drive i unit s.turn.port s.turn.more .u1 Locals.init s
  | .busy c => if c.cmd = i then drive i unit s.turn.port s.turn.more c.unit c.locals s else .next s

/-- A number of units that no command exceeds in a run in which no byte arrives: `3 len(RXQ) + 5` for `SC.BHALF`
(`70_reset_and_hazards.md` R176), `2 len + 2` for `SC.BWRITE`. -/
def unitBound (s : State) : Nat := 3 * s.rxq.length + 131072

end Sys2Proof.Machine
end

