-- ==== Sys2Proof/Machine/BottomHalf.lean ====
section
/-! DEFINITION. The bottom-half command (`42_bottom_half_and_agents.md` R120). Its acceptance is the entry to the handler
and its retirement the return from it: nothing is saved, nothing is restored (`60_exceptions.md` R150, R151). -/

namespace Sys2Proof.Machine

/-- `SC.BHALF` (R120). Unit u6 goes to u7 under `BACKEND = REGISTER` and to u7a under `BACKEND = HOST`. -/
def unitScBhalf (p : Port) (l : Label) (x : Locals) (s : State) : UnitResult :=
  match l with
  | .u1 =>
    if p ≠ .bh then .fault .portDiscipline
    else .goto (if s.rxArm && dataAvailable s then .u2 else .u5) x s
  | .u2 => attempt (transportRead p s) fun r => .goto .u3 { x with v := r.1 } r.2
  | .u3 => attempt (cbWrite .bh .inbound x.v s) fun r => .goto .u4 x r.2
  | .u4 => .goto (if dataAvailable s then .u2 else .u5) x s
  | .u5 => if s.txArm then .goto .u6 x s else .retire .ok 0 s
  | .u6 => attempt (cbRead .bh .outbound s) fun r =>
      match r.1 with
      | none => .goto .u8 x r.2
      | some v => .goto (match s.par.backend with | .register => .u7 | .host => .u7a) { x with v := v } r.2
  | .u7 => attempt (transportWrite p x.v s) fun s' => .retire .ok 0 s'
  | .u7a => waitUntil (readyToSend s) .u7b x s
  | .u7b => attempt (transportWrite p x.v s) fun s' => .retire .ok 0 s'
  | .u8 => .goto .u9 x { s with txArm := false }
  | .u9 => .retire .ok 0 (disableTransmit p s)

def execScBhalf (s : State) : Host.Outcome State Fault Refusal :=
  runCommand .scBhalf unitScBhalf s

end Sys2Proof.Machine
end

