-- ==== Sys2Proof/Machine/CircularBuffer.lean ====
section
/-! DEFINITION. The CircularBuffer commands (`40_circular_buffer.md` R80 to R85). Each is a function from a unit label to
what that unit does, and the command runs it unit by unit. -/

namespace Sys2Proof.Machine

/-- `CB.WRITE sel, value` (R80). -/
def unitCbWrite (b : BufSel) (v : Byte) (p : Port) (l : Label) (_ : Locals) (s : State) : UnitResult :=
  match l with
  | .u1 => attempt (cbWrite p b v s) fun r => .retire r.1 0 r.2
  | _ => .refuse .malformedRecord

def execCbWrite (b : BufSel) (v : Byte) (s : State) : Host.Outcome State Fault Refusal :=
  runCommand (.cbWrite b v) (unitCbWrite b v) s

/-- `CB.READ sel` (R81). -/
def unitCbRead (b : BufSel) (p : Port) (l : Label) (_ : Locals) (s : State) : UnitResult :=
  match l with
  | .u1 => attempt (cbRead p b s) fun r =>
      match r.1 with
      | none => raise .bufferEmpty r.2
      | some v => .retire .ok (v.setWidth 16) r.2
  | _ => .refuse .malformedRecord

def execCbRead (b : BufSel) (s : State) : Host.Outcome State Fault Refusal :=
  runCommand (.cbRead b) (unitCbRead b) s

/-- `CB.RESIZE sel, newCapacity` (R82), two units. -/
def unitCbResize (b : BufSel) (newCap : Half) (_ : Port) (l : Label) (x : Locals) (s : State) : UnitResult :=
  match l with
  | .u1 => attempt (cbResizeOpen b newCap s) fun r => if r.1 = .ok then .goto .u2 x r.2 else raise r.1 r.2
  | .u2 => attempt (cbResizeCopy b newCap s) fun r =>
      if r.1 = 0 then .retire .ok 0 r.2 else .retire .truncated (BitVec.ofNat 16 r.1) r.2
  | _ => .refuse .malformedRecord

def execCbResize (b : BufSel) (newCap : Half) (s : State) : Host.Outcome State Fault Refusal :=
  runCommand (.cbResize b newCap) (unitCbResize b newCap) s

/-- `CB.ISEMPTY sel` (R83). -/
def unitCbIsEmpty (b : BufSel) (p : Port) (l : Label) (_ : Locals) (s : State) : UnitResult :=
  match l with
  | .u1 => attempt ((s.buf b).query ((s.buf b).isEmptyFor (roleOf p b))) fun a => .retire .ok (boolValue a) s
  | _ => .refuse .malformedRecord

def execCbIsEmpty (b : BufSel) (s : State) : Host.Outcome State Fault Refusal :=
  runCommand (.cbIsEmpty b) (unitCbIsEmpty b) s

/-- `CB.ISFULL sel` (R84). -/
def unitCbIsFull (b : BufSel) (p : Port) (l : Label) (_ : Locals) (s : State) : UnitResult :=
  match l with
  | .u1 => attempt ((s.buf b).query ((s.buf b).isFullFor (roleOf p b))) fun a => .retire .ok (boolValue a) s
  | _ => .refuse .malformedRecord

def execCbIsFull (b : BufSel) (s : State) : Host.Outcome State Fault Refusal :=
  runCommand (.cbIsFull b) (unitCbIsFull b) s

/-- `CB.COUNT sel` (R85). -/
def unitCbCount (b : BufSel) (p : Port) (l : Label) (_ : Locals) (s : State) : UnitResult :=
  match l with
  | .u1 => attempt ((s.buf b).query ((s.buf b).countFor (roleOf p b))) fun n => .retire .ok (BitVec.ofNat 16 n) s
  | _ => .refuse .malformedRecord

def execCbCount (b : BufSel) (s : State) : Host.Outcome State Fault Refusal :=
  runCommand (.cbCount b) (unitCbCount b) s

end Sys2Proof.Machine
end

