-- ==== Sys2Proof/Machine/SerialChannel.lean ====
section
/-! DEFINITION. The SerialChannel commands but the bottom-half (`41_serial_channel.md` R100 to R109). -/

namespace Sys2Proof.Machine

/-- `SC.BRDB` (R100): wait for data, then read one byte; neither buffer is touched. -/
def unitScBrdb (p : Port) (l : Label) (x : Locals) (s : State) : UnitResult :=
  match l with
  | .u1 => waitUntil (dataAvailable s) .u2 x s
  | .u2 => attempt (transportRead p s) fun r => .retire .ok (r.1.setWidth 16) r.2
  | _ => .refuse .malformedRecord

def execScBrdb (s : State) : Host.Outcome State Fault Refusal :=
  runCommand .scBrdb unitScBrdb s

/-- `SC.BWRB b` (R101): wait for readiness, then write one byte; `FAULT` is not written (R110). -/
def unitScBwrb (v : Byte) (p : Port) (l : Label) (x : Locals) (s : State) : UnitResult :=
  match l with
  | .u1 => waitUntil (readyToSend s) .u2 x s
  | .u2 => attempt (transportWrite p v s) fun s' => .retire .ok 0 s'
  | _ => .refuse .malformedRecord

def execScBwrb (v : Byte) (s : State) : Host.Outcome State Fault Refusal :=
  runCommand (.scBwrb v) (unitScBwrb v) s

/-- `SC.BWRITE bytes` (R102). -/
def unitScBwrite (np : Bool) (len : Half) (bytes : List Byte) (p : Port) (l : Label) (x : Locals) (s : State) :
    UnitResult :=
  match l with
  | .u1 =>
    if np = true ∨ len = 0 then raise .dataError { s with fault := .dataError }
    else .goto .u2 { x with k := 0 } s
  | .u2 => waitUntil (readyToSend s) .u3 x s
  | .u3 =>
    match bytes[x.k]? with
    | none => .refuse .malformedRecord
    | some v => attempt (transportWrite p v s) fun s' =>
        .goto (if x.k + 1 < len.toNat then .u2 else .u4) { x with k := x.k + 1 } s'
  | .u4 => .retire .ok 0 { s with fault := .noFault }
  | _ => .refuse .malformedRecord

def execScBwrite (np : Bool) (len : Half) (bytes : List Byte) (s : State) : Host.Outcome State Fault Refusal :=
  runCommand (.scBwrite np len bytes) (unitScBwrite np len bytes) s

/-- `SC.ENQ b` (R103): the port table is checked before any primitive is called (`60_exceptions.md` R149); arming
happens whether or not the write was refused. -/
def unitScEnq (v : Byte) (p : Port) (l : Label) (x : Locals) (s : State) : UnitResult :=
  match l with
  | .u1 =>
    if p ≠ .fg then .fault .portDiscipline
    else attempt (cbWrite .fg .outbound v s) fun r => .goto .u2 { x with r := r.1 } r.2
  | .u2 => .goto .u3 x { s with txArm := true }
  | .u3 => .retire x.r 0 (enableTransmit p s)
  | _ => .refuse .malformedRecord

def execScEnq (v : Byte) (s : State) : Host.Outcome State Fault Refusal :=
  runCommand (.scEnq v) (unitScEnq v) s

/-- `SC.DEQ` (R104). -/
def unitScDeq (p : Port) (l : Label) (_ : Locals) (s : State) : UnitResult :=
  match l with
  | .u1 =>
    if p ≠ .fg then .fault .portDiscipline
    else attempt (cbRead .fg .inbound s) fun r =>
      match r.1 with
      | none => raise .bufferEmpty r.2
      | some v => .retire .ok (v.setWidth 16) r.2
  | _ => .refuse .malformedRecord

def execScDeq (s : State) : Host.Outcome State Fault Refusal :=
  runCommand .scDeq unitScDeq s

/-- `SC.RESIZE newCapacity` (R105): inbound first, then outbound; no flag is written. -/
def unitScResize (newCap : Half) (_ : Port) (l : Label) (x : Locals) (s : State) : UnitResult :=
  match l with
  | .u1 => if newCap = 0 then raise .invalidCapacity s else .goto .u2 x s
  | .u2 => attempt (cbResizeOpen .inbound newCap s) fun r => if r.1 = .ok then .goto .u3 x r.2 else raise r.1 r.2
  | .u3 => attempt (cbResizeCopy .inbound newCap s) fun r => .goto .u4 { x with tin := decide (r.1 ≠ 0) } r.2
  | .u4 => attempt (cbResizeOpen .outbound newCap s) fun r => if r.1 = .ok then .goto .u5 x r.2 else raise r.1 r.2
  | .u5 => attempt (cbResizeCopy .outbound newCap s) fun r =>
      let tout := decide (r.1 ≠ 0)
      if x.tin || tout then .retire .truncated (truncatedValue x.tin tout) r.2 else .retire .ok 0 r.2
  | _ => .refuse .malformedRecord

def execScResize (newCap : Half) (s : State) : Host.Outcome State Fault Refusal :=
  runCommand (.scResize newCap) (unitScResize newCap) s

/-- `SC.ARMRX` (R106): the flag, then the platform action. -/
def unitScArmrx (p : Port) (l : Label) (x : Locals) (s : State) : UnitResult :=
  match l with
  | .u1 => .goto .u2 x { s with rxArm := true }
  | .u2 => .retire .ok 0 (enableReceive p s)
  | _ => .refuse .malformedRecord

def execScArmrx (s : State) : Host.Outcome State Fault Refusal :=
  runCommand .scArmrx unitScArmrx s

/-- `SC.ARMTX` (R107). -/
def unitScArmtx (p : Port) (l : Label) (x : Locals) (s : State) : UnitResult :=
  match l with
  | .u1 => .goto .u2 x { s with txArm := true }
  | .u2 => .retire .ok 0 (enableTransmit p s)
  | _ => .refuse .malformedRecord

def execScArmtx (s : State) : Host.Outcome State Fault Refusal :=
  runCommand .scArmtx unitScArmtx s

/-- `SC.DISTX` (R108). -/
def unitScDistx (p : Port) (l : Label) (x : Locals) (s : State) : UnitResult :=
  match l with
  | .u1 => .goto .u2 x { s with txArm := false }
  | .u2 => .retire .ok 0 (disableTransmit p s)
  | _ => .refuse .malformedRecord

def execScDistx (s : State) : Host.Outcome State Fault Refusal :=
  runCommand .scDistx unitScDistx s

/-- `SC.STAT` (R109): the status word. -/
def unitScStat (_ : Port) (l : Label) (_ : Locals) (s : State) : UnitResult :=
  match l with
  | .u1 => .retire .ok (statusWord s) s
  | _ => .refuse .malformedRecord

def execScStat (s : State) : Host.Outcome State Fault Refusal :=
  runCommand .scStat unitScStat s

end Sys2Proof.Machine
end

