-- ==== Sys2Proof/Machine/Dispatch.lean ====
section
/-! DEFINITION. The meaning of each command, one arm per row of the opcode table. -/

namespace Sys2Proof.Machine

def exec (i : Instr) (s : State) : Host.Outcome State Fault Refusal :=
  match i with
  | .cbWrite b v => Sys2Proof.Machine.execCbWrite b v s
  | .cbRead b => Sys2Proof.Machine.execCbRead b s
  | .cbResize b newCap => Sys2Proof.Machine.execCbResize b newCap s
  | .cbIsEmpty b => Sys2Proof.Machine.execCbIsEmpty b s
  | .cbIsFull b => Sys2Proof.Machine.execCbIsFull b s
  | .cbCount b => Sys2Proof.Machine.execCbCount b s
  | .scBrdb => Sys2Proof.Machine.execScBrdb s
  | .scBwrb v => Sys2Proof.Machine.execScBwrb v s
  | .scBwrite np len bytes => Sys2Proof.Machine.execScBwrite np len bytes s
  | .scEnq v => Sys2Proof.Machine.execScEnq v s
  | .scDeq => Sys2Proof.Machine.execScDeq s
  | .scResize newCap => Sys2Proof.Machine.execScResize newCap s
  | .scBhalf => Sys2Proof.Machine.execScBhalf s
  | .scArmrx => Sys2Proof.Machine.execScArmrx s
  | .scArmtx => Sys2Proof.Machine.execScArmtx s
  | .scDistx => Sys2Proof.Machine.execScDistx s
  | .scStat => Sys2Proof.Machine.execScStat s

end Sys2Proof.Machine
end

