-- ==== Sys2Proof/Machine/Agents.lean ====
section
/-! DEFINITION. The schedule, and what each agent's event does: the ports (`00_scope.md` R7), `SYNC`
(`42_bottom_half_and_agents.md` R123 to R125), `ENV` (R133) and the feeders (`10_state.md` R11). -/

namespace Sys2Proof.Machine

/-- The next event of the run: the script's if it names one, else free (`20_memory.md` R47, log 1). -/
def takeEvent (s : State) : Event × State :=
  match s.script with
  | e :: rest => (e, { s with script := rest })
  | [] => (Config.freeEvent s.tick, { s with tick := s.tick + 1 })

/-- `SyncW(b, x)`: enabled only as R123 says, and never under `SYNC = DIRECT` (R125); an event that is not enabled is no
step of the block and changes nothing (log 13). -/
def syncWStep (b : BufSel) (x : Half) (s : State) : State :=
  if s.par.sync = .lagged ∧ (s.buf b).mayMoveWrv x then s.setBuf b { s.buf b with wrv := x } else s

/-- `SyncR(b, x)` (R124). -/
def syncRStep (b : BufSel) (x : Half) (s : State) : State :=
  if s.par.sync = .lagged ∧ (s.buf b).mayMoveRdv x then s.setBuf b { s.buf b with rdv := x } else s

/-- `EnvRx(v)` (R133). -/
def envRxStep (v : Byte) (s : State) : State := { s with rxq := s.rxq ++ [v] }

/-- `EnvTxReady` (R133). -/
def envTxReadyStep (s : State) : State := { s with txReady := true }

/-- The feeder of port `p` presents one word. -/
def presentStep (p : Port) (w : Word) (s : State) : State :=
  s.setPort p { s.port p with stream := (s.port p).stream ++ [w] }

/-- The words of port `p` that it has not consumed yet: those from its feeder's position on. -/
def State.pending (s : State) (p : Port) : List Word := (s.port p).stream.drop (s.port p).pos

/-- An illegal command of `n` words: it changes no state and retires `IllegalCommand`, value 0 (`30_encoding.md` R67).
The feeder's position moves past the words consumed (log 11). -/
def illegalCommand (p : Port) (n : Nat) (s : State) : State := s.retire p n .illegalCommand 0

/-- Port `p` takes its turn: it goes on with the command in flight, or accepts the next one of its stream. A port whose
next command has not arrived whole has no step (R63). -/
def runPort (p : Port) (more : Nat) (s : State) : Host.Outcome State Fault Refusal :=
  let t : State := { s with turn := ⟨p, more⟩ }
  match (s.port p).infl with
  | .busy c => exec c.cmd t
  | .idle =>
    match decode (s.pending p) with
    | .legal i _ => exec i t
    | .illegal _ n => .next (illegalCommand p n t)
    | .starved => .next t

/-- What one event does. -/
def perform (e : Event) (s : State) : Host.Outcome State Fault Refusal :=
  match e with
  | .run p more => runPort p more s
  | .syncW b x => .next (syncWStep b x s)
  | .syncR b x => .next (syncRStep b x s)
  | .envRx v => .next (envRxStep v s)
  | .envTxReady => .next (envTxReadyStep s)
  | .present p w => .next (presentStep p w s)

/-- One step of the machine: the next event of the run happens. -/
def stepOnce (s : State) : Host.Outcome State Fault Refusal :=
  perform (takeEvent s).1 (takeEvent s).2

/-! ### Placing a command where the next step fetches -/

/-- A stream with the words `ws` standing from position `n` on. -/
def placeWords : Nat → List Word → List Word → List Word
  | 0, ws, stream => ws ++ stream.drop ws.length
  | n + 1, ws, [] => 0 :: placeWords n ws []
  | n + 1, ws, w :: stream => w :: placeWords n ws stream

/-- A port that may issue the command (`60_exceptions.md` R152): `FG` where the table allows it, else `BH`. -/
def portFor (ws : List Word) : Port :=
  match decode ws with
  | .legal i _ => if portAllows .fg i then .fg else .bh
  | .illegal _ _ => .fg
  | .starved => .fg

/-- The state in which the next step accepts the command whose bits are `w` and runs all its units: its words stand at
the feeder's position of a port that may issue it, the port is idle, and the schedule names that port next (log 17). -/
def placeCommand (s : State) (nbits w : Nat) : State :=
  let ws := tableWords nbits w
  let p := portFor ws
  let q := s.port p
  let t := s.setPort p { q with stream := placeWords q.pos ws q.stream, infl := .idle }
  { t with script := .run p (unitBound s) :: s.script }

end Sys2Proof.Machine
end

