-- ==== Sys2Proof/Machine/StandAlone.lean ====
section
/-! DEFINITION. A stand-alone CircularBuffer of element width `TW` (`40_circular_buffer.md` R88, `00_scope.md` R5): one
buffer, its two sides, and the two `SYNC` steps. -/

namespace Sys2Proof.Machine

/-- A stand-alone buffer: the state R88 lists and, for the side that stands between the two units of a resize, the
capacity its first unit was given (`10_state.md` R26: the fields of a command in flight). -/
structure LoneBuffer (w : ElementWidth) where
  buf : CBuf (BitVec w.bits)
  resizing : Option (Role × Half)
  deriving DecidableEq, Repr

/-- Construction of a stand-alone buffer (`70_reset_and_hazards.md` R162, `10_state.md` R32): rejected with
`InvalidCapacity` for capacity 0, total on 1 to 65535. -/
def LoneBuffer.construct (w : ElementWidth) (capInit : Half) : Except Status (LoneBuffer w) :=
  if capInit = 0 then .error .invalidCapacity else .ok ⟨CBuf.init (BitVec w.bits) capInit, none⟩

/-- One atomic unit on a stand-alone buffer, by the side of a role or by the synchronizer. A resize is the unit that
names the new capacity and then `resizeCopy` by the same side. -/
inductive BufferUnit (w : ElementWidth) where
  | write (role : Role) (v : BitVec w.bits)
  | read (role : Role)
  | resizeOpen (role : Role) (newCap : Half)
  | resizeCopy (role : Role)
  | isEmpty (role : Role)
  | isFull (role : Role)
  | count (role : Role)
  | syncW (x : Half)
  | syncR (x : Half)
  deriving DecidableEq, Repr

/-- Whether a unit is one of a resize. -/
def BufferUnit.isResize {w : ElementWidth} : BufferUnit w → Bool
  | .resizeOpen _ _ => true
  | .resizeCopy _ => true
  | .write _ _ => false
  | .read _ => false
  | .isEmpty _ => false
  | .isFull _ => false
  | .count _ => false
  | .syncW _ => false
  | .syncR _ => false

/-- What a unit answers: nothing yet, or the status and value of a response (`30_encoding.md` R73). -/
abbrev BufferAnswer := Option (Status × Half)

/-- The result of a unit, or the fault it stops with. -/
abbrev LoneResult (w : ElementWidth) := Except Fault (BufferAnswer × LoneBuffer w)

/-- Whether a side stands between the two units of a resize. -/
def LoneBuffer.inResize {w : ElementWidth} (c : LoneBuffer w) (role : Role) : Bool :=
  match c.resizing with
  | some (r, _) => r == role
  | none => false

/-- A command by the side `role`: a side inside a resize accepts none (`00_scope.md` R7), so the unit is no step and
changes nothing (log 26). -/
def LoneBuffer.accept {w : ElementWidth} (c : LoneBuffer w) (role : Role) (r : LoneResult w) : LoneResult w :=
  if c.inResize role then .ok (none, c) else r

/-- The second unit of the resize that the side `role` stands in, with that resize's capacity (R82, unit u2). A side in no
resize has no such unit (log 26). -/
def LoneBuffer.finishResize {w : ElementWidth} (c : LoneBuffer w) (role : Role) : LoneResult w :=
  match c.resizing with
  | none => .ok (none, c)
  | some (r, newCap) =>
    if r ≠ role then .ok (none, c)
    else
      match c.buf.resizeCopy newCap with
      | .error f => .error f
      | .ok (n, d) => .ok (if n = 0 then some (.ok, 0) else some (.truncated, BitVec.ofNat 16 n), ⟨d, none⟩)

/-- What one unit does to a stand-alone buffer: R80 to R85, `42_bottom_half_and_agents.md` R123, R124. -/
def bufferStep {w : ElementWidth} (sync : Sync) (c : LoneBuffer w) : BufferUnit w → LoneResult w
  | .write role v =>
    c.accept role <|
      match c.buf.write sync role v with
      | .error f => .error f
      | .ok (st, d) => .ok (some (st, 0), { c with buf := d })
  | .read role =>
    c.accept role <|
      match c.buf.read sync role with
      | .error f => .error f
      | .ok (none, d) => .ok (some (.bufferEmpty, 0), { c with buf := d })
      | .ok (some v, d) => .ok (some (.ok, v.setWidth 16), { c with buf := d })
  | .resizeOpen role newCap =>
    c.accept role <|
      match c.buf.resizeOpen newCap with
      | .error f => .error f
      | .ok (st, d) =>
        .ok (if st = .ok then (none, ⟨d, some (role, newCap)⟩) else (some (st, 0), { c with buf := d }))
  | .resizeCopy role => c.finishResize role
  | .isEmpty role =>
    c.accept role <|
      match c.buf.query (c.buf.isEmptyFor role) with
      | .error f => .error f
      | .ok a => .ok (some (.ok, boolValue a), c)
  | .isFull role =>
    c.accept role <|
      match c.buf.query (c.buf.isFullFor role) with
      | .error f => .error f
      | .ok a => .ok (some (.ok, boolValue a), c)
  | .count role =>
    c.accept role <|
      match c.buf.query (c.buf.countFor role) with
      | .error f => .error f
      | .ok n => .ok (some (.ok, BitVec.ofNat 16 n), c)
  | .syncW x =>
    .ok (none, if sync = .lagged ∧ c.buf.mayMoveWrv x then { c with buf := { c.buf with wrv := x } } else c)
  | .syncR x =>
    .ok (none, if sync = .lagged ∧ c.buf.mayMoveRdv x then { c with buf := { c.buf with rdv := x } } else c)

/-- A run of a stand-alone buffer: the elements its writes accepted and its reads returned, in order, and the buffer at
the end (`20_memory.md` R51). -/
structure BufferRun (w : ElementWidth) where
  accepted : List (BitVec w.bits)
  returned : List (BitVec w.bits)
  last : LoneBuffer w
  deriving DecidableEq, Repr

/-- The element a unit puts in, if it is a write that was answered `OK`. -/
def acceptedBy {w : ElementWidth} (u : BufferUnit w) (a : BufferAnswer) : List (BitVec w.bits) :=
  match u, a with
  | .write _ v, some (.ok, _) => [v]
  | _, _ => []

/-- The element a unit takes out, if it is a read that was answered `OK`. -/
def returnedBy {w : ElementWidth} (u : BufferUnit w) (a : BufferAnswer) : List (BitVec w.bits) :=
  match u, a with
  | .read _, some (.ok, v) => [v.setWidth w.bits]
  | _, _ => []

/-- The run of a list of units, stopping at the first fault. -/
def runBuffer {w : ElementWidth} (sync : Sync) : List (BufferUnit w) → LoneBuffer w → Except Fault (BufferRun w)
  | [], c => .ok ⟨[], [], c⟩
  | u :: us, c =>
    match bufferStep sync c u with
    | .error f => .error f
    | .ok (a, d) =>
      match runBuffer sync us d with
      | .error f => .error f
      | .ok r => .ok ⟨acceptedBy u a ++ r.accepted, returnedBy u a ++ r.returned, r.last⟩

/-- The mask of `CB.WRITE` for an element width: the low 16 bits are `(0xFFFF << TW) & 0xFFFF` (`30_encoding.md`
R64). -/
def cbWriteMask (w : ElementWidth) : Word := 0xFF7F0000 ||| (((0xFFFF : Half) <<< w.bits).setWidth 32)

/-- The element of a `CB.WRITE` word for an element width: `imm[15:TW]` must be 0 (`30_encoding.md` R61, R67). -/
def decodeElement (w : ElementWidth) (x : Word) : Except DecodeError (BufSel × BitVec w.bits) :=
  if wordOpc x ≠ 0x01 then .error .reservedOpcode
  else
    match fieldError x true false (~~~((0xFFFF : Half) <<< w.bits)) with
    | some e => .error e
    | none => .ok (BufSel.ofBit (wordSel x), (wordImm x).setWidth w.bits)

/-- The `CB.WRITE` word of an element. -/
def encodeElement (w : ElementWidth) (b : BufSel) (v : BitVec w.bits) : Word :=
  header 0x01 b.toBit false (v.setWidth 16)

end Sys2Proof.Machine
end

