-- ==== Sys2Proof/Machine/Runs.lean ====
section
/-! DEFINITION. Runs (`70_reset_and_hazards.md` R177): what the next event does, when a test run ends, when a port is held,
and the fairness of the `SYNC` agent and of the invocations of the bottom-half (`42_bottom_half_and_agents.md` R125,
`60_exceptions.md` R148). -/

namespace Sys2Proof.Machine

/-- The next event of the run. -/
abbrev nextEvent (s : State) : Event := (takeEvent s).1

/-- Whether an event is at most one atomic unit of a port (`70_reset_and_hazards.md` R177). -/
def oneUnit : Event → Bool
  | .run _ more => more == 0
  | .syncW _ _ => true
  | .syncR _ _ => true
  | .envRx _ => true
  | .envTxReady => true
  | .present _ _ => true

/-- The command a port would run at its next turn: the one in flight, or the next of its stream. -/
def nextCommand (s : State) (p : Port) : Option Instr :=
  match (s.port p).infl with
  | .busy c => some c.cmd
  | .idle =>
    match decode (s.pending p) with
    | .legal i _ => some i
    | .illegal _ _ => none
    | .starved => none

/-- The unit a port would run at its next turn. -/
def nextLabel (s : State) (p : Port) : Label :=
  match (s.port p).infl with
  | .busy c => c.unit
  | .idle => .u1

/-- Whether the command a port would run is `SC.BHALF`. -/
def runsBhalf (s : State) : Bool := nextCommand s .bh == some .scBhalf

/-! ### The end of a run, and a held port (R177) -/

/-- The command stream of a port is exhausted and the port is idle. -/
def portDone (s : State) (p : Port) : Bool := (s.port p).infl == .idle && (s.pending p).isEmpty

/-- A run ends "when both command streams are exhausted and both ports are idle". -/
def runEnded (s : State) : Bool := portDone s .fg && portDone s .bh

/-- Whether a port stands at a `wait until` whose level is false (`00_scope.md` R9). -/
def held (s : State) (p : Port) : Bool :=
  match (s.port p).infl with
  | .busy ⟨.scBrdb, .u1, _⟩ => !dataAvailable s
  | .busy ⟨.scBwrb _, .u1, _⟩ => !readyToSend s
  | .busy ⟨.scBwrite _ _ _, .u2, _⟩ => !readyToSend s
  | .busy ⟨.scBhalf, .u7a, _⟩ => !readyToSend s
  | _ => false

/-! ### Infinite runs: a schedule and the states it leads through -/

/-- A schedule and the states of its run: "each step one atomic unit of one agent" (R177). -/
abbrev IsRun (sched : Nat → Event) (run : Nat → State) : Prop :=
  ∀ n, oneUnit (sched n) = true ∧ perform (sched n) (run n) = .next (run (n + 1))

/-- A premise of `00_scope.md` R8 that holds all along a run. -/
abbrev Along (premise : State → Event → Bool) (sched : Nat → Event) (run : Nat → State) : Prop :=
  ∀ n, premise (run n) (sched n) = true

/-- It happens again and again. -/
abbrev InfinitelyOften (happens : Nat → Prop) : Prop := ∀ n, ∃ m, n ≤ m ∧ happens m

/-- The `SYNC` agent is weakly fair (`42_bottom_half_and_agents.md` R125): "for each of the four views, a full catch-up step
(`x` equal to the index) occurs infinitely often". Under `DIRECT` there is no such agent. -/
abbrev SyncFair (sched : Nat → Event) (run : Nat → State) : Prop :=
  (run 0).par.sync = .lagged → ∀ b,
    InfinitelyOften (fun n => sched n = .syncW b ((run n).buf b).wr) ∧
    InfinitelyOften (fun n => sched n = .syncR b ((run n).buf b).rd)

/-- Whether `BH` issues an `SC.BHALF` in this event. -/
def issuesBhalf (s : State) (e : Event) : Bool :=
  match e with
  | .run .bh _ => s.bh.infl == .idle && runsBhalf s
  | _ => false

/-- Invocation is fair (`60_exceptions.md` R148): under `REGISTER`, if `IRQ = 1` holds continuously and port `BH` is idle,
`BH` eventually issues `SC.BHALF`; under `HOST` it issues `SC.BHALF` infinitely often. -/
abbrev InvocationFair (sched : Nat → Event) (run : Nat → State) : Prop :=
  ((run 0).par.backend = .register → ∀ n, (∀ m, n ≤ m → irq (run m) = true ∧ (run m).bh.infl = .idle) →
    ∃ m, n ≤ m ∧ issuesBhalf (run m) (sched m) = true) ∧
  ((run 0).par.backend = .host → InfinitelyOften (fun n => issuesBhalf (run n) (sched n) = true))

/-- Whether an `SC.BHALF` stands in its receive drain loop u2 to u4 (`42_bottom_half_and_agents.md` R120). -/
def inDrainLoop (s : State) : Bool :=
  match s.bh.infl with
  | .busy ⟨.scBhalf, .u2, _⟩ => true
  | .busy ⟨.scBhalf, .u3, _⟩ => true
  | .busy ⟨.scBhalf, .u4, _⟩ => true
  | _ => false

/-- `ENV` "does not feed the receive drain loop for ever" (R174): if an `SC.BHALF` never leaves the loop, bytes stop
arriving. -/
abbrev EnvEndsDrain (sched : Nat → Event) (run : Nat → State) : Prop :=
  ∀ n, (∀ m, n ≤ m → inDrainLoop (run m) = true) → ∃ k, n ≤ k ∧ ∀ m, k ≤ m → ∀ v, sched m ≠ .envRx v

/-- `ENV` "makes `TXRDY = 1` again after every write" (R174). DEDUCED (log 31): the rule is silent on `TXRDY = 0` right
after reset, with no write made yet; the premise asks that `ENV` makes it 1 from there too. -/
abbrev EnvMakesReady (run : Nat → State) : Prop := InfinitelyOften (fun n => (run n).txReady = true)

/-- Port `BH` goes on with its command: while one is in flight and not held, the port has another turn. DEDUCED (log 31):
R174 leaves this progress unsaid. -/
abbrev HandlerProgress (sched : Nat → Event) (run : Nat → State) : Prop :=
  ∀ n, (∀ m, n ≤ m → (run m).bh.infl ≠ .idle ∧ held (run m) .bh = false) → ∃ m, n ≤ m ∧ ∃ k, sched m = .run .bh k

/-- What the first `n` steps of a run contribute, in order. -/
def bytesOver (f : State → Event → State → List Byte) (sched : Nat → Event) (run : Nat → State) : Nat → List Byte
  | 0 => []
  | n + 1 => bytesOver f sched run n ++ f (run n) (sched n) (run (n + 1))

/-- A run is stuck when a port is held for ever (R177). -/
abbrev StuckRun (run : Nat → State) : Prop := ∃ p n, ∀ m, n ≤ m → held (run m) p = true

end Sys2Proof.Machine
end

