-- ==== Sys2Proof/Safety.lean ====
section
/-! DEFINITION. The terms of the claims: the invariants of the block (`10_state.md` R14, R15, R17, R26, R28, R34), the named
premises on the schedule and the environment (`00_scope.md` R8), and what a run must not do. -/

namespace Sys2Proof.Machine

/-! ### Invariants of one buffer -/

/-- The range invariant (R15). -/
abbrev InRange {α : Type} (c : CBuf α) : Prop :=
  1 ≤ c.cap.toNat ∧ c.wr.toNat < c.cap.toNat ∧ c.rd.toNat < c.cap.toNat ∧ c.wrv.toNat < c.cap.toNat ∧
    c.rdv.toNat < c.cap.toNat

/-- The ring-order invariant (R17). -/
abbrev RingOrder {α : Type} (c : CBuf α) : Prop :=
  occ c.rdv c.rd c.cap + occ c.rd c.wrv c.cap + occ c.wrv c.wr c.cap ≤ c.cap.toNat - 1

/-- The storage is in canonical form and inside `CAP[b]`, and every queued slot holds a value (R14). -/
abbrev StorageOk {α : Type} (c : CBuf α) : Prop :=
  memWf c.mem = true ∧ (∀ e ∈ c.mem, e.1 < c.cap.toNat) ∧
    ∀ i < c.count, (memGet c.mem ((c.rd.toNat + i) % c.cap.toNat)).isSome = true

/-- Each view equals its index (`ViewsCurrent` of R8, for one buffer). -/
abbrev CBuf.ViewsCurrent {α : Type} (c : CBuf α) : Prop := c.wrv = c.wr ∧ c.rdv = c.rd

/-- Everything that holds of a buffer at every instant; under `SYNC = DIRECT` each view equals its index (R13). -/
abbrev BufInv {α : Type} (sync : Sync) (c : CBuf α) : Prop :=
  InRange c ∧ RingOrder c ∧ StorageOk c ∧ (sync = .direct → c.ViewsCurrent)

/-- Everything that holds of a stand-alone buffer at every instant: its window is open exactly while a side stands between
the units of a resize (R34), and never of a resize to capacity 0. -/
abbrev LoneInv {w : ElementWidth} (sync : Sync) (c : LoneBuffer w) : Prop :=
  BufInv sync c.buf ∧ c.buf.rsz = c.resizing.isSome ∧ (c.resizing.all fun r => r.2 != 0) = true

/-! ### Invariants of the ports -/

/-- Whether a record is one an accepted command leads to: a unit its command has, on a port that may run it, with locals
as the units before it leave them (R26 and the pseudocode of each command). -/
def recordOk (par : Params) (p : Port) (c : InFlight) : Bool :=
  match c.cmd, c.unit with
  | .cbResize _ n, .u2 => n != 0
  | .scBrdb, .u1 => true
  | .scBrdb, .u2 => true
  | .scBwrb _, .u1 => true
  | .scBwrb _, .u2 => true
  | .scBwrite np len bytes, .u2 => !np && bytes.length == len.toNat && decide (c.locals.k < len.toNat)
  | .scBwrite np len bytes, .u3 => !np && bytes.length == len.toNat && decide (c.locals.k < len.toNat)
  | .scBwrite np len bytes, .u4 => !np && bytes.length == len.toNat && c.locals.k == len.toNat && len != 0
  | .scEnq _, .u2 => p == .fg && (c.locals.r == .ok || c.locals.r == .bufferFull)
  | .scEnq _, .u3 => p == .fg && (c.locals.r == .ok || c.locals.r == .bufferFull)
  | .scResize n, .u2 => n != 0
  | .scResize n, .u3 => n != 0
  | .scResize n, .u4 => n != 0
  | .scResize n, .u5 => n != 0
  | .scArmrx, .u2 => true
  | .scArmtx, .u2 => true
  | .scDistx, .u2 => true
  | .scBhalf, .u1 => false
  | .scBhalf, .u7 => p == .bh && par.backend == .register
  | .scBhalf, .u7a => p == .bh && par.backend == .host
  | .scBhalf, .u7b => p == .bh && par.backend == .host
  | .scBhalf, _ => p == .bh
  | _, _ => false

/-- Port `p` is idle or holds such a record. -/
def portOk (par : Params) (p : Port) (q : PortState) : Bool :=
  match q.infl with
  | .idle => true
  | .busy c => recordOk par p c

/-- The buffer whose resize window a record stands in: between units u1 and u2 of its resize (R34). -/
def InFlight.window (c : InFlight) : Option BufSel :=
  match c.cmd, c.unit with
  | .cbResize b _, .u2 => some b
  | .scResize _, .u3 => some .inbound
  | .scResize _, .u5 => some .outbound
  | _, _ => none

/-- Whether the command in flight of a port stands in a resize window of `b`. -/
def PortState.resizes (q : PortState) (b : BufSel) : Bool :=
  match q.infl with
  | .idle => false
  | .busy c => c.window == some b

/-- `RSZ[b]` is 1 exactly while one port is between units u1 and u2 of a resize of `b`, and never do both stand there
(R34). -/
abbrev WindowOk (s : State) (b : BufSel) : Prop :=
  (s.buf b).rsz = (s.fg.resizes b || s.bh.resizes b) ∧ (s.fg.resizes b && s.bh.resizes b) = false

/-- The bytes of the transport writes of a trace: `TXLOG` is "the projection of `TRACE` on `TWr`" (R28). -/
def writesOf : List TraceEvent → List Byte
  | [] => []
  | .twr _ v :: rest => v :: writesOf rest
  | .trd _ _ :: rest => writesOf rest
  | .enRx _ :: rest => writesOf rest
  | .enTx _ :: rest => writesOf rest
  | .disTx _ :: rest => writesOf rest

/-- The invariant of the whole block. -/
abbrev Inv (s : State) : Prop :=
  BufInv s.par.sync s.inb ∧ BufInv s.par.sync s.outb ∧ portOk s.par .fg s.fg = true ∧ portOk s.par .bh s.bh = true ∧
    WindowOk s .inbound ∧ WindowOk s .outbound ∧ s.txLog = writesOf s.trace

/-- The command in flight on port `p` is the one whose words stand at its feeder's position (R11, R26). -/
def flightIsStream (s : State) (p : Port) : Bool :=
  match (s.port p).infl with
  | .idle => true
  | .busy c => decode (s.pending p) == .legal c.cmd (wordCount c.cmd)

/-! ### What a claim says of a port and a turn -/

/-- It is the turn of port `p`, `p` is idle, and it has at least `more` further units. -/
abbrev Fresh (s : State) (p : Port) (more : Nat) : Prop :=
  s.turn.port = p ∧ (s.port p).infl = .idle ∧ more ≤ s.turn.more

/-- It is the turn of port `p` for one unit, and `i` stands at the unit `l` with locals `x`. -/
abbrev AtUnit (s : State) (p : Port) (i : Instr) (l : Label) (x : Locals) : Prop :=
  s.turn = ⟨p, 0⟩ ∧ (s.port p).infl = .busy ⟨i, l, x⟩

/-- The buffer a unit of a command operates on with a CircularBuffer primitive (`20_memory.md` R41). -/
def unitBuffer (i : Instr) (l : Label) : Option BufSel :=
  match i, l with
  | .cbWrite b _, .u1 => some b
  | .cbRead b, .u1 => some b
  | .cbResize b _, .u1 => some b
  | .cbResize b _, .u2 => some b
  | .cbIsEmpty b, .u1 => some b
  | .cbIsFull b, .u1 => some b
  | .cbCount b, .u1 => some b
  | .scEnq _, .u1 => some .outbound
  | .scDeq, .u1 => some .inbound
  | .scResize _, .u2 => some .inbound
  | .scResize _, .u3 => some .inbound
  | .scResize _, .u4 => some .outbound
  | .scResize _, .u5 => some .outbound
  | .scBhalf, .u3 => some .inbound
  | .scBhalf, .u6 => some .outbound
  | _, _ => none

/-- An outcome with the turn that led to it forgotten. -/
def sansTurn : Host.Outcome State Fault Refusal → Host.Outcome State Fault Refusal
  | .next s => .next { s with turn := ⟨.fg, 0⟩ }
  | .fault f => .fault f
  | .refused r => .refused r

/-- Whether a command resizes a buffer. -/
def isResize : Instr → Bool
  | .cbResize _ _ => true
  | .scResize _ => true
  | _ => false

/-- What the byte `v` does to the inbound buffer inside `SC.BHALF`: it is queued if there is room as the bottom-half sees
it, and lost if not (`42_bottom_half_and_agents.md` R120, corner case a). -/
def absorb (sync : Sync) (c : CBuf Byte) (v : Byte) : CBuf Byte :=
  if inc c.wr c.cap = c.rdv then c
  else
    { c with mem := memSet c.mem c.wr.toNat v, wr := inc c.wr c.cap,
             wrv := if sync = .direct then inc c.wr c.cap else c.wrv }

/-- The buffer with its oldest element, as the consumer sees it, taken (`40_circular_buffer.md` R81). -/
def taken {α : Type} (sync : Sync) (c : CBuf α) : CBuf α :=
  { c with rd := inc c.rd c.cap, rdv := if sync = .direct then inc c.rd c.cap else c.rdv }

/-- The other port. -/
def otherPort : Port → Port
  | .fg => .bh
  | .bh => .fg

/-! ### Named premises (R8), on a state and the event that happens in it -/

/-- `ViewsCurrent`. -/
abbrev ViewsCurrent (s : State) : Prop := s.inb.ViewsCurrent ∧ s.outb.ViewsCurrent

/-- `IrqGated`: `BH` issues `SC.BHALF` only while `IRQ` is 1. -/
def irqGated (s : State) (e : Event) : Bool :=
  match e with
  | .run .bh _ => !(s.bh.infl == .idle && runsBhalf s) || irq s
  | _ => true

/-- The scheduling half of `Preempt`: no `FG` unit runs while an `SC.BHALF` is in flight. -/
def preempts (s : State) (e : Event) : Bool :=
  match e with
  | .run .fg _ => !(s.bh.infl != .idle && runsBhalf s)
  | _ => true

/-- `TxReadyAtBH`, for an event of one unit: `TXRDY = 1` whenever unit u7 of `SC.BHALF` runs. -/
def txReadyAtBh (s : State) (e : Event) : Bool :=
  match e with
  | .run .bh _ => !(runsBhalf s && nextLabel s .bh == .u7) || s.txReady
  | _ => true

/-- `SPSC`: the command respects the port table of `60_exceptions.md` R152. -/
def spsc (s : State) (e : Event) : Bool :=
  match e with
  | .run p _ =>
    match nextCommand s p with
    | some i => portAllows p i
    | none => true
  | _ => true

/-- `ResizeExclusive`, for an event of one unit: it operates on no buffer that the other port is resizing. -/
def resizeExclusive (s : State) (e : Event) : Bool :=
  match e with
  | .run p _ =>
    match nextCommand s p with
    | some i =>
      match unitBuffer i (nextLabel s p) with
      | some b => !(s.port (otherPort p)).resizes b
      | none => true
    | none => true
  | _ => true

/-- The transport is ready for the transfer a unit makes, if it makes one: data for a read, `TXRDY = 1` for a write
(`42_bottom_half_and_agents.md` R128, R129). -/
def transferReady (s : State) (e : Event) : Bool :=
  match e with
  | .run p _ =>
    match nextCommand s p, nextLabel s p with
    | some .scBrdb, .u2 => dataAvailable s
    | some .scBhalf, .u2 => dataAvailable s
    | some (.scBwrb _), .u2 => s.txReady
    | some (.scBwrite _ _ _), .u3 => s.txReady
    | some .scBhalf, .u7 => s.txReady
    | some .scBhalf, .u7b => s.txReady
    | _, _ => true
  | _ => true

/-- A command that reads the transport itself and waits for it (`41_serial_channel.md` R100). -/
def blockingRead : Instr → Bool
  | .scBrdb => true
  | _ => false

/-- A command that writes the transport itself and waits for it (R101, R102). -/
def blockingWrite : Instr → Bool
  | .scBwrb _ => true
  | .scBwrite _ _ _ => true
  | _ => false

/-- The command that port `p` has in flight, or accepts in this event. -/
def liveCommand (s : State) (e : Event) (p : Port) : Option Instr :=
  match (s.port p).infl, e with
  | .busy c, _ => some c.cmd
  | .idle, .run q _ => if q = p then nextCommand s p else none
  | .idle, _ => none

/-- A run is transport-safe "when no blocking read overlaps `RXARM = 1` and no blocking write overlaps `TXARM = 1`"
(`70_reset_and_hazards.md` R175), at one instant: no such command is in flight or starts then. -/
def transportSafe (s : State) (e : Event) : Bool :=
  [Port.fg, Port.bh].all fun p =>
    match liveCommand s e p with
    | none => true
    | some i => !(blockingRead i && s.rxArm) && !(blockingWrite i && s.txArm)

/-- No command but `SC.BHALF` writes the transport while an `SC.BHALF` stands between u7a and u7b. A transport-safe run
can break it: `TXARM` may be cleared after u5 (log 25). -/
def handlerWriteApart (s : State) (e : Event) : Bool :=
  match s.bh.infl, e with
  | .busy ⟨.scBhalf, .u7b, _⟩, .run .fg _ =>
    match nextCommand s .fg with
    | some i => !blockingWrite i
    | none => true
  | _, _ => true

/-- The transport is as an `SC.BHALF` past its query left it: data at the read u2, a ready transmitter at u7b; and the
receive gate it passed is still open. -/
def handlerReady (s : State) : Bool :=
  match s.bh.infl with
  | .busy ⟨.scBhalf, .u2, _⟩ => s.rxArm && dataAvailable s
  | .busy ⟨.scBhalf, .u3, _⟩ => s.rxArm
  | .busy ⟨.scBhalf, .u4, _⟩ => s.rxArm
  | .busy ⟨.scBhalf, .u7b, _⟩ => s.txReady
  | _ => true

/-! ### Transmission stays armed under `Preempt` (`70_reset_and_hazards.md` R174) -/

/-- A command that writes `OUT`, `TXARM` or `EVTX`. -/
def touchesTransmit : Instr → Bool
  | .cbWrite b _ => b == .outbound
  | .cbRead b => b == .outbound
  | .cbResize b _ => b == .outbound
  | .scEnq _ => true
  | .scResize _ => true
  | .scArmtx => true
  | .scDistx => true
  | .scBhalf => true
  | .cbIsEmpty _ => false
  | .cbIsFull _ => false
  | .cbCount _ => false
  | .scBrdb => false
  | .scBwrb _ => false
  | .scBwrite _ _ _ => false
  | .scDeq => false
  | .scArmrx => false
  | .scStat => false

/-- Of the commands that write `OUT`, `TXARM` or `EVTX`, the foreground issues only `SC.ENQ` and the bottom-half only
`SC.BHALF`. -/
def enqOnly (s : State) (e : Event) : Bool :=
  match e with
  | .run p _ =>
    match nextCommand s p with
    | none => true
    | some i =>
      match p, i with
      | .fg, .scEnq _ => true
      | .bh, .scBhalf => true
      | _, _ => !touchesTransmit i
  | _ => true

/-- What holds of transmission at every instant of such a run: if `OUT` holds a byte, `TXARM` and `EVTX` are 1 whenever
the foreground is not inside an `SC.ENQ` past its first unit (at its unit u3, `TXARM` is 1 already); and `OUT` is empty
while an `SC.BHALF` is disarming. -/
def transmitArmed (s : State) : Bool :=
  let queued := decide (0 < s.outb.count)
  let foreground :=
    match s.fg.infl with
    | .busy ⟨.scEnq _, .u2, _⟩ => true
    | .busy ⟨.scEnq _, .u3, _⟩ => !queued || s.txArm
    | _ => !queued || (s.txArm && s.evTx)
  let bottomHalf :=
    match s.bh.infl with
    | .busy ⟨.scBhalf, .u8, _⟩ => !queued
    | .busy ⟨.scBhalf, .u9, _⟩ => !queued
    | _ => true
  foreground && bottomHalf

/-! ### Every enqueued byte is sent (R174, the row of R178) -/

/-- Port `BH` runs nothing but `SC.BHALF` (log 31). -/
def handlerOnly (s : State) (e : Event) : Bool :=
  match e with
  | .run .bh _ =>
    match nextCommand s .bh with
    | none => true
    | some i => i == .scBhalf
  | _ => true

/-- The byte that this event accepts into `OUT`: the `v` of an `SC.ENQ v` whose unit u1 wrote it
(`41_serial_channel.md` R103). -/
def enqueuedByte (s : State) (e : Event) (t : State) : List Byte :=
  match e with
  | .run .fg _ =>
    match nextCommand s .fg, nextLabel s .fg, t.fg.infl with
    | some (.scEnq v), .u1, .busy c => if c.locals.r = .ok then [v] else []
    | _, _, _ => []
  | _ => []

/-- The byte that this event, a unit of `SC.BHALF`, adds to `TXLOG`. -/
def sentByte (s : State) (e : Event) (t : State) : List Byte :=
  match e with
  | .run .bh _ => if runsBhalf s then t.txLog.drop s.txLog.length else []
  | _ => []

/-- The byte an `SC.BHALF` has taken from `OUT` and not yet written (R120, from u6 to its write). -/
def inHand (s : State) : List Byte :=
  match s.bh.infl with
  | .busy ⟨.scBhalf, .u7, x⟩ => [x.v]
  | .busy ⟨.scBhalf, .u7a, x⟩ => [x.v]
  | .busy ⟨.scBhalf, .u7b, x⟩ => [x.v]
  | _ => []

/-! ### Which premise each property needs (`70_reset_and_hazards.md` R178) -/

/-- The nine properties of R178's table. Each constructor names the statement of the property. -/
inductive RunProperty where
  /-- "range and ring-order invariants": `Obligations.StepKeepsTheInvariant`. -/
  | rangeAndRingOrder
  /-- "FIFO law per buffer": `Obligations.FifoLaw`, `Obligations.EveryUnitIsAFifoAction`. -/
  | fifoLaw
  /-- "`BufferFull` iff truly full, `BufferEmpty` iff truly empty": `Obligations.StatusIsConservative`. -/
  | exactStatus
  /-- "`c - 1` writes succeed from empty, the next fails", of buffer `b`: `Obligations.UsableCapacityIsOneLess`. -/
  | usableCapacity (b : BufSel)
  /-- "3 bytes, 4 invocations, disarm in the 4th": `Obligations.QueueIsSentInOrderThenDisarmed`. -/
  | queueThenDisarm
  /-- "`blockingWrite` makes exactly `len` transport writes": `Obligations.ScBwriteSendsItsPayload`. -/
  | blockingWriteCount
  /-- "every enqueued byte is sent": `Obligations.EveryEnqueuedByteIsSent`. -/
  | everyByteSent
  /-- "resize keeps the newest `min(N, newCapacity - 1)`": `Obligations.CbResizeRepacksTheNewest`. -/
  | resizeKeepsNewest
  /-- "`SC.BHALF` never faults `TransportNotReady`": `Obligations.HandlerTransfersAreReady`. -/
  | handlerNeverUnready
  deriving DecidableEq, Repr

/-- The buffer a unit takes an element from, if it reads one (`20_memory.md` R41). -/
def unitTakesFrom (i : Instr) (l : Label) : Option BufSel :=
  match i, l with
  | .cbRead b, .u1 => some b
  | .scDeq, .u1 => some .inbound
  | .scBhalf, .u6 => some .outbound
  | _, _ => none

/-- Whether a unit writes the transport (`42_bottom_half_and_agents.md` R129). -/
def unitWritesTransport (i : Instr) (l : Label) : Bool :=
  match i, l with
  | .scBwrb _, .u2 => true
  | .scBwrite _ _ _, .u3 => true
  | .scBhalf, .u7 => true
  | .scBhalf, .u7b => true
  | _, _ => false

/-- "no read in between": the event reads nothing from buffer `b`. -/
def noReadOf (b : BufSel) (s : State) (e : Event) : Bool :=
  match e with
  | .run p _ =>
    match nextCommand s p with
    | some i => unitTakesFrom i (nextLabel s p) != some b
    | none => true
  | _ => true

/-- "no `FG` command". -/
def noForeground (_ : State) (e : Event) : Bool :=
  match e with
  | .run .fg _ => false
  | _ => true

/-- "`TXRDY = 1` at each u7", also where u7 is u7a and u7b (log 16). -/
def txReadyAtU7 (s : State) (e : Event) : Bool :=
  match e with
  | .run .bh _ => !(runsBhalf s && [Label.u7, .u7a, .u7b].contains (nextLabel s .bh)) || s.txReady
  | _ => true

/-- "no other writer of the transport during the command", the command an `SC.BWRITE` in flight. -/
def soleWriter (s : State) (e : Event) : Bool :=
  match e with
  | .run p _ =>
    match (s.port (otherPort p)).infl, nextCommand s p with
    | .busy ⟨.scBwrite _ _ _, _, _⟩, some i => !unitWritesTransport i (nextLabel s p)
    | _, _ => true
  | _ => true

/-- The premises of a property that speak of each instant of a run (R178). -/
def premiseAt (q : RunProperty) (s : State) (e : Event) : Bool :=
  match q with
  | .rangeAndRingOrder => true
  | .fifoLaw => true
  | .exactStatus => decide (ViewsCurrent s)
  | .usableCapacity b => noReadOf b s e
  | .queueThenDisarm => decide (ViewsCurrent s) && noForeground s e && txReadyAtU7 s e
  | .blockingWriteCount => soleWriter s e
  | .everyByteSent =>
    preempts s e && decide (ViewsCurrent s) && enqOnly s e &&
      (s.par.backend == .host || (irqGated s e && txReadyAtBh s e))
  | .resizeKeepsNewest => resizeExclusive s e
  | .handlerNeverUnready => (txReadyAtBh s e || s.par.backend == .host) && transportSafe s e

/-- The premises of a property that speak of the run as a whole (R178): "`ENV` lifts each hold", and "fairness" with the
two conditions of R174 on `ENV`. -/
def fairnessOf (q : RunProperty) (sched : Nat → Event) (run : Nat → State) : Prop :=
  match q with
  | .rangeAndRingOrder => True
  | .fifoLaw => True
  | .exactStatus => True
  | .usableCapacity _ => True
  | .queueThenDisarm => True
  | .blockingWriteCount => ¬ StuckRun run
  | .everyByteSent => InvocationFair sched run ∧ EnvMakesReady run ∧ EnvEndsDrain sched run
  | .resizeKeepsNewest => True
  | .handlerNeverUnready => True

/-- An unfaulted run that meets the premises R178 gives a property. What a statement takes beyond the table is in logs 23,
25 and 31. -/
def Premises (q : RunProperty) (sched : Nat → Event) (run : Nat → State) : Prop :=
  IsRun sched run ∧ Along (premiseAt q) sched run ∧ fairnessOf q sched run

/-- Consecutive invocations of the bottom-half by an idle port `BH`, each run whole (`SC.DRAIN n`, `30_encoding.md`
R70). -/
def invokeBhalf : Nat → State → Host.Outcome State Fault Refusal
  | 0, s => .next s
  | n + 1, s =>
    match exec .scBhalf { s with turn := ⟨.bh, unitBound s⟩ } with
    | .next t => invokeBhalf n t
    | .fault f => .fault f
    | .refused r => .refused r

end Sys2Proof.Machine
end

