-- ==== Sys2Proof/Certificates/Slice0/Obligations.lean ====
section
/-! DEFINITION. The statements for the provers. -/

open Sys2Proof Sys2Proof.Machine

/-! ### Encoding (`30_encoding.md`) -/

/-- Decode and encode agree on every well-formed command, whatever follows it in the stream (R60 to R64). -/
def Obligations.WellFormedCommandDecodesBack : Prop :=
  ∀ (i : Instr) (rest : List Word), i.Wf → decode (encode i ++ rest) = .legal i (wordCount i)

/-- Each legal command has one spelling: what decodes to a command is the command's own words, and the command is
well-formed (R61, R63, R67). -/
def Obligations.LegalWordsAreTheEncoding : Prop :=
  ∀ (ws : List Word) (i : Instr) (n : Nat), decode ws = .legal i n →
    i.Wf ∧ n = wordCount i ∧ encode i = ws.take n

/-- A word is the command whose row of the opcode map covers it, and at most one row covers a word (R64). -/
def Obligations.OpcodeMapDecidesTheCommand : Prop :=
  ∀ (w : Word) (rest : List Word),
    (∀ i n, decode (w :: rest) = .legal i n →
      ∃ r ∈ opcodeTable, r.covers w = true ∧ r.mnemonic = i.mnemonic ∧
        ∀ r' ∈ opcodeTable, r'.covers w = true → r' = r) ∧
    (∀ r ∈ opcodeTable, r.covers w = true →
      decode (w :: rest) = .starved ∨ (∃ i n, decode (w :: rest) = .legal i n ∧ i.mnemonic = r.mnemonic) ∨
        ∃ n, decode (w :: rest) = .illegal .paddingNotZero n)

/-- Once its words have arrived, a command is illegal exactly when no row of the opcode map covers its header or a padding
lane of its last payload word is not 0, and it takes the words its header announces (R63, R67). -/
def Obligations.IllegalExactlyWhenNoRowOrPadding : Prop :=
  ∀ (w : Word) (rest : List Word), announcedWords w ≤ rest.length →
    ((∃ e n, decode (w :: rest) = .illegal e n) ↔
      ((∀ r ∈ opcodeTable, r.covers w = false) ∨
        (wordOpc w = 0x12 ∧
          ∃ v ∈ (payloadLanes (rest.take (announcedWords w))).drop (wordImm w).toNat, v ≠ 0))) ∧
    ∀ e n, decode (w :: rest) = .illegal e n → n = 1 + announcedWords w

/-- Words written out from the field layout of R60 to R64 decode to the commands they stand for. -/
def Obligations.SampleWordsDecode : Prop :=
  decode [0x018000FF] = .legal (.cbWrite .outbound 0xFF) 1 ∧ decode [0x02000000] = .legal (.cbRead .inbound) 1 ∧
  decode [0x0380FFFF] = .legal (.cbResize .outbound 0xFFFF) 1 ∧ decode [0x05800000] = .legal (.cbIsFull .outbound) 1 ∧
  decode [0x11000055] = .legal (.scBwrb 0x55) 1 ∧
  decode [0x12000005, 0x6C6C6548, 0x0000006F] =
    .legal (.scBwrite false 5 [0x48, 0x65, 0x6C, 0x6C, 0x6F]) 3 ∧
  decode [0x12400007] = .legal (.scBwrite true 7 []) 1 ∧ decode [0x13000041] = .legal (.scEnq 0x41) 1 ∧
  decode [0x15000100] = .legal (.scResize 256) 1 ∧ decode [0x16000000] = .legal .scBhalf 1 ∧
  decode [0x1A000000] = .legal .scStat 1

/-- For every element width of a stand-alone buffer, a `CB.WRITE` word carries its element, and the words of that command
are those the width's mask names (`30_encoding.md` R61, R64; `40_circular_buffer.md` R88). -/
def Obligations.ElementWordsOfEveryWidth : Prop :=
  ∀ w : ElementWidth,
    (∀ (b : BufSel) (v : BitVec w.bits), decodeElement w (encodeElement w b v) = .ok (b, v)) ∧
    ∀ x : Word, (∃ r, decodeElement w x = .ok r) ↔ x &&& cbWriteMask w = 0x01000000

/-- The response word (R62) and its status codes (R65): the status in bits 31 to 28, zero in bits 27 to 16, the value in
bits 15 to 0, and the code of each status. -/
def Obligations.ResponseWordCarriesStatusAndValue : Prop :=
  ∀ (st : Status) (value : Half),
    (rspWord st value).extractLsb' 16 12 = 0 ∧ (rspWord st value).extractLsb' 0 16 = value ∧
    (rspWord st value).extractLsb' 28 4 =
      match st with
      | .ok => 0
      | .bufferFull => 1
      | .bufferEmpty => 2
      | .invalidCapacity => 3
      | .dataError => 4
      | .truncated => 5
      | .illegalCommand => 15

/-! ### Steps and turns (`20_memory.md` R47, `70_reset_and_hazards.md` R177) -/

/-- When the schedule names port `p`, the step is `exec` of the command in flight, or of the command the words at the
feeder's position decode to, with the event taken from the schedule and the turn granted (the turn is the model's own
field, log 2). A port whose next command has not arrived whole has no step (`30_encoding.md` R63); that the event passes
and changes nothing but the schedule and the turn is the model's choice (log 20). -/
def Obligations.StepRunsTheDecodedCommand : Prop :=
  ∀ (s : State) (p : Port) (more : Nat) (rest : List Event), s.script = .run p more :: rest →
    let t : State := { s with script := rest, turn := ⟨p, more⟩ }
    (∀ i n, (s.port p).infl = .idle → decode (s.pending p) = .legal i n → step s = exec i t) ∧
    (∀ c, (s.port p).infl = .busy c → step s = exec c.cmd t) ∧
    ((s.port p).infl = .idle → decode (s.pending p) = .starved → step s = .next t)

/-- An illegal command changes nothing but its port's position and its answer `IllegalCommand`, value 0
(`30_encoding.md` R67). The words passed are the model's reading of R11 (log 11). -/
def Obligations.IllegalCommandOnlyAnswers : Prop :=
  ∀ (s : State) (p : Port) (more : Nat) (rest : List Event) (e : DecodeError) (n : Nat),
    s.script = .run p more :: rest → (s.port p).infl = .idle → decode (s.pending p) = .illegal e n →
      step s = .next (({ s with script := rest, turn := ⟨p, more⟩ } : State).setPort p
        { s.port p with pos := (s.port p).pos + n, rsps := (s.port p).rsps ++ [0xF0000000] })

/-- A turn of several units is the sequence of its units: what a command does in `n + 2` units is what it does in one, and
then, if it is still in flight, in `n + 1` more. Turns of several units are the model's (log 2). -/
def Obligations.TurnIsTheSequenceOfItsUnits : Prop :=
  ∀ (i : Instr) (s : State) (p : Port) (n : Nat),
    sansTurn (exec i { s with turn := ⟨p, n + 1⟩ }) =
      match exec i { s with turn := ⟨p, 0⟩ } with
      | .next t =>
        if (t.port p).infl = .idle then sansTurn (.next t) else sansTurn (exec i { t with turn := ⟨p, n⟩ })
      | .fault f => .fault f
      | .refused r => .refused r

/-- A port's turn leaves the other port as it is: its command in flight resumes where it was
(`60_exceptions.md` R150, R151). -/
def Obligations.TurnLeavesTheOtherPort : Prop :=
  ∀ (s t : State) (p : Port) (more : Nat), nextEvent s = .run p more → step s = .next t →
    t.port (otherPort p) = s.port (otherPort p)

/-- The words of the command in flight stand at the feeder's position, at every instant: every step keeps it. -/
def Obligations.StepKeepsTheCommandInTheStream : Prop :=
  ∀ s t : State, flightIsStream s .fg = true → flightIsStream s .bh = true → step s = .next t →
    flightIsStream t .fg = true ∧ flightIsStream t .bh = true

/-! ### CircularBuffer commands (`40_circular_buffer.md`) -/

/-- `CB.WRITE` (R80), its one unit: the window check, the role check, the full test through the view, the store. -/
def Obligations.CbWriteAppendsOrReportsFull : Prop :=
  ∀ (b : BufSel) (v : Byte) (s : State) (p : Port), Fresh s p 0 →
    let c := s.buf b
    (c.rsz = true → exec (.cbWrite b v) s = .fault .resizeRace) ∧
    (c.rsz = false → roleOf p b = .consumer → exec (.cbWrite b v) s = .fault .portDiscipline) ∧
    (c.rsz = false → roleOf p b = .producer → c.wr.toNat < c.cap.toNat →
      exec (.cbWrite b v) s = .next (
        if inc c.wr c.cap = c.rdv then s.retire p 1 .bufferFull 0
        else (s.setBuf b { c with mem := memSet c.mem c.wr.toNat v, wr := inc c.wr c.cap,
                                  wrv := if s.par.sync = .direct then inc c.wr c.cap else c.wrv }).retire p 1 .ok 0))

/-- `CB.READ` (R81), its one unit: the slot read keeps its content. -/
def Obligations.CbReadTakesTheOldestOrReportsEmpty : Prop :=
  ∀ (b : BufSel) (s : State) (p : Port), Fresh s p 0 →
    let c := s.buf b
    (c.rsz = true → exec (.cbRead b) s = .fault .resizeRace) ∧
    (c.rsz = false → roleOf p b = .producer → exec (.cbRead b) s = .fault .portDiscipline) ∧
    (c.rsz = false → roleOf p b = .consumer → c.wrv = c.rd →
      exec (.cbRead b) s = .next (s.retire p 1 .bufferEmpty 0)) ∧
    ∀ v, c.rsz = false → roleOf p b = .consumer → c.wrv ≠ c.rd → c.rd.toNat < c.cap.toNat →
      memGet c.mem c.rd.toNat = some v →
        exec (.cbRead b) s = .next (
          (s.setBuf b { c with rd := inc c.rd c.cap,
                               rdv := if s.par.sync = .direct then inc c.rd c.cap else c.rdv }).retire p 1 .ok
            (v.setWidth 16))

/-- `CB.RESIZE` (R82): `InvalidCapacity` changes nothing. Else the first unit only opens the window (`10_state.md` R34),
and the command run whole leaves the newest `min(N, newCapacity - 1)` elements from slot 0 on, no value in any other
slot, both views reloaded. -/
def Obligations.CbResizeRepacksTheNewest : Prop :=
  ∀ (b : BufSel) (n : Half) (s : State) (p : Port), Fresh s p 0 → (s.buf b).rsz = false →
      let c := s.buf b
      let keep := min c.count (n.toNat - 1)
      let drop := c.count - keep
      (n = 0 → exec (.cbResize b n) s = .next (s.retire p 1 .invalidCapacity 0)) ∧
      (n ≠ 0 → s.turn.more = 0 →
        exec (.cbResize b n) s =
          .next ((s.setBuf b { c with rsz := true }).suspend p (.cbResize b n) .u2 Locals.init)) ∧
      (n ≠ 0 → 1 ≤ s.turn.more → BufInv s.par.sync c → ∃ stored : List (Nat × Byte),
        exec (.cbResize b n) s = .next (
          (s.setBuf b ⟨n, BitVec.ofNat 16 keep, 0, BitVec.ofNat 16 keep, 0, stored, false⟩).retire p 1
            (if drop = 0 then .ok else .truncated) (BitVec.ofNat 16 drop)) ∧
        memWf stored = true ∧
        ∀ i, memGet stored i = if i < keep then memGet c.mem ((c.rd.toNat + drop + i) % c.cap.toNat) else none)

/-- `CB.ISEMPTY`, `CB.ISFULL`, `CB.COUNT` (R83 to R85): each answers what its own side sees and writes no state. -/
def Obligations.QueriesAnswerWhatTheirSideSees : Prop :=
  ∀ (b : BufSel) (s : State) (p : Port) (r w : Half), Fresh s p 0 → (s.buf b).rsz = false →
    (roleOf p b = .producer → r = (s.buf b).rdv ∧ w = (s.buf b).wr) →
    (roleOf p b = .consumer → r = (s.buf b).rd ∧ w = (s.buf b).wrv) →
      exec (.cbIsEmpty b) s = .next (s.retire p 1 .ok (if w = r then 1 else 0)) ∧
      exec (.cbIsFull b) s = .next (s.retire p 1 .ok (if inc w (s.buf b).cap = r then 1 else 0)) ∧
      exec (.cbCount b) s = .next (s.retire p 1 .ok (BitVec.ofNat 16 (occ r w (s.buf b).cap)))

/-- Every CircularBuffer primitive on a buffer inside a resize window faults `ResizeRace` (R79; `60_exceptions.md`
R155). -/
def Obligations.PrimitiveInAResizeWindowFaults : Prop :=
  ∀ (b : BufSel) (s : State), (s.buf b).rsz = true →
    ((s.port s.turn.port).infl = .idle →
      (∀ v, exec (.cbWrite b v) s = .fault .resizeRace) ∧ exec (.cbRead b) s = .fault .resizeRace ∧
      (∀ n, exec (.cbResize b n) s = .fault .resizeRace) ∧ exec (.cbIsEmpty b) s = .fault .resizeRace ∧
      exec (.cbIsFull b) s = .fault .resizeRace ∧ exec (.cbCount b) s = .fault .resizeRace ∧
      (s.turn.port = .fg → b = .outbound → ∀ v, exec (.scEnq v) s = .fault .resizeRace) ∧
      (s.turn.port = .fg → b = .inbound → exec .scDeq s = .fault .resizeRace)) ∧
    (∀ x, b = .inbound → (s.port s.turn.port).infl = .busy ⟨.scBhalf, .u3, x⟩ → exec .scBhalf s = .fault .resizeRace) ∧
    (∀ x, b = .outbound → (s.port s.turn.port).infl = .busy ⟨.scBhalf, .u6, x⟩ →
      exec .scBhalf s = .fault .resizeRace) ∧
    (∀ n x, b = .inbound → (s.port s.turn.port).infl = .busy ⟨.scResize n, .u2, x⟩ →
      exec (.scResize n) s = .fault .resizeRace) ∧
    (∀ n x, b = .outbound → (s.port s.turn.port).infl = .busy ⟨.scResize n, .u4, x⟩ →
      exec (.scResize n) s = .fault .resizeRace)

/-- The port table (`60_exceptions.md` R152): outside resize windows an accepted command faults `PortDiscipline` in
exactly the cells marked so, however many units it runs; and `SC.ENQ`, `SC.DEQ` and `SC.BHALF` do so on the forbidden
port whatever windows are open, before any primitive is called (R149). -/
def Obligations.PortTableDecidesPortDiscipline : Prop :=
  ∀ (i : Instr) (s : State), (s.port s.turn.port).infl = .idle →
    (s.inb.rsz = false → s.outb.rsz = false →
      (exec i s = .fault .portDiscipline ↔
        match i with
        | .cbWrite .inbound _ => s.turn.port = .fg
        | .cbWrite .outbound _ => s.turn.port = .bh
        | .cbRead .inbound => s.turn.port = .bh
        | .cbRead .outbound => s.turn.port = .fg
        | .scEnq _ => s.turn.port = .bh
        | .scDeq => s.turn.port = .bh
        | .scBhalf => s.turn.port = .fg
        | _ => False)) ∧
    (s.turn.port = .bh → ∀ v, i = .scEnq v ∨ i = .scDeq → exec i s = .fault .portDiscipline) ∧
    (s.turn.port = .fg → i = .scBhalf → exec i s = .fault .portDiscipline)

/-! ### What the buffers guarantee (`20_memory.md` R51, R52; `40_circular_buffer.md` R86, R87) -/

/-- Conservative status (R52): a refused write or read changes nothing; a truly full buffer always refuses a write and a
truly empty one always refuses a read; a refusal is exactly what the refusing side sees; and under current views it is
exact. -/
def Obligations.StatusIsConservative : Prop :=
  ∀ (sync : Sync) (c : CBuf Byte) (v : Byte), BufInv sync c → c.rsz = false →
    (∀ d, c.write sync .producer v = .ok (.bufferFull, d) → d = c) ∧
    (∀ d, c.read sync .consumer = .ok (none, d) → d = c) ∧
    (c.write sync .producer v = .ok (.bufferFull, c) ↔ occ c.rdv c.wr c.cap = c.cap.toNat - 1) ∧
    (c.read sync .consumer = .ok (none, c) ↔ c.wrv = c.rd) ∧
    (c.count = c.cap.toNat - 1 → c.write sync .producer v = .ok (.bufferFull, c)) ∧
    (c.count = 0 → c.read sync .consumer = .ok (none, c)) ∧
    (c.ViewsCurrent →
      (c.write sync .producer v = .ok (.bufferFull, c) ↔ c.count = c.cap.toNat - 1) ∧
      (c.read sync .consumer = .ok (none, c) ↔ c.count = 0))

/-- The ring-order invariant's consequences (`10_state.md` R17): the producer never counts too few, the consumer never too
many, and neither more than the usable capacity. -/
def Obligations.ProducerCountsHighConsumerLow : Prop :=
  ∀ c : CBuf Byte, InRange c → RingOrder c →
    c.countFor .consumer ≤ c.count ∧ c.count ≤ c.countFor .producer ∧ c.countFor .producer ≤ c.cap.toNat - 1

/-- From empty with current views, exactly `CAP - 1` consecutive writes succeed and the next raises `BufferFull`; a read
of an empty buffer raises `BufferEmpty` and changes nothing; no buffer ever holds more (R86). -/
def Obligations.UsableCapacityIsOneLess : Prop :=
  ∀ (w : ElementWidth) (sync : Sync) (c : LoneBuffer w), LoneInv sync c →
    c.buf.queued.length ≤ c.buf.cap.toNat - 1 ∧
    (c.buf.rsz = false → c.buf.ViewsCurrent → c.buf.count = 0 →
      bufferStep sync c (.read .consumer) = .ok (some (.bufferEmpty, 0), c) ∧
      ∀ (vs : List (BitVec w.bits)) (v : BitVec w.bits), vs.length = c.buf.cap.toNat - 1 →
        ∃ r, runBuffer sync (vs.map (.write .producer)) c = .ok r ∧ r.accepted = vs ∧ r.last.buf.queued = vs ∧
          bufferStep sync r.last (.write .producer v) = .ok (some (.bufferFull, 0), r.last))

/-- The FIFO law (R51) of one buffer, for every schedule of its two sides and of the synchronizer, every `SYNC` and every
lag: what reads returned and what is still queued is what was queued and what writes accepted, in the same order; a
resize removes the oldest, down to the new usable capacity; and every unit leaves the buffer in order, so that both hold
from any point of a run on. -/
def Obligations.FifoLaw : Prop :=
  ∀ (w : ElementWidth) (sync : Sync) (c : LoneBuffer w), LoneInv sync c →
    (∀ (us : List (BufferUnit w)) (r : BufferRun w), (∀ u ∈ us, u.isResize = false) → runBuffer sync us c = .ok r →
      r.returned ++ r.last.buf.queued = c.buf.queued ++ r.accepted) ∧
    (∀ (role : Role) (n : Half) (a : BufferAnswer) (d : LoneBuffer w), c.resizing = some (role, n) →
      bufferStep sync c (.resizeCopy role) = .ok (a, d) →
        d.buf.queued = c.buf.queued.drop (c.buf.count - min c.buf.count (n.toNat - 1))) ∧
    (∀ (u : BufferUnit w) (a : BufferAnswer) (d : LoneBuffer w), bufferStep sync c u = .ok (a, d) → LoneInv sync d)

/-- A resize, by either side, to at least `N + 1` slots keeps the queue (R87): `N` is unchanged, and the next `N` reads
return the values they would have returned without it. -/
def Obligations.GrowingResizeKeepsTheQueue : Prop :=
  ∀ (w : ElementWidth) (sync : Sync) (c : LoneBuffer w) (role : Role) (m : Half), LoneInv sync c → c.buf.rsz = false →
    m ≠ 0 → c.buf.count ≤ m.toNat - 1 →
      ∃ d, runBuffer sync [.resizeOpen role m, .resizeCopy role] c = .ok ⟨[], [], d⟩ ∧
        d.buf.cap = m ∧ d.buf.count = c.buf.count ∧ d.buf.queued = c.buf.queued ∧
        ∃ r r', runBuffer sync (List.replicate c.buf.count (.read .consumer)) d = .ok r ∧
          runBuffer sync (List.replicate c.buf.count (.read .consumer))
            { c with buf := { c.buf with wrv := c.buf.wr, rdv := c.buf.rd } } = .ok r' ∧
          r.returned = r'.returned ∧ r.returned = c.buf.queued

/-- Every atomic unit of the machine is a FIFO action on each buffer: it leaves the queue, or the producer's port appends
one element, or the consumer's port takes the oldest, or a resize of that buffer drops the oldest down to the new usable
capacity (`10_state.md` R18, `20_memory.md` R51). -/
def Obligations.EveryUnitIsAFifoAction : Prop :=
  ∀ (s t : State) (b : BufSel), Inv s → oneUnit (nextEvent s) = true → step s = .next t →
    let q := (s.buf b).queued
    let q' := (t.buf b).queued
    q' = q ∨
    (∃ p v, nextEvent s = .run p 0 ∧ roleOf p b = .producer ∧ q' = q ++ [v]) ∨
    (∃ p v, nextEvent s = .run p 0 ∧ roleOf p b = .consumer ∧ q = v :: q') ∨
    (∃ p, nextEvent s = .run p 0 ∧ (s.port p).resizes b = true ∧
      q' = q.drop (q.length - min q.length ((t.buf b).cap.toNat - 1)))

/-- The single-writer table (`10_state.md` R18): a turn that does not resize leaves a buffer's read index to its consumer,
its write index and slots to its producer, its capacity and window to resizes, and, under `LAGGED`, both views to
`SYNC`. -/
def Obligations.SingleWriterTable : Prop :=
  ∀ (s t : State) (p : Port) (more : Nat) (b : BufSel), Inv s → nextEvent s = .run p more → step s = .next t →
    (∀ i, nextCommand s p = some i → isResize i = false) →
      (roleOf p b = .producer → (t.buf b).rd = (s.buf b).rd) ∧
      (roleOf p b = .consumer → (t.buf b).wr = (s.buf b).wr ∧ (t.buf b).mem = (s.buf b).mem) ∧
      (t.buf b).cap = (s.buf b).cap ∧ (t.buf b).rsz = (s.buf b).rsz ∧
      (s.par.sync = .lagged → (t.buf b).wrv = (s.buf b).wrv ∧ (t.buf b).rdv = (s.buf b).rdv)

/-! ### Frames -/

/-- `CB.WRITE` and `SC.ENQ` store to the slot of the write index only, and only the offered element; the other buffer and
everything that is neither the buffer, the arm flag and event of `SC.ENQ`, `TRACE` nor the port is unchanged. -/
def Obligations.StoringCommandsTouchOneSlot : Prop :=
  ∀ (i : Instr) (b : BufSel) (v : Byte) (s t : State), i = .cbWrite b v ∨ (i = .scEnq v ∧ b = .outbound) →
    (s.port s.turn.port).infl = .idle → exec i s = .next t →
      (∀ a, a ≠ (s.buf b).wr.toNat → memGet (t.buf b).mem a = memGet (s.buf b).mem a) ∧
      (memGet (t.buf b).mem (s.buf b).wr.toNat = some v ∨ t.buf b = s.buf b) ∧
      (∀ b', b' ≠ b → t.buf b' = s.buf b') ∧ t.fault = s.fault ∧ t.rxArm = s.rxArm ∧ t.evRx = s.evRx ∧
      t.rxq = s.rxq ∧ t.txReady = s.txReady ∧ t.txLog = s.txLog ∧ t.par = s.par ∧
      (i = .cbWrite b v → t.txArm = s.txArm ∧ t.evTx = s.evTx ∧ t.trace = s.trace)

/-- Commands that store nothing leave every slot of both buffers as it was, and all but a read leave both buffers as they
were (`20_memory.md` R41). -/
def Obligations.OtherCommandsStoreNothing : Prop :=
  ∀ (i : Instr) (s t : State), exec i s = .next t →
    (match i with
      | .cbRead _ => True
      | .scDeq => True
      | .cbIsEmpty _ => True
      | .cbIsFull _ => True
      | .cbCount _ => True
      | .scBrdb => True
      | .scBwrb _ => True
      | .scBwrite _ _ _ => True
      | .scArmrx => True
      | .scArmtx => True
      | .scDistx => True
      | .scStat => True
      | _ => False) →
      (∀ b a, memGet (t.buf b).mem a = memGet (s.buf b).mem a) ∧
      ((∀ b, i ≠ .cbRead b) → i ≠ .scDeq → t.inb = s.inb ∧ t.outb = s.outb) ∧
      (∀ b, i = .cbRead b ∨ (i = .scDeq ∧ b = .inbound) → ∀ b', b' ≠ b → t.buf b' = s.buf b')

/-! ### SerialChannel commands (`41_serial_channel.md`) -/

/-- `SC.BRDB` (R100): the oldest byte of the transport is the answer; with none there it holds at u1. That the event of a
held port passes, with the command accepted and standing at u1, is the model's choice (log 20). -/
def Obligations.ScBrdbReadsTheTransport : Prop :=
  ∀ (s : State) (p : Port), Fresh s p 1 →
    (∀ v rest, s.rxq = v :: rest →
      exec .scBrdb s =
        .next (({ s with rxq := rest, trace := s.trace ++ [.trd p v] } : State).retire p 1 .ok (v.setWidth 16))) ∧
    (s.rxq = [] → exec .scBrdb s = .next (s.suspend p .scBrdb .u1 Locals.init))

/-- `SC.BWRB` (R101): the byte goes to the transport, readiness is drawn again (`takeDraw`, log 4), `FAULT` keeps its
value; with `TXRDY = 0` it holds at u1. That the event of a held port passes, with the command accepted and standing at
u1, is the model's choice (log 20). -/
def Obligations.ScBwrbWritesTheTransport : Prop :=
  ∀ (v : Byte) (s : State) (p : Port), Fresh s p 1 →
    (s.txReady = true →
      exec (.scBwrb v) s =
        .next (({ (takeDraw s).2 with
          txReady := (takeDraw s).1, txLog := s.txLog ++ [v], trace := s.trace ++ [.twr p v] } : State).retire p 1 .ok 0)) ∧
    (s.txReady = false → exec (.scBwrb v) s = .next (s.suspend p (.scBwrb v) .u1 Locals.init))

/-- `SC.BWRITE` of a null pointer or an empty payload (R102): `DataError`, recorded in `FAULT`, and nothing else; one unit,
no transport write, no hold. -/
def Obligations.ScBwriteRejectsAnEmptyPayload : Prop :=
  ∀ (np : Bool) (len : Half) (bytes : List Byte) (s : State) (p : Port), Fresh s p 0 → np = true ∨ len = 0 →
    exec (.scBwrite np len bytes) s =
      .next (({ s with fault := .dataError } : State).retire p (wordCount (.scBwrite np len bytes)) .dataError 0)

/-- `SC.BWRITE` of a payload (R102), run whole with the transport ready before each byte: exactly `len` transport writes, in
order, then `FAULT = NoFault`; the readiness it leaves is the last draw (the scripted draws are the model's, log 4). And
unit by unit, so with a hold before any byte: u1 and u2 write nothing, u3 writes byte `k` to the transport and draws
readiness, u4 alone writes `FAULT`, which keeps its value until then. -/
def Obligations.ScBwriteSendsItsPayload : Prop :=
  ∀ (len : Half) (bytes : List Byte) (s : State) (p : Port), bytes.length = len.toNat → len ≠ 0 →
    (∀ (d : Bool) (ds : List Bool), Fresh s p (2 * bytes.length + 1) → s.txReady = true →
      s.draws = List.replicate (bytes.length - 1) true ++ d :: ds →
        exec (.scBwrite false len bytes) s =
          .next (({ s with
            txLog := s.txLog ++ bytes, trace := s.trace ++ bytes.map (.twr p), txReady := d, draws := ds,
            fault := .noFault } : State).retire p (1 + (len.toNat + 3) / 4) .ok 0)) ∧
    (s.turn = ⟨p, 0⟩ → (s.port p).infl = .idle →
      exec (.scBwrite false len bytes) s = .next (s.suspend p (.scBwrite false len bytes) .u2 Locals.init)) ∧
    ∀ x : Locals,
      (AtUnit s p (.scBwrite false len bytes) .u2 x → s.txReady = true →
        exec (.scBwrite false len bytes) s = .next (s.suspend p (.scBwrite false len bytes) .u3 x)) ∧
      (∀ v, AtUnit s p (.scBwrite false len bytes) .u3 x → s.txReady = true → bytes[x.k]? = some v →
        exec (.scBwrite false len bytes) s =
          .next (({ (takeDraw s).2 with
            txReady := (takeDraw s).1, txLog := s.txLog ++ [v], trace := s.trace ++ [.twr p v] } : State).suspend p
              (.scBwrite false len bytes) (if x.k + 1 < bytes.length then .u2 else .u4) { x with k := x.k + 1 })) ∧
      (AtUnit s p (.scBwrite false len bytes) .u4 x →
        exec (.scBwrite false len bytes) s =
          .next (({ s with fault := .noFault } : State).retire p (1 + (len.toNat + 3) / 4) .ok 0))

/-- The waits of `SC.BRDB`, `SC.BWRB`, `SC.BWRITE` and, under `BACKEND = HOST`, of `SC.BHALF` while their level is false,
however long the turn: the port has no step (`00_scope.md` R9), and that its event passes and changes nothing is the
model's choice (log 20). A transfer without readiness faults (R100, R101 corner case a; `42_bottom_half_and_agents.md`
R128, R129). -/
def Obligations.HoldsChangeNothingAndUnreadyTransfersFault : Prop :=
  ∀ (s : State) (x : Locals),
    (s.rxq = [] →
      ((s.port s.turn.port).infl = .busy ⟨.scBrdb, .u1, x⟩ → exec .scBrdb s = .next s) ∧
      ((s.port s.turn.port).infl = .busy ⟨.scBrdb, .u2, x⟩ → exec .scBrdb s = .fault .transportNotReady) ∧
      ((s.port s.turn.port).infl = .busy ⟨.scBhalf, .u2, x⟩ → exec .scBhalf s = .fault .transportNotReady)) ∧
    (s.txReady = false →
      (∀ v, (s.port s.turn.port).infl = .busy ⟨.scBwrb v, .u1, x⟩ → exec (.scBwrb v) s = .next s) ∧
      (∀ v, (s.port s.turn.port).infl = .busy ⟨.scBwrb v, .u2, x⟩ → exec (.scBwrb v) s = .fault .transportNotReady) ∧
      (∀ np len bytes, (s.port s.turn.port).infl = .busy ⟨.scBwrite np len bytes, .u2, x⟩ →
        exec (.scBwrite np len bytes) s = .next s) ∧
      (∀ np len bytes, x.k < bytes.length → (s.port s.turn.port).infl = .busy ⟨.scBwrite np len bytes, .u3, x⟩ →
        exec (.scBwrite np len bytes) s = .fault .transportNotReady) ∧
      ((s.port s.turn.port).infl = .busy ⟨.scBhalf, .u7a, x⟩ → exec .scBhalf s = .next s))

/-- `SC.ENQ` run whole (R103): the byte is queued, or dropped and reported; in both cases `TXARM` and `EVTX` are set. -/
def Obligations.ScEnqQueuesAndArms : Prop :=
  ∀ (v : Byte) (s : State), Fresh s .fg 2 → s.outb.rsz = false → s.outb.wr.toNat < s.outb.cap.toNat →
    let c := s.outb
    exec (.scEnq v) s = .next (
      if inc c.wr c.cap = c.rdv then
        ({ s with txArm := true, evTx := true, trace := s.trace ++ [.enTx .fg] } : State).retire .fg 1 .bufferFull 0
      else
        ({ s with
          outb := { c with mem := memSet c.mem c.wr.toNat v, wr := inc c.wr c.cap,
                           wrv := if s.par.sync = .direct then inc c.wr c.cap else c.wrv },
          txArm := true, evTx := true, trace := s.trace ++ [.enTx .fg] } : State).retire .fg 1 .ok 0)

/-- `SC.DEQ` (R104): as `CB.READ` of the inbound buffer; no flag, no transport call. -/
def Obligations.ScDeqTakesTheOldestOrReportsEmpty : Prop :=
  ∀ s : State, Fresh s .fg 0 → s.inb.rsz = false →
    let c := s.inb
    (c.wrv = c.rd → exec .scDeq s = .next (s.retire .fg 1 .bufferEmpty 0)) ∧
    ∀ v, c.wrv ≠ c.rd → c.rd.toNat < c.cap.toNat → memGet c.mem c.rd.toNat = some v →
      exec .scDeq s = .next (
        ({ s with inb := { c with rd := inc c.rd c.cap,
                                  rdv := if s.par.sync = .direct then inc c.rd c.cap else c.rdv } } : State).retire .fg 1
          .ok (v.setWidth 16))

/-- `SC.RESIZE` (R105) run whole: 0 changes nothing; else each buffer ends as its own resize would leave it, and the answer
says which were truncated; no flag is written. And unit by unit: u1 writes nothing, u2 opens the window of `IN`, u3
resizes `IN` and leaves `OUT`, u4 opens the window of `OUT`, u5 resizes `OUT` and answers for both. -/
def Obligations.ScResizeResizesBothBuffers : Prop :=
  ∀ (n : Half) (s : State) (p : Port),
    (n = 0 → Fresh s p 0 → exec (.scResize n) s = .next (s.retire p 1 .invalidCapacity 0)) ∧
    (n ≠ 0 → Fresh s p 4 → s.inb.rsz = false → s.outb.rsz = false → BufInv s.par.sync s.inb → BufInv s.par.sync s.outb →
      ∃ (ki ko : Nat) (ci co : CBuf Byte),
        s.inb.resizeCopy n = .ok (ki, ci) ∧ s.outb.resizeCopy n = .ok (ko, co) ∧ ci.cap = n ∧ co.cap = n ∧
        exec (.scResize n) s = .next (
          ({ s with inb := ci, outb := co } : State).retire p 1
            (if ki = 0 ∧ ko = 0 then .ok else .truncated)
            ((if ki = 0 then 0 else 1) + (if ko = 0 then 0 else 2)))) ∧
    (n ≠ 0 → s.turn = ⟨p, 0⟩ → (s.port p).infl = .idle →
      exec (.scResize n) s = .next (s.suspend p (.scResize n) .u2 Locals.init)) ∧
    ∀ x : Locals,
      (n ≠ 0 → AtUnit s p (.scResize n) .u2 x → s.inb.rsz = false →
        exec (.scResize n) s =
          .next (({ s with inb := { s.inb with rsz := true } } : State).suspend p (.scResize n) .u3 x)) ∧
      (∀ k c, AtUnit s p (.scResize n) .u3 x → s.inb.resizeCopy n = .ok (k, c) →
        exec (.scResize n) s =
          .next (({ s with inb := c } : State).suspend p (.scResize n) .u4 { x with tin := decide (k ≠ 0) })) ∧
      (n ≠ 0 → AtUnit s p (.scResize n) .u4 x → s.outb.rsz = false →
        exec (.scResize n) s =
          .next (({ s with outb := { s.outb with rsz := true } } : State).suspend p (.scResize n) .u5 x)) ∧
      (∀ k c, AtUnit s p (.scResize n) .u5 x → s.outb.resizeCopy n = .ok (k, c) →
        exec (.scResize n) s =
          .next (({ s with outb := c } : State).retire p 1
            (if x.tin = false ∧ k = 0 then .ok else .truncated)
            ((if x.tin then 1 else 0) + (if k = 0 then 0 else 2))))

/-- `SC.ARMRX`, `SC.ARMTX`, `SC.DISTX` (R106 to R108): the flag in one unit, the platform action in the next. `SC.ARMTX`
arms whatever `OUT` holds, and `SC.DISTX` leaves `OUT` as it is. -/
def Obligations.ArmingCommandsWriteFlagThenEvent : Prop :=
  ∀ (s : State) (p : Port), Fresh s p 0 →
    (s.turn.more = 0 → exec .scArmrx s = .next (({ s with rxArm := true } : State).suspend p .scArmrx .u2 Locals.init)) ∧
    (1 ≤ s.turn.more → exec .scArmrx s =
      .next (({ s with rxArm := true, evRx := true, trace := s.trace ++ [.enRx p] } : State).retire p 1 .ok 0)) ∧
    (s.turn.more = 0 → exec .scArmtx s = .next (({ s with txArm := true } : State).suspend p .scArmtx .u2 Locals.init)) ∧
    (1 ≤ s.turn.more → exec .scArmtx s =
      .next (({ s with txArm := true, evTx := true, trace := s.trace ++ [.enTx p] } : State).retire p 1 .ok 0)) ∧
    (s.turn.more = 0 → exec .scDistx s = .next (({ s with txArm := false } : State).suspend p .scDistx .u2 Locals.init)) ∧
    (1 ≤ s.turn.more → exec .scDistx s =
      .next (({ s with txArm := false, evTx := false, trace := s.trace ++ [.disTx p] } : State).retire p 1 .ok 0))

/-- Arming and disarming are two units, the flag first (R103, R107, R108; `42_bottom_half_and_agents.md` R120, units u8
and u9): between them `TXARM` and `EVTX` may disagree (`70_reset_and_hazards.md` R173). -/
def Obligations.FlagFirstThenPlatformAction : Prop :=
  ∀ (s : State) (p : Port) (x : Locals),
    (∀ v, AtUnit s p (.scEnq v) .u2 x →
      exec (.scEnq v) s = .next (({ s with txArm := true } : State).suspend p (.scEnq v) .u3 x)) ∧
    (∀ v, AtUnit s p (.scEnq v) .u3 x →
      exec (.scEnq v) s = .next (({ s with evTx := true, trace := s.trace ++ [.enTx p] } : State).retire p 1 x.r 0)) ∧
    (AtUnit s p .scArmtx .u2 x →
      exec .scArmtx s = .next (({ s with evTx := true, trace := s.trace ++ [.enTx p] } : State).retire p 1 .ok 0)) ∧
    (AtUnit s p .scDistx .u2 x →
      exec .scDistx s = .next (({ s with evTx := false, trace := s.trace ++ [.disTx p] } : State).retire p 1 .ok 0)) ∧
    (AtUnit s p .scBhalf .u8 x →
      exec .scBhalf s = .next (({ s with txArm := false } : State).suspend p .scBhalf .u9 x)) ∧
    (AtUnit s p .scBhalf .u9 x →
      exec .scBhalf s = .next (({ s with evTx := false, trace := s.trace ++ [.disTx p] } : State).retire p 1 .ok 0))

/-- `SC.STAT` (R109, `10_state.md` R29): `FAULT` in bits 1 and 0 with the codes of R19, `TXARM` in bit 2, `RXARM` in bit 3,
zero above; it writes no state. -/
def Obligations.ScStatAnswersTheStatusWord : Prop :=
  ∀ (s : State) (p : Port), Fresh s p 0 →
    ∃ value : Half, exec .scStat s = .next (s.retire p 1 .ok value) ∧
      (value.extractLsb' 0 2 =
        match s.fault with
        | .initialised => 0
        | .noFault => 1
        | .dataError => 2) ∧
      value.getLsbD 2 = s.txArm ∧ value.getLsbD 3 = s.rxArm ∧ value.extractLsb' 4 12 = 0

/-- `FAULT` is written by `SC.BWRITE` only (R110), and never back to `Initialised` (`10_state.md` R19). -/
def Obligations.OnlyBwriteWritesFault : Prop :=
  ∀ s t : State, step s = .next t → t.fault ≠ s.fault →
    t.fault ≠ .initialised ∧
      ∃ p more np len bytes, nextEvent s = .run p more ∧ nextCommand s p = some (.scBwrite np len bytes)

/-- Nothing clears `RXARM` or disables the receive event (`10_state.md` R21; `60_exceptions.md` R145). -/
def Obligations.ReceptionStaysArmed : Prop :=
  ∀ s t : State, step s = .next t → (s.rxArm = true → t.rxArm = true) ∧ (s.evRx = true → t.evRx = true)

/-! ### The bottom-half (`42_bottom_half_and_agents.md`) -/

/-- The receive step of `SC.BHALF`, unit by unit (R120, u1 to u4). -/
def Obligations.BhalfReceiveUnits : Prop :=
  ∀ (s : State) (x : Locals),
    (s.turn = ⟨.bh, 0⟩ → s.bh.infl = .idle →
      exec .scBhalf s = .next (s.suspend .bh .scBhalf
        (if s.rxArm = true ∧ s.rxq ≠ [] then .u2 else .u5) Locals.init)) ∧
    (∀ v rest, AtUnit s .bh .scBhalf .u2 x → s.rxq = v :: rest →
      exec .scBhalf s = .next (({ s with rxq := rest, trace := s.trace ++ [.trd .bh v] } : State).suspend .bh .scBhalf .u3
        { x with v := v })) ∧
    (AtUnit s .bh .scBhalf .u3 x → s.inb.rsz = false → s.inb.wr.toNat < s.inb.cap.toNat →
      exec .scBhalf s = .next (({ s with inb := absorb s.par.sync s.inb x.v } : State).suspend .bh .scBhalf .u4 x)) ∧
    (AtUnit s .bh .scBhalf .u4 x →
      exec .scBhalf s = .next (s.suspend .bh .scBhalf (if s.rxq ≠ [] then .u2 else .u5) x))

/-- The transmit step of `SC.BHALF`, unit by unit (R120, u5 to u7b; u8 and u9 are in
`Obligations.FlagFirstThenPlatformAction`). That u6 goes straight to u7a under `HOST`, with no unit for the branch inside
u7, is the model's choice (log 16); the draw of readiness is `takeDraw` (log 4). -/
def Obligations.BhalfTransmitUnits : Prop :=
  ∀ (s : State) (x : Locals),
    (AtUnit s .bh .scBhalf .u5 x →
      exec .scBhalf s =
        .next (if s.txArm = true then s.suspend .bh .scBhalf .u6 x else s.retire .bh 1 .ok 0)) ∧
    (AtUnit s .bh .scBhalf .u6 x → s.outb.rsz = false → s.outb.wrv = s.outb.rd →
      exec .scBhalf s = .next (s.suspend .bh .scBhalf .u8 x)) ∧
    (∀ v, AtUnit s .bh .scBhalf .u6 x → s.outb.rsz = false → s.outb.wrv ≠ s.outb.rd →
      s.outb.rd.toNat < s.outb.cap.toNat → memGet s.outb.mem s.outb.rd.toNat = some v →
        exec .scBhalf s = .next (({ s with outb := taken s.par.sync s.outb } : State).suspend .bh .scBhalf
          (if s.par.backend = .register then .u7 else .u7a) { x with v := v })) ∧
    (∀ l, l = .u7 ∨ l = .u7b → AtUnit s .bh .scBhalf l x →
      (s.txReady = true →
        exec .scBhalf s = .next (({ (takeDraw s).2 with
          txReady := (takeDraw s).1, txLog := s.txLog ++ [x.v], trace := s.trace ++ [.twr .bh x.v] } : State).retire .bh 1
            .ok 0)) ∧
      (s.txReady = false → exec .scBhalf s = .fault .transportNotReady)) ∧
    (AtUnit s .bh .scBhalf .u7a x → s.txReady = true →
      exec .scBhalf s = .next (s.suspend .bh .scBhalf .u7b x))

/-- An invocation run whole that receives: every byte the transport holds is read, in order, and queued while there is
room as the bottom-half sees it (R120). -/
def Obligations.BhalfDrainsTheTransport : Prop :=
  ∀ s : State, Fresh s .bh (3 * s.rxq.length + 1) → s.rxArm = true → s.rxq ≠ [] → s.txArm = false →
    s.inb.rsz = false → s.inb.wr.toNat < s.inb.cap.toNat →
      exec .scBhalf s = .next (
        ({ s with
          inb := s.rxq.foldl (absorb s.par.sync) s.inb, rxq := [],
          trace := s.trace ++ s.rxq.map (.trd .bh) } : State).retire .bh 1 .ok 0)

/-- An invocation run whole that receives nothing (R120): with transmission disarmed it does nothing; armed, it sends the
oldest byte the bottom-half sees, or disarms if it sees none. The draw of readiness is `takeDraw` (log 4). -/
def Obligations.BhalfSendsOneByteOrDisarms : Prop :=
  ∀ s : State, Fresh s .bh 4 → s.rxArm = false ∨ s.rxq = [] →
    (s.txArm = false → exec .scBhalf s = .next (s.retire .bh 1 .ok 0)) ∧
    (s.txArm = true → s.outb.rsz = false → s.outb.wrv = s.outb.rd →
      exec .scBhalf s = .next (
        ({ s with txArm := false, evTx := false, trace := s.trace ++ [.disTx .bh] } : State).retire .bh 1 .ok 0)) ∧
    (∀ v, s.txArm = true → s.outb.rsz = false → s.outb.wrv ≠ s.outb.rd → s.outb.rd.toNat < s.outb.cap.toNat →
      memGet s.outb.mem s.outb.rd.toNat = some v → s.txReady = true →
        exec .scBhalf s = .next (
          ({ (takeDraw s).2 with
            outb := taken s.par.sync s.outb, txReady := (takeDraw s).1, txLog := s.txLog ++ [v],
            trace := s.trace ++ [.twr .bh v] } : State).retire .bh 1 .ok 0))

/-- The lost-arm hazard under a lagging view (`70_reset_and_hazards.md` R172, Run B): an invocation that does not see the
queued bytes disarms and leaves them in `OUT`, with no event left to send them. -/
def Obligations.LaggingViewDisarmsWithBytesQueued : Prop :=
  ∀ s : State, Fresh s .bh 4 → s.rxArm = false → s.evRx = false → s.txArm = true → s.outb.rsz = false →
    s.outb.wrv = s.outb.rd → 0 < s.outb.count →
      ∃ t, exec .scBhalf s = .next t ∧ t.txArm = false ∧ t.evTx = false ∧ irq t = false ∧ t.outb = s.outb ∧
        0 < t.outb.count ∧ t.txLog = s.txLog

/-- R121 for any queue: with current views and a transport ready at each write, as many invocations as `OUT` holds bytes
send them in order and leave `TXARM` set; the next one disarms and writes nothing; the one after does
nothing. That the draws stand in a list is the model's choice (log 4). -/
def Obligations.QueueIsSentInOrderThenDisarmed : Prop :=
  ∀ (s : State) (ds : List Bool), s.bh.infl = .idle → s.rxArm = false ∨ s.rxq = [] → s.txArm = true →
    s.outb.rsz = false → BufInv s.par.sync s.outb → s.outb.wrv = s.outb.wr → s.txReady = true →
    s.draws = List.replicate s.outb.count true ++ ds →
      ∃ t, invokeBhalf s.outb.count s = .next t ∧ t.txLog = s.txLog ++ s.outb.queued ∧ t.outb.queued = [] ∧
        t.txArm = true ∧ t.evTx = s.evTx ∧
        ∃ u, invokeBhalf 1 t = .next u ∧ u.txArm = false ∧ u.evTx = false ∧ u.txLog = t.txLog ∧ u.outb = t.outb ∧
          ∃ w, invokeBhalf 1 u = .next w ∧
            w = { u with bh := w.bh, turn := w.turn } ∧ w.bh.infl = .idle

/-- Under `BACKEND = REGISTER` an invocation in which no byte arrives takes at most `3 len(RXQ) + 5` units
(`70_reset_and_hazards.md` R176): given that many, it does not stay in flight. -/
def Obligations.RegisterHandlerReturnsInBoundedUnits : Prop :=
  ∀ s t : State, Fresh s .bh (3 * s.rxq.length + 4) → s.par.backend = .register → exec .scBhalf s = .next t →
    t.bh.infl = .idle

/-- What holds under `Preempt` (`70_reset_and_hazards.md` R174): if, of the commands that write `OUT`, `TXARM` or `EVTX`,
the foreground issues only `SC.ENQ` and the bottom-half only `SC.BHALF`, every step keeps transmission armed while bytes
are queued. The restriction on the bottom-half's commands is the model's reading (log 23). -/
def Obligations.PreemptKeepsTransmissionArmed : Prop :=
  ∀ s t : State, Inv s → s.par.sync = .direct → preempts s (nextEvent s) = true → enqOnly s (nextEvent s) = true →
    transmitArmed s = true → step s = .next t → transmitArmed t = true

/-- Every byte accepted by `SC.ENQ` reaches `TXLOG`, in order (`70_reset_and_hazards.md` R174, R178). In a run from
construction under `Preempt`, with only `SC.ENQ` of the commands that write `OUT`, `TXARM` or `EVTX` on `FG`: at every
instant the bytes accepted so far are the bytes sent, the byte in the handler's hand, and the bytes queued, in that
order; and the bytes accepted before an instant at which port `FG` is idle are all sent in the end. Under `REGISTER` with
`IrqGated` and `TxReadyAtBH`, and with the fairness of invocation (`60_exceptions.md` R148) and R174's two conditions on
`ENV` (`RunProperty.everyByteSent` of `Premises`). That `BH` runs only `SC.BHALF` (logs 23, 31) and goes on with it, and that the run is transport-safe (R175), are
premises R174 leaves unsaid (log 31). -/
def Obligations.EveryEnqueuedByteIsSent : Prop :=
  ∀ (par : Params) (capInit : Half) (rxq : List Byte) (rdy : Bool) (sched : Nat → Event) (run : Nat → State),
    State.construct par capInit rxq rdy = .ok (run 0) → Premises .everyByteSent sched run →
    Along handlerOnly sched run → Along transportSafe sched run → HandlerProgress sched run →
      (∀ n, bytesOver enqueuedByte sched run n =
        bytesOver sentByte sched run n ++ inHand (run n) ++ (run n).outb.queued) ∧
      ∀ n, (run n).fg.infl = .idle → ∃ m, n ≤ m ∧
        bytesOver enqueuedByte sched run n <+: bytesOver sentByte sched run m ∧
        (bytesOver enqueuedByte sched run n).Sublist (run m).txLog

/-- `SC.BHALF` never faults `TransportNotReady` under `TxReadyAtBH`, or `BACKEND = HOST`, in a transport-safe run
(`70_reset_and_hazards.md` R178, R175, R179): what its queries found is still so when it reads or writes. The premise that
no other transport write falls between u7a and u7b is the model's addition: a transport-safe run can break it (log 25). -/
def Obligations.HandlerTransfersAreReady : Prop :=
  ∀ s : State, Inv s → handlerReady s = true → oneUnit (nextEvent s) = true → transportSafe s (nextEvent s) = true →
    handlerWriteApart s (nextEvent s) = true →
      (∀ t, step s = .next t → handlerReady t = true) ∧
      (premiseAt .handlerNeverUnready s (nextEvent s) = true → nextEvent s = .run .bh 0 → nextCommand s .bh = some .scBhalf →
        step s ≠ .fault .transportNotReady)

/-! ### Transport, platform, synchronizer, environment (`42_bottom_half_and_agents.md`) -/

/-- The level queries (R126, R127), `transportReadByte()` (R128), the three platform actions (R130 to R132) and the event
level (`60_exceptions.md` R146). -/
def Obligations.LevelsTransportReadAndPlatformActions : Prop :=
  ∀ (p : Port) (s : State),
    (dataAvailable s = true ↔ s.rxq ≠ []) ∧ (readyToSend s = true ↔ s.txReady = true) ∧
    (∀ v rest, s.rxq = v :: rest →
      transportRead p s = .ok (v, { s with rxq := rest, trace := s.trace ++ [.trd p v] })) ∧
    (s.rxq = [] → transportRead p s = .error .transportNotReady) ∧
    enableReceive p s = { s with evRx := true, trace := s.trace ++ [.enRx p] } ∧
    enableTransmit p s = { s with evTx := true, trace := s.trace ++ [.enTx p] } ∧
    disableTransmit p s = { s with evTx := false, trace := s.trace ++ [.disTx p] } ∧
    (irq s = true ↔ (s.evRx = true ∧ s.rxq ≠ []) ∨ (s.evTx = true ∧ s.txReady = true))

/-- `transportWriteByte(b)` (R129): for each value a draw can have, readiness may become that value. That a draw is the
first entry of the scripted list, and a free bit read at `tick` when the list is empty, is the model's choice (log 4). -/
def Obligations.TransportWriteDrawsReadiness : Prop :=
  ∀ (p : Port) (v : Byte) (s : State),
    (s.txReady = true → ∀ d ds, s.draws = d :: ds →
      transportWrite p v s = .ok { s with
        txReady := d, draws := ds, txLog := s.txLog ++ [v], trace := s.trace ++ [.twr p v] }) ∧
    (s.txReady = true → s.draws = [] → ∃ d,
      transportWrite p v s = .ok { s with
        txReady := d, tick := s.tick + 1, txLog := s.txLog ++ [v], trace := s.trace ++ [.twr p v] }) ∧
    (s.txReady = false → transportWrite p v s = .error .transportNotReady)

/-- `SyncW(b, x)` and `SyncR(b, x)` (R123, R124): always enabled, also in a resize window, for every value the guard
admits; they move their own view and nothing else; under `SYNC = DIRECT` there is no such step (R125). That an event
outside the guard changes nothing is the model's reading (log 13). `EnvRx(v)` and `EnvTxReady` (R133), and a feeder
presenting a word (`10_state.md` R11; the event is the model's, log 3), do that and nothing else. -/
def Obligations.SynchronizerAndEnvironmentSteps : Prop :=
  ∀ (s : State) (rest : List Event),
    let t : State := { s with script := rest }
    (∀ (b : BufSel) (x : Half),
      let c := s.buf b
      (s.script = .syncW b x :: rest →
        step s = .next (
          if s.par.sync = .lagged ∧ x.toNat < c.cap.toNat ∧ occ c.wrv x c.cap ≤ occ c.wrv c.wr c.cap then
            t.setBuf b { c with wrv := x }
          else t)) ∧
      (s.script = .syncR b x :: rest →
        step s = .next (
          if s.par.sync = .lagged ∧ x.toNat < c.cap.toNat ∧ occ c.rdv x c.cap ≤ occ c.rdv c.rd c.cap then
            t.setBuf b { c with rdv := x }
          else t))) ∧
    (∀ v, s.script = .envRx v :: rest → step s = .next { t with rxq := s.rxq ++ [v] }) ∧
    (s.script = .envTxReady :: rest → step s = .next { t with txReady := true }) ∧
    (∀ p w, s.script = .present p w :: rest →
      step s = .next (t.setPort p { s.port p with stream := (s.port p).stream ++ [w] }))

/-- The view contract's third clause (`20_memory.md` R50 (c)): in a run whose `SYNC` steps are weakly fair
(`42_bottom_half_and_agents.md` R125), if an index stops changing, its view equals it after finitely many steps, and from
then on. -/
def Obligations.FairViewsCatchUp : Prop :=
  ∀ (sched : Nat → Event) (run : Nat → State), IsRun sched run → Inv (run 0) → (run 0).par.sync = .lagged →
    SyncFair sched run → ∀ (b : BufSel) (n : Nat),
      ((∀ m, n ≤ m → ((run m).buf b).wr = ((run n).buf b).wr) →
        ∃ k, n ≤ k ∧ ∀ m, k ≤ m → ((run m).buf b).wrv = ((run m).buf b).wr) ∧
      ((∀ m, n ≤ m → ((run m).buf b).rd = ((run n).buf b).rd) →
        ∃ k, n ≤ k ∧ ∀ m, k ≤ m → ((run m).buf b).rdv = ((run m).buf b).rd)

/-! ### Reset and the invariants of the block (`10_state.md`, `70_reset_and_hazards.md`) -/

/-- Construction (R160, R161, R162): capacity 0 is rejected with `InvalidCapacity`; on every other capacity, whatever the
environment holds, every state element is at the value of `10_state.md` R32. The same of a stand-alone buffer of every
element width (`40_circular_buffer.md` R88). -/
def Obligations.ConstructionGivesTheResetValues : Prop :=
  (∀ (par : Params) (n : Half) (rxq : List Byte) (rdy : Bool),
    (n = 0 → State.construct par n rxq rdy = .error .invalidCapacity) ∧
    (n ≠ 0 → ∃ s, State.construct par n rxq rdy = .ok s ∧
      (∀ b, (s.buf b).cap = n ∧ (s.buf b).wr = 0 ∧ (s.buf b).rd = 0 ∧ (s.buf b).wrv = 0 ∧ (s.buf b).rdv = 0 ∧
        (s.buf b).rsz = false ∧ ∀ i, memGet (s.buf b).mem i = none) ∧
      s.fault = .initialised ∧ s.txArm = false ∧ s.rxArm = false ∧ s.evTx = false ∧ s.evRx = false ∧
      s.fg.infl = .idle ∧ s.bh.infl = .idle ∧ s.fg.pos = 0 ∧ s.bh.pos = 0 ∧ s.txLog = [] ∧ s.trace = [] ∧
      s.rxq = rxq ∧ s.txReady = rdy ∧ s.par = par ∧ irq s = false)) ∧
  ∀ (w : ElementWidth) (n : Half),
    (n = 0 → LoneBuffer.construct w n = .error .invalidCapacity) ∧
    (n ≠ 0 → ∃ c, LoneBuffer.construct w n = .ok c ∧
      c.buf.cap = n ∧ c.buf.wr = 0 ∧ c.buf.rd = 0 ∧ c.buf.wrv = 0 ∧ c.buf.rdv = 0 ∧ c.buf.rsz = false ∧
      (∀ i, memGet c.buf.mem i = none) ∧ c.resizing = none)

/-- R33: after construction, and so at `State.reset`, both buffers are empty, the views are current, and the ring-order
sum has all three terms 0. -/
def Obligations.ResetBuffersAreEmptyAndCurrent : Prop :=
  ∀ (s : State) (b : BufSel),
    (s = State.reset ∨ ∃ par n rxq rdy, State.construct par n rxq rdy = .ok s) →
      (s.buf b).count = 0 ∧ (s.buf b).ViewsCurrent ∧
      occ (s.buf b).rdv (s.buf b).rd (s.buf b).cap = 0 ∧ occ (s.buf b).rd (s.buf b).wrv (s.buf b).cap = 0 ∧
      occ (s.buf b).wrv (s.buf b).wr (s.buf b).cap = 0

/-- The invariant of the block holds right after construction, whatever the parameters and the environment; so does that
of a stand-alone buffer. -/
def Obligations.ConstructionMeetsTheInvariant : Prop :=
  Inv State.reset ∧
    (∀ (par : Params) (n : Half) (rxq : List Byte) (rdy : Bool), n ≠ 0 → Inv (State.init par n rxq rdy)) ∧
    ∀ (w : ElementWidth) (sync : Sync) (n : Half) (c : LoneBuffer w), LoneBuffer.construct w n = .ok c → LoneInv sync c

/-- Every step keeps the invariant of the block: ranges (R15), ring order (R17), canonical storage with every queued slot
filled (R14), views equal to their indices under `DIRECT` (R13), well-formed commands in flight (R26), resize windows
(R34), `TXLOG` the writes of `TRACE` (R28). -/
def Obligations.StepKeepsTheInvariant : Prop :=
  ∀ s t : State, Inv s → step s = .next t → Inv t

/-- No step from a state that meets the invariant stops for a reason other than the three faults of `60_exceptions.md`
R155: no slot without a value is ever read, no slot index is out of range, no record is malformed. -/
def Obligations.OnlyTheThreeFaults : Prop :=
  ∀ s : State, Inv s →
    (∀ f, step s = .fault f → f = .portDiscipline ∨ f = .resizeRace ∨ f = .transportNotReady) ∧
    ∀ r, step s ≠ .refused r

/-- Under the premises `SPSC` and `ResizeExclusive` of `00_scope.md` R8, and with the transport ready for the transfer a
unit makes, no atomic unit of any agent faults. Where the agent has no step (a wait whose level is false, a command not
arrived whole: log 20; a `SYNC` event outside its guard: log 13), the next state is the model's choice. -/
def Obligations.PremisesExcludeEveryFault : Prop :=
  ∀ s : State, Inv s → oneUnit (nextEvent s) = true → spsc s (nextEvent s) = true →
    resizeExclusive s (nextEvent s) = true → transferReady s (nextEvent s) = true → ∃ t, step s = .next t
end

