-- ==== Sys2Proof/Laws/Ring.lean ====
section
/-! SUPPORT. Ring arithmetic in the conditional form of `40_circular_buffer.md` R89, and the laws of a storage list. -/

namespace Sys2Proof.Machine

/-! ### Indices -/

/-- R89 (a): `inc(x, c) = x + 1` if `x + 1 < c`, else 0. -/
theorem inc_toNat {x c : Half} (h : x.toNat < c.toNat) :
    (inc x c).toNat = if x.toNat + 1 < c.toNat then x.toNat + 1 else 0 := by
  have hc : c.toNat < 2 ^ 16 := c.isLt
  unfold inc
  rw [BitVec.toNat_ofNat]
  split
  · next h1 => rw [Nat.mod_eq_of_lt h1, Nat.mod_eq_of_lt (by omega)]
  · next h1 =>
    have : x.toNat + 1 = c.toNat := by omega
    rw [this, Nat.mod_self]

/-- An advanced index stays in range. -/
theorem inc_lt {x c : Half} (h : x.toNat < c.toNat) : (inc x c).toNat < c.toNat := by
  rw [inc_toNat h]; split <;> omega

/-- R89 (b): `occ(x, y, c) = y - x` if `y >= x`, else `y - x + c`. -/
theorem occ_eq {x y c : Half} (hx : x.toNat < c.toNat) (hy : y.toNat < c.toNat) :
    occ x y c = if x.toNat ≤ y.toNat then y.toNat - x.toNat else y.toNat + c.toNat - x.toNat := by
  unfold occ
  split
  · next h => rw [Int.emod_eq_of_lt (by omega) (by omega)]; omega
  · next h =>
    have e : ((y.toNat : Int) - x.toNat) % c.toNat = (y.toNat : Int) - x.toNat + c.toNat := by
      rw [← Int.add_emod_right]; exact Int.emod_eq_of_lt (by omega) (by omega)
    rw [e]; omega

/-- An occupancy stays below the capacity. -/
theorem occ_lt {x y c : Half} (hx : x.toNat < c.toNat) (hy : y.toNat < c.toNat) : occ x y c < c.toNat := by
  rw [occ_eq hx hy]; split <;> omega

@[simp] theorem occ_self (x c : Half) : occ x x c = 0 := by simp [occ]

/-- Two indices in range are equal exactly when no slot lies between them. -/
theorem occ_eq_zero {x y c : Half} (hx : x.toNat < c.toNat) (hy : y.toNat < c.toNat) : occ x y c = 0 ↔ x = y := by
  rw [occ_eq hx hy, ← BitVec.toNat_inj]; split <;> omega

/-- An index taken modulo the capacity is the index an `inc` chain reaches. -/
theorem mod_eq {a c : Nat} (h : a < 2 * c) : a % c = if a < c then a else a - c := by
  split
  · next h1 => exact Nat.mod_eq_of_lt h1
  · next h1 => rw [Nat.mod_eq_sub_mod (by omega), Nat.mod_eq_of_lt (by omega)]

/-! ### Storage lists -/

section
variable {α : Type}

@[simp] theorem memGet_nil (i : Nat) : memGet ([] : List (Nat × α)) i = none := rfl

/-- A slot reads back what was stored in it. -/
@[simp] theorem memGet_memSet_same (m : List (Nat × α)) (i : Nat) (v : α) : memGet (memSet m i v) i = some v := by
  induction m with
  | nil => simp [memSet, memGet]
  | cons e rest ih =>
    obtain ⟨j, w⟩ := e
    unfold memSet
    split
    · simp [memGet]
    · split
      · simp [memGet]
      · next h => simp [memGet, h, ih]

/-- A store leaves every other slot as it was. -/
theorem memGet_memSet_other (m : List (Nat × α)) (i j : Nat) (v : α) (h : j ≠ i) :
    memGet (memSet m i v) j = memGet m j := by
  induction m with
  | nil => simp [memSet, memGet, h]
  | cons e rest ih =>
    obtain ⟨k, w⟩ := e
    unfold memSet
    split
    · simp [memGet, h]
    · split
      · next h1 => subst h1; simp [memGet, h]
      · simp [memGet, ih]

/-- Below a list's first slot nothing is listed. -/
theorem memWf_cons {j : Nat} {w : α} {rest : List (Nat × α)} :
    memWf ((j, w) :: rest) = true ↔ memWf rest = true ∧ ∀ e ∈ rest, j < e.1 := by
  induction rest generalizing j w with
  | nil => simp [memWf]
  | cons e rest ih =>
    obtain ⟨k, u⟩ := e
    simp only [memWf, Bool.and_eq_true, decide_eq_true_eq, List.mem_cons, forall_eq_or_imp]
    constructor
    · rintro ⟨h1, h2⟩
      refine ⟨h2, h1, fun e he => ?_⟩
      exact Nat.lt_trans h1 ((ih.mp h2).2 e he)
    · rintro ⟨h2, h1, _⟩
      exact ⟨h1, h2⟩

/-- The slots a store lists: the old ones and the one stored to. -/
theorem mem_memSet {m : List (Nat × α)} {i : Nat} {v : α} {e : Nat × α} (h : e ∈ memSet m i v) : e = (i, v) ∨ e ∈ m := by
  induction m with
  | nil => simpa [memSet] using h
  | cons e' rest ih =>
    obtain ⟨j, w⟩ := e'
    unfold memSet at h
    split at h
    · simpa [or_assoc] using h
    · split at h
      · rcases List.mem_cons.mp h with h | h
        · exact .inl h
        · exact .inr (List.mem_cons_of_mem _ h)
      · rcases List.mem_cons.mp h with h | h
        · exact .inr (h ▸ List.mem_cons_self)
        · exact (ih h).imp_right (List.mem_cons_of_mem _)

/-- A store keeps the canonical form. -/
theorem memWf_memSet {m : List (Nat × α)} (i : Nat) (v : α) (h : memWf m = true) : memWf (memSet m i v) = true := by
  induction m with
  | nil => rfl
  | cons e rest ih =>
    obtain ⟨j, w⟩ := e
    have hr := memWf_cons.mp h
    unfold memSet
    split
    · next h1 =>
      refine memWf_cons.mpr ⟨h, fun e he => ?_⟩
      rcases List.mem_cons.mp he with rfl | he
      · exact h1
      · exact Nat.lt_trans h1 (hr.2 e he)
    · split
      · next h1 h2 => exact memWf_cons.mpr ⟨hr.1, fun e he => h2 ▸ hr.2 e he⟩
      · next h1 h2 =>
        refine memWf_cons.mpr ⟨ih hr.1, fun e he => ?_⟩
        rcases mem_memSet he with rfl | he
        · exact Nat.lt_of_le_of_ne (Nat.le_of_not_lt h1) (Ne.symm h2)
        · exact hr.2 e he

/-- The copy loop of a resize (R82), said once: it lists the slots `at0` to `at0 + n - 1`, each with the value of the slot
that many places forward of `start`. -/
theorem copyRing_some {m : List (Nat × α)} {start c n at0 : Nat} {l : List (Nat × α)}
    (h : copyRing m start c n at0 = some l) :
    memWf l = true ∧ l.length = n ∧ (∀ e ∈ l, at0 ≤ e.1 ∧ e.1 < at0 + n) ∧
      ∀ i < n, memGet l (at0 + i) = memGet m ((start + (at0 + i)) % c) ∧ (memGet l (at0 + i)).isSome := by
  induction n generalizing at0 l with
  | zero => simp [copyRing] at h; subst h; simp [memWf]
  | succ n ih =>
    unfold copyRing at h
    split at h
    · next v rest hv hrest =>
      cases h
      obtain ⟨hwf, hlen, hrange, hval⟩ := ih hrest
      refine ⟨memWf_cons.mpr ⟨hwf, fun e he => (hrange e he).1⟩, by simp [hlen], ?_, ?_⟩
      · intro e he
        rcases List.mem_cons.mp he with rfl | he
        · exact ⟨Nat.le_refl _, by omega⟩
        · have := hrange e he; omega
      · intro i hi
        cases i with
        | zero => simp [memGet, hv]
        | succ i =>
          have hne : at0 + (i + 1) ≠ at0 := by omega
          have := hval i (by omega)
          rw [show at0 + 1 + i = at0 + (i + 1) by omega] at this
          simpa [memGet, hne] using this
    · cases h

/-- The copy loop answers whenever every slot it reads holds a value. -/
theorem copyRing_isSome {m : List (Nat × α)} {start c n at0 : Nat}
    (h : ∀ i < n, (memGet m ((start + (at0 + i)) % c)).isSome = true) : (copyRing m start c n at0).isSome = true := by
  induction n generalizing at0 with
  | zero => rfl
  | succ n ih =>
    have h0 := h 0 (by omega)
    have hr := ih (at0 := at0 + 1) (fun i hi => by
      have := h (i + 1) (by omega)
      rwa [show at0 + (i + 1) = at0 + 1 + i by omega] at this)
    obtain ⟨v, hv⟩ := Option.isSome_iff_exists.mp h0
    obtain ⟨r, hr⟩ := Option.isSome_iff_exists.mp hr
    unfold copyRing
    rw [show at0 + 0 = at0 by omega] at hv
    simp [hv, hr]

end

end Sys2Proof.Machine
end

