-- ==== Sys2Proof/Laws/State.lean ====
section
/-! SUPPORT. One lemma per field per named update of the state, and the laws of the accessors. -/

namespace Sys2Proof.Machine

/-! ### Replacing a buffer -/

@[simp] theorem setBuf_par (s : State) (b : BufSel) (c : CBuf Byte) : (s.setBuf b c).par = s.par := by cases b <;> rfl
@[simp] theorem setBuf_fault (s : State) (b : BufSel) (c : CBuf Byte) : (s.setBuf b c).fault = s.fault := by cases b <;> rfl
@[simp] theorem setBuf_txArm (s : State) (b : BufSel) (c : CBuf Byte) : (s.setBuf b c).txArm = s.txArm := by cases b <;> rfl
@[simp] theorem setBuf_rxArm (s : State) (b : BufSel) (c : CBuf Byte) : (s.setBuf b c).rxArm = s.rxArm := by cases b <;> rfl
@[simp] theorem setBuf_evTx (s : State) (b : BufSel) (c : CBuf Byte) : (s.setBuf b c).evTx = s.evTx := by cases b <;> rfl
@[simp] theorem setBuf_evRx (s : State) (b : BufSel) (c : CBuf Byte) : (s.setBuf b c).evRx = s.evRx := by cases b <;> rfl
@[simp] theorem setBuf_rxq (s : State) (b : BufSel) (c : CBuf Byte) : (s.setBuf b c).rxq = s.rxq := by cases b <;> rfl
@[simp] theorem setBuf_txReady (s : State) (b : BufSel) (c : CBuf Byte) : (s.setBuf b c).txReady = s.txReady := by cases b <;> rfl
@[simp] theorem setBuf_txLog (s : State) (b : BufSel) (c : CBuf Byte) : (s.setBuf b c).txLog = s.txLog := by cases b <;> rfl
@[simp] theorem setBuf_trace (s : State) (b : BufSel) (c : CBuf Byte) : (s.setBuf b c).trace = s.trace := by cases b <;> rfl
@[simp] theorem setBuf_fg (s : State) (b : BufSel) (c : CBuf Byte) : (s.setBuf b c).fg = s.fg := by cases b <;> rfl
@[simp] theorem setBuf_bh (s : State) (b : BufSel) (c : CBuf Byte) : (s.setBuf b c).bh = s.bh := by cases b <;> rfl
@[simp] theorem setBuf_turn (s : State) (b : BufSel) (c : CBuf Byte) : (s.setBuf b c).turn = s.turn := by cases b <;> rfl
@[simp] theorem setBuf_script (s : State) (b : BufSel) (c : CBuf Byte) : (s.setBuf b c).script = s.script := by cases b <;> rfl
@[simp] theorem setBuf_draws (s : State) (b : BufSel) (c : CBuf Byte) : (s.setBuf b c).draws = s.draws := by cases b <;> rfl
@[simp] theorem setBuf_tick (s : State) (b : BufSel) (c : CBuf Byte) : (s.setBuf b c).tick = s.tick := by cases b <;> rfl
@[simp] theorem setBuf_inb_inbound (s : State) (c : CBuf Byte) : (s.setBuf .inbound c).inb = c := rfl
@[simp] theorem setBuf_outb_inbound (s : State) (c : CBuf Byte) : (s.setBuf .inbound c).outb = s.outb := rfl
@[simp] theorem setBuf_inb_outbound (s : State) (c : CBuf Byte) : (s.setBuf .outbound c).inb = s.inb := rfl
@[simp] theorem setBuf_outb_outbound (s : State) (c : CBuf Byte) : (s.setBuf .outbound c).outb = c := rfl
@[simp] theorem buf_inbound (s : State) : s.buf .inbound = s.inb := rfl
@[simp] theorem buf_outbound (s : State) : s.buf .outbound = s.outb := rfl
@[simp] theorem setBuf_buf_same (s : State) (b : BufSel) (c : CBuf Byte) : (s.setBuf b c).buf b = c := by cases b <;> rfl

theorem setBuf_buf_other (s : State) (b b' : BufSel) (c : CBuf Byte) (h : b' ≠ b) : (s.setBuf b c).buf b' = s.buf b' := by
  cases b <;> cases b' <;> first | rfl | exact absurd rfl h

@[simp] theorem setBuf_port (s : State) (b : BufSel) (c : CBuf Byte) (p : Port) : (s.setBuf b c).port p = s.port p := by
  cases b <;> cases p <;> rfl

@[simp] theorem setBuf_buf_self (s : State) (b : BufSel) : s.setBuf b (s.buf b) = s := by cases b <;> rfl

/-! ### Replacing a port -/

@[simp] theorem setPort_par (s : State) (p : Port) (q : PortState) : (s.setPort p q).par = s.par := by cases p <;> rfl
@[simp] theorem setPort_inb (s : State) (p : Port) (q : PortState) : (s.setPort p q).inb = s.inb := by cases p <;> rfl
@[simp] theorem setPort_outb (s : State) (p : Port) (q : PortState) : (s.setPort p q).outb = s.outb := by cases p <;> rfl
@[simp] theorem setPort_fault (s : State) (p : Port) (q : PortState) : (s.setPort p q).fault = s.fault := by cases p <;> rfl
@[simp] theorem setPort_txArm (s : State) (p : Port) (q : PortState) : (s.setPort p q).txArm = s.txArm := by cases p <;> rfl
@[simp] theorem setPort_rxArm (s : State) (p : Port) (q : PortState) : (s.setPort p q).rxArm = s.rxArm := by cases p <;> rfl
@[simp] theorem setPort_evTx (s : State) (p : Port) (q : PortState) : (s.setPort p q).evTx = s.evTx := by cases p <;> rfl
@[simp] theorem setPort_evRx (s : State) (p : Port) (q : PortState) : (s.setPort p q).evRx = s.evRx := by cases p <;> rfl
@[simp] theorem setPort_rxq (s : State) (p : Port) (q : PortState) : (s.setPort p q).rxq = s.rxq := by cases p <;> rfl
@[simp] theorem setPort_txReady (s : State) (p : Port) (q : PortState) : (s.setPort p q).txReady = s.txReady := by cases p <;> rfl
@[simp] theorem setPort_txLog (s : State) (p : Port) (q : PortState) : (s.setPort p q).txLog = s.txLog := by cases p <;> rfl
@[simp] theorem setPort_trace (s : State) (p : Port) (q : PortState) : (s.setPort p q).trace = s.trace := by cases p <;> rfl
@[simp] theorem setPort_turn (s : State) (p : Port) (q : PortState) : (s.setPort p q).turn = s.turn := by cases p <;> rfl
@[simp] theorem setPort_script (s : State) (p : Port) (q : PortState) : (s.setPort p q).script = s.script := by cases p <;> rfl
@[simp] theorem setPort_draws (s : State) (p : Port) (q : PortState) : (s.setPort p q).draws = s.draws := by cases p <;> rfl
@[simp] theorem setPort_tick (s : State) (p : Port) (q : PortState) : (s.setPort p q).tick = s.tick := by cases p <;> rfl
@[simp] theorem setPort_fg_fg (s : State) (q : PortState) : (s.setPort .fg q).fg = q := rfl
@[simp] theorem setPort_bh_fg (s : State) (q : PortState) : (s.setPort .fg q).bh = s.bh := rfl
@[simp] theorem setPort_fg_bh (s : State) (q : PortState) : (s.setPort .bh q).fg = s.fg := rfl
@[simp] theorem setPort_bh_bh (s : State) (q : PortState) : (s.setPort .bh q).bh = q := rfl
@[simp] theorem port_fg (s : State) : s.port .fg = s.fg := rfl
@[simp] theorem port_bh (s : State) : s.port .bh = s.bh := rfl
@[simp] theorem setPort_port_same (s : State) (p : Port) (q : PortState) : (s.setPort p q).port p = q := by cases p <;> rfl

theorem setPort_port_other (s : State) (p p' : Port) (q : PortState) (h : p' ≠ p) : (s.setPort p q).port p' = s.port p' := by
  cases p <;> cases p' <;> first | rfl | exact absurd rfl h

@[simp] theorem setPort_buf (s : State) (p : Port) (q : PortState) (b : BufSel) : (s.setPort p q).buf b = s.buf b := by
  cases b <;> cases p <;> rfl

@[simp] theorem setPort_setPort (s : State) (p : Port) (q r : PortState) : (s.setPort p q).setPort p r = s.setPort p r := by
  cases p <;> rfl

/-! ### `INFL[p]`, leaving a command in flight, and retirement -/

@[simp] theorem setInfl_par (s : State) (p : Port) (x : Infl) : (s.setInfl p x).par = s.par := by cases p <;> rfl
@[simp] theorem setInfl_inb (s : State) (p : Port) (x : Infl) : (s.setInfl p x).inb = s.inb := by cases p <;> rfl
@[simp] theorem setInfl_outb (s : State) (p : Port) (x : Infl) : (s.setInfl p x).outb = s.outb := by cases p <;> rfl
@[simp] theorem setInfl_fault (s : State) (p : Port) (x : Infl) : (s.setInfl p x).fault = s.fault := by cases p <;> rfl
@[simp] theorem setInfl_txArm (s : State) (p : Port) (x : Infl) : (s.setInfl p x).txArm = s.txArm := by cases p <;> rfl
@[simp] theorem setInfl_rxArm (s : State) (p : Port) (x : Infl) : (s.setInfl p x).rxArm = s.rxArm := by cases p <;> rfl
@[simp] theorem setInfl_evTx (s : State) (p : Port) (x : Infl) : (s.setInfl p x).evTx = s.evTx := by cases p <;> rfl
@[simp] theorem setInfl_evRx (s : State) (p : Port) (x : Infl) : (s.setInfl p x).evRx = s.evRx := by cases p <;> rfl
@[simp] theorem setInfl_rxq (s : State) (p : Port) (x : Infl) : (s.setInfl p x).rxq = s.rxq := by cases p <;> rfl
@[simp] theorem setInfl_txReady (s : State) (p : Port) (x : Infl) : (s.setInfl p x).txReady = s.txReady := by cases p <;> rfl
@[simp] theorem setInfl_txLog (s : State) (p : Port) (x : Infl) : (s.setInfl p x).txLog = s.txLog := by cases p <;> rfl
@[simp] theorem setInfl_trace (s : State) (p : Port) (x : Infl) : (s.setInfl p x).trace = s.trace := by cases p <;> rfl
@[simp] theorem setInfl_turn (s : State) (p : Port) (x : Infl) : (s.setInfl p x).turn = s.turn := by cases p <;> rfl
@[simp] theorem setInfl_script (s : State) (p : Port) (x : Infl) : (s.setInfl p x).script = s.script := by cases p <;> rfl
@[simp] theorem setInfl_draws (s : State) (p : Port) (x : Infl) : (s.setInfl p x).draws = s.draws := by cases p <;> rfl
@[simp] theorem setInfl_tick (s : State) (p : Port) (x : Infl) : (s.setInfl p x).tick = s.tick := by cases p <;> rfl
@[simp] theorem setInfl_buf (s : State) (p : Port) (x : Infl) (b : BufSel) : (s.setInfl p x).buf b = s.buf b := by cases p <;> cases b <;> rfl
theorem setInfl_port_other (s : State) (p : Port) (x : Infl) (p' : Port) (h : p' ≠ p) : (s.setInfl p x).port p' = s.port p' :=
  setPort_port_other s p p' _ h

@[simp] theorem suspend_par (s : State) (p : Port) (i : Instr) (l : Label) (x : Locals) : (s.suspend p i l x).par = s.par := by cases p <;> rfl
@[simp] theorem suspend_inb (s : State) (p : Port) (i : Instr) (l : Label) (x : Locals) : (s.suspend p i l x).inb = s.inb := by cases p <;> rfl
@[simp] theorem suspend_outb (s : State) (p : Port) (i : Instr) (l : Label) (x : Locals) : (s.suspend p i l x).outb = s.outb := by cases p <;> rfl
@[simp] theorem suspend_fault (s : State) (p : Port) (i : Instr) (l : Label) (x : Locals) : (s.suspend p i l x).fault = s.fault := by cases p <;> rfl
@[simp] theorem suspend_txArm (s : State) (p : Port) (i : Instr) (l : Label) (x : Locals) : (s.suspend p i l x).txArm = s.txArm := by cases p <;> rfl
@[simp] theorem suspend_rxArm (s : State) (p : Port) (i : Instr) (l : Label) (x : Locals) : (s.suspend p i l x).rxArm = s.rxArm := by cases p <;> rfl
@[simp] theorem suspend_evTx (s : State) (p : Port) (i : Instr) (l : Label) (x : Locals) : (s.suspend p i l x).evTx = s.evTx := by cases p <;> rfl
@[simp] theorem suspend_evRx (s : State) (p : Port) (i : Instr) (l : Label) (x : Locals) : (s.suspend p i l x).evRx = s.evRx := by cases p <;> rfl
@[simp] theorem suspend_rxq (s : State) (p : Port) (i : Instr) (l : Label) (x : Locals) : (s.suspend p i l x).rxq = s.rxq := by cases p <;> rfl
@[simp] theorem suspend_txReady (s : State) (p : Port) (i : Instr) (l : Label) (x : Locals) : (s.suspend p i l x).txReady = s.txReady := by cases p <;> rfl
@[simp] theorem suspend_txLog (s : State) (p : Port) (i : Instr) (l : Label) (x : Locals) : (s.suspend p i l x).txLog = s.txLog := by cases p <;> rfl
@[simp] theorem suspend_trace (s : State) (p : Port) (i : Instr) (l : Label) (x : Locals) : (s.suspend p i l x).trace = s.trace := by cases p <;> rfl
@[simp] theorem suspend_turn (s : State) (p : Port) (i : Instr) (l : Label) (x : Locals) : (s.suspend p i l x).turn = s.turn := by cases p <;> rfl
@[simp] theorem suspend_script (s : State) (p : Port) (i : Instr) (l : Label) (x : Locals) : (s.suspend p i l x).script = s.script := by cases p <;> rfl
@[simp] theorem suspend_draws (s : State) (p : Port) (i : Instr) (l : Label) (x : Locals) : (s.suspend p i l x).draws = s.draws := by cases p <;> rfl
@[simp] theorem suspend_tick (s : State) (p : Port) (i : Instr) (l : Label) (x : Locals) : (s.suspend p i l x).tick = s.tick := by cases p <;> rfl
@[simp] theorem suspend_buf (s : State) (p : Port) (i : Instr) (l : Label) (x : Locals) (b : BufSel) : (s.suspend p i l x).buf b = s.buf b := by cases p <;> cases b <;> rfl
theorem suspend_port_other (s : State) (p : Port) (i : Instr) (l : Label) (x : Locals) (p' : Port) (h : p' ≠ p) : (s.suspend p i l x).port p' = s.port p' :=
  setPort_port_other s p p' _ h

@[simp] theorem retire_par (s : State) (p : Port) (n : Nat) (st : Status) (v : Half) : (s.retire p n st v).par = s.par := by cases p <;> rfl
@[simp] theorem retire_inb (s : State) (p : Port) (n : Nat) (st : Status) (v : Half) : (s.retire p n st v).inb = s.inb := by cases p <;> rfl
@[simp] theorem retire_outb (s : State) (p : Port) (n : Nat) (st : Status) (v : Half) : (s.retire p n st v).outb = s.outb := by cases p <;> rfl
@[simp] theorem retire_fault (s : State) (p : Port) (n : Nat) (st : Status) (v : Half) : (s.retire p n st v).fault = s.fault := by cases p <;> rfl
@[simp] theorem retire_txArm (s : State) (p : Port) (n : Nat) (st : Status) (v : Half) : (s.retire p n st v).txArm = s.txArm := by cases p <;> rfl
@[simp] theorem retire_rxArm (s : State) (p : Port) (n : Nat) (st : Status) (v : Half) : (s.retire p n st v).rxArm = s.rxArm := by cases p <;> rfl
@[simp] theorem retire_evTx (s : State) (p : Port) (n : Nat) (st : Status) (v : Half) : (s.retire p n st v).evTx = s.evTx := by cases p <;> rfl
@[simp] theorem retire_evRx (s : State) (p : Port) (n : Nat) (st : Status) (v : Half) : (s.retire p n st v).evRx = s.evRx := by cases p <;> rfl
@[simp] theorem retire_rxq (s : State) (p : Port) (n : Nat) (st : Status) (v : Half) : (s.retire p n st v).rxq = s.rxq := by cases p <;> rfl
@[simp] theorem retire_txReady (s : State) (p : Port) (n : Nat) (st : Status) (v : Half) : (s.retire p n st v).txReady = s.txReady := by cases p <;> rfl
@[simp] theorem retire_txLog (s : State) (p : Port) (n : Nat) (st : Status) (v : Half) : (s.retire p n st v).txLog = s.txLog := by cases p <;> rfl
@[simp] theorem retire_trace (s : State) (p : Port) (n : Nat) (st : Status) (v : Half) : (s.retire p n st v).trace = s.trace := by cases p <;> rfl
@[simp] theorem retire_turn (s : State) (p : Port) (n : Nat) (st : Status) (v : Half) : (s.retire p n st v).turn = s.turn := by cases p <;> rfl
@[simp] theorem retire_script (s : State) (p : Port) (n : Nat) (st : Status) (v : Half) : (s.retire p n st v).script = s.script := by cases p <;> rfl
@[simp] theorem retire_draws (s : State) (p : Port) (n : Nat) (st : Status) (v : Half) : (s.retire p n st v).draws = s.draws := by cases p <;> rfl
@[simp] theorem retire_tick (s : State) (p : Port) (n : Nat) (st : Status) (v : Half) : (s.retire p n st v).tick = s.tick := by cases p <;> rfl
@[simp] theorem retire_buf (s : State) (p : Port) (n : Nat) (st : Status) (v : Half) (b : BufSel) : (s.retire p n st v).buf b = s.buf b := by cases p <;> cases b <;> rfl
theorem retire_port_other (s : State) (p : Port) (n : Nat) (st : Status) (v : Half) (p' : Port) (h : p' ≠ p) : (s.retire p n st v).port p' = s.port p' :=
  setPort_port_other s p p' _ h

@[simp] theorem setInfl_port_same (s : State) (p : Port) (x : Infl) :
    (s.setInfl p x).port p = { s.port p with infl := x } := by cases p <;> rfl

@[simp] theorem suspend_port_same (s : State) (p : Port) (i : Instr) (l : Label) (x : Locals) :
    (s.suspend p i l x).port p = { s.port p with infl := .busy ⟨i, l, x⟩ } := by cases p <;> rfl

/-- What retirement does to its port: idle, the position past the command, one more response word. -/
@[simp] theorem retire_port_same (s : State) (p : Port) (n : Nat) (st : Status) (v : Half) :
    (s.retire p n st v).port p =
      { s.port p with pos := (s.port p).pos + n, infl := .idle, rsps := (s.port p).rsps ++ [rspWord st v] } := by
  cases p <;> rfl

/-- Retirement does not depend on what was in flight. -/
@[simp] theorem retire_setInfl (s : State) (p : Port) (x : Infl) (n : Nat) (st : Status) (v : Half) :
    (s.setInfl p x).retire p n st v = s.retire p n st v := by cases p <;> rfl

@[simp] theorem suspend_setInfl (s : State) (p : Port) (y : Infl) (i : Instr) (l : Label) (x : Locals) :
    (s.setInfl p y).suspend p i l x = s.suspend p i l x := by cases p <;> rfl

/-! ### `TRACE` -/

@[simp] theorem note_par (s : State) (e : TraceEvent) : (s.note e).par = s.par := rfl
@[simp] theorem note_inb (s : State) (e : TraceEvent) : (s.note e).inb = s.inb := rfl
@[simp] theorem note_outb (s : State) (e : TraceEvent) : (s.note e).outb = s.outb := rfl
@[simp] theorem note_fault (s : State) (e : TraceEvent) : (s.note e).fault = s.fault := rfl
@[simp] theorem note_txArm (s : State) (e : TraceEvent) : (s.note e).txArm = s.txArm := rfl
@[simp] theorem note_rxArm (s : State) (e : TraceEvent) : (s.note e).rxArm = s.rxArm := rfl
@[simp] theorem note_evTx (s : State) (e : TraceEvent) : (s.note e).evTx = s.evTx := rfl
@[simp] theorem note_evRx (s : State) (e : TraceEvent) : (s.note e).evRx = s.evRx := rfl
@[simp] theorem note_rxq (s : State) (e : TraceEvent) : (s.note e).rxq = s.rxq := rfl
@[simp] theorem note_txReady (s : State) (e : TraceEvent) : (s.note e).txReady = s.txReady := rfl
@[simp] theorem note_txLog (s : State) (e : TraceEvent) : (s.note e).txLog = s.txLog := rfl
@[simp] theorem note_fg (s : State) (e : TraceEvent) : (s.note e).fg = s.fg := rfl
@[simp] theorem note_bh (s : State) (e : TraceEvent) : (s.note e).bh = s.bh := rfl
@[simp] theorem note_turn (s : State) (e : TraceEvent) : (s.note e).turn = s.turn := rfl
@[simp] theorem note_script (s : State) (e : TraceEvent) : (s.note e).script = s.script := rfl
@[simp] theorem note_draws (s : State) (e : TraceEvent) : (s.note e).draws = s.draws := rfl
@[simp] theorem note_tick (s : State) (e : TraceEvent) : (s.note e).tick = s.tick := rfl
@[simp] theorem note_trace (s : State) (e : TraceEvent) : (s.note e).trace = s.trace ++ [e] := rfl
@[simp] theorem note_buf (s : State) (e : TraceEvent) (b : BufSel) : (s.note e).buf b = s.buf b := by cases b <;> rfl
@[simp] theorem note_port (s : State) (e : TraceEvent) (p : Port) : (s.note e).port p = s.port p := by cases p <;> rfl

/-! ### The draw -/

@[simp] theorem takeDraw_par (s : State) : (takeDraw s).2.par = s.par := by unfold takeDraw; cases s.draws <;> rfl
@[simp] theorem takeDraw_inb (s : State) : (takeDraw s).2.inb = s.inb := by unfold takeDraw; cases s.draws <;> rfl
@[simp] theorem takeDraw_outb (s : State) : (takeDraw s).2.outb = s.outb := by unfold takeDraw; cases s.draws <;> rfl
@[simp] theorem takeDraw_fault (s : State) : (takeDraw s).2.fault = s.fault := by unfold takeDraw; cases s.draws <;> rfl
@[simp] theorem takeDraw_txArm (s : State) : (takeDraw s).2.txArm = s.txArm := by unfold takeDraw; cases s.draws <;> rfl
@[simp] theorem takeDraw_rxArm (s : State) : (takeDraw s).2.rxArm = s.rxArm := by unfold takeDraw; cases s.draws <;> rfl
@[simp] theorem takeDraw_evTx (s : State) : (takeDraw s).2.evTx = s.evTx := by unfold takeDraw; cases s.draws <;> rfl
@[simp] theorem takeDraw_evRx (s : State) : (takeDraw s).2.evRx = s.evRx := by unfold takeDraw; cases s.draws <;> rfl
@[simp] theorem takeDraw_rxq (s : State) : (takeDraw s).2.rxq = s.rxq := by unfold takeDraw; cases s.draws <;> rfl
@[simp] theorem takeDraw_txReady (s : State) : (takeDraw s).2.txReady = s.txReady := by unfold takeDraw; cases s.draws <;> rfl
@[simp] theorem takeDraw_txLog (s : State) : (takeDraw s).2.txLog = s.txLog := by unfold takeDraw; cases s.draws <;> rfl
@[simp] theorem takeDraw_trace (s : State) : (takeDraw s).2.trace = s.trace := by unfold takeDraw; cases s.draws <;> rfl
@[simp] theorem takeDraw_fg (s : State) : (takeDraw s).2.fg = s.fg := by unfold takeDraw; cases s.draws <;> rfl
@[simp] theorem takeDraw_bh (s : State) : (takeDraw s).2.bh = s.bh := by unfold takeDraw; cases s.draws <;> rfl
@[simp] theorem takeDraw_turn (s : State) : (takeDraw s).2.turn = s.turn := by unfold takeDraw; cases s.draws <;> rfl
@[simp] theorem takeDraw_script (s : State) : (takeDraw s).2.script = s.script := by unfold takeDraw; cases s.draws <;> rfl

/-- A scripted draw is the one the script fixes. -/
theorem takeDraw_scripted (s : State) (d : Bool) (ds : List Bool) (h : s.draws = d :: ds) :
    takeDraw s = (d, { s with draws := ds }) := by unfold takeDraw; rw [h]

/-! ### The turn -/

@[simp] theorem takeEvent_par (s : State) : (takeEvent s).2.par = s.par := by unfold takeEvent; cases s.script <;> rfl
@[simp] theorem takeEvent_inb (s : State) : (takeEvent s).2.inb = s.inb := by unfold takeEvent; cases s.script <;> rfl
@[simp] theorem takeEvent_outb (s : State) : (takeEvent s).2.outb = s.outb := by unfold takeEvent; cases s.script <;> rfl
@[simp] theorem takeEvent_fault (s : State) : (takeEvent s).2.fault = s.fault := by unfold takeEvent; cases s.script <;> rfl
@[simp] theorem takeEvent_txArm (s : State) : (takeEvent s).2.txArm = s.txArm := by unfold takeEvent; cases s.script <;> rfl
@[simp] theorem takeEvent_rxArm (s : State) : (takeEvent s).2.rxArm = s.rxArm := by unfold takeEvent; cases s.script <;> rfl
@[simp] theorem takeEvent_evTx (s : State) : (takeEvent s).2.evTx = s.evTx := by unfold takeEvent; cases s.script <;> rfl
@[simp] theorem takeEvent_evRx (s : State) : (takeEvent s).2.evRx = s.evRx := by unfold takeEvent; cases s.script <;> rfl
@[simp] theorem takeEvent_rxq (s : State) : (takeEvent s).2.rxq = s.rxq := by unfold takeEvent; cases s.script <;> rfl
@[simp] theorem takeEvent_txReady (s : State) : (takeEvent s).2.txReady = s.txReady := by unfold takeEvent; cases s.script <;> rfl
@[simp] theorem takeEvent_txLog (s : State) : (takeEvent s).2.txLog = s.txLog := by unfold takeEvent; cases s.script <;> rfl
@[simp] theorem takeEvent_trace (s : State) : (takeEvent s).2.trace = s.trace := by unfold takeEvent; cases s.script <;> rfl
@[simp] theorem takeEvent_fg (s : State) : (takeEvent s).2.fg = s.fg := by unfold takeEvent; cases s.script <;> rfl
@[simp] theorem takeEvent_bh (s : State) : (takeEvent s).2.bh = s.bh := by unfold takeEvent; cases s.script <;> rfl
@[simp] theorem takeEvent_turn (s : State) : (takeEvent s).2.turn = s.turn := by unfold takeEvent; cases s.script <;> rfl
@[simp] theorem takeEvent_draws (s : State) : (takeEvent s).2.draws = s.draws := by unfold takeEvent; cases s.script <;> rfl

/-- A scripted event is the one the script names. -/
theorem takeEvent_scripted (s : State) (e : Event) (rest : List Event) (h : s.script = e :: rest) :
    takeEvent s = (e, { s with script := rest }) := by unfold takeEvent; rw [h]

end Sys2Proof.Machine
end

