-- ==== Sys2Proof/Laws/Ops.lean ====
section
/-! SUPPORT. For each shared operation, once, everything it can do. -/

namespace Sys2Proof.Machine

/-! ### One buffer -/

section
variable {α : Type}

theorem load_ok {c : CBuf α} {i : Half} {v : α} (h : c.load i = .ok v) :
    i.toNat < c.cap.toNat ∧ memGet c.mem i.toNat = some v := by
  unfold CBuf.load at h
  split at h
  · next hi =>
    split at h
    · next w hw => cases h; exact ⟨hi, hw⟩
    · cases h
  · cases h

theorem store_ok {c d : CBuf α} {i : Half} {v : α} (h : c.store i v = .ok d) :
    i.toNat < c.cap.toNat ∧ d = { c with mem := memSet c.mem i.toNat v } := by
  unfold CBuf.store at h
  split at h
  · next hi => cases h; exact ⟨hi, rfl⟩
  · cases h

/-- `cb_write` (`40_circular_buffer.md` R80): it reports `BufferFull` and changes nothing, or it stores at the write
index and advances it. -/
theorem write_ok {sync : Sync} {role : Role} {c d : CBuf α} {v : α} {st : Status}
    (h : c.write sync role v = .ok (st, d)) :
    c.rsz = false ∧ role = .producer ∧
      ((inc c.wr c.cap = c.rdv ∧ st = .bufferFull ∧ d = c) ∨
       (inc c.wr c.cap ≠ c.rdv ∧ c.wr.toNat < c.cap.toNat ∧ st = .ok ∧
         d = { c with mem := memSet c.mem c.wr.toNat v, wr := inc c.wr c.cap,
                      wrv := if sync = .direct then inc c.wr c.cap else c.wrv })) := by
  unfold CBuf.write at h
  split at h
  · cases h
  · next hrsz =>
    split at h
    · cases h
    · next hrole =>
      refine ⟨by simpa using hrsz, by simpa using hrole, ?_⟩
      split at h
      · next hfull => cases h; exact .inl ⟨hfull, rfl, rfl⟩
      · next hfull =>
        split at h
        · cases h
        · next e he =>
          obtain ⟨hi, rfl⟩ := store_ok he
          cases h
          exact .inr ⟨hfull, hi, rfl, rfl⟩

/-- `cb_read` (R81): it reports `BufferEmpty` and changes nothing, or it loads at the read index and advances it. -/
theorem read_ok {sync : Sync} {role : Role} {c d : CBuf α} {r : Option α} (h : c.read sync role = .ok (r, d)) :
    c.rsz = false ∧ role = .consumer ∧
      ((c.wrv = c.rd ∧ r = none ∧ d = c) ∨
       (c.wrv ≠ c.rd ∧ c.rd.toNat < c.cap.toNat ∧ ∃ v, memGet c.mem c.rd.toNat = some v ∧ r = some v ∧
         d = { c with rd := inc c.rd c.cap, rdv := if sync = .direct then inc c.rd c.cap else c.rdv })) := by
  unfold CBuf.read at h
  split at h
  · cases h
  · next hrsz =>
    split at h
    · cases h
    · next hrole =>
      refine ⟨by simpa using hrsz, by simpa using hrole, ?_⟩
      split at h
      · next hempty => cases h; exact .inl ⟨hempty, rfl, rfl⟩
      · next hempty =>
        split at h
        · cases h
        · next v hv =>
          obtain ⟨hi, hg⟩ := load_ok hv
          cases h
          exact .inr ⟨hempty, hi, v, hg, rfl, rfl⟩

/-- Unit u1 of `cb_resize` (R82). -/
theorem resizeOpen_ok {c d : CBuf α} {n : Half} {st : Status} (h : c.resizeOpen n = .ok (st, d)) :
    c.rsz = false ∧ ((n = 0 ∧ st = .invalidCapacity ∧ d = c) ∨ (n ≠ 0 ∧ st = .ok ∧ d = { c with rsz := true })) := by
  unfold CBuf.resizeOpen at h
  split at h
  · cases h
  · next hrsz =>
    refine ⟨by simpa using hrsz, ?_⟩
    split at h
    · next hn => cases h; exact .inl ⟨hn, rfl, rfl⟩
    · next hn => cases h; exact .inr ⟨hn, rfl, rfl⟩

/-- Unit u2 of `cb_resize` (R82): the newest `min N (newCapacity - 1)` elements, repacked from slot 0, and nothing
else. -/
theorem resizeCopy_ok {c d : CBuf α} {n : Half} {dropped : Nat} (h : c.resizeCopy n = .ok (dropped, d)) :
    dropped = c.count - min c.count (n.toNat - 1) ∧ d.cap = n ∧ d.rd = 0 ∧ d.rdv = 0 ∧
      d.wr = BitVec.ofNat 16 (min c.count (n.toNat - 1)) ∧ d.wrv = d.wr ∧ d.rsz = false ∧ memWf d.mem = true ∧
      d.mem.length = min c.count (n.toNat - 1) ∧ (∀ e ∈ d.mem, e.1 < min c.count (n.toNat - 1)) ∧
      ∀ i < min c.count (n.toNat - 1),
        memGet d.mem i = memGet c.mem ((c.rd.toNat + dropped + i) % c.cap.toNat) ∧ (memGet d.mem i).isSome = true := by
  unfold CBuf.resizeCopy at h
  simp only at h
  split at h
  · cases h
  · next stored hs =>
    cases h
    obtain ⟨hwf, hlen, hrange, hval⟩ := copyRing_some hs
    refine ⟨rfl, rfl, rfl, rfl, rfl, rfl, rfl, hwf, hlen, fun e he => ?_, fun i hi => ?_⟩
    · have := hrange e he; omega
    · simpa using hval i hi

theorem query_ok {β : Type} {c : CBuf α} {a b : β} (h : c.query a = .ok b) : c.rsz = false ∧ b = a := by
  unfold CBuf.query at h
  split at h
  · cases h
  · next hr => cases h; exact ⟨by simpa using hr, rfl⟩

end

/-! ### The channel's primitives -/

theorem cbWrite_ok {p : Port} {b : BufSel} {v : Byte} {s t : State} {st : Status}
    (h : cbWrite p b v s = .ok (st, t)) :
    ∃ c, (s.buf b).write s.par.sync (roleOf p b) v = .ok (st, c) ∧ t = s.setBuf b c := by
  unfold cbWrite at h
  split at h
  · cases h
  · next st' c hc => cases h; exact ⟨c, hc, rfl⟩

theorem cbRead_ok {p : Port} {b : BufSel} {s t : State} {r : Option Byte} (h : cbRead p b s = .ok (r, t)) :
    ∃ c, (s.buf b).read s.par.sync (roleOf p b) = .ok (r, c) ∧ t = s.setBuf b c := by
  unfold cbRead at h
  split at h
  · cases h
  · next r' c hc => cases h; exact ⟨c, hc, rfl⟩

theorem cbResizeOpen_ok {b : BufSel} {n : Half} {s t : State} {st : Status} (h : cbResizeOpen b n s = .ok (st, t)) :
    ∃ c, (s.buf b).resizeOpen n = .ok (st, c) ∧ t = s.setBuf b c := by
  unfold cbResizeOpen at h
  split at h
  · cases h
  · next st' c hc => cases h; exact ⟨c, hc, rfl⟩

theorem cbResizeCopy_ok {b : BufSel} {n : Half} {s t : State} {k : Nat} (h : cbResizeCopy b n s = .ok (k, t)) :
    ∃ c, (s.buf b).resizeCopy n = .ok (k, c) ∧ t = s.setBuf b c := by
  unfold cbResizeCopy at h
  split at h
  · cases h
  · next k' c hc => cases h; exact ⟨c, hc, rfl⟩

/-- `transportReadByte()` (`42_bottom_half_and_agents.md` R128). -/
theorem transportRead_ok {p : Port} {s t : State} {v : Byte} (h : transportRead p s = .ok (v, t)) :
    ∃ rest, s.rxq = v :: rest ∧ t = ({ s with rxq := rest } : State).note (.trd p v) := by
  unfold transportRead at h
  split at h
  · cases h
  · next w rest hq => cases h; exact ⟨rest, hq, rfl⟩

/-- `transportWriteByte(v)` (R129). -/
theorem transportWrite_ok {p : Port} {s t : State} {v : Byte} (h : transportWrite p v s = .ok t) :
    s.txReady = true ∧
      t = ({ (takeDraw s).2 with txLog := s.txLog ++ [v], txReady := (takeDraw s).1 } : State).note (.twr p v) := by
  unfold transportWrite at h
  split at h
  · next hr => cases h; exact ⟨hr, by simp⟩
  · cases h

/-! ### Running a command -/

/-- The induction over the units of a command, done once: a property `I` of (label, locals, state) that every unit keeps
holds wherever the command stops, and `Q` holds of every state it can end in. -/
theorem drive_induct {i : Instr} {unit : Port → Label → Locals → State → UnitResult} {p : Port}
    {I : Label → Locals → State → Prop} {Q : State → Prop}
    (hgoto : ∀ l x s l' x' s', I l x s → unit p l x s = .goto l' x' s' → I l' x' s')
    (hretire : ∀ l x s st v s', I l x s → unit p l x s = .retire st v s' → Q (s'.retire p (wordCount i) st v))
    (hsuspend : ∀ l x s, I l x s → Q (s.suspend p i l x))
    {more : Nat} {l : Label} {x : Locals} {s t : State} (hI : I l x s) (h : drive i unit p more l x s = .next t) :
    Q t := by
  induction more generalizing l x s with
  | zero =>
    unfold drive at h
    split at h
    · next l' x' s' hu => cases h; exact hsuspend _ _ _ (hgoto _ _ _ _ _ _ hI hu)
    · next st v s' hu => cases h; exact hretire _ _ _ _ _ _ hI hu
    · cases h; exact hsuspend _ _ _ hI
    · cases h
    · cases h
  | succ n ih =>
    unfold drive at h
    split at h
    · next l' x' s' hu => exact ih (hgoto _ _ _ _ _ _ hI hu) h
    · next st v s' hu => cases h; exact hretire _ _ _ _ _ _ hI hu
    · cases h; exact hsuspend _ _ _ hI
    · cases h
    · cases h

/-- An idle port starts a command at unit u1. -/
theorem runCommand_idle {i : Instr} {unit : Port → Label → Locals → State → UnitResult} {s : State}
    (h : (s.port s.turn.port).infl = .idle) :
    runCommand i unit s = drive i unit s.turn.port s.turn.more .u1 Locals.init s := by
  unfold runCommand; rw [h]

/-- A port goes on with its command in flight. -/
theorem runCommand_busy {i : Instr} {unit : Port → Label → Locals → State → UnitResult} {s : State} {l : Label}
    {x : Locals} (h : (s.port s.turn.port).infl = .busy ⟨i, l, x⟩) :
    runCommand i unit s = drive i unit s.turn.port s.turn.more l x s := by
  unfold runCommand; rw [h]; simp

/-- Everything a command can do in a turn. -/
theorem runCommand_next {i : Instr} {unit : Port → Label → Locals → State → UnitResult} {s t : State}
    (h : runCommand i unit s = .next t) :
    ((s.port s.turn.port).infl = .idle ∧
        drive i unit s.turn.port s.turn.more .u1 Locals.init s = .next t) ∨
      (∃ c, (s.port s.turn.port).infl = .busy c ∧ c.cmd = i ∧
        drive i unit s.turn.port s.turn.more c.unit c.locals s = .next t) ∨
      (∃ c, (s.port s.turn.port).infl = .busy c ∧ c.cmd ≠ i ∧ t = s) := by
  unfold runCommand at h
  split at h
  · next hi => exact .inl ⟨hi, h⟩
  · next c hc =>
    split at h
    · next he => exact .inr (.inl ⟨c, hc, he, h⟩)
    · next he => cases h; exact .inr (.inr ⟨c, hc, he, rfl⟩)

/-! ### The agents -/

/-- A view moves only as R123 allows, and nothing else changes. -/
theorem syncWStep_cases (b : BufSel) (x : Half) (s : State) :
    syncWStep b x s = s ∨
      (s.par.sync = .lagged ∧ (s.buf b).mayMoveWrv x = true ∧
        syncWStep b x s = s.setBuf b { s.buf b with wrv := x }) := by
  unfold syncWStep
  split
  · next h => exact .inr ⟨h.1, h.2, rfl⟩
  · exact .inl rfl

theorem syncRStep_cases (b : BufSel) (x : Half) (s : State) :
    syncRStep b x s = s ∨
      (s.par.sync = .lagged ∧ (s.buf b).mayMoveRdv x = true ∧
        syncRStep b x s = s.setBuf b { s.buf b with rdv := x }) := by
  unfold syncRStep
  split
  · next h => exact .inr ⟨h.1, h.2, rfl⟩
  · exact .inl rfl

/-- Everything a port's turn can do. -/
theorem runPort_next {p : Port} {more : Nat} {s t : State} (h : runPort p more s = .next t) :
    (∃ c, (s.port p).infl = .busy c ∧ exec c.cmd { s with turn := ⟨p, more⟩ } = .next t) ∨
      ((s.port p).infl = .idle ∧
        ((∃ i n, decode (s.pending p) = .legal i n ∧ exec i { s with turn := ⟨p, more⟩ } = .next t) ∨
         (∃ e n, decode (s.pending p) = .illegal e n ∧ t = illegalCommand p n { s with turn := ⟨p, more⟩ }) ∨
         (decode (s.pending p) = .starved ∧ t = { s with turn := ⟨p, more⟩ }))) := by
  unfold runPort at h
  simp only at h
  split at h
  · next c hc => exact .inl ⟨c, hc, h⟩
  · next hi =>
    refine .inr ⟨hi, ?_⟩
    split at h
    · next i n hd => exact .inl ⟨i, n, hd, h⟩
    · next e n hd => cases h; exact .inr (.inl ⟨e, n, hd, rfl⟩)
    · next hd => cases h; exact .inr (.inr ⟨hd, rfl⟩)

end Sys2Proof.Machine
end

