-- ==== Sys2Proof/Laws/PerInstr.lean ====
section
/-! SUPPORT. Statements about every instruction, one lemma per constructor. -/

namespace Sys2Proof.Laws

/-- The opcode field of a command word. -/
theorem wordOpc_header (opc : BitVec 8) (sel np : Bool) (imm : Half) : wordOpc (header opc sel np imm) = opc := by
  apply BitVec.eq_of_getLsbD_eq
  intro i hi
  rw [wordOpc, BitVec.getLsbD_extractLsb']
  show (decide (i < 8) && BitVec.getLsbD (w := 8 + 1 + 1 + 6 + 16)
    (opc ++ BitVec.ofBool sel ++ BitVec.ofBool np ++ (0 : BitVec 6) ++ imm) (24 + i)) = opc.getLsbD i
  rw [BitVec.getLsbD_append, if_neg (by omega), BitVec.getLsbD_append, if_neg (by omega), BitVec.getLsbD_append,
    if_neg (by omega), BitVec.getLsbD_append, if_neg (by omega)]
  simp only [hi, decide_true, Bool.true_and]
  congr 1
  omega

end Sys2Proof.Laws

namespace Sys2Proof.Laws.HeaderOpcode

/-- The first word of an encoded command carries the opcode of the command's row in the opcode table
(`30_encoding.md` R64): bits 31 to 24 are those of the row's match value. -/
def Statement (i : Instr) : Prop :=
  ∃ r ∈ opcodeTable, r.mnemonic = i.mnemonic ∧
    ∃ w rest, encode i = w :: rest ∧ wordOpc w = wordOpc r.pattern

theorem cbWrite (b : BufSel) (v : Byte) : Statement (.cbWrite b v) :=
  ⟨⟨"CB.WRITE", 0x01000000, 0xFF7FFF00⟩, by decide, rfl, _, _, rfl, wordOpc_header _ _ _ _⟩

theorem cbRead (b : BufSel) : Statement (.cbRead b) :=
  ⟨⟨"CB.READ", 0x02000000, 0xFF7FFFFF⟩, by decide, rfl, _, _, rfl, wordOpc_header _ _ _ _⟩

theorem cbResize (b : BufSel) (n : Half) : Statement (.cbResize b n) :=
  ⟨⟨"CB.RESIZE", 0x03000000, 0xFF7F0000⟩, by decide, rfl, _, _, rfl, wordOpc_header _ _ _ _⟩

theorem cbIsEmpty (b : BufSel) : Statement (.cbIsEmpty b) :=
  ⟨⟨"CB.ISEMPTY", 0x04000000, 0xFF7FFFFF⟩, by decide, rfl, _, _, rfl, wordOpc_header _ _ _ _⟩

theorem cbIsFull (b : BufSel) : Statement (.cbIsFull b) :=
  ⟨⟨"CB.ISFULL", 0x05000000, 0xFF7FFFFF⟩, by decide, rfl, _, _, rfl, wordOpc_header _ _ _ _⟩

theorem cbCount (b : BufSel) : Statement (.cbCount b) :=
  ⟨⟨"CB.COUNT", 0x06000000, 0xFF7FFFFF⟩, by decide, rfl, _, _, rfl, wordOpc_header _ _ _ _⟩

theorem scBrdb : Statement .scBrdb :=
  ⟨⟨"SC.BRDB", 0x10000000, 0xFFFFFFFF⟩, by decide, rfl, _, _, rfl, wordOpc_header _ _ _ _⟩

theorem scBwrb (v : Byte) : Statement (.scBwrb v) :=
  ⟨⟨"SC.BWRB", 0x11000000, 0xFFFFFF00⟩, by decide, rfl, _, _, rfl, wordOpc_header _ _ _ _⟩

theorem scBwrite (np : Bool) (len : Half) (bytes : List Byte) : Statement (.scBwrite np len bytes) :=
  ⟨⟨"SC.BWRITE", 0x12000000, 0xFFBF0000⟩, by decide, rfl, _, _, rfl, wordOpc_header _ _ _ _⟩

theorem scEnq (v : Byte) : Statement (.scEnq v) :=
  ⟨⟨"SC.ENQ", 0x13000000, 0xFFFFFF00⟩, by decide, rfl, _, _, rfl, wordOpc_header _ _ _ _⟩

theorem scDeq : Statement .scDeq :=
  ⟨⟨"SC.DEQ", 0x14000000, 0xFFFFFFFF⟩, by decide, rfl, _, _, rfl, wordOpc_header _ _ _ _⟩

theorem scResize (n : Half) : Statement (.scResize n) :=
  ⟨⟨"SC.RESIZE", 0x15000000, 0xFFFF0000⟩, by decide, rfl, _, _, rfl, wordOpc_header _ _ _ _⟩

theorem scBhalf : Statement .scBhalf :=
  ⟨⟨"SC.BHALF", 0x16000000, 0xFFFFFFFF⟩, by decide, rfl, _, _, rfl, wordOpc_header _ _ _ _⟩

theorem scArmrx : Statement .scArmrx :=
  ⟨⟨"SC.ARMRX", 0x17000000, 0xFFFFFFFF⟩, by decide, rfl, _, _, rfl, wordOpc_header _ _ _ _⟩

theorem scArmtx : Statement .scArmtx :=
  ⟨⟨"SC.ARMTX", 0x18000000, 0xFFFFFFFF⟩, by decide, rfl, _, _, rfl, wordOpc_header _ _ _ _⟩

theorem scDistx : Statement .scDistx :=
  ⟨⟨"SC.DISTX", 0x19000000, 0xFFFFFFFF⟩, by decide, rfl, _, _, rfl, wordOpc_header _ _ _ _⟩

theorem scStat : Statement .scStat :=
  ⟨⟨"SC.STAT", 0x1A000000, 0xFFFFFFFF⟩, by decide, rfl, _, _, rfl, wordOpc_header _ _ _ _⟩

end Sys2Proof.Laws.HeaderOpcode
end

