-- ==== Sys2Proof/Laws/Runs.lean ====
section
/-! SUPPORT. Lemmas of what a run contributes, and of the premises of R178. -/

namespace Sys2Proof.Machine

variable {f : State → Event → State → List Byte} {sched : Nat → Event} {run : Nat → State}

@[simp] theorem bytesOver_zero : bytesOver f sched run 0 = [] := rfl

@[simp] theorem bytesOver_succ (n : Nat) :
    bytesOver f sched run (n + 1) = bytesOver f sched run n ++ f (run n) (sched n) (run (n + 1)) := rfl

/-- What a run has contributed stays at the front of what it contributes later. -/
theorem bytesOver_prefix {n m : Nat} (h : n ≤ m) : bytesOver f sched run n <+: bytesOver f sched run m := by
  induction m, h using Nat.le_induction with
  | base => exact List.prefix_refl _
  | succ m _ ih => exact ih.trans (List.prefix_append _ _)

/-- Whatever holds at the start of a run and is kept by every event holds all along it. -/
theorem run_induction {P : State → Prop} (hrun : IsRun sched run) (h0 : P (run 0))
    (hstep : ∀ e s t, P s → perform e s = .next t → P t) (n : Nat) : P (run n) := by
  induction n with
  | zero => exact h0
  | succ n ih => exact hstep _ _ _ ih (hrun n).2

/-- The premises of "every enqueued byte is sent" (R178), one by one. -/
theorem Premises.everyByteSent (h : Premises .everyByteSent sched run) :
    IsRun sched run ∧ Along preempts sched run ∧ (∀ n, ViewsCurrent (run n)) ∧ Along enqOnly sched run ∧
      (∀ n, (run n).par.backend = .register → irqGated (run n) (sched n) = true ∧ txReadyAtBh (run n) (sched n) = true) ∧
      InvocationFair sched run ∧ EnvMakesReady run ∧ EnvEndsDrain sched run := by
  obtain ⟨r, a, f⟩ := h
  simp only [Along, premiseAt, Bool.and_eq_true, Bool.or_eq_true, decide_eq_true_eq, beq_iff_eq] at a
  exact ⟨r, fun n => (a n).1.1.1, fun n => (a n).1.1.2, fun n => (a n).1.2,
    fun n b => (a n).2.resolve_left (by simp [b]), f⟩

end Sys2Proof.Machine
end

