-- ==== Sys2Proof/Laws/StandAlone.lean ====
section
/-! SUPPORT. What each operation of a stand-alone buffer can do. -/

namespace Sys2Proof.Machine

variable {w : ElementWidth} {sync : Sync} {c d : LoneBuffer w} {a : BufferAnswer}

/-- Construction answers an empty buffer of the capacity asked for, which is not 0, with no resize begun. -/
theorem construct_ok {capInit : Half} (h : LoneBuffer.construct w capInit = .ok c) :
    capInit ≠ 0 ∧ c = ⟨CBuf.init (BitVec w.bits) capInit, none⟩ := by
  unfold LoneBuffer.construct at h
  split at h
  · cases h
  · next hn => cases h; exact ⟨hn, rfl⟩

/-- A side's command is no step, or is what it is outside a resize of that side. -/
theorem accept_ok {role : Role} {r : LoneResult w} (h : c.accept role r = .ok (a, d)) :
    (c.inResize role = true ∧ a = none ∧ d = c) ∨ (c.inResize role = false ∧ r = .ok (a, d)) := by
  unfold LoneBuffer.accept at h
  split at h
  · next hr => cases h; exact .inl ⟨hr, rfl, rfl⟩
  · next hr => exact .inr ⟨by simpa using hr, h⟩

/-- The second unit of a resize is no step, or copies with the capacity of the first and ends the resize. -/
theorem finishResize_ok {role : Role} (h : c.finishResize role = .ok (a, d)) :
    (c.inResize role = false ∧ a = none ∧ d = c) ∨
    ∃ newCap n e, c.resizing = some (role, newCap) ∧ c.buf.resizeCopy newCap = .ok (n, e) ∧ d = ⟨e, none⟩ ∧
      a = if n = 0 then some (.ok, 0) else some (.truncated, BitVec.ofNat 16 n) := by
  unfold LoneBuffer.finishResize at h
  split at h
  · next hn => cases h; exact .inl ⟨by simp [LoneBuffer.inResize, hn], rfl, rfl⟩
  · next r newCap hr =>
    split at h
    · next hne => cases h; exact .inl ⟨by simp [LoneBuffer.inResize, hr, hne], rfl, rfl⟩
    · next heq =>
      split at h
      · cases h
      · next n e he => cases h; exact .inr ⟨newCap, n, e, by rw [hr, not_not.mp heq], he, rfl, rfl⟩

/-- A run of one unit more is that unit and then the rest. -/
theorem runBuffer_cons {u : BufferUnit w} {us : List (BufferUnit w)} {r : BufferRun w}
    (h : runBuffer sync (u :: us) c = .ok r) :
    ∃ a d r', bufferStep sync c u = .ok (a, d) ∧ runBuffer sync us d = .ok r' ∧
      r = ⟨acceptedBy u a ++ r'.accepted, returnedBy u a ++ r'.returned, r'.last⟩ := by
  unfold runBuffer at h
  split at h
  · cases h
  · next a d hd =>
    split at h
    · cases h
    · next r' hr => cases h; exact ⟨a, d, r', hd, hr, rfl⟩

end Sys2Proof.Machine
end

