-- ==== Sys2Proof/Machine/Script.lean ====
section
/-! DEFINITION. Test scripts: pseudo-instructions and directives (`30_encoding.md` R70, R71). A script fixes the schedule
of a run; the machine does not depend on it. -/

namespace Sys2Proof.Machine

/-- `SC.PUTS "s"`: one `SC.ENQ` per character (R70), whichever port the line names (log 28). -/
def puts (bytes : List Byte) : List Instr := bytes.map .scEnq

/-- `SC.DRAIN n`: `n` consecutive `SC.BHALF` (R70), whichever port the line names (log 28). -/
def drainTimes (n : Nat) : List Instr := List.replicate n .scBhalf

/-- One line of a script (R71). A view move without a value is a full catch-up; a command without a label runs to
retirement; `draw` is the `; draw TXRDY=<v>` of the line after it. -/
inductive ScriptLine where
  | command (p : Port) (i : Instr) (upto : Option Label)
  | resume (p : Port) (upto : Option Label)
  | syncW (b : BufSel) (x : Option Half)
  | syncR (b : BufSel) (x : Option Half)
  | syncAll
  | envRx (v : Byte)
  | envTxRdy (ready : Bool)
  | draw (ready : Bool)
  deriving DecidableEq, Repr

/-- The label of the unit that port `p` runs next. -/
def nextUnit (s : State) (p : Port) : Label :=
  match (s.port p).infl with
  | .idle => .u1
  | .busy c => c.unit

/-- Runs the units of port `p` one at a time up to and including the unit of the label, or to retirement or a hold;
`fuel` units at most. -/
def runUpto (p : Port) (target : Label) : Nat → State → Host.Outcome State Fault Refusal
  | 0, s => .next s
  | fuel + 1, s =>
    match perform (.run p 0) s with
    | .fault f => .fault f
    | .refused r => .refused r
    | .next s' =>
      if nextUnit s p = target ∨ (s'.port p).infl = .idle ∨ s'.port p = s.port p then .next s'
      else runUpto p target fuel s'

/-- Runs the command in flight and the commands of the stream of port `p`, in program order, until the stream is
exhausted or the port is held; `fuel` turns at most. -/
def runOut (p : Port) : Nat → State → Host.Outcome State Fault Refusal
  | 0, s => .next s
  | fuel + 1, s =>
    match perform (.run p (unitBound s)) s with
    | .fault f => .fault f
    | .refused r => .refused r
    | .next s' => if portDone s' p ∨ s'.port p = s.port p then .next s' else runOut p fuel s'

/-- A number of turns that no port exceeds before it is done or held: one for the command in flight, one for each word
not yet taken. -/
def turnBound (s : State) (p : Port) : Nat := (s.pending p).length + 1

/-- Runs port `p` to a label of its command in flight or next, or, without a label, until its stream is exhausted or it is
held. -/
def runTo (p : Port) (upto : Option Label) (s : State) : Host.Outcome State Fault Refusal :=
  match upto with
  | none => runOut p (turnBound s p) s
  | some l => runUpto p l (unitBound s) s

/-- The feeder of port `p` presents the words of a command. -/
def presentAll (p : Port) (ws : List Word) (s : State) : State := ws.foldl (fun t w => presentStep p w t) s

/-- What one line of a script does. A command line comes after the commands that its port has not finished, in program
order (`20_memory.md` R47). `ENV: TXRDY 0` sets a start state: no agent clears `TXRDY`
(`42_bottom_half_and_agents.md` R134, log 22). DESIGN CHOICE (log 32): R71 is silent on a draw that the units of its own
line do not take; the draws of all lines stand in one queue, and the next transport write takes the oldest, on whichever
line and port it falls. -/
def runLine (line : ScriptLine) (s : State) : Host.Outcome State Fault Refusal :=
  match line with
  | .command p i upto =>
    match runTo p none s with
    | .next s' => runTo p upto (presentAll p (encode i) s')
    | .fault f => .fault f
    | .refused r => .refused r
  | .resume p upto => runTo p upto s
  | .syncW b x => perform (.syncW b (x.getD (s.buf b).wr)) s
  | .syncR b x => perform (.syncR b (x.getD (s.buf b).rd)) s
  | .syncAll =>
    .next (syncRStep .outbound s.outb.rd (syncRStep .inbound s.inb.rd
      (syncWStep .outbound s.outb.wr (syncWStep .inbound s.inb.wr s))))
  | .envRx v => perform (.envRx v) s
  | .envTxRdy ready => .next { s with txReady := ready }
  | .draw ready => .next { s with draws := s.draws ++ [ready] }

/-- The lines of a script, top to bottom, stopping at the first fault or refusal. -/
def runScript : List ScriptLine → State → Host.Outcome State Fault Refusal
  | [], s => .next s
  | line :: rest, s =>
    match runLine line s with
    | .next s' => runScript rest s'
    | .fault f => .fault f
    | .refused r => .refused r

/-- What follows the last line of a script: the ports that are not done go on, the port `first` before the other, until
both streams are exhausted and both ports idle, or a port is held; no `SYNC` or `ENV` step occurs that no line lists
(`70_reset_and_hazards.md` R177). Where both ports have something left, the script leaves their order open, and `first`
names it (log 27). -/
def finishRun (first : Port) (s : State) : Host.Outcome State Fault Refusal :=
  let second : Port := match first with | .fg => .bh | .bh => .fg
  match (if portDone s first then .next s else runOut first (turnBound s first) s) with
  | .fault f => .fault f
  | .refused r => .refused r
  | .next s' => if portDone s' second then .next s' else runOut second (turnBound s' second) s'

/-- How a test run stands when no port can go on. -/
inductive RunVerdict where
  /-- Both streams are exhausted and both ports are idle: the run has ended, in this state. -/
  | ended (s : State)
  /-- A port is held, and no step of the script lifts it: the run is stuck, in this state. -/
  | stuck (s : State)
  /-- A port waits for words of a command that the script never presents. -/
  | starved (s : State)
  | faulted (f : Fault)
  | refused (r : Refusal)
  deriving DecidableEq, Repr

/-- The test run of a script (R177): its lines, then what follows the last of them. -/
def runTest (first : Port) (lines : List ScriptLine) (s : State) : RunVerdict :=
  match runScript lines s with
  | .fault f => .faulted f
  | .refused r => .refused r
  | .next s' =>
    match finishRun first s' with
    | .fault f => .faulted f
    | .refused r => .refused r
    | .next t => if runEnded t then .ended t else if held t .fg || held t .bh then .stuck t else .starved t

end Sys2Proof.Machine
end

