-- ==== Sys2Proof/Machine/Assembler.lean ====
section
/-! DEFINITION. The assembler text of a script line (`30_encoding.md` R69 to R71), read from a list of characters. A
notation for test programs; no word of it reaches the block. -/

namespace Sys2Proof.Machine

/-- A token of a line. -/
inductive Tok where
  | word (cs : List Char)
  | num (n : Nat)
  | str (bytes : List Byte)
  | punct (c : Char)
  | draw (ready : Bool)
  deriving DecidableEq, Repr

/-- The value of a digit, decimal or hexadecimal. -/
def digitValue (c : Char) : Option Nat :=
  let n := c.toNat
  if 48 ≤ n ∧ n ≤ 57 then some (n - 48)
  else if 97 ≤ n ∧ n ≤ 102 then some (n - 87)
  else if 65 ≤ n ∧ n ≤ 70 then some (n - 55)
  else none

/-- A number from its digits, highest first, to a base. -/
def digitsValue (base : Nat) : List Char → Nat → Option Nat
  | [], n => some n
  | c :: cs, n =>
    match digitValue c with
    | none => none
    | some d => if d < base then digitsValue base cs (base * n + d) else none

/-- "Numbers are decimal or `0x` hexadecimal" (R69). -/
def numberOf : List Char → Option Nat
  | '0' :: 'x' :: ds => if ds = [] then none else digitsValue 16 ds 0
  | ds => if ds = [] then none else digitsValue 10 ds 0

/-- A character of a word or a number. -/
def isWordChar (c : Char) : Bool := c.isAlphanum || c == '.' || c == '@'

/-- A run of characters as a token. -/
def wordTok (cs : List Char) : Option Tok :=
  match cs with
  | [] => none
  | c :: _ => if c.isDigit then (numberOf cs).map .num else some (.word cs)

/-- The draws `TXRDY=<v>` in the text after `; draw` (R71). -/
def drawToks : List Char → List Tok
  | [] => []
  | 'T' :: 'X' :: 'R' :: 'D' :: 'Y' :: '=' :: '0' :: cs => .draw false :: drawToks cs
  | 'T' :: 'X' :: 'R' :: 'D' :: 'Y' :: '=' :: '1' :: cs => .draw true :: drawToks cs
  | _ :: cs => drawToks cs

/-- What follows a `;`: the draws of the line, in their order, if the text begins with `draw`, else a comment (R69, R71).
DESIGN CHOICE (log 29): a `; draw TXRDY=<v>` inside a comment that has begun with other text is part of that comment, and
the draw stays free; the spec leaves open which of the two it is. -/
def afterSemicolon : List Char → List Tok
  | ' ' :: cs => afterSemicolon cs
  | 'd' :: 'r' :: 'a' :: 'w' :: ' ' :: cs => drawToks cs
  | _ => []

/-- The draw of a token. -/
def Tok.draw? : Tok → Option Bool
  | .draw v => some v
  | _ => none

/-- The tokens of a line: `acc` is the word under way, and the last argument the bytes of the string under way. A comment
runs from `;` to the end of the line. A character of a string is its ASCII code (R69). DESIGN CHOICE (log 30): the spec
is silent on a character that has none; it is taken as its code point modulo 256. -/
def lexLine : List Char → List Char → Option (List Byte) → Option (List Tok)
  | [], acc, none => if acc = [] then some [] else (wordTok acc).map (fun t => [t])
  | [], _, some _ => none
  | c :: cs, acc, some bytes =>
    if c.toNat = 34 then (lexLine cs acc none).map (.str bytes :: ·)
    else lexLine cs acc (some (bytes ++ [BitVec.ofNat 8 c.toNat]))
  | c :: cs, acc, none =>
    if isWordChar c then lexLine cs (acc ++ [c]) none
    else
      let rest : Option (List Tok) :=
        if c = ';' then some (afterSemicolon cs)
        else if c = ' ' then lexLine cs [] none
        else if c.toNat = 34 then lexLine cs [] (some [])
        else if c = ':' ∨ c = ',' ∨ c = '[' ∨ c = ']' then (lexLine cs [] none).map (.punct c :: ·)
        else none
      if acc = [] then rest
      else
        match wordTok acc, rest with
        | some t, some ts => some (t :: ts)
        | _, _ => none

/-- A buffer operand: `in` or `out` (R69). -/
def bufferTok : List Char → Option BufSel
  | ['i', 'n'] => some .inbound
  | ['o', 'u', 't'] => some .outbound
  | _ => none

/-- A port name. -/
def portTok : List Char → Option Port
  | ['F', 'G'] => some .fg
  | ['B', 'H'] => some .bh
  | _ => none

/-- A number that fits `w` bits. -/
def fits (w n : Nat) : Option (BitVec w) := if n < 2 ^ w then some (BitVec.ofNat w n) else none

/-- The bytes of a list `[v, v, ...]` after its opening bracket, and the tokens after it. -/
def byteListToks : List Tok → Option (List Byte × List Tok)
  | [.punct ']'] => some ([], [])
  | .punct ']' :: rest => some ([], rest)
  | .num n :: .punct ',' :: rest =>
    match fits 8 n, byteListToks rest with
    | some v, some (vs, r) => if vs = [] then none else some (v :: vs, r)
    | _, _ => none
  | .num n :: .punct ']' :: rest => (fits 8 n).map (fun v => ([v], rest))
  | _ => none

/-- A transmit payload as a command: its length must fit the header (R69). -/
def bwriteOf (bytes : List Byte) : Option Instr :=
  (fits 16 bytes.length).map (fun len => .scBwrite false len bytes)

/-- The label of `@u<k>`; `@end` has none. -/
def labelOf : List Char → Option (Option Label)
  | ['@', 'e', 'n', 'd'] => some none
  | ['@', 'u', '1'] => some (some .u1)
  | ['@', 'u', '2'] => some (some .u2)
  | ['@', 'u', '3'] => some (some .u3)
  | ['@', 'u', '4'] => some (some .u4)
  | ['@', 'u', '5'] => some (some .u5)
  | ['@', 'u', '6'] => some (some .u6)
  | ['@', 'u', '7'] => some (some .u7)
  | ['@', 'u', '7', 'a'] => some (some .u7a)
  | ['@', 'u', '7', 'b'] => some (some .u7b)
  | ['@', 'u', '8'] => some (some .u8)
  | ['@', 'u', '9'] => some (some .u9)
  | _ => none

/-- A mnemonic's operands: the commands it stands for, one but for a pseudo-instruction, and the tokens left. DESIGN
CHOICE (log 28): `SC.PUTS` and `SC.DRAIN` (R70) are expanded on either port, although the spec gives their expansions on
`FG` and on `BH` only; on the other port the first command of the expansion faults `PortDiscipline`. -/
def operandsOf (mnemonic : List Char) (toks : List Tok) : Option (List Instr × List Tok) :=
  let one (i : Instr) (rest : List Tok) : Option (List Instr × List Tok) := some ([i], rest)
  match String.ofList mnemonic, toks with
  | "CB.WRITE", .word b :: .punct ',' :: .num v :: rest =>
    (bufferTok b).bind fun b => (fits 8 v).bind fun v => one (.cbWrite b v) rest
  | "CB.READ", .word b :: rest => (bufferTok b).bind fun b => one (.cbRead b) rest
  | "CB.RESIZE", .word b :: .punct ',' :: .num n :: rest =>
    (bufferTok b).bind fun b => (fits 16 n).bind fun n => one (.cbResize b n) rest
  | "CB.ISEMPTY", .word b :: rest => (bufferTok b).bind fun b => one (.cbIsEmpty b) rest
  | "CB.ISFULL", .word b :: rest => (bufferTok b).bind fun b => one (.cbIsFull b) rest
  | "CB.COUNT", .word b :: rest => (bufferTok b).bind fun b => one (.cbCount b) rest
  | "SC.BRDB", rest => one .scBrdb rest
  | "SC.BWRB", .num v :: rest => (fits 8 v).bind fun v => one (.scBwrb v) rest
  | "SC.BWRITE", .str bytes :: rest => (bwriteOf bytes).bind fun i => one i rest
  | "SC.BWRITE", .punct '[' :: rest =>
    (byteListToks rest).bind fun r => (bwriteOf r.1).bind fun i => one i r.2
  | "SC.BWRITE", .word ['n', 'u', 'l', 'l'] :: .punct ',' :: .num n :: rest =>
    (fits 16 n).bind fun n => one (.scBwrite true n []) rest
  | "SC.BWRITE", .word ['n', 'u', 'l', 'l'] :: rest => one (.scBwrite true 0 []) rest
  | "SC.ENQ", .num v :: rest => (fits 8 v).bind fun v => one (.scEnq v) rest
  | "SC.DEQ", rest => one .scDeq rest
  | "SC.RESIZE", .num n :: rest => (fits 16 n).bind fun n => one (.scResize n) rest
  | "SC.BHALF", rest => one .scBhalf rest
  | "SC.ARMRX", rest => one .scArmrx rest
  | "SC.ARMTX", rest => one .scArmtx rest
  | "SC.DISTX", rest => one .scDistx rest
  | "SC.STAT", rest => one .scStat rest
  | "SC.PUTS", .str bytes :: rest => some (puts bytes, rest)
  | "SC.DRAIN", .num n :: rest => some (drainTimes n, rest)
  | _, _ => none

/-- A view directive after its port of origin: `W <buf>`, `R <buf>`, each with an optional `to <x>`, or `ALL` (R71). -/
def syncOf : List Tok → Option ScriptLine
  | [.word ['A', 'L', 'L']] => some .syncAll
  | .word ['W'] :: .word b :: rest => (bufferTok b).bind fun b => (target rest).map (.syncW b)
  | .word ['R'] :: .word b :: rest => (bufferTok b).bind fun b => (target rest).map (.syncR b)
  | _ => none
where
  /-- The value after `to`, if there is one. -/
  target : List Tok → Option (Option Half)
    | [] => some none
    | [.word ['t', 'o'], .num x] => (fits 16 x).map some
    | _ => none

/-- The environment directives (R71). -/
def envOf : List Tok → Option ScriptLine
  | [.word ['R', 'X'], .num v] => (fits 8 v).map .envRx
  | [.word ['T', 'X', 'R', 'D', 'Y'], .num 0] => some (.envTxRdy false)
  | [.word ['T', 'X', 'R', 'D', 'Y'], .num 1] => some (.envTxRdy true)
  | _ => none

/-- A line of a port: a command, with an optional label at its end, or the going on of the command in flight. -/
def portLineOf (p : Port) : List Tok → Option (List ScriptLine)
  | [.word ('@' :: cs)] => (labelOf ('@' :: cs)).map (fun l => [.resume p l])
  | .word m :: toks =>
    match operandsOf m toks with
    | some (is, []) => some (is.map (fun i => .command p i none))
    | some ([i], [.word l]) => (labelOf l).map (fun l => [.command p i l])
    | _ => none
  | _ => none

/-- The script lines a line of text stands for, its draws first (log 32): none for a blank or comment line, more than one for a
pseudo-instruction. -/
def assembleLine (cs : List Char) : Option (List ScriptLine) :=
  match lexLine cs [] none with
  | none => none
  | some toks =>
    let draws : List ScriptLine := (toks.filterMap Tok.draw?).map .draw
    let lines : Option (List ScriptLine) :=
      match toks.filter (fun t => t.draw?.isNone) with
      | [] => some []
      | .word ['S', 'Y', 'N', 'C'] :: .punct ':' :: rest => (syncOf rest).map (fun l => [l])
      | .word ['E', 'N', 'V'] :: .punct ':' :: rest => (envOf rest).map (fun l => [l])
      | .word p :: .punct ':' :: rest => (portTok p).bind fun p => portLineOf p rest
      | _ => none
    lines.map (draws ++ ·)

end Sys2Proof.Machine
end

