-- ==== Sys2Proof/Machine/GrayCode.lean ====
section
/-! DEFINITION. The binary-reflected Gray code (`30_encoding.md` R72), recorded for the implementer. No other definition
uses it: the views follow `20_memory.md` R50 alone. -/

namespace Sys2Proof.Machine

/-- `gray(i) = i xor (i >> 1)`. -/
def gray (i : Nat) : Nat := i ^^^ (i >>> 1)

/-- The bits of the index a `k`-bit code word `g` stands for, from bit `k-1` down: `bin(g)[k-1] = g[k-1]`,
`bin(g)[j] = bin(g)[j+1] xor g[j]`; `above` is `bin(g)[j+1]`. -/
def grayBits (g : Nat) : Nat → Bool → List Bool
  | 0, _ => []
  | j + 1, above =>
    let bit := above ^^ g.testBit j
    bit :: grayBits g j bit

/-- The number whose bits, highest first, are `bs`. -/
def ofBitsHighFirst : List Bool → Nat → Nat
  | [], n => n
  | b :: bs, n => ofBitsHighFirst bs (2 * n + b.toNat)

/-- `bin(g)` on `k` bits. -/
def bin (k g : Nat) : Nat := ofBitsHighFirst (grayBits g k false) 0

/-- In how many of the low `k` bits two code words differ. -/
def bitsApart (k a b : Nat) : Nat := ((List.range k).filter (fun j => a.testBit j != b.testBit j)).length

end Sys2Proof.Machine
end

