-- ==== Sys2Proof/Tests/Slice0.lean ====
section
/-! SUPPORT. Tests. Expected results come from the worked examples and vectors of the spec; each test names its rule.
`witness_<Obligation>` shows that the hypotheses of an obligation can be met together, clause by clause. -/

namespace Sys2Proof.Tests

open Sys2Proof Sys2Proof.Machine

/-! ### Well-formedness: one ill-formed term per check (`30_encoding.md` R63) -/

theorem test_wf_refuses_payload_under_null : (Instr.scBwrite true 1 [0x41]).wfError = some .payloadUnderNull := by decide

theorem test_wf_refuses_wrong_payload_length : (Instr.scBwrite false 2 [0x41]).wfError = some .payloadLength := by decide

theorem test_wf_accepts : (Instr.scBwrite true 7 []).Wf ∧ (Instr.scBwrite false 1 [0x41]).Wf := by decide

/-! ### Decoding: words written out from the fields of R60 to R64 -/

theorem test_decode_circular_buffer :
    decode [0x0100007F] = .legal (.cbWrite .inbound 0x7F) 1 ∧ decode [0x018000FF] = .legal (.cbWrite .outbound 0xFF) 1 ∧
    decode [0x02000000] = .legal (.cbRead .inbound) 1 ∧ decode [0x02800000] = .legal (.cbRead .outbound) 1 ∧
    decode [0x03800100] = .legal (.cbResize .outbound 256) 1 ∧ decode [0x0300FFFF] = .legal (.cbResize .inbound 65535) 1 ∧
    decode [0x04000000] = .legal (.cbIsEmpty .inbound) 1 ∧ decode [0x05800000] = .legal (.cbIsFull .outbound) 1 ∧
    decode [0x06800000] = .legal (.cbCount .outbound) 1 := by decide

theorem test_decode_serial_channel :
    decode [0x10000000] = .legal .scBrdb 1 ∧ decode [0x11000055] = .legal (.scBwrb 0x55) 1 ∧
    decode [0x12000002, 0x00004241] = .legal (.scBwrite false 2 [0x41, 0x42]) 2 ∧
    decode [0x12000005, 0x04030201, 0x00000005] = .legal (.scBwrite false 5 [1, 2, 3, 4, 5]) 3 ∧
    decode [0x12000000] = .legal (.scBwrite false 0 []) 1 ∧ decode [0x1240000A] = .legal (.scBwrite true 10 []) 1 ∧
    decode [0x13000041] = .legal (.scEnq 0x41) 1 ∧ decode [0x14000000] = .legal .scDeq 1 ∧
    decode [0x15000100] = .legal (.scResize 256) 1 ∧ decode [0x16000000] = .legal .scBhalf 1 := by decide

theorem test_decode_system :
    decode [0x17000000] = .legal .scArmrx 1 ∧ decode [0x18000000] = .legal .scArmtx 1 ∧
    decode [0x19000000] = .legal .scDistx 1 ∧ decode [0x1A000000] = .legal .scStat 1 := by decide

theorem test_decode_illegal :
    decode [0x00000000] = .illegal .reservedOpcode 1 ∧ decode [0xFFFFFFFF] = .illegal .reservedOpcode 1 ∧
    decode [0x07000000] = .illegal .reservedOpcode 1 ∧ decode [0x1B000000] = .illegal .reservedOpcode 1 ∧
    decode [0x01010041] = .illegal .rsvNotZero 1 ∧ decode [0x01400041] = .illegal .npNotZero 1 ∧
    decode [0x01000141] = .illegal .immNotZero 1 ∧ decode [0x02000001] = .illegal .immNotZero 1 ∧
    decode [0x13800041] = .illegal .selNotZero 1 ∧ decode [0x16000001] = .illegal .immNotZero 1 ∧
    decode [0x12000001, 0x00004241] = .illegal .paddingNotZero 2 ∧
    decode [0x12010001, 0x00000041] = .illegal .rsvNotZero 2 := by decide

theorem test_decode_waits_for_the_payload : decode [0x12000005, 0x04030201] = .starved ∧ decode [] = .starved := by decide

theorem test_decode_table_word :
    decodeTableWord 32 0x13000041 = some (.scEnq 0x41) ∧ decodeTableWord 32 0x12000000 = some (.scBwrite false 0 []) ∧
    decodeTableWord 64 0x0000424112000002 = some (.scBwrite false 2 [0x41, 0x42]) := by decide

/-! ### The states of the tests -/

/-- Right after construction with capacity 4, a ready transport, nothing in it. -/
def fresh (sync : Sync) (backend : Backend) : State := State.init ⟨sync, backend⟩ 4 [] true

/-- A buffer of capacity 4 that holds `0xA, 0xB, 0xC` from slot 1 on, views current (R82, the worked example). -/
def three : CBuf Byte := ⟨4, 0, 1, 0, 1, [(1, 0xA), (2, 0xB), (3, 0xC)], false⟩

/-- The same, not yet seen by the consumer. -/
def unseen : CBuf Byte := { three with wrv := 1 }

/-- An empty buffer of capacity 4 inside a resize window. -/
def open4 : CBuf Byte := { CBuf.init Byte 4 with rsz := true }

/-- `s` with a turn of port `p` for one unit and `more` further ones. -/
def granted (s : State) (p : Port) (more : Nat) : State := { s with turn := ⟨p, more⟩ }

/-- `s` with a command in flight on port `p`, and a turn of it for one unit. -/
def standing (s : State) (p : Port) (i : Instr) (l : Label) (x : Locals) : State :=
  granted (s.suspend p i l x) p 0

/-- `s` with the words of a port presented and the event that comes next. -/
def told (s : State) (p : Port) (ws : List Word) (e : Event) : State :=
  { s.setPort p { s.port p with stream := ws } with script := [e] }

/-- What a test looks at in the next state. -/
def look {α : Type} (o : Host.Outcome State Fault Refusal) (f : State → α) : Option α :=
  match o with
  | .next t => some (f t)
  | .fault _ => none
  | .refused _ => none

/-- The fault an outcome stops with. -/
def faultOf (o : Host.Outcome State Fault Refusal) : Option Fault :=
  match o with
  | .next _ => none
  | .fault f => some f
  | .refused _ => none

/-! ### One step of each command -/

/-- R80, the worked example: `c = 4`, `WR = 2`, `RDV = RD = 0`. -/
theorem test_cb_write_stores :
    look (exec (.cbWrite .outbound 3)
      (granted { fresh .lagged .host with outb := ⟨4, 2, 0, 0, 0, [(0, 1), (1, 2)], false⟩ } .fg 0))
      (fun t => (t.outb.mem, t.outb.wr, t.outb.wrv, t.fg.rsps)) =
      some ([(0, 1), (1, 2), (2, 3)], 3, 0, [0x00000000]) := by decide

/-- R80, the same example: the further write is refused. -/
theorem test_cb_write_full :
    look (exec (.cbWrite .outbound 4) (granted { fresh .lagged .host with outb := three } .fg 0))
      (fun t => (t.outb, t.fg.rsps)) = some (three, [0x10000000]) := by decide

/-- R81, the worked example. -/
theorem test_cb_read_takes :
    look (exec (.cbRead .outbound)
      (granted { fresh .lagged .host with outb := ⟨4, 3, 0, 3, 0, [(0, 1), (1, 2), (2, 3)], false⟩ } .bh 0))
      (fun t => (t.outb.rd, t.outb.rdv, t.bh.rsps)) = some (1, 0, [0x00000001]) := by decide

/-- R81 corner case c: a lagging view reports `BufferEmpty`. -/
theorem test_cb_read_lagging :
    look (exec (.cbRead .outbound) (granted { fresh .lagged .host with outb := unseen } .bh 0))
      (fun t => (t.outb, t.bh.rsps)) = some (unseen, [0x20000000]) := by decide

/-- R82, the worked example: 8 slots keep all three. -/
theorem test_cb_resize_grows :
    look (exec (.cbResize .inbound 8) (granted { fresh .lagged .host with inb := three } .fg 1))
      (fun t => (t.inb, t.fg.rsps)) =
      some (⟨8, 3, 0, 3, 0, [(0, 0xA), (1, 0xB), (2, 0xC)], false⟩, [0x00000000]) := by decide

/-- R82, the worked example: 3 slots keep the newest two. -/
theorem test_cb_resize_truncates :
    look (exec (.cbResize .inbound 3) (granted { fresh .lagged .host with inb := three } .fg 1))
      (fun t => (t.inb, t.fg.rsps)) = some (⟨3, 2, 0, 2, 0, [(0, 0xB), (1, 0xC)], false⟩, [0x50000001]) := by decide

/-- R83: the consumer sees a lagging view, the producer its own index. -/
theorem test_cb_isempty :
    look (exec (.cbIsEmpty .outbound) (granted { fresh .lagged .host with outb := unseen } .bh 0)) (fun t => t.bh.rsps) =
      some [0x00000001] ∧
    look (exec (.cbIsEmpty .outbound) (granted { fresh .lagged .host with outb := unseen } .fg 0)) (fun t => t.fg.rsps) =
      some [0x00000000] := by decide

/-- R84, the worked example. -/
theorem test_cb_isfull :
    look (exec (.cbIsFull .outbound)
      (granted { fresh .lagged .host with outb := ⟨4, 3, 0, 0, 0, [(0, 1), (1, 2), (2, 3)], false⟩ } .fg 0))
      (fun t => t.fg.rsps) = some [0x00000001] := by decide

/-- R85: wrapped indices, `(1 - 3) mod 4 = 2`. -/
theorem test_cb_count_wraps :
    look (exec (.cbCount .outbound)
      (granted { fresh .lagged .host with outb := ⟨4, 1, 3, 1, 3, [(0, 2), (3, 1)], false⟩ } .fg 0))
      (fun t => t.fg.rsps) = some [0x00000002] := by decide

/-- R100, the worked example. -/
theorem test_sc_brdb :
    look (exec .scBrdb (granted { fresh .lagged .host with rxq := [0x41, 0x42] } .fg 1))
      (fun t => (t.rxq, t.fg.rsps)) = some ([0x42], [0x00000041]) := by decide

/-- R101, the worked example. -/
theorem test_sc_bwrb :
    look (exec (.scBwrb 0x55) (granted { fresh .lagged .host with draws := [false] } .fg 1))
      (fun t => (t.txLog, t.txReady, t.fault, t.fg.rsps)) = some ([0x55], false, .initialised, [0x00000000]) := by decide

/-- R102, the worked example. -/
theorem test_sc_bwrite_sends :
    look (exec (.scBwrite false 2 [0x41, 0x42]) (granted { fresh .lagged .host with draws := [true, true] } .fg 5))
      (fun t => (t.txLog, t.fault, t.fg.pos, t.fg.rsps)) = some ([0x41, 0x42], .noFault, 2, [0x00000000]) := by decide

/-- R102, the worked example: an empty payload. -/
theorem test_sc_bwrite_rejects :
    look (exec (.scBwrite false 0 []) (granted (fresh .lagged .host) .fg 0))
      (fun t => (t.txLog, t.fault, t.fg.rsps)) = some ([], .dataError, [0x40000000]) := by decide

/-- R103, the worked example. -/
theorem test_sc_enq :
    look (exec (.scEnq 0x41) (granted (fresh .lagged .host) .fg 2))
      (fun t => (t.outb.mem, t.outb.wr, t.txArm, t.evTx, t.fg.rsps)) =
      some ([(0, 0x41)], 1, true, true, [0x00000000]) := by decide

/-- R103: a full buffer still arms. -/
theorem test_sc_enq_full_arms :
    look (exec (.scEnq 0x41) (granted { fresh .lagged .host with outb := three } .fg 2))
      (fun t => (t.outb, t.txArm, t.evTx, t.fg.rsps)) = some (three, true, true, [0x10000000]) := by decide

/-- R104. -/
theorem test_sc_deq :
    look (exec .scDeq (granted { fresh .direct .host with inb := three } .fg 0))
      (fun t => (t.inb.rd, t.inb.rdv, t.fg.rsps)) = some (2, 2, [0x0000000A]) := by decide

/-- R105: each buffer truncates by its own occupancy. -/
theorem test_sc_resize :
    look (exec (.scResize 3) (granted { fresh .lagged .host with outb := three } .fg 4))
      (fun t => (t.inb.cap, t.outb.mem, t.fg.rsps)) = some (3, [(0, 0xB), (1, 0xC)], [0x50000002]) := by decide

/-- R120, the worked example, first invocation. -/
theorem test_sc_bhalf_serves_both :
    look (exec .scBhalf (granted { fresh .direct .register with
        rxArm := true, rxq := [0x10], txArm := true, outb := ⟨4, 1, 0, 1, 0, [(0, 0x41)], false⟩, draws := [true] } .bh 9))
      (fun t => (t.inb.mem, t.rxq, t.txLog, t.txArm, t.outb.rd)) = some ([(0, 0x10)], [], [0x41], true, 1) := by decide

/-- R120, the worked example, second invocation: it disarms. -/
theorem test_sc_bhalf_disarms :
    look (exec .scBhalf (granted { fresh .direct .register with txArm := true, evTx := true } .bh 9))
      (fun t => (t.txArm, t.evTx, t.txLog, t.bh.rsps)) = some (false, false, [], [0x00000000]) := by decide

/-- R106, R107, R108. -/
theorem test_sc_arm_and_disarm :
    look (exec .scArmrx (granted (fresh .lagged .host) .fg 1)) (fun t => (t.rxArm, t.evRx)) = some (true, true) ∧
    look (exec .scArmtx (granted (fresh .lagged .host) .bh 1)) (fun t => (t.txArm, t.evTx)) = some (true, true) ∧
    look (exec .scDistx (granted { fresh .lagged .host with txArm := true, evTx := true } .fg 1))
      (fun t => (t.txArm, t.evTx)) = some (false, false) := by decide

/-- R109, the worked example: `RXARM = 1`, `TXARM = 0`, `FAULT = NoFault`. -/
theorem test_sc_stat :
    look (exec .scStat (granted { fresh .lagged .host with rxArm := true, fault := .noFault } .bh 0))
      (fun t => t.bh.rsps) = some [0x00000009] := by decide

/-! ### Faults, agents, the step, reset -/

/-- R152, R155: the three faults. -/
theorem test_faults :
    faultOf (exec .scBhalf (granted (fresh .lagged .host) .fg 0)) = some .portDiscipline ∧
    faultOf (exec (.cbWrite .outbound 1) (granted { fresh .lagged .host with outb := open4 } .bh 0)) = some .resizeRace ∧
    faultOf (exec .scBrdb (standing (fresh .lagged .host) .fg .scBrdb .u2 Locals.init)) = some .transportNotReady := by
  decide

/-- R67: an illegal word answers `IllegalCommand`. -/
theorem test_step_illegal :
    look (step (told (fresh .lagged .host) .fg [0x00000000] (.run .fg 0))) (fun t => (t.fg.pos, t.fg.rsps)) =
      some (1, [0xF0000000]) := by decide

/-- R123: a view moves to its index, and not past it. -/
theorem test_sync_moves_a_view :
    look (step { fresh .lagged .host with outb := unseen, script := [.syncW .outbound 3] }) (fun t => t.outb.wrv) = some 3 ∧
    look (step { fresh .lagged .host with outb := ⟨4, 2, 0, 1, 0, [(0, 1), (1, 2)], false⟩, script := [.syncW .outbound 3] })
      (fun t => t.outb.wrv) = some 1 := by decide

/-- The command placed at the fetch runs as the first command after reset. -/
theorem test_step_runs_the_placed_command :
    look (step (State.reset.withFetchWord 32 0x13000041)) (fun t => (t.outb.mem, t.txArm, t.evTx)) =
      some ([(0, 0x41)], true, true) := by decide

/-- R72: the code words of 0 to 7. -/
theorem test_gray_code : (List.range 8).map gray = [0, 1, 3, 2, 6, 7, 5, 4] ∧ bin 3 4 = 7 := by decide

/-- R69, R71: one line of a script, its command and its label. -/
theorem test_assemble_line :
    assembleLine ['B', 'H', ':', ' ', 'S', 'C', '.', 'B', 'H', 'A', 'L', 'F', ' ', '@', 'u', '6'] =
      some [.command .bh .scBhalf (some .u6)] := by decide

/-! ### The hypotheses of the obligations can be met -/

theorem witness_WellFormedCommandDecodesBack : (Instr.scBwrite false 5 [1, 2, 3, 4, 5]).Wf := by decide

theorem witness_LegalWordsAreTheEncoding :
    decode [0x12000002, 0x00004241, 0x16000000] = .legal (.scBwrite false 2 [0x41, 0x42]) 2 := by decide

theorem witness_OpcodeMapDecidesTheCommand :
    decode [0x1240FFFF] = .legal (.scBwrite true 65535 []) 1 ∧
    ∃ r ∈ opcodeTable, r.covers 0x12000001 = true ∧ decode [0x12000001, 0x00000100] = .illegal .paddingNotZero 2 := by
  decide

theorem witness_IllegalExactlyWhenNoRowOrPadding :
    announcedWords 0x12000001 ≤ [(0x00000100 : Word)].length ∧
    decode [0x12000001, 0x00000100] = .illegal .paddingNotZero 2 ∧
    announcedWords 0x00000000 ≤ ([] : List Word).length ∧ decode [0x00000000] = .illegal .reservedOpcode 1 := by decide

theorem witness_ElementWordsOfEveryWidth :
    (¬ (0x01000002 : Word) &&& cbWriteMask ⟨1, by decide, by decide⟩ = 0x01000000) ∧
    (0x0180FFFF : Word) &&& cbWriteMask ⟨16, by decide, by decide⟩ = 0x01000000 := by decide

/-- A state whose next event is a turn of `FG`, with an `SC.ENQ` presented. -/
def enqNext : State := told (fresh .lagged .host) .fg [0x13000041] (.run .fg 0)

/-- The same with the `SC.ENQ` in flight at its last unit. -/
def enqInFlight : State :=
  { enqNext with fg := { enqNext.fg with infl := .busy ⟨.scEnq 0x41, .u3, Locals.init⟩ }, txArm := true }

theorem witness_StepRunsTheDecodedCommand :
    (enqNext.script = [.run .fg 0] ∧ (enqNext.port .fg).infl = .idle ∧
      decode (enqNext.pending .fg) = .legal (.scEnq 0x41) 1) ∧
    (enqInFlight.script = [.run .fg 0] ∧
      (enqInFlight.port .fg).infl = .busy ⟨.scEnq 0x41, .u3, Locals.init⟩) ∧
    (let s := told (fresh .lagged .host) .bh [0x12000004] (.run .bh 3)
     s.script = [.run .bh 3] ∧ (s.port .bh).infl = .idle ∧ decode (s.pending .bh) = .starved) := by decide

theorem witness_IllegalCommandOnlyAnswers :
    let s := told (fresh .lagged .host) .bh [0xFFFFFFFF] (.run .bh 0)
    s.script = [.run .bh 0] ∧ (s.port .bh).infl = .idle ∧ decode (s.pending .bh) = .illegal .reservedOpcode 1 := by decide

theorem witness_TurnLeavesTheOtherPort :
    nextEvent enqNext = .run .fg 0 ∧ (look (step enqNext) (fun t => t.outb.wr)) = some 1 := by decide

theorem witness_StepKeepsTheCommandInTheStream :
    flightIsStream enqInFlight .fg = true ∧ flightIsStream enqInFlight .bh = true ∧
      look (step enqInFlight) (fun t => t.evTx) = some true := by decide

theorem witness_CbWriteAppendsOrReportsFull :
    (let s := granted { fresh .lagged .host with outb := open4 } .fg 0
     Fresh s .fg 0 ∧ (s.buf .outbound).rsz = true) ∧
    (let s := granted (fresh .lagged .host) .bh 0
     Fresh s .bh 0 ∧ (s.buf .outbound).rsz = false ∧ roleOf .bh .outbound = .consumer) ∧
    (let s := granted { fresh .lagged .host with outb := three } .fg 0
     Fresh s .fg 0 ∧ (s.buf .outbound).rsz = false ∧ roleOf .fg .outbound = .producer ∧
       (s.buf .outbound).wr.toNat < (s.buf .outbound).cap.toNat) := by decide

theorem witness_CbReadTakesTheOldestOrReportsEmpty :
    (let s := granted { fresh .lagged .host with inb := open4 } .fg 0
     Fresh s .fg 0 ∧ (s.buf .inbound).rsz = true) ∧
    (let s := granted (fresh .lagged .host) .bh 0
     Fresh s .bh 0 ∧ (s.buf .inbound).rsz = false ∧ roleOf .bh .inbound = .producer) ∧
    (let s := granted { fresh .lagged .host with inb := unseen } .fg 0
     Fresh s .fg 0 ∧ (s.buf .inbound).rsz = false ∧ roleOf .fg .inbound = .consumer ∧
       (s.buf .inbound).wrv = (s.buf .inbound).rd) ∧
    (let s := granted { fresh .lagged .host with inb := three } .fg 0
     Fresh s .fg 0 ∧ (s.buf .inbound).rsz = false ∧ roleOf .fg .inbound = .consumer ∧
       (s.buf .inbound).wrv ≠ (s.buf .inbound).rd ∧ (s.buf .inbound).rd.toNat < (s.buf .inbound).cap.toNat ∧
       memGet (s.buf .inbound).mem (s.buf .inbound).rd.toNat = some 0xA) := by decide

theorem witness_CbResizeRepacksTheNewest :
    let s := granted { fresh .lagged .host with inb := three } .fg 0
    let t := granted { fresh .lagged .host with inb := three } .fg 1
    (Fresh s .fg 0 ∧ (s.buf .inbound).rsz = false ∧ s.turn.more = 0) ∧
    (Fresh t .fg 0 ∧ (t.buf .inbound).rsz = false ∧ (1 : Half) ≠ 0 ∧ 1 ≤ t.turn.more ∧
      BufInv t.par.sync (t.buf .inbound)) := by decide

theorem witness_QueriesAnswerWhatTheirSideSees :
    (let s := granted { fresh .lagged .host with outb := unseen } .fg 0
     Fresh s .fg 0 ∧ (s.buf .outbound).rsz = false ∧
       (roleOf .fg .outbound = .producer → (1 : Half) = (s.buf .outbound).rdv ∧ 0 = (s.buf .outbound).wr) ∧
       (roleOf .fg .outbound = .consumer → (1 : Half) = (s.buf .outbound).rd ∧ 0 = (s.buf .outbound).wrv)) ∧
    (let s := granted { fresh .lagged .host with outb := unseen } .bh 0
     Fresh s .bh 0 ∧ (s.buf .outbound).rsz = false ∧
       (roleOf .bh .outbound = .producer → (1 : Half) = (s.buf .outbound).rdv ∧ 1 = (s.buf .outbound).wr) ∧
       (roleOf .bh .outbound = .consumer → (1 : Half) = (s.buf .outbound).rd ∧ 1 = (s.buf .outbound).wrv)) := by decide

theorem witness_PrimitiveInAResizeWindowFaults :
    (let s := granted { fresh .lagged .host with inb := open4, outb := open4 } .fg 0
     (s.buf .inbound).rsz = true ∧ (s.buf .outbound).rsz = true ∧ (s.port s.turn.port).infl = .idle ∧
       s.turn.port = .fg) ∧
    (let s := standing { fresh .lagged .host with inb := open4 } .bh .scBhalf .u3 Locals.init
     (s.buf .inbound).rsz = true ∧ (s.port s.turn.port).infl = .busy ⟨.scBhalf, .u3, Locals.init⟩) ∧
    (let s := standing { fresh .lagged .host with outb := open4 } .bh .scBhalf .u6 Locals.init
     (s.buf .outbound).rsz = true ∧ (s.port s.turn.port).infl = .busy ⟨.scBhalf, .u6, Locals.init⟩) ∧
    (let s := standing { fresh .lagged .host with inb := open4 } .fg (.scResize 8) .u2 Locals.init
     (s.buf .inbound).rsz = true ∧ (s.port s.turn.port).infl = .busy ⟨.scResize 8, .u2, Locals.init⟩) ∧
    (let s := standing { fresh .lagged .host with outb := open4 } .fg (.scResize 8) .u4 Locals.init
     (s.buf .outbound).rsz = true ∧ (s.port s.turn.port).infl = .busy ⟨.scResize 8, .u4, Locals.init⟩) := by decide

theorem witness_PortTableDecidesPortDiscipline :
    (let s := granted (fresh .lagged .host) .bh 3
     (s.port s.turn.port).infl = .idle ∧ s.inb.rsz = false ∧ s.outb.rsz = false) ∧
    (let s := granted { fresh .lagged .host with outb := open4 } .bh 0
     (s.port s.turn.port).infl = .idle ∧ s.turn.port = .bh) ∧
    (let s := granted { fresh .lagged .host with inb := open4 } .fg 0
     (s.port s.turn.port).infl = .idle ∧ s.turn.port = .fg) := by decide

theorem witness_StatusIsConservative :
    (BufInv .lagged three ∧ three.rsz = false ∧ three.count = three.cap.toNat - 1 ∧ three.ViewsCurrent) ∧
    (BufInv .lagged (CBuf.init Byte 1) ∧ (CBuf.init Byte 1).count = 0) ∧
    (BufInv .lagged unseen ∧ unseen.rsz = false ∧ unseen.wrv = unseen.rd ∧ ¬ unseen.ViewsCurrent) := by decide

theorem witness_ProducerCountsHighConsumerLow : InRange unseen ∧ RingOrder unseen ∧ unseen.countFor .consumer < unseen.count := by
  decide

theorem witness_UsableCapacityIsOneLess :
    let c : LoneBuffer ⟨12, by decide, by decide⟩ := ⟨CBuf.init _ 3, none⟩
    LoneInv .lagged c ∧ c.buf.rsz = false ∧ c.buf.ViewsCurrent ∧ c.buf.count = 0 ∧
      [(1 : BitVec 12), 2].length = c.buf.cap.toNat - 1 := by decide

/-- The element width of the channel. -/
def eight : ElementWidth := ⟨8, by decide, by decide⟩

/-- A stand-alone buffer of capacity 4 right after construction. -/
def loneFresh : LoneBuffer eight := ⟨CBuf.init Byte 4, none⟩

/-- `three` as a stand-alone buffer. -/
def loneThree : LoneBuffer eight := ⟨three, none⟩

/-- The same, its consumer's side between the units of a resize to three slots. -/
def loneResizing : LoneBuffer eight := ⟨{ three with rsz := true }, some (.consumer, 3)⟩

/-- Two writes, a view move and a read on a stand-alone buffer. -/
def someUnits : List (BufferUnit eight) := [.write .producer 1, .write .producer 2, .syncW 1, .read .consumer]

theorem witness_FifoLaw :
    (LoneInv .lagged loneFresh ∧ (∀ u ∈ someUnits, u.isResize = false) ∧
      (match runBuffer .lagged someUnits loneFresh with
        | .ok r => r.returned == [1] && r.accepted == [1, 2]
        | .error _ => false) = true) ∧
    (LoneInv .lagged loneResizing ∧ loneResizing.resizing = some (.consumer, 3) ∧
      (match bufferStep .lagged loneResizing (.resizeCopy .consumer) with
        | .ok r => r.1 == some (.truncated, 1)
        | .error _ => false) = true) := by decide

theorem witness_GrowingResizeKeepsTheQueue :
    LoneInv .lagged loneThree ∧ loneThree.buf.rsz = false ∧ (4 : Half) ≠ 0 ∧
      loneThree.buf.count ≤ (4 : Half).toNat - 1 := by decide

/-- R82, R88: the second unit of a resize exists only after the first, on the side that ran it, and with its capacity; in
between that side accepts nothing and the other side faults. -/
theorem test_lone_resize_is_guarded :
    (match bufferStep .lagged loneThree (.resizeCopy .producer) with
      | .ok r => r == (none, loneThree)
      | .error _ => false) = true ∧
    (match bufferStep .lagged loneThree (.resizeOpen .producer 0) with
      | .ok r => r == (some (.invalidCapacity, 0), loneThree)
      | .error _ => false) = true ∧
    (match bufferStep .lagged loneResizing (.read .consumer) with
      | .ok r => r == (none, loneResizing)
      | .error _ => false) = true ∧
    (match bufferStep .lagged loneResizing (.write .producer 1) with
      | .ok _ => false
      | .error e => e == .resizeRace) = true := by decide

theorem witness_EveryUnitIsAFifoAction :
    Inv enqNext ∧ oneUnit (nextEvent enqNext) = true ∧ look (step enqNext) (fun t => t.outb.queued) = some [0x41] := by
  decide

theorem witness_SingleWriterTable :
    Inv enqNext ∧ nextEvent enqNext = .run .fg 0 ∧ look (step enqNext) (fun t => t.outb.wrv) = some 0 ∧
      ∀ i, nextCommand enqNext .fg = some i → isResize i = false := by
  refine ⟨by decide, by decide, by decide, fun i h => ?_⟩
  have e : nextCommand enqNext .fg = some (.scEnq 0x41) := by decide
  rw [e] at h
  cases h
  rfl

theorem witness_StoringCommandsTouchOneSlot :
    (let s := granted (fresh .lagged .host) .bh 0
     (s.port s.turn.port).infl = .idle ∧ look (exec (.cbWrite .inbound 7) s) (fun t => t.inb.wr) = some 1) ∧
    (let s := granted (fresh .lagged .host) .fg 2
     (s.port s.turn.port).infl = .idle ∧ look (exec (.scEnq 7) s) (fun t => t.outb.wr) = some 1) := by decide

theorem witness_OtherCommandsStoreNothing :
    let s := granted { fresh .lagged .host with inb := three } .fg 0
    look (exec (.cbRead .inbound) s) (fun t => t.inb.rd) = some 2 ∧ look (exec .scDeq s) (fun t => t.inb.rd) = some 2 ∧
      look (exec .scStat s) (fun t => t.fg.pos) = some 1 := by decide

theorem witness_ScBrdbReadsTheTransport :
    let s := granted { fresh .lagged .host with rxq := [0x41, 0x42] } .fg 1
    let t := granted (fresh .lagged .host) .fg 1
    (Fresh s .fg 1 ∧ s.rxq = [0x41, 0x42]) ∧ (Fresh t .fg 1 ∧ t.rxq = []) := by decide

theorem witness_ScBwrbWritesTheTransport :
    let s := granted (fresh .lagged .host) .fg 1
    let t := granted { fresh .lagged .host with txReady := false } .fg 1
    (Fresh s .fg 1 ∧ s.txReady = true) ∧ (Fresh t .fg 1 ∧ t.txReady = false) := by decide

theorem witness_ScBwriteRejectsAnEmptyPayload : Fresh (granted (fresh .lagged .host) .fg 0) .fg 0 := by decide

theorem witness_ScBwriteSendsItsPayload :
    let i : Instr := .scBwrite false 2 [0x41, 0x42]
    ([(0x41 : Byte), 0x42].length = (2 : Half).toNat ∧ (2 : Half) ≠ 0) ∧
    (let s := granted { fresh .lagged .host with draws := [true, false] } .fg 5
     Fresh s .fg (2 * [(0x41 : Byte), 0x42].length + 1) ∧ s.txReady = true ∧
       s.draws = List.replicate ([(0x41 : Byte), 0x42].length - 1) true ++ false :: []) ∧
    (let s := granted (fresh .lagged .host) .fg 0
     s.turn = ⟨.fg, 0⟩ ∧ (s.port .fg).infl = .idle) ∧
    (let s := standing (fresh .lagged .host) .fg i .u2 Locals.init
     AtUnit s .fg i .u2 Locals.init ∧ s.txReady = true) ∧
    (let x : Locals := { Locals.init with k := 1 }
     let s := standing (fresh .lagged .host) .fg i .u3 x
     AtUnit s .fg i .u3 x ∧ s.txReady = true ∧ [(0x41 : Byte), 0x42][x.k]? = some 0x42) ∧
    (let x : Locals := { Locals.init with k := 2 }
     AtUnit (standing (fresh .lagged .host) .fg i .u4 x) .fg i .u4 x) := by decide

/-- A state with an empty transport that is not ready, and a command in flight. -/
def waiting (p : Port) (i : Instr) (l : Label) : State :=
  standing { fresh .lagged .host with txReady := false } p i l Locals.init

theorem witness_HoldsChangeNothingAndUnreadyTransfersFault :
    (let s := waiting .fg .scBrdb .u1
     s.rxq = [] ∧ (s.port s.turn.port).infl = .busy ⟨.scBrdb, .u1, Locals.init⟩) ∧
    (let s := waiting .fg .scBrdb .u2
     s.rxq = [] ∧ (s.port s.turn.port).infl = .busy ⟨.scBrdb, .u2, Locals.init⟩) ∧
    (let s := waiting .bh .scBhalf .u2
     s.rxq = [] ∧ (s.port s.turn.port).infl = .busy ⟨.scBhalf, .u2, Locals.init⟩) ∧
    (let s := waiting .fg (.scBwrb 1) .u1
     s.txReady = false ∧ (s.port s.turn.port).infl = .busy ⟨.scBwrb 1, .u1, Locals.init⟩) ∧
    (let s := waiting .fg (.scBwrb 1) .u2
     s.txReady = false ∧ (s.port s.turn.port).infl = .busy ⟨.scBwrb 1, .u2, Locals.init⟩) ∧
    (let s := waiting .fg (.scBwrite false 1 [1]) .u2
     s.txReady = false ∧ (s.port s.turn.port).infl = .busy ⟨.scBwrite false 1 [1], .u2, Locals.init⟩) ∧
    (let s := waiting .fg (.scBwrite false 1 [1]) .u3
     s.txReady = false ∧ Locals.init.k < [(1 : Byte)].length ∧
       (s.port s.turn.port).infl = .busy ⟨.scBwrite false 1 [1], .u3, Locals.init⟩) ∧
    (let s := waiting .bh .scBhalf .u7a
     s.txReady = false ∧ (s.port s.turn.port).infl = .busy ⟨.scBhalf, .u7a, Locals.init⟩) := by decide

theorem witness_ScEnqQueuesAndArms :
    let s := granted { fresh .lagged .host with outb := three } .fg 2
    Fresh s .fg 2 ∧ s.outb.rsz = false ∧ s.outb.wr.toNat < s.outb.cap.toNat := by decide

theorem witness_ScDeqTakesTheOldestOrReportsEmpty :
    (let s := granted { fresh .lagged .host with inb := unseen } .fg 0
     Fresh s .fg 0 ∧ s.inb.rsz = false ∧ s.inb.wrv = s.inb.rd) ∧
    (let s := granted { fresh .lagged .host with inb := three } .fg 0
     Fresh s .fg 0 ∧ s.inb.rsz = false ∧ s.inb.wrv ≠ s.inb.rd ∧ s.inb.rd.toNat < s.inb.cap.toNat ∧
       memGet s.inb.mem s.inb.rd.toNat = some 0xA) := by decide

theorem witness_ScResizeResizesBothBuffers :
    let base := { fresh .lagged .host with inb := three }
    (Fresh (granted base .fg 0) .fg 0 ∧ (1 : Half) ≠ 0) ∧
    (let s := granted base .fg 4
     Fresh s .fg 4 ∧ s.inb.rsz = false ∧ s.outb.rsz = false ∧ BufInv s.par.sync s.inb ∧ BufInv s.par.sync s.outb) ∧
    (let s := granted base .fg 0
     s.turn = ⟨.fg, 0⟩ ∧ (s.port .fg).infl = .idle) ∧
    (let s := standing base .fg (.scResize 1) .u2 Locals.init
     AtUnit s .fg (.scResize 1) .u2 Locals.init ∧ s.inb.rsz = false) ∧
    (let s := standing { base with inb := { three with rsz := true } } .fg (.scResize 1) .u3 Locals.init
     AtUnit s .fg (.scResize 1) .u3 Locals.init ∧ s.inb.resizeCopy 1 = .ok (3, ⟨1, 0, 0, 0, 0, [], false⟩)) ∧
    (let s := standing base .fg (.scResize 1) .u4 Locals.init
     AtUnit s .fg (.scResize 1) .u4 Locals.init ∧ s.outb.rsz = false) ∧
    (let s := standing { base with outb := open4 } .fg (.scResize 1) .u5 Locals.init
     AtUnit s .fg (.scResize 1) .u5 Locals.init ∧ s.outb.resizeCopy 1 = .ok (0, ⟨1, 0, 0, 0, 0, [], false⟩)) :=
  ⟨by decide, by decide, by decide, by decide, ⟨by decide, rfl⟩, by decide, ⟨by decide, rfl⟩⟩

theorem witness_ArmingCommandsWriteFlagThenEvent :
    (let s := granted { fresh .lagged .host with txArm := true } .fg 0
     Fresh s .fg 0 ∧ s.turn.more = 0) ∧
    (let s := granted (fresh .lagged .host) .bh 1
     Fresh s .bh 0 ∧ 1 ≤ s.turn.more) := by decide

/-- A state with a command in flight at a unit. -/
def inFlight (p : Port) (i : Instr) (l : Label) : State := standing (fresh .lagged .host) p i l Locals.init

theorem witness_FlagFirstThenPlatformAction :
    AtUnit (inFlight .fg (.scEnq 1) .u2) .fg (.scEnq 1) .u2 Locals.init ∧
    AtUnit (inFlight .fg (.scEnq 1) .u3) .fg (.scEnq 1) .u3 Locals.init ∧
    AtUnit (inFlight .fg .scArmtx .u2) .fg .scArmtx .u2 Locals.init ∧
    AtUnit (inFlight .fg .scDistx .u2) .fg .scDistx .u2 Locals.init ∧
    AtUnit (inFlight .bh .scBhalf .u8) .bh .scBhalf .u8 Locals.init ∧
    AtUnit (inFlight .bh .scBhalf .u9) .bh .scBhalf .u9 Locals.init := by decide

theorem witness_ScStatAnswersTheStatusWord :
    Fresh (granted { fresh .lagged .host with fault := .dataError } .bh 0) .bh 0 := by decide

theorem witness_OnlyBwriteWritesFault :
    let s := told (fresh .lagged .host) .fg [0x12000000] (.run .fg 0)
    look (step s) (fun t => t.fault) = some .dataError ∧ s.fault ≠ .dataError := by decide

theorem witness_ReceptionStaysArmed :
    let s := { enqNext with rxArm := true, evRx := true }
    s.rxArm = true ∧ s.evRx = true ∧ look (step s) (fun t => t.outb.wr) = some 1 := by decide

theorem witness_BhalfReceiveUnits :
    (let s := granted (fresh .lagged .host) .bh 0
     s.turn = ⟨.bh, 0⟩ ∧ s.bh.infl = .idle) ∧
    (let s := { inFlight .bh .scBhalf .u2 with rxq := [0x10] }
     AtUnit s .bh .scBhalf .u2 Locals.init ∧ s.rxq = [0x10]) ∧
    (let s := inFlight .bh .scBhalf .u3
     AtUnit s .bh .scBhalf .u3 Locals.init ∧ s.inb.rsz = false ∧ s.inb.wr.toNat < s.inb.cap.toNat) ∧
    AtUnit (inFlight .bh .scBhalf .u4) .bh .scBhalf .u4 Locals.init := by decide

theorem witness_BhalfTransmitUnits :
    AtUnit (inFlight .bh .scBhalf .u5) .bh .scBhalf .u5 Locals.init ∧
    (let s := { inFlight .bh .scBhalf .u6 with outb := unseen }
     AtUnit s .bh .scBhalf .u6 Locals.init ∧ s.outb.rsz = false ∧ s.outb.wrv = s.outb.rd) ∧
    (let s := { inFlight .bh .scBhalf .u6 with outb := three }
     AtUnit s .bh .scBhalf .u6 Locals.init ∧ s.outb.rsz = false ∧ s.outb.wrv ≠ s.outb.rd ∧
       s.outb.rd.toNat < s.outb.cap.toNat ∧ memGet s.outb.mem s.outb.rd.toNat = some 0xA) ∧
    (let s := inFlight .bh .scBhalf .u7
     AtUnit s .bh .scBhalf .u7 Locals.init ∧ s.txReady = true) ∧
    (let s := { inFlight .bh .scBhalf .u7b with txReady := false }
     AtUnit s .bh .scBhalf .u7b Locals.init ∧ s.txReady = false) ∧
    (let s := inFlight .bh .scBhalf .u7a
     AtUnit s .bh .scBhalf .u7a Locals.init ∧ s.txReady = true) := by decide

theorem witness_BhalfDrainsTheTransport :
    let s := granted { fresh .lagged .host with rxArm := true, rxq := [1, 2, 3, 4] } .bh 13
    Fresh s .bh (3 * s.rxq.length + 1) ∧ s.rxArm = true ∧ s.rxq ≠ [] ∧ s.txArm = false ∧ s.inb.rsz = false ∧
      s.inb.wr.toNat < s.inb.cap.toNat := by decide

theorem witness_BhalfSendsOneByteOrDisarms :
    (let s := granted (fresh .lagged .host) .bh 4
     Fresh s .bh 4 ∧ s.rxArm = false ∧ s.txArm = false) ∧
    (let s := granted { fresh .lagged .host with rxArm := true, txArm := true, outb := unseen } .bh 4
     Fresh s .bh 4 ∧ s.rxq = [] ∧ s.txArm = true ∧ s.outb.rsz = false ∧ s.outb.wrv = s.outb.rd) ∧
    (let s := granted { fresh .lagged .register with txArm := true, outb := three } .bh 4
     Fresh s .bh 4 ∧ s.rxArm = false ∧ s.txArm = true ∧ s.outb.rsz = false ∧ s.outb.wrv ≠ s.outb.rd ∧
       s.outb.rd.toNat < s.outb.cap.toNat ∧ memGet s.outb.mem s.outb.rd.toNat = some 0xA ∧ s.txReady = true) := by decide

theorem witness_LaggingViewDisarmsWithBytesQueued :
    let s := granted { fresh .lagged .host with txArm := true, evTx := true, outb := unseen } .bh 4
    Fresh s .bh 4 ∧ s.rxArm = false ∧ s.evRx = false ∧ s.txArm = true ∧ s.outb.rsz = false ∧ s.outb.wrv = s.outb.rd ∧
      0 < s.outb.count := by decide

/-- `OUT` holds three bytes, armed, and the transport stays ready for as many writes (R121). -/
def draining : State :=
  { fresh .lagged .register with txArm := true, evTx := true, outb := three, draws := [true, true, true] }

theorem witness_QueueIsSentInOrderThenDisarmed :
    draining.bh.infl = .idle ∧ draining.rxArm = false ∧ draining.txArm = true ∧ draining.outb.rsz = false ∧
      BufInv draining.par.sync draining.outb ∧ draining.outb.wrv = draining.outb.wr ∧ draining.txReady = true ∧
      draining.draws = List.replicate draining.outb.count true ++ [] := by decide

theorem witness_RegisterHandlerReturnsInBoundedUnits :
    let s := granted draining .bh 4
    Fresh s .bh (3 * s.rxq.length + 4) ∧ s.par.backend = .register ∧
      look (exec .scBhalf s) (fun t => t.txLog) = some [0xA] := by decide

theorem witness_PreemptKeepsTransmissionArmed :
    let s := told { draining with par := ⟨.direct, .register⟩ } .bh [0x16000000] (.run .bh 0)
    Inv s ∧ s.par.sync = .direct ∧ preempts s (nextEvent s) = true ∧ enqOnly s (nextEvent s) = true ∧
      transmitArmed s = true ∧ look (step s) (fun t => t.outb.count) = some 3 := by decide

theorem witness_LevelsTransportReadAndPlatformActions :
    ({ fresh .lagged .host with rxq := [1, 2] } : State).rxq = [1, 2] ∧ (fresh .lagged .host).rxq = [] := by decide

theorem witness_TransportWriteDrawsReadiness :
    (draining.txReady = true ∧ draining.draws = [true, true, true]) ∧
    ((fresh .lagged .host).txReady = true ∧ (fresh .lagged .host).draws = []) ∧
    ({ fresh .lagged .host with txReady := false } : State).txReady = false := by decide

theorem witness_SynchronizerAndEnvironmentSteps :
    (let s := { fresh .lagged .host with outb := unseen, script := [.syncW .outbound 3] }
     s.script = [.syncW .outbound 3] ∧ s.par.sync = .lagged ∧ s.outb.mayMoveWrv 3 = true) ∧
    (let s := { fresh .direct .host with script := [.syncR .inbound 0] }
     s.script = [.syncR .inbound 0]) ∧
    ({ fresh .lagged .host with script := [.envRx 1] } : State).script = [.envRx 1] ∧
    ({ fresh .lagged .host with script := [.envTxReady] } : State).script = [.envTxReady] ∧
    ({ fresh .lagged .host with script := [.present .bh 0x16000000] } : State).script = [.present .bh 0x16000000] := by
  decide

theorem witness_ConstructionGivesTheResetValues :
    (match State.construct ⟨.direct, .register⟩ 1 [7] true with
      | .ok s => s.rxq == [7] && s.outb.cap == 1
      | .error _ => false) = true ∧
    (match State.construct ⟨.direct, .register⟩ 0 [] false with
      | .ok _ => false
      | .error e => e == .invalidCapacity) = true := by decide

/-- R162 of a stand-alone buffer: capacity 0 is rejected, 1 and 65535 are not. -/
theorem test_lone_construction :
    LoneBuffer.construct eight 0 = .error .invalidCapacity ∧
    LoneBuffer.construct eight 1 = .ok ⟨CBuf.init Byte 1, none⟩ ∧
    LoneBuffer.construct eight 4 = .ok loneFresh ∧
    LoneBuffer.construct eight 65535 = .ok ⟨CBuf.init Byte 65535, none⟩ := ⟨rfl, rfl, rfl, rfl⟩

/-- Logs 28 and 29: a pseudo-instruction on the port that R70 does not name, and a draw inside a comment. -/
theorem test_assemble_open_points :
    assembleLine ['F', 'G', ':', ' ', 'S', 'C', '.', 'D', 'R', 'A', 'I', 'N', ' ', '1'] =
      some [.command .fg .scBhalf none] ∧
    assembleLine [';', ' ', 'x', ' ', ';', ' ', 'd', 'r', 'a', 'w', ' ', 'T', 'X', 'R', 'D', 'Y', '=', '1'] = some [] ∧
    assembleLine [';', ' ', 'd', 'r', 'a', 'w', ' ', 'T', 'X', 'R', 'D', 'Y', '=', '1'] = some [.draw true] := by decide

theorem witness_ResetBuffersAreEmptyAndCurrent :
    State.construct ⟨.lagged, .host⟩ 65535 [] true = .ok (State.init ⟨.lagged, .host⟩ 65535 [] true) := rfl

theorem witness_ConstructionMeetsTheInvariant :
    (1 : Half) ≠ 0 ∧ (65535 : Half) ≠ 0 ∧ LoneBuffer.construct eight 4 = .ok loneFresh :=
  ⟨by decide, by decide, rfl⟩

theorem witness_StepKeepsTheInvariant :
    Inv enqInFlight ∧ look (step enqInFlight) (fun t => t.fg.rsps) = some [0x00000000] := by decide

theorem witness_OnlyTheThreeFaults :
    Inv (told (fresh .lagged .host) .fg [0x16000000] (.run .fg 0)) ∧
      faultOf (step (told (fresh .lagged .host) .fg [0x16000000] (.run .fg 0))) = some .portDiscipline := by decide

theorem witness_PremisesExcludeEveryFault :
    Inv enqNext ∧ oneUnit (nextEvent enqNext) = true ∧ spsc enqNext (nextEvent enqNext) = true ∧
      resizeExclusive enqNext (nextEvent enqNext) = true ∧ transferReady enqNext (nextEvent enqNext) = true := by decide

/-- An `SC.BHALF` at u7b with the transport ready, its port's turn next. -/
def sending : State := { standing (fresh .lagged .host) .bh .scBhalf .u7b Locals.init with script := [.run .bh 0] }

theorem witness_HandlerTransfersAreReady :
    Inv sending ∧ handlerReady sending = true ∧ oneUnit (nextEvent sending) = true ∧
      transportSafe sending (nextEvent sending) = true ∧ handlerWriteApart sending (nextEvent sending) = true ∧
      look (step sending) (fun t => t.txLog) = some [0] ∧
      premiseAt .handlerNeverUnready sending (nextEvent sending) = true ∧
      nextEvent sending = .run .bh 0 ∧ nextCommand sending .bh = some .scBhalf := by decide

/-- R175, log 25: with `TXARM` cleared after u5, an `SC.BWRB` between u7a and u7b is transport-safe, and can leave the
transport not ready. -/
theorem test_transport_safe_run_can_break_u7b :
    let s := { standing sending .fg (.scBwrb 1) .u2 Locals.init with draws := [false], script := [.run .fg 0] }
    transportSafe s (.run .fg 0) = true ∧ handlerReady s = true ∧ handlerWriteApart s (.run .fg 0) = false ∧
      look (step s) handlerReady = some false := by decide

/-- The schedule of nothing but full catch-ups of an empty buffer's four views. -/
def catchUps (n : Nat) : Event :=
  match n % 4 with
  | 0 => .syncW .inbound 0
  | 1 => .syncR .inbound 0
  | 2 => .syncW .outbound 0
  | _ => .syncR .outbound 0

theorem catchUps_run (n : Nat) :
    oneUnit (catchUps n) = true ∧ perform (catchUps n) (fresh .lagged .host) = .next (fresh .lagged .host) := by
  unfold catchUps
  split <;> exact ⟨rfl, rfl⟩

theorem witness_FairViewsCatchUp :
    IsRun catchUps (fun _ => fresh .lagged .host) ∧ Inv (fresh .lagged .host) ∧
      (fresh .lagged .host).par.sync = .lagged ∧ SyncFair catchUps (fun _ => fresh .lagged .host) := by
  refine ⟨catchUps_run, by decide, rfl, fun _ b => ?_⟩
  have at_offset : ∀ (k n : Nat), k < 4 → catchUps (4 * n + k) = catchUps k := by
    intro k n hk
    have e : (4 * n + k) % 4 = k % 4 := by omega
    simp only [catchUps, e]
  cases b
  · exact ⟨fun n => ⟨4 * n + 0, by omega, at_offset 0 n (by omega)⟩, fun n => ⟨4 * n + 1, by omega, at_offset 1 n (by omega)⟩⟩
  · exact ⟨fun n => ⟨4 * n + 2, by omega, at_offset 2 n (by omega)⟩, fun n => ⟨4 * n + 3, by omega, at_offset 3 n (by omega)⟩⟩

/-! ### A run in which a byte is enqueued, sent, and transmission disarmed (R172 to R174) -/

/-- An `SC.ENQ 0x41`, an invocation that sends it, a ready transport, an invocation that disarms; then only `ENV`. -/
def sendingEvents : List Event :=
  [.present .fg 0x13000041, .run .fg 0, .run .fg 0, .run .fg 0, .present .bh 0x16000000, .run .bh 0, .run .bh 0,
   .run .bh 0, .run .bh 0, .envTxReady, .present .bh 0x16000000, .run .bh 0, .run .bh 0, .run .bh 0, .run .bh 0,
   .run .bh 0, .envTxReady]

def sendingSchedule (n : Nat) : Event := sendingEvents.getD n .envTxReady

/-- The state `n` steps later. -/
def sendingRun : Nat → State
  | 0 => fresh .direct .register
  | n + 1 =>
    match perform (sendingSchedule n) (sendingRun n) with
    | .next t => t
    | .fault _ => sendingRun n
    | .refused _ => sendingRun n

theorem sendingSchedule_tail (k : Nat) : sendingSchedule (17 + k) = .envTxReady := by
  rw [sendingSchedule, List.getD_eq_getElem?_getD, List.getElem?_eq_none (by simp [sendingEvents])]; rfl

theorem sendingRun_tail (k : Nat) : sendingRun (17 + k) = sendingRun 17 := by
  induction k with
  | zero => rfl
  | succ k ih =>
    have e : sendingRun (17 + (k + 1)) =
      match perform (sendingSchedule (17 + k)) (sendingRun (17 + k)) with
      | .next t => t
      | .fault _ => sendingRun (17 + k)
      | .refused _ => sendingRun (17 + k) := rfl
    rw [e, sendingSchedule_tail, ih]
    rfl

/-- What holds of the first 17 steps and of the tail's state and event holds all along the run. -/
theorem sendingRun_along (P : State → Event → Prop) (h : ∀ n, n < 17 → P (sendingRun n) (sendingSchedule n))
    (t : P (sendingRun 17) .envTxReady) (n : Nat) : P (sendingRun n) (sendingSchedule n) := by
  by_cases c : n < 17
  · exact h n c
  · obtain ⟨k, rfl⟩ : ∃ k, n = 17 + k := ⟨n - 17, by omega⟩
    rw [sendingRun_tail, sendingSchedule_tail]
    exact t

/-- A premise that says nothing of runs in which something ends. -/
theorem sendingRun_ends (P : State → Prop) (t : ¬ P (sendingRun 17)) (n : Nat) : ¬ ∀ m, n ≤ m → P (sendingRun m) :=
  fun h => t (by have := h (17 + n) (by omega); rwa [sendingRun_tail] at this)

theorem sendingRun_isRun : IsRun sendingSchedule sendingRun := by
  have step : ∀ n, (∃ t, perform (sendingSchedule n) (sendingRun n) = .next t) →
      perform (sendingSchedule n) (sendingRun n) = .next (sendingRun (n + 1)) := by
    rintro n ⟨t, h⟩
    simp only [sendingRun, h]
  have next : ∀ n, oneUnit (sendingSchedule n) = true ∧
      look (perform (sendingSchedule n) (sendingRun n)) (fun _ => ()) = some () :=
    sendingRun_along (fun s e => oneUnit e = true ∧ look (perform e s) (fun _ => ()) = some ()) (by decide) (by decide)
  refine fun n => ⟨(next n).1, step n ?_⟩
  have h := (next n).2
  cases e : perform (sendingSchedule n) (sendingRun n) with
  | next t => exact ⟨t, rfl⟩
  | fault f => rw [e] at h; cases h
  | refused r => rw [e] at h; cases h

/-- The run as a whole is as every row of R178 asks. -/
theorem sendingRun_fairness (q : RunProperty) : fairnessOf q sendingSchedule sendingRun := by
  cases q
  case blockingWriteCount =>
    rintro ⟨p, n, h⟩
    exact sendingRun_ends (fun s => held s p = true) (by cases p <;> decide) n h
  case everyByteSent =>
    exact ⟨⟨fun _ n h => absurd h (sendingRun_ends (fun s => irq s = true ∧ s.bh.infl = .idle) (by decide) n),
        fun h => absurd h (by decide)⟩,
      fun n => ⟨17 + n, by omega, (congrArg State.txReady (sendingRun_tail n)).trans rfl⟩,
      fun n h => absurd h (sendingRun_ends (fun s => inDrainLoop s = true) (by decide) n)⟩
  all_goals exact trivial

/-- The premises of every row of R178 whose rule lets `FG` run and `OUT` be read can be met together. -/
theorem test_premises_of_R178 :
    ∀ q ∈ [RunProperty.rangeAndRingOrder, .fifoLaw, .exactStatus, .usableCapacity .inbound, .blockingWriteCount,
      .everyByteSent, .resizeKeepsNewest, .handlerNeverUnready], Premises q sendingSchedule sendingRun := by
  intro q h
  refine ⟨sendingRun_isRun, sendingRun_along (fun s e => premiseAt q s e = true) ?_ ?_, sendingRun_fairness q⟩ <;>
    revert q <;> decide

theorem witness_EveryEnqueuedByteIsSent :
    State.construct ⟨.direct, .register⟩ 4 [] true = .ok (sendingRun 0) ∧
    Premises .everyByteSent sendingSchedule sendingRun ∧
    Along handlerOnly sendingSchedule sendingRun ∧ Along transportSafe sendingSchedule sendingRun ∧
    HandlerProgress sendingSchedule sendingRun ∧ (sendingRun 4).fg.infl = .idle ∧
    bytesOver enqueuedByte sendingSchedule sendingRun 4 = [0x41] :=
  ⟨rfl, test_premises_of_R178 _ (by decide),
    sendingRun_along (fun s e => handlerOnly s e = true) (by decide) (by decide),
    sendingRun_along (fun s e => transportSafe s e = true) (by decide) (by decide),
    fun n h => absurd h (sendingRun_ends (fun s => s.bh.infl ≠ .idle ∧ held s .bh = false) (by decide) n),
    by decide, by decide⟩

/-- What the statement concludes, on this run: the byte is on the wire, and nothing is left over. -/
theorem test_enqueued_byte_is_sent :
    bytesOver sentByte sendingSchedule sendingRun 9 = [0x41] ∧ (sendingRun 17).txLog = [0x41] ∧
    (sendingRun 17).txArm = false ∧ (sendingRun 17).evTx = false ∧ (sendingRun 17).outb.queued = [] := by decide

/-- With the byte taken from `OUT` and not yet written, it is in the handler's hand. -/
theorem test_byte_in_hand : inHand (sendingRun 8) = [0x41] ∧ (sendingRun 8).outb.queued = [] := by decide

/-! ### The end of a test run (`70_reset_and_hazards.md` R177) -/

/-- What a test looks at in the state in which a run has ended. -/
def atEnd {α : Type} (v : RunVerdict) (f : State → α) : Option α :=
  match v with
  | .ended s => some (f s)
  | .stuck _ => none
  | .starved _ => none
  | .faulted _ => none
  | .refused _ => none

/-- V51: an `ENV` line lifts the hold of an `SC.BRDB`, and the run ends with its answer. -/
theorem test_run_ends_after_a_lifted_hold :
    atEnd (runTest .fg [.command .fg .scBrdb none, .envRx 0x5A] (fresh .lagged .host)) (fun s => (s.rxq, s.fg.rsps)) =
      some ([], [0x0000005A]) := by decide

/-- V56: the second byte goes out after the hold. -/
theorem test_run_ends_after_a_hold_between_bytes :
    atEnd (runTest .bh [.draw false, .draw true, .command .fg (.scBwrite false 2 [0x41, 0x42]) none, .envTxRdy true]
      (fresh .lagged .host)) (fun s => (s.txLog, s.fault, s.fg.rsps)) = some ([0x41, 0x42], .noFault, [0x00000000]) := by
  decide

/-- V52: with no `ENV` step the run is stuck. -/
theorem test_run_is_stuck :
    (match runTest .fg [.command .fg .scBrdb none] (fresh .lagged .host) with
      | .stuck s => held s .fg
      | _ => false) = true := by decide

end Sys2Proof.Tests
end

/-! ### Occupancy along a ring (`00_scope.md` R9) -/

namespace Sys2Proof.Machine

section
variable {x y z c : Half}

/-- An advanced index is the next slot round the ring. -/
theorem inc_toNat_mod (h : x.toNat < c.toNat) : (inc x c).toNat = (x.toNat + 1) % c.toNat := by
  rw [inc_toNat h, mod_eq (by omega)]
  split <;> omega

/-- Two stretches that do not go round the ring join to one. -/
theorem occ_add (hx : x.toNat < c.toNat) (hy : y.toNat < c.toNat) (hz : z.toNat < c.toNat)
    (h : occ x y c + occ y z c < c.toNat) : occ x z c = occ x y c + occ y z c := by
  rw [occ_eq hx hy, occ_eq hy hz] at *
  rw [occ_eq hx hz]
  split_ifs at * <;> omega

/-- A stretch is cut in two at any index that lies on it. -/
theorem occ_split (hx : x.toNat < c.toNat) (hy : y.toNat < c.toNat) (hz : z.toNat < c.toNat)
    (h : occ x y c ≤ occ x z c) : occ x y c + occ y z c = occ x z c := by
  rw [occ_eq hx hy, occ_eq hx hz] at *
  rw [occ_eq hy hz]
  split_ifs at * <;> omega

/-- The front of a stretch advances: one slot more, if a slot is left. -/
theorem occ_inc_right (hx : x.toNat < c.toNat) (hy : y.toNat < c.toNat) (h : occ x y c + 1 < c.toNat) :
    occ x (inc y c) c = occ x y c + 1 := by
  rw [occ_eq hx hy] at *
  rw [occ_eq hx (inc_lt hy), inc_toNat hy]
  split_ifs at * <;> omega

/-- The back of a stretch that is not empty advances: one slot fewer. -/
theorem occ_inc_left (hx : x.toNat < c.toNat) (hy : y.toNat < c.toNat) (h : x ≠ y) :
    occ (inc x c) y c + 1 = occ x y c := by
  rw [Ne, ← BitVec.toNat_inj] at h
  rw [occ_eq hx hy, occ_eq (inc_lt hx) hy, inc_toNat hx]
  split_ifs <;> omega

/-- A stretch of `CAP - 1` slots is one whose front meets its back at the next advance. -/
theorem inc_eq_of_occ (hx : x.toNat < c.toNat) (hy : y.toNat < c.toNat) (h : occ x y c + 1 = c.toNat) :
    inc y c = x := by
  rw [occ_eq hx hy] at h
  rw [← BitVec.toNat_inj, inc_toNat hy]
  split_ifs at * <;> omega

/-- From slot 0 an index counts the slots before it. -/
theorem occ_zero_left (hy : y.toNat < c.toNat) : occ 0 y c = y.toNat := by
  rw [occ_eq (x := 0) (by simp; omega) hy]
  simp

/-- As many slots forward of `x` as lie between `x` and `y` stands `y`. -/
theorem add_occ_mod (hx : x.toNat < c.toNat) (hy : y.toNat < c.toNat) : (x.toNat + occ x y c) % c.toNat = y.toNat := by
  rw [occ_eq hx hy, mod_eq (by split <;> omega)]
  split_ifs <;> omega

end

/-! ### What each primitive keeps of a buffer (R13, R14, R15, R17) -/

section
variable {α : Type} {sync : Sync} {role : Role} {c d : CBuf α}

/-- A store empties no slot. -/
theorem isSome_memGet_memSet {m : List (Nat × α)} (i j : Nat) (v : α) (h : j = i ∨ (memGet m j).isSome = true) :
    (memGet (memSet m i v) j).isSome = true := by
  by_cases hj : j = i
  · rw [hj, memGet_memSet_same]; rfl
  · rw [memGet_memSet_other m i j v hj]; exact h.resolve_left hj

/-- Ring order says that the write index leads the producer's view of the read index by at most `CAP - 1`, with
`RD` and `WRV` between them in that order (R17). -/
theorem RingOrder.occ_rdv_wr (hin : InRange c) (hring : RingOrder c) :
    occ c.rdv c.wr c.cap = occ c.rdv c.rd c.cap + occ c.rd c.wrv c.cap + occ c.wrv c.wr c.cap := by
  obtain ⟨hcap, hwr, hrd, hwrv, hrdv⟩ := hin
  have hfront := occ_add hrdv hrd hwrv (by omega)
  rw [← hfront]
  exact occ_add hrdv hwrv hwr (by omega)

/-- The consumer sees part of the queue, the rest is still to reach its view (R16, R17). -/
theorem RingOrder.count_eq (hin : InRange c) (hring : RingOrder c) :
    c.count = occ c.rd c.wrv c.cap + occ c.wrv c.wr c.cap := by
  obtain ⟨hcap, hwr, hrd, hwrv, hrdv⟩ := hin
  exact occ_add hrd hwrv hwr (by omega)

/-- A producer that does not see the buffer full has a free slot beyond the one it writes. -/
theorem occ_rdv_wr_of_not_full (hin : InRange c) (hfull : inc c.wr c.cap ≠ c.rdv) :
    occ c.rdv c.wr c.cap + 1 < c.cap.toNat := by
  obtain ⟨hcap, hwr, hrd, hwrv, hrdv⟩ := hin
  have hlt := occ_lt hrdv hwr
  have hne : occ c.rdv c.wr c.cap + 1 ≠ c.cap.toNat := fun h => hfull (inc_eq_of_occ hrdv hwr h)
  omega

/-- The ring indices after an element is stored: the queue grows by one slot. -/
theorem count_inc_wr (hin : InRange c) (hring : RingOrder c) (hfull : inc c.wr c.cap ≠ c.rdv) :
    occ c.rd (inc c.wr c.cap) c.cap = c.count + 1 := by
  have hsum := RingOrder.occ_rdv_wr hin hring
  have hroom := occ_rdv_wr_of_not_full hin hfull
  have hcount := RingOrder.count_eq hin hring
  obtain ⟨hcap, hwr, hrd, hwrv, hrdv⟩ := hin
  exact occ_inc_right hrd hwr (by unfold CBuf.count at hcount; omega)

/-- A store at the write index fills the slot the queue grows by. -/
theorem StorageOk.push (v : α) (hin : InRange c) (hring : RingOrder c) (hst : StorageOk c)
    (hfull : inc c.wr c.cap ≠ c.rdv) (w : Half) :
    StorageOk { c with mem := memSet c.mem c.wr.toNat v, wr := inc c.wr c.cap, wrv := w } := by
  obtain ⟨hwf, hslots, hfilled⟩ := hst
  have hcount := count_inc_wr hin hring hfull
  obtain ⟨hcap, hwr, hrd, -, -⟩ := hin
  refine ⟨memWf_memSet _ _ hwf, fun e he => ?_, fun i hi => ?_⟩
  · rcases mem_memSet he with rfl | he
    · exact hwr
    · exact hslots e he
  · refine isSome_memGet_memSet _ _ _ ?_
    rcases Nat.lt_or_ge i c.count with hlt | hge
    · exact .inr (hfilled i hlt)
    · have hi : i < occ c.rd (inc c.wr c.cap) c.cap := hi
      have hlast : i = c.count := by omega
      exact .inl (hlast ▸ add_occ_mod hrd hwr)

/-- `cb_write` keeps everything that holds of a buffer (R80). -/
theorem BufInv.write {v : α} {st : Status} (hc : BufInv sync c) (h : c.write sync role v = .ok (st, d)) :
    BufInv sync d := by
  obtain ⟨-, -, ⟨-, -, rfl⟩ | ⟨hfull, -, -, rfl⟩⟩ := write_ok h
  · exact hc
  obtain ⟨hin, hring, hst, hviews⟩ := hc
  have hsum := RingOrder.occ_rdv_wr hin hring
  have hroom := occ_rdv_wr_of_not_full hin hfull
  have hcount := count_inc_wr hin hring hfull
  have hpush := hst.push v hin hring hfull
  have hqueue := RingOrder.count_eq hin hring
  obtain ⟨hcap, hwr, hrd, hwrv, hrdv⟩ := hin
  have hwr' := inc_lt hwr
  cases sync with
  | lagged =>
    have hview := occ_inc_right hwrv hwr (by omega)
    exact ⟨⟨hcap, hwr', hrd, hwrv, hrdv⟩, by simp only [RingOrder, reduceCtorEq, if_false, hview]; omega, hpush _,
      by simp⟩
  | direct =>
    obtain ⟨-, hrdvEq⟩ := hviews rfl
    refine ⟨⟨hcap, hwr', hrd, hwr', hrdv⟩, ?_, hpush _, fun _ => ⟨by simp, hrdvEq⟩⟩
    simp only [RingOrder, if_true, hrdvEq, occ_self, hcount]
    omega

/-- The queue after its oldest element is taken: the rest, filled as before. -/
theorem StorageOk.pop (hin : InRange c) (hst : StorageOk c) (hne : c.rd ≠ c.wr) (r : Half) :
    StorageOk { c with rd := inc c.rd c.cap, rdv := r } := by
  obtain ⟨hwf, hslots, hfilled⟩ := hst
  obtain ⟨-, hwr, hrd, -, -⟩ := hin
  refine ⟨hwf, hslots, fun i hi => ?_⟩
  have hi : i < occ (inc c.rd c.cap) c.wr c.cap := hi
  have hcount : occ (inc c.rd c.cap) c.wr c.cap + 1 = c.count := occ_inc_left hrd hwr hne
  have hslot : ((inc c.rd c.cap).toNat + i) % c.cap.toNat = (c.rd.toNat + (i + 1)) % c.cap.toNat := by
    rw [inc_toNat_mod hrd, Nat.mod_add_mod]; congr 1; omega
  rw [hslot]
  exact hfilled (i + 1) (by omega)

/-- `cb_read` keeps everything that holds of a buffer (R81). -/
theorem BufInv.read {r : Option α} (hc : BufInv sync c) (h : c.read sync role = .ok (r, d)) : BufInv sync d := by
  obtain ⟨-, -, ⟨-, -, rfl⟩ | ⟨hseen, -, v, -, -, rfl⟩⟩ := read_ok h
  · exact hc
  obtain ⟨hin, hring, hst, hviews⟩ := hc
  have hqueue := RingOrder.count_eq hin hring
  have hpop := hst.pop hin
  obtain ⟨hcap, hwr, hrd, hwrv, hrdv⟩ := hin
  have hrd' := inc_lt hrd
  have hback := occ_inc_left hrd hwrv hseen.symm
  have hne : c.rd ≠ c.wr := fun he => by
    have hzero : c.count = 0 := (occ_eq_zero hrd hwr).mpr he
    omega
  cases sync with
  | lagged =>
    have hview := occ_inc_right hrdv hrd (by omega)
    exact ⟨⟨hcap, hwr, hrd', hwrv, hrdv⟩, by simp only [RingOrder, reduceCtorEq, if_false, hview]; omega, hpop hne _,
      by simp⟩
  | direct =>
    obtain ⟨hwrvEq, -⟩ := hviews rfl
    refine ⟨⟨hcap, hwr, hrd', hwrv, hrd'⟩, ?_, hpop hne _, fun _ => ⟨hwrvEq, by simp⟩⟩
    simp only [RingOrder, if_true, occ_self]
    omega

/-- Unit u2 of `cb_resize` answers a buffer in which everything holds that holds of one, whatever the buffer before
(R82). -/
theorem BufInv.of_resizeCopy {n : Half} {k : Nat} (hn : n ≠ 0) (h : c.resizeCopy n = .ok (k, d)) : BufInv sync d := by
  obtain ⟨-, hcap, hrd, hrdv, hwr, hwrv, -, hwf, -, hslots, hfilled⟩ := resizeCopy_ok h
  have hpos : 0 < n.toNat := Nat.pos_of_ne_zero fun h0 => hn (BitVec.eq_of_toNat_eq h0)
  have hkeep : min c.count (n.toNat - 1) < n.toNat := by omega
  generalize min c.count (n.toNat - 1) = keep at *
  have hwrNat : d.wr.toNat = keep := by
    rw [hwr, BitVec.toNat_ofNat, Nat.mod_eq_of_lt (Nat.lt_trans hkeep n.isLt)]
  have hqueue : occ 0 d.wr n = keep := by rw [occ_zero_left (by omega), hwrNat]
  refine ⟨?_, ?_, ⟨hwf, fun e he => ?_, fun i hi => ?_⟩, fun _ => ⟨hwrv, hrdv.trans hrd.symm⟩⟩
  · rw [InRange, hwrv, hrd, hrdv, hcap, hwrNat]
    exact ⟨hpos, hkeep, hpos, hkeep, hpos⟩
  · rw [RingOrder, hwrv, hrd, hrdv, hcap, occ_self, occ_self, hqueue]
    omega
  · exact hcap ▸ Nat.lt_trans (hslots e he) hkeep
  · rw [CBuf.count, hrd, hcap, hqueue] at hi
    have hslot : (d.rd.toNat + i) % d.cap.toNat = i := by
      rw [hrd, hcap, Nat.mod_eq_of_lt (show (0 : Half).toNat + i < n.toNat by simp; omega)]
      simp
    rw [hslot]
    exact (hfilled i hi).2

/-- `SyncW` moves the consumer's view forward to an index that the producer has passed (R123). -/
theorem BufInv.moveWrv {x : Half} (hc : BufInv .lagged c) (h : c.mayMoveWrv x = true) :
    BufInv .lagged { c with wrv := x } := by
  simp only [CBuf.mayMoveWrv, Bool.and_eq_true, decide_eq_true_eq] at h
  obtain ⟨hx, hle⟩ := h
  obtain ⟨⟨hcap, hwr, hrd, hwrv, hrdv⟩, hring, hst, -⟩ := hc
  have hsplit := occ_split hwrv hx hwr hle
  have hjoin := occ_add hrd hwrv hx (by omega)
  exact ⟨⟨hcap, hwr, hrd, hx, hrdv⟩, by simp only [RingOrder, hjoin]; omega, hst, by simp⟩

/-- `SyncR` moves the producer's view forward to an index that the consumer has passed (R124). -/
theorem BufInv.moveRdv {x : Half} (hc : BufInv .lagged c) (h : c.mayMoveRdv x = true) :
    BufInv .lagged { c with rdv := x } := by
  simp only [CBuf.mayMoveRdv, Bool.and_eq_true, decide_eq_true_eq] at h
  obtain ⟨hx, hle⟩ := h
  obtain ⟨⟨hcap, hwr, hrd, hwrv, hrdv⟩, hring, hst, -⟩ := hc
  have hsplit := occ_split hrdv hx hrd hle
  exact ⟨⟨hcap, hwr, hrd, hwrv, hx⟩, by simp only [RingOrder]; omega, hst, by simp⟩

end

end Sys2Proof.Machine

namespace Sys2Proof.Machine

/-! ### The transport log (R28) -/

/-- The writes of a trace with one more entry. -/
theorem writesOf_append (t : List TraceEvent) (e : TraceEvent) : writesOf (t ++ [e]) = writesOf t ++ writesOf [e] := by
  induction t with
  | nil => simp [writesOf]
  | cons a t ih => cases a <;> simp [writesOf, ih]

/-! ### The invariant of the block, one port's command in flight left out -/

@[simp] theorem otherPort_fg : otherPort .fg = .bh := rfl
@[simp] theorem otherPort_bh : otherPort .bh = .fg := rfl
theorem otherPort_ne (p : Port) : otherPort p ≠ p := by cases p <;> decide

/-- The buffer whose resize window a port stands in. -/
def Infl.window : Infl → Option BufSel
  | .idle => none
  | .busy c => c.window

theorem resizes_eq_window (q : PortState) (b : BufSel) : q.resizes b = (q.infl.window == some b) := by
  unfold PortState.resizes
  cases q.infl <;> rfl

/-- What the invariant of the block says beside the record of port `p` itself: `p` counts as standing in the resize window
`w`, whatever its own `INFL` holds. Between the units of a turn that field still holds the record of the turn's start. -/
structure InvAround (par : Params) (p : Port) (w : Option BufSel) (s : State) : Prop where
  par_eq : s.par = par
  bufs : ∀ b, BufInv par.sync (s.buf b)
  other : portOk par (otherPort p) (s.port (otherPort p)) = true
  rsz : ∀ b, (s.buf b).rsz = (w == some b || (s.port (otherPort p)).resizes b)
  alone : ∀ b, w = some b → (s.port (otherPort p)).resizes b = false
  log : s.txLog = writesOf s.trace

/-- The invariant of the block, from the side of either port. -/
theorem inv_iff_around (p : Port) (s : State) :
    Inv s ↔ InvAround s.par p (s.port p).infl.window s ∧ portOk s.par p (s.port p) = true := by
  constructor
  · rintro ⟨hin, hout, hfg, hbh, ⟨hrszIn, haloneIn⟩, ⟨hrszOut, haloneOut⟩, hlog⟩
    have hbufs : ∀ b, BufInv s.par.sync (s.buf b) := by rintro (_ | _) <;> assumption
    have hrsz : ∀ b, (s.buf b).rsz = (s.fg.resizes b || s.bh.resizes b) := by rintro (_ | _) <;> assumption
    have halone : ∀ b, (s.fg.resizes b && s.bh.resizes b) = false := by rintro (_ | _) <;> assumption
    cases p with
    | fg =>
      refine ⟨⟨rfl, hbufs, hbh, fun b => ?_, fun b hw => ?_, hlog⟩, hfg⟩
      · rw [port_fg, ← resizes_eq_window]; exact hrsz b
      · have hfgb : s.fg.resizes b = true := by rw [resizes_eq_window, ← port_fg, hw]; simp
        simpa [hfgb] using halone b
    | bh =>
      refine ⟨⟨rfl, hbufs, hfg, fun b => ?_, fun b hw => ?_, hlog⟩, hbh⟩
      · rw [port_bh, ← resizes_eq_window, Bool.or_comm]; exact hrsz b
      · have hbhb : s.bh.resizes b = true := by rw [resizes_eq_window, ← port_bh, hw]; simp
        simpa [hbhb] using halone b
  · rintro ⟨⟨-, hbufs, hother, hrsz, halone, hlog⟩, hown⟩
    have hwindow : ∀ b, WindowOk s b := by
      intro b
      have hrszb := hrsz b
      have haloneb := halone b
      rw [← resizes_eq_window] at hrszb
      rw [← beq_iff_eq, ← resizes_eq_window] at haloneb
      cases p with
      | fg => exact ⟨hrszb, by simpa using haloneb⟩
      | bh => exact ⟨by rw [Bool.or_comm]; exact hrszb, by rw [Bool.and_comm]; simpa using haloneb⟩
    cases p with
    | fg => exact ⟨hbufs .inbound, hbufs .outbound, hown, hother, hwindow _, hwindow _, hlog⟩
    | bh => exact ⟨hbufs .inbound, hbufs .outbound, hother, hown, hwindow _, hwindow _, hlog⟩

section
variable {par : Params} {p q : Port} {w : Option BufSel} {s t : State}

/-- A command left in flight with a record that an accepted command leads to. -/
theorem InvAround.suspend {i : Instr} {l : Label} {x : Locals} (h : InvAround par p (InFlight.window ⟨i, l, x⟩) s)
    (hok : recordOk par p ⟨i, l, x⟩ = true) : Inv (s.suspend p i l x) := by
  obtain ⟨rfl, hbufs, hother, hrsz, halone, hlog⟩ := h
  have hport := suspend_port_other s p i l x (otherPort p) (otherPort_ne p)
  rw [inv_iff_around p, suspend_port_same, suspend_par]
  refine ⟨⟨suspend_par .., fun b => ?_, ?_, fun b => ?_, fun b => ?_, ?_⟩, hok⟩
  · rw [suspend_buf]; exact hbufs b
  · rw [hport]; exact hother
  · rw [suspend_buf, hport]; exact hrsz b
  · rw [hport]; exact halone b
  · rw [suspend_txLog, suspend_trace]; exact hlog

/-- A command that retires outside a resize window. -/
theorem InvAround.retire {n : Nat} {st : Status} {v : Half} (h : InvAround par p none s) : Inv (s.retire p n st v) := by
  obtain ⟨rfl, hbufs, hother, hrsz, halone, hlog⟩ := h
  have hport := retire_port_other s p n st v (otherPort p) (otherPort_ne p)
  rw [inv_iff_around p, retire_port_same, retire_par]
  refine ⟨⟨retire_par .., fun b => ?_, ?_, fun b => ?_, fun b => ?_, ?_⟩, rfl⟩
  · rw [retire_buf]; exact hbufs b
  · rw [hport]; exact hother
  · rw [retire_buf, hport]; exact hrsz b
  · rw [hport]; exact halone b
  · rw [retire_txLog, retire_trace]; exact hlog

/-! ### What an operation of a unit keeps of it -/

/-- An operation that touches no buffer and no port keeps the invariant if it keeps the transport log. -/
theorem InvAround.of_frame (h : InvAround par p w s) (hpar : t.par = s.par) (hinb : t.inb = s.inb)
    (houtb : t.outb = s.outb) (hfg : t.fg = s.fg) (hbh : t.bh = s.bh) (hlog : t.txLog = writesOf t.trace) :
    InvAround par p w t := by
  have hbuf : ∀ b, t.buf b = s.buf b := by rintro (_ | _) <;> assumption
  have hport : t.port (otherPort p) = s.port (otherPort p) := by cases p <;> assumption
  refine ⟨hpar.trans h.par_eq, fun b => ?_, ?_, fun b => ?_, fun b => ?_, hlog⟩
  · rw [hbuf]; exact h.bufs b
  · rw [hport]; exact h.other
  · rw [hbuf, hport]; exact h.rsz b
  · rw [hport]; exact h.alone b

/-- The registers of R19 to R21 are no part of the invariant. -/
theorem InvAround.withFault (f : FaultState) (h : InvAround par p w s) : InvAround par p w { s with fault := f } :=
  h.of_frame rfl rfl rfl rfl rfl h.log

theorem InvAround.withTxArm (v : Bool) (h : InvAround par p w s) : InvAround par p w { s with txArm := v } :=
  h.of_frame rfl rfl rfl rfl rfl h.log

theorem InvAround.withRxArm (v : Bool) (h : InvAround par p w s) : InvAround par p w { s with rxArm := v } :=
  h.of_frame rfl rfl rfl rfl rfl h.log

/-- Platform actions are no transport writes. -/
theorem InvAround.enableReceive (h : InvAround par p w s) : InvAround par p w (enableReceive q s) :=
  h.of_frame rfl rfl rfl rfl rfl (by simpa [Machine.enableReceive, writesOf_append, writesOf] using h.log)

theorem InvAround.enableTransmit (h : InvAround par p w s) : InvAround par p w (enableTransmit q s) :=
  h.of_frame rfl rfl rfl rfl rfl (by simpa [Machine.enableTransmit, writesOf_append, writesOf] using h.log)

theorem InvAround.disableTransmit (h : InvAround par p w s) : InvAround par p w (disableTransmit q s) :=
  h.of_frame rfl rfl rfl rfl rfl (by simpa [Machine.disableTransmit, writesOf_append, writesOf] using h.log)

/-- A transport read is traced, and it is no write. -/
theorem InvAround.transportRead {v : Byte} (h : InvAround par p w s) (ht : transportRead q s = .ok (v, t)) :
    InvAround par p w t := by
  obtain ⟨rest, -, rfl⟩ := transportRead_ok ht
  exact h.of_frame rfl rfl rfl rfl rfl (by simpa [writesOf_append, writesOf] using h.log)

/-- A transport write is logged and traced as one. -/
theorem InvAround.transportWrite {v : Byte} (h : InvAround par p w s) (ht : transportWrite q v s = .ok t) :
    InvAround par p w t := by
  obtain ⟨-, rfl⟩ := transportWrite_ok ht
  exact h.of_frame (by simp) (by simp) (by simp) (by simp) (by simp) (by simp [writesOf_append, writesOf, h.log])

/-- One buffer replaced by another that meets its invariant, with the windows moved to fit its `RSZ`. -/
theorem InvAround.setBuf {b : BufSel} {c : CBuf Byte} {w' : Option BufSel} (h : InvAround par p w s)
    (hc : BufInv par.sync c) (hrsz : c.rsz = (w' == some b || (s.port (otherPort p)).resizes b))
    (hsame : ∀ b', b' ≠ b → (w' == some b') = (w == some b'))
    (halone : w' = some b → (s.port (otherPort p)).resizes b = false) : InvAround par p w' (s.setBuf b c) := by
  obtain ⟨hpar, hbufs, hother, hrszOld, haloneOld, hlog⟩ := h
  refine ⟨by simpa using hpar, fun b' => ?_, by simpa using hother, fun b' => ?_, fun b' hw => ?_, by simpa using hlog⟩
  all_goals by_cases hb : b' = b
  · rw [hb, setBuf_buf_same]; exact hc
  · rw [setBuf_buf_other _ _ _ _ hb]; exact hbufs b'
  · rw [hb, setBuf_buf_same, setBuf_port]; exact hrsz
  · rw [setBuf_buf_other _ _ _ _ hb, setBuf_port, hsame b' hb]; exact hrszOld b'
  · rw [setBuf_port, hb]; exact halone (hb ▸ hw)
  · rw [setBuf_port]
    have hold := hsame b' hb
    rw [hw, beq_self_eq_true] at hold
    exact haloneOld b' (eq_of_beq hold.symm)

/-- A buffer replaced by one with the same `RSZ`. -/
theorem InvAround.setBuf_sameWindow {b : BufSel} {c : CBuf Byte} (h : InvAround par p w s) (hc : BufInv par.sync c)
    (hrsz : c.rsz = (s.buf b).rsz) : InvAround par p w (s.setBuf b c) :=
  h.setBuf hc (hrsz.trans (h.rsz b)) (fun _ _ => rfl) (h.alone b)

theorem InvAround.cbWrite {b : BufSel} {v : Byte} {st : Status} (h : InvAround par p w s)
    (ht : cbWrite q b v s = .ok (st, t)) : InvAround par p w t ∧ (st = .ok ∨ st = .bufferFull) := by
  obtain ⟨c, hc, rfl⟩ := cbWrite_ok ht
  rw [h.par_eq] at hc
  have hinv := (h.bufs b).write hc
  obtain ⟨-, -, ⟨-, rfl, rfl⟩ | ⟨-, -, rfl, rfl⟩⟩ := write_ok hc
  · exact ⟨h.setBuf_sameWindow hinv rfl, .inr rfl⟩
  · exact ⟨h.setBuf_sameWindow hinv rfl, .inl rfl⟩

theorem InvAround.cbRead {b : BufSel} {r : Option Byte} (h : InvAround par p w s) (ht : cbRead q b s = .ok (r, t)) :
    InvAround par p w t := by
  obtain ⟨c, hc, rfl⟩ := cbRead_ok ht
  rw [h.par_eq] at hc
  refine h.setBuf_sameWindow ((h.bufs b).read hc) ?_
  obtain ⟨-, -, ⟨-, -, rfl⟩ | ⟨-, -, v, -, -, rfl⟩⟩ := read_ok hc <;> rfl

/-- Unit u1 of a resize: the window was closed, so no other port stands in it, and it opens (R34), or the capacity is
rejected. -/
theorem InvAround.cbResizeOpen {b : BufSel} {n : Half} {st : Status} (h : InvAround par p none s)
    (ht : cbResizeOpen b n s = .ok (st, t)) :
    (st = .ok ∧ n ≠ 0 ∧ InvAround par p (some b) t) ∨ (st ≠ .ok ∧ InvAround par p none t) := by
  obtain ⟨c, hc, rfl⟩ := cbResizeOpen_ok ht
  obtain ⟨hclosed, ⟨-, rfl, rfl⟩ | ⟨hn, rfl, rfl⟩⟩ := resizeOpen_ok hc
  · exact .inr ⟨by decide, by rwa [setBuf_buf_self]⟩
  · have hfree : (s.port (otherPort p)).resizes b = false := by
      have := h.rsz b
      rw [hclosed] at this
      simpa using this.symm
    exact .inl ⟨rfl, hn, h.setBuf (h.bufs b) (by simp) (fun b' hb => by simpa using hb.symm) fun _ => hfree⟩

/-- Unit u2 of a resize closes the window its port stands in. -/
theorem InvAround.cbResizeCopy {b : BufSel} {n : Half} {k : Nat} (h : InvAround par p (some b) s) (hn : n ≠ 0)
    (ht : cbResizeCopy b n s = .ok (k, t)) : InvAround par p none t := by
  obtain ⟨c, hc, rfl⟩ := cbResizeCopy_ok ht
  obtain ⟨-, -, -, -, -, -, hclosed, -⟩ := resizeCopy_ok hc
  refine h.setBuf (BufInv.of_resizeCopy hn hc) ?_ (fun b' hb => by simpa using hb.symm) (by simp)
  simp [hclosed, h.alone b rfl]

end

end Sys2Proof.Machine

namespace Sys2Proof.Machine

/-! ### A decoded command is well-formed (R63) -/

@[simp] theorem payloadLanes_length (ws : List Word) : (payloadLanes ws).length = 4 * ws.length := by
  induction ws with
  | nil => rfl
  | cons w ws ih => simp [payloadLanes, ih]; omega

/-- With no null flag, well-formedness is that the payload has the announced length. -/
theorem wf_scBwrite {len : Half} {bytes : List Byte} :
    (Instr.scBwrite false len bytes).Wf ↔ bytes.length = len.toNat := by
  simp [Instr.Wf, Instr.wfError]

theorem checked_ok {w : Word} {usesSel usesNp : Bool} {immUsed : Half} {i j : Instr}
    (h : checked w usesSel usesNp immUsed i = .ok j) : j = i := by
  unfold checked at h
  split at h
  · cases h
  · cases h; rfl

theorem decodeBwrite_ok {w : Word} {payload : List Word} {i : Instr} (h : decodeBwrite w payload = .ok i) :
    i = .scBwrite (wordNp w) (wordImm w) ((payloadLanes payload).take (wordImm w).toNat) := by
  unfold decodeBwrite at h
  simp only at h
  split at h
  · cases h
  · split at h
    · cases h; rfl
    · cases h

/-- `SC.BWRITE` takes as many payload bytes as its header announces words for. -/
theorem decodeBwrite_wf {w : Word} {payload : List Word} {i : Instr} (hopc : wordOpc w = 0x12)
    (hlen : payload.length = announcedWords w) (h : decodeBwrite w payload = .ok i) : i.Wf := by
  rw [decodeBwrite_ok h]
  cases hnp : wordNp w with
  | true =>
    rw [announcedWords, if_neg (by simp [hnp]), List.length_eq_zero_iff] at hlen
    simp [Instr.Wf, Instr.wfError, hlen, payloadLanes]
  | false =>
    rw [announcedWords, if_pos ⟨hopc, hnp⟩, payloadWordsOf] at hlen
    rw [wf_scBwrite, List.length_take, payloadLanes_length]
    omega

theorem decodeCommand_wf {w : Word} {payload : List Word} {i : Instr} (hlen : payload.length = announcedWords w)
    (h : decodeCommand w payload = .ok i) : i.Wf := by
  unfold decodeCommand at h
  simp only at h
  split at h
  case h_9 hopc => exact decodeBwrite_wf (BitVec.eq_of_toNat_eq hopc) hlen h
  case h_18 => cases h
  all_goals rw [checked_ok h]; rfl

theorem decode_legal_wf {ws : List Word} {i : Instr} {n : Nat} (h : decode ws = .legal i n) : i.Wf := by
  cases ws with
  | nil => cases h
  | cons w rest =>
    unfold decode at h
    simp only at h
    split at h
    · cases h
    · next harrived =>
      split at h
      · next i' hi =>
        cases h
        exact decodeCommand_wf (by rw [List.length_take]; omega) hi
      · cases h

/-! ### Units -/

/-- The unit of each command: the function that `exec` runs. -/
def unitOf : Instr → Port → Label → Locals → State → UnitResult
  | .cbWrite b v => unitCbWrite b v
  | .cbRead b => unitCbRead b
  | .cbResize b n => unitCbResize b n
  | .cbIsEmpty b => unitCbIsEmpty b
  | .cbIsFull b => unitCbIsFull b
  | .cbCount b => unitCbCount b
  | .scBrdb => unitScBrdb
  | .scBwrb v => unitScBwrb v
  | .scBwrite np len bytes => unitScBwrite np len bytes
  | .scEnq v => unitScEnq v
  | .scDeq => unitScDeq
  | .scResize n => unitScResize n
  | .scBhalf => unitScBhalf
  | .scArmrx => unitScArmrx
  | .scArmtx => unitScArmtx
  | .scDistx => unitScDistx
  | .scStat => unitScStat

theorem exec_eq_runCommand (i : Instr) (s : State) : exec i s = runCommand i (unitOf i) s := by cases i <;> rfl

/-- A port stands at a unit of a command: its record is one an accepted command leads to, or the command has just been
accepted, and everything else is as the invariant says. -/
structure Standing (par : Params) (p : Port) (c : InFlight) (s : State) : Prop where
  around : InvAround par p c.window s
  record : recordOk par p c = true ∨ (c.unit = .u1 ∧ c.cmd.Wf)

/-- What a unit of the record `c` has to leave behind so that the invariant holds wherever the turn ends. -/
def UnitResult.Keeps (par : Params) (p : Port) (c : InFlight) : UnitResult → Prop
  | .goto l x s => InvAround par p (InFlight.window ⟨c.cmd, l, x⟩) s ∧ recordOk par p ⟨c.cmd, l, x⟩ = true
  | .retire _ _ s => InvAround par p none s
  | .hold => recordOk par p c = true
  | .fault _ => True
  | .refuse _ => True

section
variable {par : Params} {p : Port} {c : InFlight} {s : State} {l : Label} {x : Locals} {b : BufSel}

theorem keeps_attempt {α : Type} {r : Except Fault α} {k : α → UnitResult}
    (h : ∀ a, r = .ok a → (k a).Keeps par p c) : (attempt r k).Keeps par p c := by
  unfold attempt
  split
  · trivial
  · exact h _ rfl

theorem keeps_waitUntil {ready : Bool} (hhold : recordOk par p c = true)
    (hgo : (UnitResult.goto l x s).Keeps par p c) : (waitUntil ready l x s).Keeps par p c := by
  unfold waitUntil
  split
  · exact hgo
  · exact hhold

/-- The answer of a read that takes an element or reports `BufferEmpty`. -/
theorem keeps_readAnswer {r : Option Byte} (h : InvAround par p none s) :
    UnitResult.Keeps par p c (match r with
      | none => raise .bufferEmpty s
      | some v => .retire .ok (v.setWidth 16) s) := by
  cases r <;> exact h

/-- Unit u1 of a resize, inside the command whose unit it is. -/
theorem keeps_resizeOpen {n : Half} (h : InvAround par p none s) (hwindow : InFlight.window ⟨c.cmd, l, x⟩ = some b)
    (hok : n ≠ 0 → recordOk par p ⟨c.cmd, l, x⟩ = true) :
    (attempt (cbResizeOpen b n s) fun r => if r.1 = .ok then .goto l x r.2 else raise r.1 r.2).Keeps par p c := by
  refine keeps_attempt fun r ha => ?_
  rcases h.cbResizeOpen ha with ⟨hst, hn, hopen⟩ | ⟨hst, hsame⟩
  · rw [if_pos hst]
    exact ⟨hwindow ▸ hopen, hok hn⟩
  · rw [if_neg hst]
    exact hsame

theorem unitCbWrite_keeps {v : Byte} (h : Standing par p ⟨.cbWrite b v, l, x⟩ s) :
    (unitCbWrite b v p l x s).Keeps par p ⟨.cbWrite b v, l, x⟩ := by
  unfold unitCbWrite
  split
  · exact keeps_attempt fun _ ha => (h.around.cbWrite ha).1
  · trivial

theorem unitCbRead_keeps (h : Standing par p ⟨.cbRead b, l, x⟩ s) :
    (unitCbRead b p l x s).Keeps par p ⟨.cbRead b, l, x⟩ := by
  unfold unitCbRead
  split
  · exact keeps_attempt fun _ ha => keeps_readAnswer (h.around.cbRead ha)
  · trivial

theorem unitCbResize_keeps {n : Half} (h : Standing par p ⟨.cbResize b n, l, x⟩ s) :
    (unitCbResize b n p l x s).Keeps par p ⟨.cbResize b n, l, x⟩ := by
  obtain ⟨around, record⟩ := h
  unfold unitCbResize
  split
  · exact keeps_resizeOpen around rfl fun hn => by simpa [recordOk] using hn
  · have hn : n ≠ 0 := by simpa [recordOk] using record
    refine keeps_attempt fun r ha => ?_
    have hclosed := around.cbResizeCopy hn ha
    split <;> exact hclosed
  · trivial

theorem unitCbIsEmpty_keeps (h : Standing par p ⟨.cbIsEmpty b, l, x⟩ s) :
    (unitCbIsEmpty b p l x s).Keeps par p ⟨.cbIsEmpty b, l, x⟩ := by
  unfold unitCbIsEmpty
  split
  · exact keeps_attempt fun _ _ => h.around
  · trivial

theorem unitCbIsFull_keeps (h : Standing par p ⟨.cbIsFull b, l, x⟩ s) :
    (unitCbIsFull b p l x s).Keeps par p ⟨.cbIsFull b, l, x⟩ := by
  unfold unitCbIsFull
  split
  · exact keeps_attempt fun _ _ => h.around
  · trivial

theorem unitCbCount_keeps (h : Standing par p ⟨.cbCount b, l, x⟩ s) :
    (unitCbCount b p l x s).Keeps par p ⟨.cbCount b, l, x⟩ := by
  unfold unitCbCount
  split
  · exact keeps_attempt fun _ _ => h.around
  · trivial

theorem unitScBrdb_keeps (h : Standing par p ⟨.scBrdb, l, x⟩ s) :
    (unitScBrdb p l x s).Keeps par p ⟨.scBrdb, l, x⟩ := by
  unfold unitScBrdb
  split
  · exact keeps_waitUntil rfl ⟨h.around, rfl⟩
  · exact keeps_attempt fun _ ha => h.around.transportRead ha
  · trivial

theorem unitScBwrb_keeps {v : Byte} (h : Standing par p ⟨.scBwrb v, l, x⟩ s) :
    (unitScBwrb v p l x s).Keeps par p ⟨.scBwrb v, l, x⟩ := by
  unfold unitScBwrb
  split
  · exact keeps_waitUntil rfl ⟨h.around, rfl⟩
  · exact keeps_attempt fun _ ha => h.around.transportWrite ha
  · trivial

/-- `SC.BWRITE`: the byte counter is below `len` before each byte, and `len` at u4. -/
theorem unitScBwrite_keeps {np : Bool} {len : Half} {bytes : List Byte}
    (h : Standing par p ⟨.scBwrite np len bytes, l, x⟩ s) :
    (unitScBwrite np len bytes p l x s).Keeps par p ⟨.scBwrite np len bytes, l, x⟩ := by
  obtain ⟨around, record⟩ := h
  unfold unitScBwrite
  split
  · split
    · exact around.withFault _
    · next hlegal =>
      obtain ⟨hnp, hlen⟩ := not_or.mp hlegal
      rw [Bool.not_eq_true] at hnp
      have hwf : (Instr.scBwrite np len bytes).Wf := (record.resolve_left (by simp [recordOk])).2
      rw [hnp, wf_scBwrite] at hwf
      have hpos : 0 < len.toNat := Nat.pos_of_ne_zero fun h0 => hlen (BitVec.eq_of_toNat_eq h0)
      exact ⟨around, by simp [recordOk, hnp, hwf, hpos]⟩
  · have hrec : recordOk par p ⟨.scBwrite np len bytes, .u2, x⟩ = true := record.resolve_right (by simp)
    exact keeps_waitUntil hrec ⟨around, hrec⟩
  · have hrec : recordOk par p ⟨.scBwrite np len bytes, .u3, x⟩ = true := record.resolve_right (by simp)
    simp only [recordOk, Bool.and_eq_true, Bool.not_eq_true', beq_iff_eq, decide_eq_true_eq] at hrec
    obtain ⟨⟨hnp, hbytes⟩, hk⟩ := hrec
    split
    · trivial
    · refine keeps_attempt fun s' hs' => ?_
      have hnext := around.transportWrite hs'
      split
      · next hmore => exact ⟨hnext, by simp [recordOk, hnp, hbytes, hmore]⟩
      · next hlast =>
        have hk' : x.k + 1 = len.toNat := by omega
        have hlen : ¬len = 0#16 := fun h0 => by simp [h0] at hk'
        exact ⟨hnext, by simp [recordOk, hnp, hbytes, hk', hlen]⟩
  · exact around.withFault _
  · trivial

theorem unitScEnq_keeps {v : Byte} (h : Standing par p ⟨.scEnq v, l, x⟩ s) :
    (unitScEnq v p l x s).Keeps par p ⟨.scEnq v, l, x⟩ := by
  obtain ⟨around, record⟩ := h
  unfold unitScEnq
  split
  · split
    · trivial
    · next hfg =>
      refine keeps_attempt fun r ha => ?_
      obtain ⟨hnext, hst⟩ := around.cbWrite ha
      exact ⟨hnext, by simpa [recordOk, hst] using hfg⟩
  · exact ⟨around.withTxArm _, record.resolve_right (by simp)⟩
  · exact around.enableTransmit
  · trivial

theorem unitScDeq_keeps (h : Standing par p ⟨.scDeq, l, x⟩ s) :
    (unitScDeq p l x s).Keeps par p ⟨.scDeq, l, x⟩ := by
  unfold unitScDeq
  split
  · split
    · trivial
    · exact keeps_attempt fun _ ha => keeps_readAnswer (h.around.cbRead ha)
  · trivial

/-- `SC.RESIZE`: its port stands in the window of `IN` at u3, in that of `OUT` at u5, and in none at its other units. -/
theorem unitScResize_keeps {n : Half} (h : Standing par p ⟨.scResize n, l, x⟩ s) :
    (unitScResize n p l x s).Keeps par p ⟨.scResize n, l, x⟩ := by
  obtain ⟨around, record⟩ := h
  have hpositive : l ≠ .u1 → n ≠ 0 := fun hl => by
    have hrec := record.resolve_right fun hu => hl hu.1
    cases l <;> simp_all [recordOk]
  unfold unitScResize
  split
  · split
    · exact around
    · next hn => exact ⟨around, by simpa [recordOk] using hn⟩
  · exact keeps_resizeOpen around rfl fun hn => by simpa [recordOk] using hn
  · have hn := hpositive (by decide)
    exact keeps_attempt fun _ ha => ⟨around.cbResizeCopy hn ha, by simpa [recordOk] using hn⟩
  · exact keeps_resizeOpen around rfl fun hn => by simpa [recordOk] using hn
  · refine keeps_attempt fun r ha => ?_
    have hclosed := around.cbResizeCopy (hpositive (by decide)) ha
    dsimp only
    split <;> exact hclosed
  · trivial

/-- `SC.BHALF` is in flight on `BH` only, and never at u1. -/
theorem recordOk_scBhalf_port (h : recordOk par p ⟨.scBhalf, l, x⟩ = true) : p = .bh := by
  cases l <;> simp_all [recordOk]

theorem unitScBhalf_keeps (h : Standing par p ⟨.scBhalf, l, x⟩ s) :
    (unitScBhalf p l x s).Keeps par p ⟨.scBhalf, l, x⟩ := by
  obtain ⟨around, record⟩ := h
  have hbh : l ≠ .u1 → p = .bh := fun hl => recordOk_scBhalf_port (record.resolve_right fun hu => hl hu.1)
  cases l with
  | u1 =>
    rw [unitScBhalf]
    split
    · trivial
    · next hp =>
      obtain rfl := not_not.mp hp
      split <;> exact ⟨around, rfl⟩
  | u2 =>
    obtain rfl := hbh (by decide)
    exact keeps_attempt fun _ ha => ⟨around.transportRead ha, rfl⟩
  | u3 =>
    obtain rfl := hbh (by decide)
    exact keeps_attempt fun _ ha => ⟨(around.cbWrite ha).1, rfl⟩
  | u4 =>
    obtain rfl := hbh (by decide)
    rw [unitScBhalf]
    split <;> exact ⟨around, rfl⟩
  | u5 =>
    obtain rfl := hbh (by decide)
    rw [unitScBhalf]
    split
    · exact ⟨around, rfl⟩
    · exact around
  | u6 =>
    obtain rfl := hbh (by decide)
    refine keeps_attempt fun r ha => ?_
    have hnext := around.cbRead ha
    split
    · exact ⟨hnext, rfl⟩
    · rw [around.par_eq]
      cases hbackend : par.backend <;> exact ⟨hnext, by simp [recordOk, hbackend]⟩
  | u7 => exact keeps_attempt fun _ ha => around.transportWrite ha
  | u7a =>
    have hhost : recordOk par p ⟨.scBhalf, .u7a, x⟩ = true := record.resolve_right (by simp)
    exact keeps_waitUntil hhost ⟨around, hhost⟩
  | u7b => exact keeps_attempt fun _ ha => around.transportWrite ha
  | u8 =>
    obtain rfl := hbh (by decide)
    exact ⟨around.withTxArm _, rfl⟩
  | u9 => exact around.disableTransmit

theorem unitScArmrx_keeps (h : Standing par p ⟨.scArmrx, l, x⟩ s) :
    (unitScArmrx p l x s).Keeps par p ⟨.scArmrx, l, x⟩ := by
  obtain ⟨around, -⟩ := h
  unfold unitScArmrx
  split
  · exact ⟨around.withRxArm _, rfl⟩
  · exact around.enableReceive
  · trivial

theorem unitScArmtx_keeps (h : Standing par p ⟨.scArmtx, l, x⟩ s) :
    (unitScArmtx p l x s).Keeps par p ⟨.scArmtx, l, x⟩ := by
  obtain ⟨around, -⟩ := h
  unfold unitScArmtx
  split
  · exact ⟨around.withTxArm _, rfl⟩
  · exact around.enableTransmit
  · trivial

theorem unitScDistx_keeps (h : Standing par p ⟨.scDistx, l, x⟩ s) :
    (unitScDistx p l x s).Keeps par p ⟨.scDistx, l, x⟩ := by
  obtain ⟨around, -⟩ := h
  unfold unitScDistx
  split
  · exact ⟨around.withTxArm _, rfl⟩
  · exact around.disableTransmit
  · trivial

theorem unitScStat_keeps (h : Standing par p ⟨.scStat, l, x⟩ s) :
    (unitScStat p l x s).Keeps par p ⟨.scStat, l, x⟩ := by
  unfold unitScStat
  split
  · exact h.around
  · trivial

/-- Every unit of every command keeps the invariant, wherever the turn ends after it. -/
theorem unitOf_keeps {i : Instr} (h : Standing par p ⟨i, l, x⟩ s) : (unitOf i p l x s).Keeps par p ⟨i, l, x⟩ := by
  cases i with
  | cbWrite b v => exact unitCbWrite_keeps h
  | cbRead b => exact unitCbRead_keeps h
  | cbResize b n => exact unitCbResize_keeps h
  | cbIsEmpty b => exact unitCbIsEmpty_keeps h
  | cbIsFull b => exact unitCbIsFull_keeps h
  | cbCount b => exact unitCbCount_keeps h
  | scBrdb => exact unitScBrdb_keeps h
  | scBwrb v => exact unitScBwrb_keeps h
  | scBwrite np len bytes => exact unitScBwrite_keeps h
  | scEnq v => exact unitScEnq_keeps h
  | scDeq => exact unitScDeq_keeps h
  | scResize n => exact unitScResize_keeps h
  | scBhalf => exact unitScBhalf_keeps h
  | scArmrx => exact unitScArmrx_keeps h
  | scArmtx => exact unitScArmtx_keeps h
  | scDistx => exact unitScDistx_keeps h
  | scStat => exact unitScStat_keeps h

/-! ### Turns -/

/-- A turn whose units keep the invariant ends in a state that meets it. -/
theorem drive_inv {i : Instr} {unit : Port → Label → Locals → State → UnitResult} {more : Nat} {t : State}
    (hunit : ∀ l x s, Standing par p ⟨i, l, x⟩ s → (unit p l x s).Keeps par p ⟨i, l, x⟩)
    (h : Standing par p ⟨i, l, x⟩ s) (ht : drive i unit p more l x s = .next t) : Inv t := by
  induction more generalizing l x s with
  | zero =>
    have hkeeps := hunit l x s h
    unfold drive at ht
    split at ht
    · next hu => cases ht; rw [hu] at hkeeps; exact hkeeps.1.suspend hkeeps.2
    · next hu => cases ht; rw [hu] at hkeeps; exact InvAround.retire hkeeps
    · next hu => cases ht; rw [hu] at hkeeps; exact h.around.suspend hkeeps
    · cases ht
    · cases ht
  | succ more ih =>
    have hkeeps := hunit l x s h
    unfold drive at ht
    split at ht
    · next hu => rw [hu] at hkeeps; exact ih ⟨hkeeps.1, .inl hkeeps.2⟩ ht
    · next hu => cases ht; rw [hu] at hkeeps; exact InvAround.retire hkeeps
    · next hu => cases ht; rw [hu] at hkeeps; exact h.around.suspend hkeeps
    · cases ht
    · cases ht

/-- No command stands in a resize window when it is accepted. -/
theorem window_u1 (i : Instr) (x : Locals) : InFlight.window ⟨i, .u1, x⟩ = none := by cases i <;> rfl

/-- A command whose port is idle, or that is in flight on it, keeps the invariant. -/
theorem exec_inv {i : Instr} {t : State} (h : Inv s) (hwf : (s.port s.turn.port).infl = .idle → i.Wf)
    (ht : exec i s = .next t) : Inv t := by
  obtain ⟨haround, hport⟩ := (inv_iff_around s.turn.port s).mp h
  rw [exec_eq_runCommand] at ht
  rcases runCommand_next ht with ⟨hidle, hd⟩ | ⟨c, hbusy, rfl, hd⟩ | ⟨c, -, -, rfl⟩
  · rw [hidle] at haround
    have hstart : InvAround s.par s.turn.port (InFlight.window ⟨i, .u1, Locals.init⟩) s := by
      rw [window_u1]; exact haround
    exact drive_inv (fun _ _ _ => unitOf_keeps) ⟨hstart, .inr ⟨rfl, hwf hidle⟩⟩ hd
  · rw [hbusy] at haround
    rw [portOk, hbusy] at hport
    exact drive_inv (fun _ _ _ => unitOf_keeps) ⟨haround, .inl hport⟩ hd
  · exact h

theorem runPort_inv {more : Nat} {t : State} (h : Inv s) (ht : runPort p more s = .next t) : Inv t := by
  have hturn : Inv { s with turn := ⟨p, more⟩ } := h
  have hport : ∀ p', ({ s with turn := ⟨p, more⟩ } : State).port p' = s.port p' := by rintro (_ | _) <;> rfl
  rcases runPort_next ht with
    ⟨c, hbusy, he⟩ | ⟨hidle, ⟨i, n, hd, he⟩ | ⟨e, n, -, rfl⟩ | ⟨-, rfl⟩⟩
  · refine exec_inv hturn (fun hidle => ?_) he
    rw [hport, hbusy] at hidle
    cases hidle
  · exact exec_inv hturn (fun _ => decode_legal_wf hd) he
  · have haround := ((inv_iff_around p _).mp hturn).1
    rw [hport, hidle] at haround
    exact haround.retire
  · exact hturn

/-- One buffer replaced by another that meets its invariant, with the same `RSZ`. -/
theorem Inv.setBuf {d : CBuf Byte} (h : Inv s) (hd : BufInv s.par.sync d) (hrsz : d.rsz = (s.buf b).rsz) :
    Inv (s.setBuf b d) := by
  rw [inv_iff_around .fg] at *
  obtain ⟨haround, hport⟩ := h
  rw [setBuf_par, setBuf_port]
  exact ⟨haround.setBuf_sameWindow hd hrsz, hport⟩

/-- The buffers' part of the invariant. -/
theorem Inv.buf (h : Inv s) (b : BufSel) : BufInv s.par.sync (s.buf b) :=
  ((inv_iff_around .fg s).mp h).1.bufs b

theorem syncWStep_inv {y : Half} (h : Inv s) : Inv (syncWStep b y s) := by
  rcases syncWStep_cases b y s with heq | ⟨hsync, hmove, heq⟩
  · rwa [heq]
  · have hb := Inv.buf h b
    rw [hsync] at hb
    rw [heq]
    exact Inv.setBuf h (hsync ▸ hb.moveWrv hmove) rfl

theorem syncRStep_inv {y : Half} (h : Inv s) : Inv (syncRStep b y s) := by
  rcases syncRStep_cases b y s with heq | ⟨hsync, hmove, heq⟩
  · rwa [heq]
  · have hb := Inv.buf h b
    rw [hsync] at hb
    rw [heq]
    exact Inv.setBuf h (hsync ▸ hb.moveRdv hmove) rfl

/-- What a feeder presents is not looked at by the invariant. -/
theorem presentStep_inv {y : Word} (h : Inv s) : Inv (presentStep p y s) := by
  cases p <;> exact h

/-- Every event keeps the invariant of the block. -/
theorem perform_inv {e : Event} {t : State} (h : Inv s) (ht : perform e s = .next t) : Inv t := by
  cases e with
  | run p more => exact runPort_inv h ht
  | syncW b y => cases ht; exact syncWStep_inv h
  | syncR b y => cases ht; exact syncRStep_inv h
  | envRx v => cases ht; exact h
  | envTxReady => cases ht; exact h
  | present p y => cases ht; exact presentStep_inv h

/-- Taking an event off the schedule keeps it. -/
theorem takeEvent_inv (h : Inv s) : Inv (takeEvent s).2 := by
  unfold takeEvent
  split <;> exact h

end

/-- Settles O58: an event is a turn of a port, unit by unit, or a step of `SYNC`, `ENV` or a feeder, and each keeps the
invariant. -/
theorem stepKeepsTheInvariant : Obligations.StepKeepsTheInvariant :=
  fun _ _ h ht => perform_inv (takeEvent_inv h) ht

/-! ### Reset (R33) -/

theorem stateConstruct_ok {par : Params} {n : Half} {rxq : List Byte} {rdy : Bool} {s : State}
    (h : State.construct par n rxq rdy = .ok s) : n ≠ 0 ∧ s = State.init par n rxq rdy := by
  unfold State.construct at h
  split at h
  · cases h
  · next hn => cases h; exact ⟨hn, rfl⟩

@[simp] theorem init_buf (par : Params) (n : Half) (rxq : List Byte) (rdy : Bool) (b : BufSel) :
    (State.init par n rxq rdy).buf b = CBuf.init Byte n := by cases b <;> rfl

/-- `State.reset` is itself a state of construction. -/
theorem buf_of_construct {s : State} (b : BufSel)
    (h : s = State.reset ∨ ∃ par n rxq rdy, State.construct par n rxq rdy = .ok s) :
    ∃ n, s.buf b = CBuf.init Byte n := by
  rcases h with rfl | ⟨par, n, rxq, rdy, h⟩
  · exact ⟨_, init_buf ..⟩
  · obtain ⟨-, rfl⟩ := stateConstruct_ok h
    exact ⟨n, init_buf ..⟩

/-- Settles O56: every index and view of a buffer right after construction is 0, and no slot lies between 0 and 0. -/
theorem resetBuffersAreEmptyAndCurrent : Obligations.ResetBuffersAreEmptyAndCurrent := by
  intro s b h
  obtain ⟨n, hn⟩ := buf_of_construct b h
  rw [hn]
  exact ⟨occ_self .., ⟨rfl, rfl⟩, occ_self .., occ_self .., occ_self ..⟩

end Sys2Proof.Machine

namespace Sys2Proof.Machine

section
variable {α : Type} {sync : Sync} {role : Role} {c d : CBuf α}

/-! ### What a refusal says (`20_memory.md` R52) -/

/-- The next advance of the front meets the back exactly when one slot of the ring is left between them. -/
theorem inc_eq_iff_occ {x y n : Half} (hx : x.toNat < n.toNat) (hy : y.toNat < n.toNat) :
    inc y n = x ↔ occ x y n = n.toNat - 1 := by
  constructor
  · rintro rfl
    rw [occ_eq (inc_lt hy) hy, inc_toNat hy]
    split_ifs <;> omega
  · intro h
    exact inc_eq_of_occ hx hy (by omega)

/-- A refused write changes nothing. -/
theorem write_full_eq {v : α} (h : c.write sync role v = .ok (.bufferFull, d)) : d = c := by
  obtain ⟨-, -, ⟨-, -, hd⟩ | ⟨-, -, hst, -⟩⟩ := write_ok h
  · exact hd
  · cases hst

/-- A refused read changes nothing. -/
theorem read_empty_eq (h : c.read sync role = .ok (none, d)) : d = c := by
  obtain ⟨-, -, ⟨-, -, hd⟩ | ⟨-, -, v, -, hv, -⟩⟩ := read_ok h
  · exact hd
  · cases hv

/-- The full test of R80, through the producer's view. -/
theorem write_full_iff {v : α} (hrsz : c.rsz = false) :
    c.write sync .producer v = .ok (.bufferFull, c) ↔ inc c.wr c.cap = c.rdv := by
  constructor
  · intro h
    obtain ⟨-, -, ⟨hfull, -, -⟩ | ⟨-, -, hst, -⟩⟩ := write_ok h
    · exact hfull
    · cases hst
  · intro hfull
    simp [CBuf.write, hrsz, hfull]

/-- The empty test of R81, through the consumer's view. -/
theorem read_empty_iff (hrsz : c.rsz = false) : c.read sync .consumer = .ok (none, c) ↔ c.wrv = c.rd := by
  constructor
  · intro h
    obtain ⟨-, -, ⟨hempty, -, -⟩ | ⟨-, -, v, -, hv, -⟩⟩ := read_ok h
    · exact hempty
    · cases hv
  · intro hempty
    simp [CBuf.read, hrsz, hempty]

/-- The producer counts the queue and the slots whose release it has not seen (R16, R17). -/
theorem RingOrder.occ_rdv_wr_eq_count (hin : InRange c) (hring : RingOrder c) :
    occ c.rdv c.wr c.cap = occ c.rdv c.rd c.cap + c.count := by
  rw [RingOrder.occ_rdv_wr hin hring, RingOrder.count_eq hin hring, Nat.add_assoc]

/-- A truly full buffer looks full to its producer, whatever its view. -/
theorem RingOrder.seen_full_of_full (hin : InRange c) (hring : RingOrder c) (h : c.count = c.cap.toNat - 1) :
    occ c.rdv c.wr c.cap = c.cap.toNat - 1 := by
  have hview := RingOrder.occ_rdv_wr_eq_count hin hring
  obtain ⟨-, hwr, -, -, hrdv⟩ := hin
  have hlt := occ_lt hrdv hwr
  omega

/-- A truly empty buffer looks empty to its consumer, whatever its view. -/
theorem RingOrder.seen_empty_of_empty (hin : InRange c) (hring : RingOrder c) (h : c.count = 0) : c.wrv = c.rd := by
  have hqueue := RingOrder.count_eq hin hring
  obtain ⟨-, -, hrd, hwrv, -⟩ := hin
  exact ((occ_eq_zero hrd hwrv).mp (by omega)).symm

/-- Under current views the producer counts the queue itself. -/
theorem occ_rdv_wr_of_current (h : c.ViewsCurrent) : occ c.rdv c.wr c.cap = c.count := by rw [h.2]; rfl

/-- Under current views the consumer sees the buffer empty exactly when it is. -/
theorem seen_empty_iff_of_current (hin : InRange c) (h : c.ViewsCurrent) : c.wrv = c.rd ↔ c.count = 0 := by
  obtain ⟨-, hwr, hrd, -, -⟩ := hin
  rw [h.1, CBuf.count, occ_eq_zero hrd hwr]
  exact eq_comm

/-! ### The queue, slot by slot (R14, R16) -/

/-- The value of the slot `i` places forward of the read index. -/
def CBuf.slot (c : CBuf α) (i : Nat) : Option α := memGet c.mem ((c.rd.toNat + i) % c.cap.toNat)

theorem queued_eq_slots (c : CBuf α) : c.queued = (List.range c.count).filterMap c.slot := rfl

/-- The slot at the read index itself. -/
theorem slot_zero (hrd : c.rd.toNat < c.cap.toNat) : c.slot 0 = memGet c.mem c.rd.toNat := by
  rw [CBuf.slot, Nat.add_zero, Nat.mod_eq_of_lt hrd]

/-- The write index stands past the queue: no queued element is in its slot. -/
theorem slot_index_ne_wr (hin : InRange c) {i : Nat} (hi : i < c.count) :
    (c.rd.toNat + i) % c.cap.toNat ≠ c.wr.toNat := by
  obtain ⟨-, hwr, hrd, -, -⟩ := hin
  have hi : i < occ c.rd c.wr c.cap := hi
  have hlt := occ_lt hrd hwr
  rw [← add_occ_mod hrd hwr, mod_eq (by omega), mod_eq (by omega)]
  split_ifs <;> omega

/-- One filled slot more at the front of the ring is one element more at the end of the queue. -/
theorem queued_append {v : α} (hcount : d.count = c.count + 1) (hkept : ∀ i < c.count, d.slot i = c.slot i)
    (hnew : d.slot c.count = some v) : d.queued = c.queued ++ [v] := by
  rw [queued_eq_slots, queued_eq_slots, hcount, List.range_succ, List.filterMap_append,
    List.filterMap_congr fun i hi => hkept i (List.mem_range.mp hi)]
  simp [hnew]

/-- The queue of a ring whose read index has moved past its oldest element. -/
theorem queued_cons {v : α} (hcount : d.count + 1 = c.count) (hold : c.slot 0 = some v)
    (hkept : ∀ i < d.count, c.slot (i + 1) = d.slot i) : c.queued = v :: d.queued := by
  rw [queued_eq_slots, queued_eq_slots, ← hcount, List.range_succ_eq_map, List.filterMap_cons_some hold,
    List.filterMap_map]
  exact congrArg (v :: ·) (List.filterMap_congr fun i hi => hkept i (List.mem_range.mp hi))

/-- In a buffer whose queued slots are filled, the first `k` of them hold `k` elements. -/
theorem StorageOk.length_front (hst : StorageOk c) {k : Nat} (hk : k ≤ c.count) :
    ((List.range k).filterMap c.slot).length = k := by
  obtain ⟨-, -, hfilled⟩ := hst
  have hfront : ∀ i ∈ List.range k, (c.slot i).isSome = true := fun i hi =>
    hfilled i (Nat.lt_of_lt_of_le (List.mem_range.mp hi) hk)
  rw [List.filterMap_length_eq_length.mpr hfront, List.length_range]

/-- A ring that holds what another holds from its `k`-th queued slot on has that queue without its `k` oldest elements. -/
theorem StorageOk.queued_drop (hst : StorageOk c) {k : Nat} (hcount : c.count = k + d.count)
    (hkept : ∀ i < d.count, d.slot i = c.slot (k + i)) : d.queued = c.queued.drop k := by
  rw [queued_eq_slots, queued_eq_slots, hcount, List.range_add, List.filterMap_append,
    List.drop_left' (hst.length_front (by omega)), List.filterMap_map]
  exact List.filterMap_congr fun i hi => hkept i (List.mem_range.mp hi)

/-! ### What each primitive does to the queue (R80 to R82) -/

/-- An accepted write appends its element. -/
theorem queued_write {v : α} (hc : BufInv sync c) (h : c.write sync role v = .ok (.ok, d)) :
    d.queued = c.queued ++ [v] := by
  obtain ⟨-, -, ⟨-, hst, -⟩ | ⟨hfull, -, -, rfl⟩⟩ := write_ok h
  · cases hst
  obtain ⟨hin, hring, -, -⟩ := hc
  refine queued_append (count_inc_wr hin hring hfull)
    (fun i hi => memGet_memSet_other _ _ _ _ (slot_index_ne_wr hin hi)) ?_
  obtain ⟨-, hwr, hrd, -, -⟩ := hin
  have hlast : (c.rd.toNat + c.count) % c.cap.toNat = c.wr.toNat := add_occ_mod hrd hwr
  simp only [CBuf.slot, hlast, memGet_memSet_same]

/-- A read that answers an element takes the oldest. -/
theorem queued_read {v : α} (hc : BufInv sync c) (h : c.read sync role = .ok (some v, d)) :
    c.queued = v :: d.queued := by
  obtain ⟨-, -, ⟨-, hv, -⟩ | ⟨hseen, -, u, hload, hu, rfl⟩⟩ := read_ok h
  · cases hv
  cases hu
  obtain ⟨hin, hring, -, -⟩ := hc
  have hempty := RingOrder.seen_empty_of_empty hin hring
  obtain ⟨-, hwr, hrd, -, -⟩ := hin
  have hne : c.rd ≠ c.wr := fun he => hseen (hempty ((occ_eq_zero hrd hwr).mpr he))
  refine queued_cons (occ_inc_left hrd hwr hne) ((slot_zero hrd).trans hload) fun i _ => ?_
  simp only [CBuf.slot]
  rw [inc_toNat_mod hrd, Nat.mod_add_mod, Nat.add_right_comm, Nat.add_assoc]

/-- The queue counted after the copy of a resize: the newest that fit. -/
theorem count_resizeCopy {n : Half} {k : Nat} (hn : n ≠ 0) (h : c.resizeCopy n = .ok (k, d)) :
    d.count = min c.count (n.toNat - 1) := by
  obtain ⟨-, hcap, hrd, -, hwr, -⟩ := resizeCopy_ok h
  have hpos : 0 < n.toNat := Nat.pos_of_ne_zero fun h0 => hn (BitVec.eq_of_toNat_eq h0)
  have hkeep : min c.count (n.toNat - 1) < n.toNat := by omega
  have hwrNat : d.wr.toNat = min c.count (n.toNat - 1) := by
    rw [hwr, BitVec.toNat_ofNat, Nat.mod_eq_of_lt (Nat.lt_trans hkeep n.isLt)]
  rw [CBuf.count, hrd, hcap, occ_zero_left (by omega), hwrNat]

/-- The copy of a resize drops the oldest elements and keeps the rest in order. -/
theorem queued_resizeCopy {n : Half} {k : Nat} (hst : StorageOk c) (hn : n ≠ 0) (h : c.resizeCopy n = .ok (k, d)) :
    d.queued = c.queued.drop k := by
  have hcount := count_resizeCopy hn h
  obtain ⟨hk, hcap, hrd, -, -, -, -, -, -, -, hcopied⟩ := resizeCopy_ok h
  refine hst.queued_drop (by omega) fun i hi => ?_
  have hslot : (d.rd.toNat + i) % d.cap.toNat = i := by
    rw [hrd, hcap, Nat.mod_eq_of_lt (by simp; omega)]
    simp
  rw [CBuf.slot, hslot, CBuf.slot, (hcopied i (by omega)).1, Nat.add_assoc]

/-- A write leaves the resize window as it is. -/
theorem write_rsz {v : α} {st : Status} (h : c.write sync role v = .ok (st, d)) : d.rsz = c.rsz := by
  obtain ⟨-, -, ⟨-, -, rfl⟩ | ⟨-, -, -, rfl⟩⟩ := write_ok h <;> rfl

/-- A read leaves the resize window as it is. -/
theorem read_rsz {r : Option α} (h : c.read sync role = .ok (r, d)) : d.rsz = c.rsz := by
  obtain ⟨-, -, ⟨-, -, rfl⟩ | ⟨-, -, v, -, -, rfl⟩⟩ := read_ok h <;> rfl

end

/-- Settles O19: each refusal is the primitive's own test, and ring order compares what that test sees with the true
occupancy. -/
theorem statusIsConservative : Obligations.StatusIsConservative := by
  rintro sync c v ⟨hin, hring, -, -⟩ hrsz
  have ⟨_, hwr, _, _, hrdv⟩ := hin
  have hfull : c.write sync .producer v = .ok (.bufferFull, c) ↔ occ c.rdv c.wr c.cap = c.cap.toNat - 1 :=
    (write_full_iff hrsz).trans (inc_eq_iff_occ hrdv hwr)
  have hempty : c.read sync .consumer = .ok (none, c) ↔ c.wrv = c.rd := read_empty_iff hrsz
  refine ⟨fun _ => write_full_eq, fun _ => read_empty_eq, hfull, hempty,
    fun h => hfull.mpr (RingOrder.seen_full_of_full hin hring h),
    fun h => hempty.mpr (RingOrder.seen_empty_of_empty hin hring h), fun hviews => ⟨?_, ?_⟩⟩
  · rw [hfull, occ_rdv_wr_of_current hviews]
  · rw [hempty, seen_empty_iff_of_current hin hviews]

section
variable {w : ElementWidth} {sync : Sync} {role : Role} {c d : LoneBuffer w} {a : BufferAnswer}

/-! ### The units of a stand-alone buffer, one by one (`40_circular_buffer.md` R88) -/

/-- A write unit is no step, or the primitive and its status. -/
theorem bufferStep_write {v : BitVec w.bits} (h : bufferStep sync c (.write role v) = .ok (a, d)) :
    (a = none ∧ d = c) ∨
      ∃ st e, c.buf.write sync role v = .ok (st, e) ∧ a = some (st, 0) ∧ d = { c with buf := e } := by
  obtain ⟨-, ha, hd⟩ | ⟨-, h⟩ := accept_ok h
  · exact .inl ⟨ha, hd⟩
  split at h
  · cases h
  · next st e he => cases h; exact .inr ⟨st, e, he, rfl, rfl⟩

/-- A read unit is no step, or the primitive that found the buffer empty, or the primitive and the element it took. -/
theorem bufferStep_read (h : bufferStep sync c (.read role) = .ok (a, d)) :
    (a = none ∧ d = c) ∨
      (∃ e, c.buf.read sync role = .ok (none, e) ∧ a = some (.bufferEmpty, 0) ∧ d = { c with buf := e }) ∨
      ∃ v e, c.buf.read sync role = .ok (some v, e) ∧ a = some (.ok, v.setWidth 16) ∧ d = { c with buf := e } := by
  obtain ⟨-, ha, hd⟩ | ⟨-, h⟩ := accept_ok h
  · exact .inl ⟨ha, hd⟩
  split at h
  · cases h
  · next e he => cases h; exact .inr (.inl ⟨e, he, rfl, rfl⟩)
  · next v e he => cases h; exact .inr (.inr ⟨v, e, he, rfl, rfl⟩)

/-- The first unit of a resize leaves the buffer as it is, or opens the window of a resize to a capacity that is not 0. -/
theorem bufferStep_resizeOpen {n : Half} (h : bufferStep sync c (.resizeOpen role n) = .ok (a, d)) :
    d = c ∨ (n ≠ 0 ∧ a = none ∧ d = ⟨{ c.buf with rsz := true }, some (role, n)⟩) := by
  obtain ⟨-, -, hd⟩ | ⟨-, h⟩ := accept_ok h
  · exact .inl hd
  split at h
  · cases h
  · next st e he =>
    obtain ⟨-, ⟨-, rfl, rfl⟩ | ⟨hn, rfl, rfl⟩⟩ := resizeOpen_ok he
    · cases h; exact .inl rfl
    · cases h; exact .inr ⟨hn, rfl, rfl⟩

/-- A query unit changes nothing. -/
theorem bufferStep_query {u : BufferUnit w} (hu : u = .isEmpty role ∨ u = .isFull role ∨ u = .count role)
    (h : bufferStep sync c u = .ok (a, d)) : d = c := by
  rcases hu with rfl | rfl | rfl
  all_goals
    obtain ⟨-, -, hd⟩ | ⟨-, h⟩ := accept_ok h
    · exact hd
    split at h
    · cases h
    · cases h; rfl

/-- The unit `SyncW` leaves the buffer as it is, or moves the consumer's view as R123 allows. -/
theorem bufferStep_syncW {x : Half} (h : bufferStep sync c (.syncW x) = .ok (a, d)) :
    d = c ∨ (sync = .lagged ∧ c.buf.mayMoveWrv x = true ∧ d = { c with buf := { c.buf with wrv := x } }) := by
  cases h
  split
  · next hmove => exact .inr ⟨hmove.1, hmove.2, rfl⟩
  · exact .inl rfl

/-- The unit `SyncR` leaves the buffer as it is, or moves the producer's view as R124 allows. -/
theorem bufferStep_syncR {x : Half} (h : bufferStep sync c (.syncR x) = .ok (a, d)) :
    d = c ∨ (sync = .lagged ∧ c.buf.mayMoveRdv x = true ∧ d = { c with buf := { c.buf with rdv := x } }) := by
  cases h
  split
  · next hmove => exact .inr ⟨hmove.1, hmove.2, rfl⟩
  · exact .inl rfl

/-! ### What every unit keeps, and what it does to the queue (R15, R17, R34, R51) -/

/-- The capacity of a resize that a side stands in is not 0. -/
theorem LoneInv.resizing_ne_zero {n : Half} (hc : LoneInv sync c) (h : c.resizing = some (role, n)) : n ≠ 0 := by
  obtain ⟨-, -, hcap⟩ := hc
  simpa [h] using hcap

/-- The buffer replaced by another in order, with the same window. -/
theorem LoneInv.withBuf {e : CBuf (BitVec w.bits)} (hc : LoneInv sync c) (he : BufInv sync e)
    (hrsz : e.rsz = c.buf.rsz) : LoneInv sync { c with buf := e } := by
  obtain ⟨-, hwindow, hcap⟩ := hc
  exact ⟨he, hrsz.trans hwindow, hcap⟩

/-- Every unit leaves a stand-alone buffer in order. -/
theorem LoneInv.bufferStep {u : BufferUnit w} (hc : LoneInv sync c) (h : bufferStep sync c u = .ok (a, d)) :
    LoneInv sync d := by
  have ⟨hbuf, _, _⟩ := hc
  cases u with
  | write role v =>
    obtain ⟨-, rfl⟩ | ⟨st, e, he, -, rfl⟩ := bufferStep_write h
    · exact hc
    · exact LoneInv.withBuf hc (hbuf.write he) (write_rsz he)
  | read role =>
    obtain ⟨-, rfl⟩ | ⟨e, he, -, rfl⟩ | ⟨v, e, he, -, rfl⟩ := bufferStep_read h
    · exact hc
    · exact LoneInv.withBuf hc (hbuf.read he) (read_rsz he)
    · exact LoneInv.withBuf hc (hbuf.read he) (read_rsz he)
  | resizeOpen role n =>
    obtain rfl | ⟨hn, -, rfl⟩ := bufferStep_resizeOpen h
    · exact hc
    · exact ⟨hbuf, rfl, by simpa using hn⟩
  | resizeCopy role =>
    obtain ⟨-, -, rfl⟩ | ⟨n, k, e, hresizing, he, rfl, -⟩ := finishResize_ok h
    · exact hc
    · obtain ⟨-, -, -, -, -, -, hrsz, -⟩ := resizeCopy_ok he
      exact ⟨BufInv.of_resizeCopy (LoneInv.resizing_ne_zero hc hresizing) he, hrsz, rfl⟩
  | isEmpty role => exact bufferStep_query (.inl rfl) h ▸ hc
  | isFull role => exact bufferStep_query (.inr (.inl rfl)) h ▸ hc
  | count role => exact bufferStep_query (.inr (.inr rfl)) h ▸ hc
  | syncW x =>
    obtain rfl | ⟨rfl, hmove, rfl⟩ := bufferStep_syncW h
    · exact hc
    · exact LoneInv.withBuf hc (hbuf.moveWrv hmove) rfl
  | syncR x =>
    obtain rfl | ⟨rfl, hmove, rfl⟩ := bufferStep_syncR h
    · exact hc
    · exact LoneInv.withBuf hc (hbuf.moveRdv hmove) rfl

/-- An element survives the 16 value bits of a response. -/
theorem setWidth_response (v : BitVec w.bits) : (v.setWidth 16).setWidth w.bits = v := by
  rw [BitVec.setWidth_setWidth_of_le v w.most, BitVec.setWidth_eq]

/-- The FIFO law of one unit that is not of a resize: what it returns and leaves queued is what was queued and what it
accepts. -/
theorem bufferStep_fifo {u : BufferUnit w} (hc : LoneInv sync c) (hu : u.isResize = false)
    (h : bufferStep sync c u = .ok (a, d)) :
    returnedBy u a ++ d.buf.queued = c.buf.queued ++ acceptedBy u a := by
  obtain ⟨hbuf, -, -⟩ := hc
  cases u with
  | write role v =>
    obtain ⟨rfl, rfl⟩ | ⟨st, e, he, rfl, rfl⟩ := bufferStep_write h
    · simp [returnedBy, acceptedBy]
    · obtain ⟨-, -, ⟨-, rfl, rfl⟩ | ⟨-, -, rfl, -⟩⟩ := write_ok he
      · simp [returnedBy, acceptedBy]
      · simpa [returnedBy, acceptedBy] using queued_write hbuf he
  | read role =>
    obtain ⟨rfl, rfl⟩ | ⟨e, he, rfl, rfl⟩ | ⟨v, e, he, rfl, rfl⟩ := bufferStep_read h
    · simp [returnedBy, acceptedBy]
    · simp [returnedBy, acceptedBy, read_empty_eq he]
    · simp [returnedBy, acceptedBy, setWidth_response, queued_read hbuf he]
  | resizeOpen role n => cases hu
  | resizeCopy role => cases hu
  | isEmpty role => simp [returnedBy, acceptedBy, bufferStep_query (.inl rfl) h]
  | isFull role => simp [returnedBy, acceptedBy, bufferStep_query (.inr (.inl rfl)) h]
  | count role => simp [returnedBy, acceptedBy, bufferStep_query (.inr (.inr rfl)) h]
  | syncW x =>
    have hqueue : d.buf.queued = c.buf.queued := by obtain rfl | ⟨-, -, rfl⟩ := bufferStep_syncW h <;> rfl
    simp [returnedBy, acceptedBy, hqueue]
  | syncR x =>
    have hqueue : d.buf.queued = c.buf.queued := by obtain rfl | ⟨-, -, rfl⟩ := bufferStep_syncR h <;> rfl
    simp [returnedBy, acceptedBy, hqueue]

/-- The FIFO law of a run without a resize (R51). -/
theorem runBuffer_fifo {us : List (BufferUnit w)} {r : BufferRun w} (hc : LoneInv sync c)
    (hus : ∀ u ∈ us, u.isResize = false) (h : runBuffer sync us c = .ok r) :
    r.returned ++ r.last.buf.queued = c.buf.queued ++ r.accepted := by
  induction us generalizing c r with
  | nil => cases h; simp
  | cons u us ih =>
    obtain ⟨a, d, r', hstep, hrun, rfl⟩ := runBuffer_cons h
    obtain ⟨hu, hus⟩ := List.forall_mem_cons.mp hus
    have hrest := ih (LoneInv.bufferStep hc hstep) hus hrun
    calc (returnedBy u a ++ r'.returned) ++ r'.last.buf.queued
        = (returnedBy u a ++ d.buf.queued) ++ r'.accepted := by rw [List.append_assoc, hrest, List.append_assoc]
      _ = c.buf.queued ++ (acceptedBy u a ++ r'.accepted) := by
        rw [bufferStep_fifo hc hu hstep, List.append_assoc]

/-- The second unit of a resize drops the oldest elements, down to the new usable capacity (R82). -/
theorem finishResize_queued {n : Half} (hc : LoneInv sync c) (hresizing : c.resizing = some (role, n))
    (h : c.finishResize role = .ok (a, d)) :
    d.buf.queued = c.buf.queued.drop (c.buf.count - min c.buf.count (n.toNat - 1)) := by
  obtain ⟨hnone, -, -⟩ | ⟨m, k, e, hm, he, rfl, -⟩ := finishResize_ok h
  · simp [LoneBuffer.inResize, hresizing] at hnone
  rw [hresizing] at hm
  cases hm
  obtain ⟨hk, -⟩ := resizeCopy_ok he
  have hne := LoneInv.resizing_ne_zero hc hresizing
  obtain ⟨⟨-, -, hst, -⟩, -, -⟩ := hc
  exact hk ▸ queued_resizeCopy hst hne he

end

/-- Settles O22: by induction on the units of the run, each of which obeys the law and leaves the buffer in order; the copy
of a resize is the one unit that drops elements. -/
theorem fifoLaw : Obligations.FifoLaw :=
  fun _ _ _ hc => ⟨fun _ _ hus h => runBuffer_fifo hc hus h, fun _ _ _ _ hresizing h => finishResize_queued hc hresizing h,
    fun _ _ _ h => LoneInv.bufferStep hc h⟩

end Sys2Proof.Machine

namespace Sys2Proof.Machine

section
variable {α : Type} {sync : Sync} {role : Role} {c d : CBuf α} {v : α}

/-! ### When each primitive answers, and what (`40_circular_buffer.md` R79 to R82) -/

/-- The buffer with an element stored at its write index and the index advanced (R80). -/
def appended (sync : Sync) (c : CBuf α) (v : α) : CBuf α :=
  { c with mem := memSet c.mem c.wr.toNat v, wr := inc c.wr c.cap,
           wrv := if sync = .direct then inc c.wr c.cap else c.wrv }

theorem write_resizeRace (hrsz : c.rsz = true) : c.write sync role v = .error .resizeRace := by
  simp [CBuf.write, hrsz]

theorem write_portDiscipline (hrsz : c.rsz = false) : c.write sync .consumer v = .error .portDiscipline := by
  simp [CBuf.write, hrsz]

/-- A producer that sees a free slot is accepted (R80). -/
theorem write_accepts (hrsz : c.rsz = false) (hwr : c.wr.toNat < c.cap.toNat) (hfull : inc c.wr c.cap ≠ c.rdv) :
    c.write sync .producer v = .ok (.ok, appended sync c v) := by
  simp [CBuf.write, CBuf.store, appended, hrsz, hwr, hfull]

theorem read_resizeRace (hrsz : c.rsz = true) : c.read sync role = .error .resizeRace := by
  simp [CBuf.read, hrsz]

theorem read_portDiscipline (hrsz : c.rsz = false) : c.read sync .producer = .error .portDiscipline := by
  simp [CBuf.read, hrsz]

/-- A consumer that sees an element takes the one in the slot at the read index (R81). -/
theorem read_takes (hrsz : c.rsz = false) (hseen : c.wrv ≠ c.rd) (hrd : c.rd.toNat < c.cap.toNat)
    (hv : memGet c.mem c.rd.toNat = some v) : c.read sync .consumer = .ok (some v, taken sync c) := by
  simp [CBuf.read, CBuf.load, taken, hrsz, hseen, hrd, hv]

/-- The first unit of a resize to a capacity that is not 0 only opens the window (R82). -/
theorem resizeOpen_opens {n : Half} (hrsz : c.rsz = false) (hn : n ≠ 0) :
    c.resizeOpen n = .ok (.ok, { c with rsz := true }) := by
  rw [CBuf.resizeOpen, if_neg (by simp [hrsz]), if_neg hn]

/-- The copy of a resize answers whenever every queued slot holds a value (R82). -/
theorem StorageOk.resizeCopy_answers (hst : StorageOk c) (n : Half) : ∃ k d, c.resizeCopy n = .ok (k, d) := by
  obtain ⟨-, -, hfilled⟩ := hst
  have hcopy : (copyRing c.mem (c.rd.toNat + (c.count - min c.count (n.toNat - 1))) c.cap.toNat
      (min c.count (n.toNat - 1)) 0).isSome = true := by
    refine copyRing_isSome fun i hi => ?_
    rw [Nat.add_assoc]
    exact hfilled _ (by omega)
  obtain ⟨stored, hstored⟩ := Option.isSome_iff_exists.mp hcopy
  simp [CBuf.resizeCopy, hstored]

/-! ### The queue and its length (R16, R17) -/

/-- The queue has as many elements as the occupancy says. -/
theorem StorageOk.length_queued (hst : StorageOk c) : c.queued.length = c.count := hst.length_front (Nat.le_refl _)

/-- No buffer in order holds more than `CAP - 1` elements. -/
theorem RingOrder.count_le (hin : InRange c) (hring : RingOrder c) : c.count ≤ c.cap.toNat - 1 := by
  have hqueue := RingOrder.count_eq hin hring
  omega

/-- A buffer in order stays in order when both its views are brought up to date. -/
theorem BufInv.current (hc : BufInv sync c) : BufInv sync { c with wrv := c.wr, rdv := c.rd } := by
  obtain ⟨hin, hring, hst, -⟩ := hc
  have hle := RingOrder.count_le hin hring
  obtain ⟨hcap, hwr, hrd, -, -⟩ := hin
  exact ⟨⟨hcap, hwr, hrd, hwr, hrd⟩, by simpa [RingOrder, CBuf.count] using hle, hst, fun _ => ⟨rfl, rfl⟩⟩

/-- The producer counts one element more after its write. -/
theorem countFor_appended (hin : InRange c) (hfull : inc c.wr c.cap ≠ c.rdv) :
    (appended sync c v).countFor .producer = c.countFor .producer + 1 := by
  have hroom := occ_rdv_wr_of_not_full hin hfull
  obtain ⟨-, hwr, -, -, hrdv⟩ := hin
  exact occ_inc_right hrdv hwr hroom

/-- The producer sees the buffer full exactly when it counts `CAP - 1` elements. -/
theorem inc_wr_eq_rdv_iff (hin : InRange c) : inc c.wr c.cap = c.rdv ↔ c.countFor .producer = c.cap.toNat - 1 := by
  obtain ⟨-, hwr, -, -, hrdv⟩ := hin
  exact inc_eq_iff_occ hrdv hwr

/-- A consumer whose view is current reads the head of the queue, and the rest stays queued. -/
theorem BufInv.read_head {q : List α} (hc : BufInv sync c) (hrsz : c.rsz = false) (hview : c.wrv = c.wr)
    (hqueue : c.queued = v :: q) : c.read sync .consumer = .ok (some v, taken sync c) ∧ (taken sync c).queued = q := by
  have ⟨⟨_, hwr, hrd, _, _⟩, _, hst, _⟩ := hc
  have hlength := hst.length_queued
  have hpos : 0 < c.count := by rw [← hlength, hqueue]; simp
  have hne : c.wrv ≠ c.rd := fun h => by
    have hzero : c.count = 0 := (occ_eq_zero hrd hwr).mpr (h ▸ hview)
    omega
  obtain ⟨-, -, hfilled⟩ := hst
  obtain ⟨u, hu⟩ := Option.isSome_iff_exists.mp (hfilled 0 hpos)
  have hread := read_takes (sync := sync) hrsz hne hrd ((slot_zero hrd).symm.trans hu)
  obtain ⟨rfl, hrest⟩ := List.cons.inj (hqueue.symm.trans (queued_read hc hread))
  exact ⟨hread, hrest.symm⟩

end

section
variable {w : ElementWidth} {sync : Sync} {role : Role} {c d : LoneBuffer w} {a : BufferAnswer}

/-! ### The units of a stand-alone buffer outside a resize (`40_circular_buffer.md` R88) -/

/-- Outside a resize window no side stands in a resize (R34). -/
theorem LoneInv.resizing_eq_none (hc : LoneInv sync c) (hrsz : c.buf.rsz = false) : c.resizing = none := by
  obtain ⟨-, hwindow, -⟩ := hc
  simpa [hrsz] using hwindow

theorem accept_of_idle (hidle : c.resizing = none) (r : LoneResult w) : c.accept role r = r := by
  simp [LoneBuffer.accept, LoneBuffer.inResize, hidle]

theorem bufferStep_write_of {v : BitVec w.bits} {st : Status} {e : CBuf (BitVec w.bits)} (hidle : c.resizing = none)
    (h : c.buf.write sync role v = .ok (st, e)) :
    bufferStep sync c (.write role v) = .ok (some (st, 0), { c with buf := e }) := by
  simp [bufferStep, accept_of_idle hidle, h]

theorem bufferStep_read_of_none {e : CBuf (BitVec w.bits)} (hidle : c.resizing = none)
    (h : c.buf.read sync role = .ok (none, e)) :
    bufferStep sync c (.read role) = .ok (some (.bufferEmpty, 0), { c with buf := e }) := by
  simp [bufferStep, accept_of_idle hidle, h]

theorem bufferStep_read_of_some {v : BitVec w.bits} {e : CBuf (BitVec w.bits)} (hidle : c.resizing = none)
    (h : c.buf.read sync role = .ok (some v, e)) :
    bufferStep sync c (.read role) = .ok (some (.ok, v.setWidth 16), { c with buf := e }) := by
  simp [bufferStep, accept_of_idle hidle, h]

theorem bufferStep_resizeOpen_of {n : Half} {e : CBuf (BitVec w.bits)} (hidle : c.resizing = none)
    (h : c.buf.resizeOpen n = .ok (.ok, e)) :
    bufferStep sync c (.resizeOpen role n) = .ok (none, ⟨e, some (role, n)⟩) := by
  simp [bufferStep, accept_of_idle hidle, h]

theorem bufferStep_resizeCopy_of {n : Half} {k : Nat} {e : CBuf (BitVec w.bits)} (hresizing : c.resizing = some (role, n))
    (h : c.buf.resizeCopy n = .ok (k, e)) :
    bufferStep sync c (.resizeCopy role) =
      .ok (if k = 0 then some (.ok, 0) else some (.truncated, BitVec.ofNat 16 k), ⟨e, none⟩) := by
  simp [bufferStep, LoneBuffer.finishResize, hresizing, h]

/-! ### Runs of writes, of reads, and of a resize (R86, R87) -/

/-- A run that begins with a unit that answers is that unit and the run of the rest. -/
theorem runBuffer_cons_of {u : BufferUnit w} {us : List (BufferUnit w)} {r : BufferRun w}
    (hstep : bufferStep sync c u = .ok (a, d)) (hrun : runBuffer sync us d = .ok r) :
    runBuffer sync (u :: us) c = .ok ⟨acceptedBy u a ++ r.accepted, returnedBy u a ++ r.returned, r.last⟩ := by
  simp [runBuffer, hstep, hrun]

/-- As many writes as the producer sees free slots are all accepted, and the producer counts each of them. -/
theorem runBuffer_writes {vs : List (BitVec w.bits)} (hc : LoneInv sync c) (hrsz : c.buf.rsz = false)
    (hroom : c.buf.countFor .producer + vs.length ≤ c.buf.cap.toNat - 1) :
    ∃ d, runBuffer sync (vs.map (.write .producer)) c = .ok ⟨vs, [], d⟩ ∧ LoneInv sync d ∧ d.buf.rsz = false ∧
      d.buf.cap = c.buf.cap ∧ d.buf.countFor .producer = c.buf.countFor .producer + vs.length := by
  induction vs generalizing c with
  | nil => exact ⟨c, rfl, hc, hrsz, rfl, rfl⟩
  | cons v vs ih =>
    rw [List.length_cons] at hroom
    have ⟨⟨hin, _, _, _⟩, _, _⟩ := hc
    have ⟨_, hwr, _, _, _⟩ := hin
    have hfull : inc c.buf.wr c.buf.cap ≠ c.buf.rdv := fun h => by
      have hcount := (inc_wr_eq_rdv_iff hin).mp h
      omega
    have hstep := bufferStep_write_of (hc.resizing_eq_none hrsz) (write_accepts (sync := sync) (v := v) hrsz hwr hfull)
    have hcount := countFor_appended (sync := sync) (v := v) hin hfull
    have hrest : (appended sync c.buf v).countFor .producer + vs.length ≤ c.buf.cap.toNat - 1 := by omega
    obtain ⟨d, hrun, hd, hdrsz, hdcap, hdcount⟩ := ih (LoneInv.bufferStep hc hstep) hrsz hrest
    refine ⟨d, runBuffer_cons_of hstep hrun, hd, hdrsz, hdcap, ?_⟩
    rw [hdcount, hcount, List.length_cons, Nat.add_assoc, Nat.add_comm 1]

/-- Under a current view of the write index, as many reads as there are elements return the queue. -/
theorem runBuffer_reads (hc : LoneInv sync c) (hrsz : c.buf.rsz = false) (hview : c.buf.wrv = c.buf.wr) :
    ∃ r, runBuffer sync (List.replicate c.buf.count (.read .consumer)) c = .ok r ∧ r.returned = c.buf.queued := by
  induction hcount : c.buf.count generalizing c with
  | zero =>
    have ⟨⟨_, _, hst, _⟩, _, _⟩ := hc
    exact ⟨_, rfl, (List.length_eq_zero_iff.mp (hst.length_queued.trans hcount)).symm⟩
  | succ n ih =>
    have ⟨hbuf, _, _⟩ := hc
    have ⟨_, _, hst, _⟩ := hbuf
    have hlength := hst.length_queued.trans hcount
    obtain ⟨v, q, hqueue⟩ := List.exists_cons_of_length_eq_add_one hlength
    obtain ⟨hread, hrest⟩ := hbuf.read_head hrsz hview hqueue
    have hstep := bufferStep_read_of_some (hc.resizing_eq_none hrsz) hread
    have hd := LoneInv.bufferStep hc hstep
    have ⟨⟨_, _, hdst, _⟩, _, _⟩ := hd
    have hdcount : (taken sync c.buf).count = n := by
      rw [← hdst.length_queued, hrest]
      simpa [hqueue] using hlength
    obtain ⟨r, hrun, hreturned⟩ := ih hd hrsz hview hdcount
    refine ⟨_, runBuffer_cons_of hstep hrun, ?_⟩
    simp [returnedBy, setWidth_response, hreturned, hrest, hqueue]

/-- The two units of a resize to a capacity that is not 0 run, and leave what the copy answers (R82). -/
theorem runBuffer_resize {n : Half} (hc : LoneInv sync c) (hrsz : c.buf.rsz = false) (hn : n ≠ 0) :
    ∃ k e, c.buf.resizeCopy n = .ok (k, e) ∧
      runBuffer sync [.resizeOpen role n, .resizeCopy role] c = .ok ⟨[], [], ⟨e, none⟩⟩ := by
  have ⟨⟨_, _, hst, _⟩, _, _⟩ := hc
  obtain ⟨k, e, hcopy⟩ := hst.resizeCopy_answers n
  have hopen := bufferStep_resizeOpen_of (sync := sync) (role := role) (hc.resizing_eq_none hrsz)
    (resizeOpen_opens hrsz hn)
  have hclose := bufferStep_resizeCopy_of (sync := sync) (role := role)
    (c := ⟨{ c.buf with rsz := true }, some (role, n)⟩) rfl hcopy
  exact ⟨k, e, hcopy, runBuffer_cons_of hopen (runBuffer_cons_of (r := ⟨[], [], ⟨e, none⟩⟩) hclose rfl)⟩

end

/-- Settles O21: the producer counts every accepted write, so the writes run up to the count at which its next advance
would meet its view of the read index. -/
theorem usableCapacityIsOneLess : Obligations.UsableCapacityIsOneLess := by
  intro w sync c hc
  have ⟨⟨hin, hring, hst, _⟩, _, _⟩ := hc
  have hlength := hst.length_queued
  refine ⟨hlength ▸ RingOrder.count_le hin hring, fun hrsz hviews hcount => ⟨?_, fun vs v hvs => ?_⟩⟩
  · have hempty := (seen_empty_iff_of_current hin hviews).mpr hcount
    exact bufferStep_read_of_none (hc.resizing_eq_none hrsz) ((read_empty_iff hrsz).mpr hempty)
  have hseen : c.buf.countFor .producer = 0 := (occ_rdv_wr_of_current hviews).trans hcount
  obtain ⟨d, hrun, hd, hdrsz, hdcap, hdcount⟩ := runBuffer_writes (vs := vs) hc hrsz (by omega)
  have hqueue : d.buf.queued = c.buf.queued ++ vs := runBuffer_fifo hc (by simp [BufferUnit.isResize]) hrun
  have hstart : c.buf.queued = [] := List.length_eq_zero_iff.mp (hlength.trans hcount)
  have ⟨⟨hdin, _, _, _⟩, _, _⟩ := hd
  have hfull : inc d.buf.wr d.buf.cap = d.buf.rdv := (inc_wr_eq_rdv_iff hdin).mpr (by rw [hdcap]; omega)
  exact ⟨_, hrun, rfl, by rw [hqueue, hstart, List.nil_append],
    bufferStep_write_of (hd.resizing_eq_none hdrsz) ((write_full_iff hdrsz).mpr hfull)⟩

/-- Settles O23: the copy of such a resize drops nothing and makes both views current, and under current views the reads
return the queue. -/
theorem growingResizeKeepsTheQueue : Obligations.GrowingResizeKeepsTheQueue := by
  intro w sync c role m hc hrsz hm hroom
  have ⟨hbuf, _, _⟩ := hc
  have ⟨_, _, hst, _⟩ := hbuf
  obtain ⟨k, e, hcopy, hrun⟩ := runBuffer_resize (role := role) hc hrsz hm
  obtain ⟨hk, hecap, -, -, -, hview, hersz, -⟩ := resizeCopy_ok hcopy
  have hcount : e.count = c.buf.count := (count_resizeCopy hm hcopy).trans (Nat.min_eq_left hroom)
  have hqueue : e.queued = c.buf.queued := by
    rw [queued_resizeCopy hst hm hcopy, hk, Nat.min_eq_left hroom, Nat.sub_self, List.drop_zero]
  have he : LoneInv sync (⟨e, none⟩ : LoneBuffer w) := ⟨BufInv.of_resizeCopy hm hcopy, hersz, rfl⟩
  obtain ⟨r, hreads, hreturned⟩ := runBuffer_reads he hersz hview
  obtain ⟨r', hreads', hreturned'⟩ := runBuffer_reads (LoneInv.withBuf hc hbuf.current rfl) hrsz rfl
  exact ⟨_, hrun, hecap, hcount, hqueue, r, r', hcount ▸ hreads, hreads',
    (hreturned.trans hqueue).trans hreturned'.symm, hreturned.trans hqueue⟩

section
variable {i : Instr} {s t : State} {p : Port} {b : BufSel}

/-! ### A command whose first unit ends it (`20_memory.md` R47) -/

theorem exec_fresh (h : Fresh s p 0) : exec i s = drive i (unitOf i) p s.turn.more .u1 Locals.init s := by
  obtain ⟨rfl, hidle, -⟩ := h
  rw [exec_eq_runCommand, runCommand_idle hidle]

/-- A first unit that retires its command is the whole command, however long the turn. -/
theorem exec_of_retire {st : Status} {v : Half} (h : Fresh s p 0)
    (hu : unitOf i p .u1 Locals.init s = .retire st v t) : exec i s = .next (t.retire p (wordCount i) st v) := by
  rw [exec_fresh h]
  cases s.turn.more <;> simp only [drive, hu]

/-- A first unit that faults stops the run, however long the turn. -/
theorem exec_of_fault {f : Fault} (h : Fresh s p 0) (hu : unitOf i p .u1 Locals.init s = .fault f) :
    exec i s = .fault f := by
  rw [exec_fresh h]
  cases s.turn.more <;> simp only [drive, hu]

/-! ### `CB.WRITE` and `CB.READ`, by what the primitive answers (R80, R81) -/

theorem exec_cbWrite_of {v : Byte} {st : Status} {d : CBuf Byte} (h : Fresh s p 0)
    (hw : (s.buf b).write s.par.sync (roleOf p b) v = .ok (st, d)) :
    exec (.cbWrite b v) s = .next ((s.setBuf b d).retire p 1 st 0) :=
  exec_of_retire h (by simp [unitOf, unitCbWrite, cbWrite, attempt, hw])

theorem exec_cbWrite_fault {v : Byte} {f : Fault} (h : Fresh s p 0)
    (hw : (s.buf b).write s.par.sync (roleOf p b) v = .error f) : exec (.cbWrite b v) s = .fault f :=
  exec_of_fault h (by simp [unitOf, unitCbWrite, cbWrite, attempt, hw])

theorem exec_cbRead_of_none {d : CBuf Byte} (h : Fresh s p 0)
    (hr : (s.buf b).read s.par.sync (roleOf p b) = .ok (none, d)) :
    exec (.cbRead b) s = .next ((s.setBuf b d).retire p 1 .bufferEmpty 0) :=
  exec_of_retire h (by simp [unitOf, unitCbRead, cbRead, attempt, raise, hr])

theorem exec_cbRead_of_some {v : Byte} {d : CBuf Byte} (h : Fresh s p 0)
    (hr : (s.buf b).read s.par.sync (roleOf p b) = .ok (some v, d)) :
    exec (.cbRead b) s = .next ((s.setBuf b d).retire p 1 .ok (v.setWidth 16)) :=
  exec_of_retire h (by simp [unitOf, unitCbRead, cbRead, attempt, hr])

theorem exec_cbRead_fault {f : Fault} (h : Fresh s p 0) (hr : (s.buf b).read s.par.sync (roleOf p b) = .error f) :
    exec (.cbRead b) s = .fault f :=
  exec_of_fault h (by simp [unitOf, unitCbRead, cbRead, attempt, hr])

end

/-- Settles O13: the command is its one unit, and the unit answers what the primitive answers, check by check. -/
theorem cbWriteAppendsOrReportsFull : Obligations.CbWriteAppendsOrReportsFull := by
  intro b v s p hfresh c
  refine ⟨fun hrsz => exec_cbWrite_fault hfresh (write_resizeRace hrsz),
    fun hrsz hrole => exec_cbWrite_fault hfresh (hrole ▸ write_portDiscipline hrsz), fun hrsz hrole hwr => ?_⟩
  split
  · next hfull =>
    have hexec := exec_cbWrite_of (v := v) hfresh (hrole ▸ (write_full_iff hrsz).mpr hfull)
    rwa [setBuf_buf_self] at hexec
  · next hfull => exact exec_cbWrite_of hfresh (hrole ▸ write_accepts hrsz hwr hfull)

/-- Settles O14: the command is its one unit, and the unit answers what the primitive answers, check by check. -/
theorem cbReadTakesTheOldestOrReportsEmpty : Obligations.CbReadTakesTheOldestOrReportsEmpty := by
  intro b s p hfresh c
  refine ⟨fun hrsz => exec_cbRead_fault hfresh (read_resizeRace hrsz),
    fun hrsz hrole => exec_cbRead_fault hfresh (hrole ▸ read_portDiscipline hrsz), fun hrsz hrole hempty => ?_,
    fun v hrsz hrole hseen hrd hv => exec_cbRead_of_some hfresh (hrole ▸ read_takes hrsz hseen hrd hv)⟩
  have hexec := exec_cbRead_of_none hfresh (hrole ▸ (read_empty_iff hrsz).mpr hempty)
  rwa [setBuf_buf_self] at hexec

end Sys2Proof.Machine

namespace Sys2Proof.Machine

/-! ### The status word, bit by bit (R109, `10_state.md` R29) -/

theorem statusWord_getLsbD (s : State) (i : Nat) :
    (statusWord s).getLsbD i =
      if i < 2 then s.fault.code.getLsbD i
      else if i = 2 then s.txArm
      else if i = 3 then s.rxArm
      else false := by
  change BitVec.getLsbD (w := 12 + 1 + 1 + 2)
    ((0 : BitVec 12) ++ BitVec.ofBool s.rxArm ++ BitVec.ofBool s.txArm ++ s.fault.code) i = _
  rw [BitVec.getLsbD_append, BitVec.getLsbD_append, BitVec.getLsbD_append]
  rcases i with _ | _ | _ | _ | i <;> simp

theorem statusWord_fault (s : State) : (statusWord s).extractLsb' 0 2 = s.fault.code := by
  ext i hi
  rw [BitVec.getElem_extractLsb', statusWord_getLsbD, Nat.zero_add, if_pos hi, BitVec.getLsbD_eq_getElem hi]

theorem statusWord_above (s : State) : (statusWord s).extractLsb' 4 12 = 0 := by
  ext i hi
  rw [BitVec.getElem_extractLsb', statusWord_getLsbD, if_neg (by omega), if_neg (by omega), if_neg (by omega)]
  exact (BitVec.getElem_zero hi).symm

/-- Settles O38: the command is its one unit, which answers the status word and writes nothing. -/
theorem scStatAnswersTheStatusWord : Obligations.ScStatAnswersTheStatusWord := by
  intro s p hfresh
  refine ⟨statusWord s, exec_of_retire hfresh rfl, ?_, statusWord_getLsbD s 2, statusWord_getLsbD s 3,
    statusWord_above s⟩
  rw [statusWord_fault]
  cases s.fault <;> rfl

section
variable {P : State → Prop} {p : Port} {l : Label} {x : Locals} {s t : State} {b : BufSel}

/-! ### What a unit leaves behind -/

/-- A property of every state that a unit leaves behind. A unit that holds or stops leaves none. -/
def UnitResult.Leaves (P : State → Prop) : UnitResult → Prop
  | .goto _ _ s => P s
  | .retire _ _ s => P s
  | .hold => True
  | .fault _ => True
  | .refuse _ => True

theorem UnitResult.Leaves.mono {Q : State → Prop} {r : UnitResult} (h : r.Leaves P) (hPQ : ∀ t, P t → Q t) :
    r.Leaves Q := by
  cases r with
  | goto l x t => exact hPQ t h
  | retire st v t => exact hPQ t h
  | hold => trivial
  | fault f => trivial
  | refuse f => trivial

theorem leaves_attempt {α : Type} {r : Except Fault α} {k : α → UnitResult}
    (h : ∀ a, r = .ok a → (k a).Leaves P) : (attempt r k).Leaves P := by
  cases r with
  | error f => trivial
  | ok a => exact h a rfl

theorem leaves_waitUntil {ready : Bool} (h : P s) : (waitUntil ready l x s).Leaves P := by
  cases ready with
  | false => trivial
  | true => exact h

theorem leaves_readAnswer {r : Option Byte} (h : P s) :
    UnitResult.Leaves P (match r with
      | none => raise .bufferEmpty s
      | some v => .retire .ok (v.setWidth 16) s) := by
  cases r <;> exact h

/-! ### `FAULT` under the shared operations (R110) -/

/-- `t` has the `FAULT` of `s`. -/
def SameFault (s t : State) : Prop := t.fault = s.fault

theorem cbWrite_fault {v : Byte} {r : Status × State} (h : cbWrite p b v s = .ok r) : SameFault s r.2 := by
  obtain ⟨c, -, heq⟩ := cbWrite_ok h
  rw [heq]
  exact setBuf_fault s b c

theorem cbRead_fault {r : Option Byte × State} (h : cbRead p b s = .ok r) : SameFault s r.2 := by
  obtain ⟨c, -, heq⟩ := cbRead_ok h
  rw [heq]
  exact setBuf_fault s b c

theorem cbResizeOpen_fault {n : Half} {r : Status × State} (h : cbResizeOpen b n s = .ok r) : SameFault s r.2 := by
  obtain ⟨c, -, heq⟩ := cbResizeOpen_ok h
  rw [heq]
  exact setBuf_fault s b c

theorem cbResizeCopy_fault {n : Half} {r : Nat × State} (h : cbResizeCopy b n s = .ok r) : SameFault s r.2 := by
  obtain ⟨c, -, heq⟩ := cbResizeCopy_ok h
  rw [heq]
  exact setBuf_fault s b c

theorem transportRead_fault {r : Byte × State} (h : transportRead p s = .ok r) : SameFault s r.2 := by
  obtain ⟨rest, -, heq⟩ := transportRead_ok h
  rw [heq]
  rfl

theorem transportWrite_fault {v : Byte} (h : transportWrite p v s = .ok t) : SameFault s t := by
  obtain ⟨-, rfl⟩ := transportWrite_ok h
  exact takeDraw_fault s

/-- Unit u1 of a resize, inside the command whose unit it is. -/
theorem leaves_resizeOpen_sameFault {n : Half} :
    (attempt (cbResizeOpen b n s) fun r => if r.1 = .ok then .goto l x r.2 else raise r.1 r.2).Leaves (SameFault s) := by
  refine leaves_attempt fun r hr => ?_
  have hfault := cbResizeOpen_fault hr
  split <;> exact hfault

end

section
variable (p : Port) (l : Label) (x : Locals) (s : State) {b : BufSel}

/-! ### `FAULT` under the units of each command (R110) -/

theorem unitCbWrite_fault {v : Byte} : (unitCbWrite b v p l x s).Leaves (SameFault s) := by
  unfold unitCbWrite
  split
  · exact leaves_attempt fun _ hr => cbWrite_fault hr
  · trivial

theorem unitCbRead_fault : (unitCbRead b p l x s).Leaves (SameFault s) := by
  unfold unitCbRead
  split
  · exact leaves_attempt fun _ hr => leaves_readAnswer (cbRead_fault hr)
  · trivial

theorem unitCbResize_fault {n : Half} : (unitCbResize b n p l x s).Leaves (SameFault s) := by
  unfold unitCbResize
  split
  · exact leaves_resizeOpen_sameFault
  · refine leaves_attempt fun r hr => ?_
    have hfault := cbResizeCopy_fault hr
    split <;> exact hfault
  · trivial

theorem unitCbIsEmpty_fault : (unitCbIsEmpty b p l x s).Leaves (SameFault s) := by
  unfold unitCbIsEmpty
  split
  · exact leaves_attempt fun _ _ => rfl
  · trivial

theorem unitCbIsFull_fault : (unitCbIsFull b p l x s).Leaves (SameFault s) := by
  unfold unitCbIsFull
  split
  · exact leaves_attempt fun _ _ => rfl
  · trivial

theorem unitCbCount_fault : (unitCbCount b p l x s).Leaves (SameFault s) := by
  unfold unitCbCount
  split
  · exact leaves_attempt fun _ _ => rfl
  · trivial

theorem unitScBrdb_fault : (unitScBrdb p l x s).Leaves (SameFault s) := by
  unfold unitScBrdb
  split
  · exact leaves_waitUntil rfl
  · exact leaves_attempt fun _ hr => transportRead_fault hr
  · trivial

/-- `SC.BWRB` sends a byte and does not write `FAULT`. -/
theorem unitScBwrb_fault {v : Byte} : (unitScBwrb v p l x s).Leaves (SameFault s) := by
  unfold unitScBwrb
  split
  · exact leaves_waitUntil rfl
  · exact leaves_attempt fun _ hr => transportWrite_fault hr
  · trivial

/-- `SC.BWRITE` writes `DataError` on a rejected operand and `NoFault` after its last byte, no other value (R102). -/
theorem unitScBwrite_fault {np : Bool} {len : Half} {bytes : List Byte} :
    (unitScBwrite np len bytes p l x s).Leaves fun t => SameFault s t ∨ t.fault ≠ .initialised := by
  unfold unitScBwrite
  split
  · split
    · exact .inr (by decide : FaultState.dataError ≠ .initialised)
    · exact .inl rfl
  · exact leaves_waitUntil (.inl rfl)
  · split
    · trivial
    · exact leaves_attempt fun _ hr => .inl (transportWrite_fault hr)
  · exact .inr (by decide : FaultState.noFault ≠ .initialised)
  · trivial

/-- `SC.ENQ` arms the transmission and does not write `FAULT`. -/
theorem unitScEnq_fault {v : Byte} : (unitScEnq v p l x s).Leaves (SameFault s) := by
  unfold unitScEnq
  split
  · split
    · trivial
    · exact leaves_attempt fun _ hr => cbWrite_fault hr
  · exact rfl
  · exact rfl
  · trivial

theorem unitScDeq_fault : (unitScDeq p l x s).Leaves (SameFault s) := by
  unfold unitScDeq
  split
  · split
    · trivial
    · exact leaves_attempt fun _ hr => leaves_readAnswer (cbRead_fault hr)
  · trivial

theorem unitScResize_fault {n : Half} : (unitScResize n p l x s).Leaves (SameFault s) := by
  unfold unitScResize
  split
  · split <;> exact rfl
  · exact leaves_resizeOpen_sameFault
  · exact leaves_attempt fun _ hr => cbResizeCopy_fault hr
  · exact leaves_resizeOpen_sameFault
  · refine leaves_attempt fun r hr => ?_
    have hfault := cbResizeCopy_fault hr
    dsimp only
    split <;> exact hfault
  · trivial

/-- `SC.BHALF` sends a byte at u7 and u7b, and does not write `FAULT`. -/
theorem unitScBhalf_fault : (unitScBhalf p l x s).Leaves (SameFault s) := by
  unfold unitScBhalf
  cases l with
  | u1 =>
    dsimp only
    split
    · trivial
    · exact rfl
  | u2 => exact leaves_attempt fun _ hr => transportRead_fault hr
  | u3 => exact leaves_attempt fun _ hr => cbWrite_fault hr
  | u4 => exact rfl
  | u5 => dsimp only; split <;> exact rfl
  | u6 =>
    refine leaves_attempt fun r hr => ?_
    have hfault := cbRead_fault hr
    split <;> exact hfault
  | u7 => exact leaves_attempt fun _ hr => transportWrite_fault hr
  | u7a => exact leaves_waitUntil rfl
  | u7b => exact leaves_attempt fun _ hr => transportWrite_fault hr
  | u8 => exact rfl
  | u9 => exact rfl

theorem unitScArmrx_fault : (unitScArmrx p l x s).Leaves (SameFault s) := by
  unfold unitScArmrx
  split
  · exact rfl
  · exact rfl
  · trivial

theorem unitScArmtx_fault : (unitScArmtx p l x s).Leaves (SameFault s) := by
  unfold unitScArmtx
  split
  · exact rfl
  · exact rfl
  · trivial

theorem unitScDistx_fault : (unitScDistx p l x s).Leaves (SameFault s) := by
  unfold unitScDistx
  split
  · exact rfl
  · exact rfl
  · trivial

theorem unitScStat_fault : (unitScStat p l x s).Leaves (SameFault s) := by
  unfold unitScStat
  split
  · exact rfl
  · trivial

/-! ### `FAULT` under a turn and under a step -/

/-- What a command `i` may leave in `FAULT`, given what it held before: only `SC.BWRITE` writes it, and never to
`Initialised` (R110, `10_state.md` R19). -/
def FaultAllowed (i : Instr) (before after : FaultState) : Prop :=
  after = before ∨ (after ≠ .initialised ∧ ∃ np len bytes, i = .scBwrite np len bytes)

theorem FaultAllowed.trans {i : Instr} {f g h : FaultState} (hfg : FaultAllowed i f g) (hgh : FaultAllowed i g h) :
    FaultAllowed i f h := by
  rcases hgh with rfl | hwritten
  · exact hfg
  · exact .inr hwritten

/-- Every unit of every command leaves in `FAULT` what its command is allowed to. -/
theorem unitOf_fault {i : Instr} : (unitOf i p l x s).Leaves fun t => FaultAllowed i s.fault t.fault := by
  have hsame {r : UnitResult} (h : r.Leaves (SameFault s)) : r.Leaves fun t => FaultAllowed i s.fault t.fault :=
    h.mono fun _ => .inl
  cases i with
  | cbWrite b v => exact hsame (unitCbWrite_fault p l x s)
  | cbRead b => exact hsame (unitCbRead_fault p l x s)
  | cbResize b n => exact hsame (unitCbResize_fault p l x s)
  | cbIsEmpty b => exact hsame (unitCbIsEmpty_fault p l x s)
  | cbIsFull b => exact hsame (unitCbIsFull_fault p l x s)
  | cbCount b => exact hsame (unitCbCount_fault p l x s)
  | scBrdb => exact hsame (unitScBrdb_fault p l x s)
  | scBwrb v => exact hsame (unitScBwrb_fault p l x s)
  | scBwrite np len bytes =>
    exact (unitScBwrite_fault p l x s).mono fun _ h => h.imp_right fun hne => ⟨hne, np, len, bytes, rfl⟩
  | scEnq v => exact hsame (unitScEnq_fault p l x s)
  | scDeq => exact hsame (unitScDeq_fault p l x s)
  | scResize n => exact hsame (unitScResize_fault p l x s)
  | scBhalf => exact hsame (unitScBhalf_fault p l x s)
  | scArmrx => exact hsame (unitScArmrx_fault p l x s)
  | scArmtx => exact hsame (unitScArmtx_fault p l x s)
  | scDistx => exact hsame (unitScDistx_fault p l x s)
  | scStat => exact hsame (unitScStat_fault p l x s)

end

section
variable {p : Port} {l : Label} {x : Locals} {i : Instr} {s t : State}

/-- A turn's units leave in `FAULT` what their command is allowed to. -/
theorem drive_fault {more : Nat} (h : drive i (unitOf i) p more l x s = .next t) :
    FaultAllowed i s.fault t.fault := by
  refine drive_induct (I := fun _ _ u => FaultAllowed i s.fault u.fault)
    (Q := fun u => FaultAllowed i s.fault u.fault) ?_ ?_ ?_ (.inl rfl) h
  · intro l x u l' x' u' hu hgoto
    have hunit := unitOf_fault p l x u (i := i)
    rw [hgoto] at hunit
    exact hu.trans hunit
  · intro l x u st v u' hu hretire
    have hunit := unitOf_fault p l x u (i := i)
    rw [hretire] at hunit
    rw [retire_fault]
    exact hu.trans hunit
  · intro l x u hu
    rwa [suspend_fault]

theorem exec_fault (h : exec i s = .next t) : FaultAllowed i s.fault t.fault := by
  rw [exec_eq_runCommand] at h
  rcases runCommand_next h with ⟨-, hd⟩ | ⟨c, -, -, hd⟩ | ⟨c, -, -, rfl⟩
  · exact drive_fault hd
  · exact drive_fault hd
  · exact .inl rfl

/-- A turn of a port runs the port's next command, or leaves `FAULT` as it is. -/
theorem runPort_fault {more : Nat} (h : runPort p more s = .next t) :
    SameFault s t ∨ ∃ i, nextCommand s p = some i ∧ FaultAllowed i s.fault t.fault := by
  rcases runPort_next h with ⟨c, hbusy, he⟩ | ⟨hidle, ⟨i, n, hd, he⟩ | ⟨e, n, -, rfl⟩ | ⟨-, rfl⟩⟩
  · exact .inr ⟨c.cmd, by simp [nextCommand, hbusy], exec_fault (s := { s with turn := ⟨p, more⟩ }) he⟩
  · exact .inr ⟨i, by simp [nextCommand, hidle, hd], exec_fault (s := { s with turn := ⟨p, more⟩ }) he⟩
  · exact .inl (retire_fault ..)
  · exact .inl rfl

/-- Only a port's turn that runs `SC.BWRITE` writes `FAULT`. -/
theorem perform_fault {e : Event} (h : perform e s = .next t) :
    SameFault s t ∨ ∃ p more i, e = .run p more ∧ nextCommand s p = some i ∧ FaultAllowed i s.fault t.fault := by
  cases e with
  | run p more =>
    exact (runPort_fault h).imp_right fun ⟨i, hnext, hallowed⟩ => ⟨p, more, i, rfl, hnext, hallowed⟩
  | syncW b y =>
    cases h
    rcases syncWStep_cases b y s with heq | ⟨-, -, heq⟩ <;> rw [heq]
    · exact .inl rfl
    · exact .inl (setBuf_fault ..)
  | syncR b y =>
    cases h
    rcases syncRStep_cases b y s with heq | ⟨-, -, heq⟩ <;> rw [heq]
    · exact .inl rfl
    · exact .inl (setBuf_fault ..)
  | envRx v => cases h; exact .inl rfl
  | envTxReady => cases h; exact .inl rfl
  | present p y => cases h; exact .inl (setPort_fault ..)

/-- What a port runs next is read off the port alone. -/
theorem nextCommand_congr (h : t.port p = s.port p) : nextCommand t p = nextCommand s p := by
  simp only [nextCommand, State.pending, h]

theorem takeEvent_port (s : State) (p : Port) : (takeEvent s).2.port p = s.port p := by
  cases p
  · exact takeEvent_fg s
  · exact takeEvent_bh s

end

/-- Settles O39: every event keeps `FAULT`, or is a turn whose command is allowed to write it. -/
theorem onlyBwriteWritesFault : Obligations.OnlyBwriteWritesFault := by
  intro s t hstep hne
  rw [← takeEvent_fault s] at hne
  rcases perform_fault hstep with hsame | ⟨p, more, i, hevent, hnext, hallowed⟩
  · exact absurd hsame hne
  · obtain ⟨hwritten, np, len, bytes, rfl⟩ := hallowed.resolve_left hne
    rw [nextCommand_congr (takeEvent_port s p)] at hnext
    exact ⟨hwritten, p, more, np, len, bytes, hevent, hnext⟩

end Sys2Proof.Machine

namespace Sys2Proof.Machine

/-! ### The level queries, the transport read and the platform actions (`42_bottom_half_and_agents.md` R126 to R132) -/

section
variable {s : State}

@[simp] theorem dataAvailable_iff : dataAvailable s = true ↔ s.rxq ≠ [] := by
  simp [dataAvailable]

@[simp] theorem readyToSend_iff : readyToSend s = true ↔ s.txReady = true := Iff.rfl

/-- The event level, through the two level queries (`60_exceptions.md` R146). -/
theorem irq_iff : irq s = true ↔ (s.evRx = true ∧ s.rxq ≠ []) ∨ (s.evTx = true ∧ s.txReady = true) := by
  rw [irq, Bool.or_eq_true, Bool.and_eq_true, Bool.and_eq_true, dataAvailable_iff, readyToSend_iff]

theorem transportRead_of_cons {p : Port} {v : Byte} {rest : List Byte} (hqueue : s.rxq = v :: rest) :
    transportRead p s = .ok (v, ({ s with rxq := rest } : State).note (.trd p v)) := by
  simp only [transportRead, hqueue]

theorem transportRead_of_nil {p : Port} (hempty : s.rxq = []) : transportRead p s = .error .transportNotReady := by
  simp only [transportRead, hempty]

end

/-- Settles O51: the level queries and the event level by their equivalences, the transport read by the two shapes of
`RXQ`, and each platform action by its definition, a flag write followed by a trace entry. -/
theorem levelsTransportReadAndPlatformActions : Obligations.LevelsTransportReadAndPlatformActions := by
  intro p s
  refine ⟨dataAvailable_iff, readyToSend_iff, ?read, transportRead_of_nil, ?enRx, ?enTx, ?disTx, irq_iff⟩
  case read =>
    intro v rest hqueue
    exact transportRead_of_cons hqueue
  case enRx => rfl
  case enTx => rfl
  case disTx => rfl

end Sys2Proof.Machine

namespace Sys2Proof.Machine

/-! ### Why each shared operation faults (`60_exceptions.md` R155) -/

section
variable {α β : Type} {sync : Sync} {role : Role} {c : CBuf α} {f : Fault}

theorem load_error {i : Half} (h : c.load i = .error f) : f = .slotWithoutValue ∨ f = .noSuchSlot := by
  unfold CBuf.load at h
  split at h
  · split at h
    · cases h
    · cases h; exact .inl rfl
  · cases h; exact .inr rfl

theorem store_error {i : Half} {v : α} (h : c.store i v = .error f) : f = .noSuchSlot := by
  unfold CBuf.store at h
  split at h
  · cases h
  · cases h; rfl

/-- `cb_write` faults on an open window first, then on the role (R149); past both, only on a slot that is no address. -/
theorem write_error {v : α} (h : c.write sync role v = .error f) :
    (c.rsz = true ∧ f = .resizeRace) ∨ (c.rsz = false ∧ role ≠ .producer ∧ f = .portDiscipline) ∨ f = .noSuchSlot := by
  unfold CBuf.write at h
  split at h
  · next hrsz => cases h; exact .inl ⟨hrsz, rfl⟩
  · next hrsz =>
    split at h
    · next hrole => cases h; exact .inr (.inl ⟨by simpa using hrsz, hrole, rfl⟩)
    · split at h
      · cases h
      · split at h
        · next g hstore => cases h; exact .inr (.inr (store_error hstore))
        · cases h

/-- `cb_read` faults on an open window first, then on the role (R149); past both, only on a slot it cannot load. -/
theorem read_error (h : c.read sync role = .error f) :
    (c.rsz = true ∧ f = .resizeRace) ∨ (c.rsz = false ∧ role ≠ .consumer ∧ f = .portDiscipline) ∨
      f = .slotWithoutValue ∨ f = .noSuchSlot := by
  unfold CBuf.read at h
  split at h
  · next hrsz => cases h; exact .inl ⟨hrsz, rfl⟩
  · next hrsz =>
    split at h
    · next hrole => cases h; exact .inr (.inl ⟨by simpa using hrsz, hrole, rfl⟩)
    · split at h
      · cases h
      · split at h
        · next g hload => cases h; exact .inr (.inr (load_error hload))
        · cases h

theorem resizeOpen_error {n : Half} (h : c.resizeOpen n = .error f) : c.rsz = true ∧ f = .resizeRace := by
  unfold CBuf.resizeOpen at h
  split at h
  · next hrsz => cases h; exact ⟨hrsz, rfl⟩
  · split at h <;> cases h

theorem resizeCopy_error {n : Half} (h : c.resizeCopy n = .error f) : f = .slotWithoutValue := by
  unfold CBuf.resizeCopy at h
  dsimp only at h
  split at h
  · cases h; rfl
  · cases h

theorem query_error {answer : β} (h : c.query answer = .error f) : c.rsz = true ∧ f = .resizeRace := by
  unfold CBuf.query at h
  split at h
  · next hrsz => cases h; exact ⟨hrsz, rfl⟩
  · cases h

end

section
variable {p : Port} {b : BufSel} {s : State} {f : Fault}

theorem cbWrite_error {v : Byte} (h : cbWrite p b v s = .error f) :
    (s.buf b).write s.par.sync (roleOf p b) v = .error f := by
  unfold cbWrite at h
  split at h
  · next g hwrite => cases h; exact hwrite
  · cases h

theorem cbRead_error (h : cbRead p b s = .error f) : (s.buf b).read s.par.sync (roleOf p b) = .error f := by
  unfold cbRead at h
  split at h
  · next g hread => cases h; exact hread
  · cases h

theorem cbResizeOpen_error {n : Half} (h : cbResizeOpen b n s = .error f) : (s.buf b).resizeOpen n = .error f := by
  unfold cbResizeOpen at h
  split at h
  · next g hopen => cases h; exact hopen
  · cases h

theorem cbResizeCopy_error {n : Half} (h : cbResizeCopy b n s = .error f) : (s.buf b).resizeCopy n = .error f := by
  unfold cbResizeCopy at h
  split at h
  · next g hcopy => cases h; exact hcopy
  · cases h

theorem transportRead_error (h : transportRead p s = .error f) : f = .transportNotReady := by
  unfold transportRead at h
  split at h
  · cases h; rfl
  · cases h

theorem transportWrite_error {v : Byte} (h : transportWrite p v s = .error f) : f = .transportNotReady := by
  unfold transportWrite at h
  split at h
  · cases h
  · cases h; rfl

end

/-! ### The operations that keep the port discipline -/

section
variable {p : Port} {b : BufSel} {s : State}

/-- A producer's write never breaks the discipline, whatever windows are open. -/
theorem cbWrite_disciplined {v : Byte} (hrole : roleOf p b = .producer) : cbWrite p b v s ≠ .error .portDiscipline := by
  intro h
  rcases write_error (cbWrite_error h) with ⟨-, hf⟩ | ⟨-, hne, -⟩ | hf
  · cases hf
  · exact hne hrole
  · cases hf

/-- A consumer's read never breaks the discipline, whatever windows are open. -/
theorem cbRead_disciplined (hrole : roleOf p b = .consumer) : cbRead p b s ≠ .error .portDiscipline := by
  intro h
  rcases read_error (cbRead_error h) with ⟨-, hf⟩ | ⟨-, hne, -⟩ | hf | hf
  · cases hf
  · exact hne hrole
  · cases hf
  · cases hf

theorem cbResizeOpen_disciplined {n : Half} : cbResizeOpen b n s ≠ .error .portDiscipline :=
  fun h => nomatch (resizeOpen_error (cbResizeOpen_error h)).2

theorem cbResizeCopy_disciplined {n : Half} : cbResizeCopy b n s ≠ .error .portDiscipline :=
  fun h => nomatch resizeCopy_error (cbResizeCopy_error h)

theorem query_disciplined {α β : Type} {c : CBuf α} {answer : β} : c.query answer ≠ .error .portDiscipline :=
  fun h => nomatch (query_error h).2

theorem transportRead_disciplined : transportRead p s ≠ .error .portDiscipline :=
  fun h => nomatch transportRead_error h

theorem transportWrite_disciplined {v : Byte} : transportWrite p v s ≠ .error .portDiscipline :=
  fun h => nomatch transportWrite_error h

end

section
variable {p : Port} {l : Label} {x : Locals} {s : State} {b : BufSel} {f : Fault}

/-! ### When a unit faults -/

/-- The unit does not stop the run with the fault `f`. -/
def UnitResult.Avoids (f : Fault) : UnitResult → Prop
  | .goto _ _ _ => True
  | .retire _ _ _ => True
  | .hold => True
  | .fault g => g ≠ f
  | .refuse _ => True

theorem UnitResult.Avoids.ne_fault {r : UnitResult} (h : r.Avoids f) : r ≠ .fault f := by
  rintro rfl
  exact h rfl

/-- A unit that attempts a primitive faults only as the primitive does, or as what follows the primitive does. -/
theorem avoids_attempt {α : Type} {r : Except Fault α} {k : α → UnitResult} (hr : r ≠ .error f)
    (hk : ∀ a, (k a).Avoids f) : (attempt r k).Avoids f := by
  cases r with
  | error g => exact fun hg => hr (congrArg Except.error hg)
  | ok a => exact hk a

theorem avoids_waitUntil {ready : Bool} : (waitUntil ready l x s).Avoids f := by
  cases ready <;> trivial

theorem avoids_readAnswer {r : Option Byte} :
    UnitResult.Avoids f (match r with
      | none => raise .bufferEmpty s
      | some v => .retire .ok (v.setWidth 16) s) := by
  cases r <;> trivial

/-- Unit u1 of a resize, inside the command whose unit it is. -/
theorem unit_resizeOpen_disciplined {n : Half} :
    (attempt (cbResizeOpen b n s) fun r => if r.1 = .ok then .goto l x r.2 else raise r.1 r.2).Avoids
      .portDiscipline := by
  refine avoids_attempt cbResizeOpen_disciplined fun r => ?_
  split <;> trivial

variable (p x)

/-! ### The units of a command that the port table allows (R152) -/

theorem unitCbWrite_disciplined {v : Byte} (hrole : roleOf p b = .producer) :
    (unitCbWrite b v p l x s).Avoids .portDiscipline := by
  unfold unitCbWrite
  split
  · exact avoids_attempt (cbWrite_disciplined hrole) fun _ => trivial
  · trivial

theorem unitCbRead_disciplined (hrole : roleOf p b = .consumer) : (unitCbRead b p l x s).Avoids .portDiscipline := by
  unfold unitCbRead
  split
  · exact avoids_attempt (cbRead_disciplined hrole) fun _ => avoids_readAnswer
  · trivial

theorem unitCbResize_disciplined {n : Half} : (unitCbResize b n p l x s).Avoids .portDiscipline := by
  unfold unitCbResize
  split
  · exact unit_resizeOpen_disciplined
  · refine avoids_attempt cbResizeCopy_disciplined fun r => ?_
    split <;> trivial
  · trivial

theorem unitCbIsEmpty_disciplined : (unitCbIsEmpty b p l x s).Avoids .portDiscipline := by
  unfold unitCbIsEmpty
  split
  · exact avoids_attempt query_disciplined fun _ => trivial
  · trivial

theorem unitCbIsFull_disciplined : (unitCbIsFull b p l x s).Avoids .portDiscipline := by
  unfold unitCbIsFull
  split
  · exact avoids_attempt query_disciplined fun _ => trivial
  · trivial

theorem unitCbCount_disciplined : (unitCbCount b p l x s).Avoids .portDiscipline := by
  unfold unitCbCount
  split
  · exact avoids_attempt query_disciplined fun _ => trivial
  · trivial

theorem unitScBrdb_disciplined : (unitScBrdb p l x s).Avoids .portDiscipline := by
  unfold unitScBrdb
  split
  · exact avoids_waitUntil
  · exact avoids_attempt transportRead_disciplined fun _ => trivial
  · trivial

theorem unitScBwrb_disciplined {v : Byte} : (unitScBwrb v p l x s).Avoids .portDiscipline := by
  unfold unitScBwrb
  split
  · exact avoids_waitUntil
  · exact avoids_attempt transportWrite_disciplined fun _ => trivial
  · trivial

theorem unitScBwrite_disciplined {np : Bool} {len : Half} {bytes : List Byte} :
    (unitScBwrite np len bytes p l x s).Avoids .portDiscipline := by
  unfold unitScBwrite
  split
  · split <;> trivial
  · exact avoids_waitUntil
  · split
    · trivial
    · exact avoids_attempt transportWrite_disciplined fun _ => trivial
  · trivial
  · trivial

/-- Past the check of the port, `SC.ENQ` writes as `FG` to the buffer that `FG` produces into. -/
theorem unitScEnq_disciplined {v : Byte} (hport : p = .fg) : (unitScEnq v p l x s).Avoids .portDiscipline := by
  unfold unitScEnq
  split
  · rw [if_neg (not_not_intro hport)]
    exact avoids_attempt (cbWrite_disciplined rfl) fun _ => trivial
  · trivial
  · trivial
  · trivial

/-- Past the check of the port, `SC.DEQ` reads as `FG` from the buffer that `FG` consumes. -/
theorem unitScDeq_disciplined (hport : p = .fg) : (unitScDeq p l x s).Avoids .portDiscipline := by
  unfold unitScDeq
  split
  · rw [if_neg (not_not_intro hport)]
    exact avoids_attempt (cbRead_disciplined rfl) fun _ => avoids_readAnswer
  · trivial

theorem unitScResize_disciplined {n : Half} : (unitScResize n p l x s).Avoids .portDiscipline := by
  unfold unitScResize
  split
  · split <;> trivial
  · exact unit_resizeOpen_disciplined
  · exact avoids_attempt cbResizeCopy_disciplined fun _ => trivial
  · exact unit_resizeOpen_disciplined
  · refine avoids_attempt cbResizeCopy_disciplined fun r => ?_
    dsimp only
    split <;> trivial
  · trivial

/-- Past the check of the port, the drain loop writes `IN` and the transmission reads `OUT`, both as `BH`. -/
theorem unitScBhalf_disciplined (hport : p = .bh) : (unitScBhalf p l x s).Avoids .portDiscipline := by
  unfold unitScBhalf
  cases l with
  | u1 =>
    dsimp only
    rw [if_neg (not_not_intro hport)]
    trivial
  | u2 => exact avoids_attempt transportRead_disciplined fun _ => trivial
  | u3 => exact avoids_attempt (cbWrite_disciplined rfl) fun _ => trivial
  | u4 => trivial
  | u5 => dsimp only; split <;> trivial
  | u6 =>
    refine avoids_attempt (cbRead_disciplined rfl) fun r => ?_
    split <;> trivial
  | u7 => exact avoids_attempt transportWrite_disciplined fun _ => trivial
  | u7a => exact avoids_waitUntil
  | u7b => exact avoids_attempt transportWrite_disciplined fun _ => trivial
  | u8 => trivial
  | u9 => trivial

/-- A platform command is a flag write and an action of the platform: no unit of it faults. -/
theorem unitScArmrx_avoids : (unitScArmrx p l x s).Avoids f := by
  unfold unitScArmrx
  split <;> trivial

theorem unitScArmtx_avoids : (unitScArmtx p l x s).Avoids f := by
  unfold unitScArmtx
  split <;> trivial

theorem unitScDistx_avoids : (unitScDistx p l x s).Avoids f := by
  unfold unitScDistx
  split <;> trivial

theorem unitScStat_avoids : (unitScStat p l x s).Avoids f := by
  unfold unitScStat
  split <;> trivial

/-- No unit of a command that the port table allows on the port faults `PortDiscipline`. -/
theorem unitOf_disciplined {i : Instr} (hallowed : portAllows p i = true) :
    (unitOf i p l x s).Avoids .portDiscipline := by
  cases i with
  | cbWrite b v => exact unitCbWrite_disciplined p x (eq_of_beq hallowed)
  | cbRead b => exact unitCbRead_disciplined p x (eq_of_beq hallowed)
  | cbResize b n => exact unitCbResize_disciplined p x
  | cbIsEmpty b => exact unitCbIsEmpty_disciplined p x
  | cbIsFull b => exact unitCbIsFull_disciplined p x
  | cbCount b => exact unitCbCount_disciplined p x
  | scBrdb => exact unitScBrdb_disciplined p x
  | scBwrb v => exact unitScBwrb_disciplined p x
  | scBwrite np len bytes => exact unitScBwrite_disciplined p x
  | scEnq v => exact unitScEnq_disciplined p x (eq_of_beq hallowed)
  | scDeq => exact unitScDeq_disciplined p x (eq_of_beq hallowed)
  | scResize n => exact unitScResize_disciplined p x
  | scBhalf => exact unitScBhalf_disciplined p x (eq_of_beq hallowed)
  | scArmrx => exact unitScArmrx_avoids p x
  | scArmtx => exact unitScArmtx_avoids p x
  | scDistx => exact unitScDistx_avoids p x
  | scStat => exact unitScStat_avoids p x

/-! ### The first unit of a command that the port table forbids (R149, R152) -/

theorem unitScEnq_forbidden {v : Byte} (hport : p ≠ .fg) : unitScEnq v p .u1 x s = .fault .portDiscipline :=
  if_pos hport

theorem unitScDeq_forbidden (hport : p ≠ .fg) : unitScDeq p .u1 x s = .fault .portDiscipline := if_pos hport

theorem unitScBhalf_forbidden (hport : p ≠ .bh) : unitScBhalf p .u1 x s = .fault .portDiscipline := if_pos hport

theorem eq_consumer_of_ne_producer {role : Role} (h : role ≠ .producer) : role = .consumer := by
  cases role with
  | producer => exact absurd rfl h
  | consumer => rfl

theorem eq_producer_of_ne_consumer {role : Role} (h : role ≠ .consumer) : role = .producer := by
  cases role with
  | producer => rfl
  | consumer => exact absurd rfl h

theorem unitCbWrite_forbidden {v : Byte} (hrole : roleOf p b ≠ .producer) (hrsz : (s.buf b).rsz = false) :
    unitCbWrite b v p .u1 x s = .fault .portDiscipline := by
  simp [unitCbWrite, cbWrite, attempt, eq_consumer_of_ne_producer hrole, write_portDiscipline hrsz]

theorem unitCbRead_forbidden (hrole : roleOf p b ≠ .consumer) (hrsz : (s.buf b).rsz = false) :
    unitCbRead b p .u1 x s = .fault .portDiscipline := by
  simp [unitCbRead, cbRead, attempt, eq_producer_of_ne_consumer hrole, read_portDiscipline hrsz]

/-- Outside resize windows the first unit of a command that the port table forbids on the port faults. -/
theorem unitOf_forbidden {i : Instr} (hforbidden : portAllows p i = false) (hrsz : ∀ b, (s.buf b).rsz = false) :
    unitOf i p .u1 x s = .fault .portDiscipline := by
  cases i with
  | cbWrite b v => exact unitCbWrite_forbidden p x (ne_of_beq_false hforbidden) (hrsz b)
  | cbRead b => exact unitCbRead_forbidden p x (ne_of_beq_false hforbidden) (hrsz b)
  | scEnq v => exact unitScEnq_forbidden p x (ne_of_beq_false hforbidden)
  | scDeq => exact unitScDeq_forbidden p x (ne_of_beq_false hforbidden)
  | scBhalf => exact unitScBhalf_forbidden p x (ne_of_beq_false hforbidden)
  | cbResize | cbIsEmpty | cbIsFull | cbCount | scBrdb | scBwrb | scBwrite | scResize | scArmrx | scArmtx | scDistx
  | scStat => cases hforbidden

end

section
variable {i : Instr} {p : Port} {s : State} {f : Fault}

/-! ### A turn of an accepted command -/

/-- A turn faults only as one of its units does. -/
theorem drive_ne_fault {unit : Port → Label → Locals → State → UnitResult} {more : Nat} {l : Label} {x : Locals}
    (hunit : ∀ l x s, unit p l x s ≠ .fault f) : drive i unit p more l x s ≠ .fault f := by
  induction more generalizing l x s with
  | zero =>
    unfold drive
    split
    · nofun
    · nofun
    · nofun
    · next g hu => exact fun h => by cases h; exact hunit l x s hu
    · nofun
  | succ more ih =>
    unfold drive
    split
    · exact ih
    · nofun
    · nofun
    · next g hu => exact fun h => by cases h; exact hunit l x s hu
    · nofun

/-- Outside resize windows an accepted command faults `PortDiscipline` exactly if the port table forbids it. -/
theorem exec_portDiscipline_iff (hidle : (s.port s.turn.port).infl = .idle) (hrsz : ∀ b, (s.buf b).rsz = false) :
    exec i s = .fault .portDiscipline ↔ portAllows s.turn.port i = false := by
  have hfresh : Fresh s s.turn.port 0 := ⟨rfl, hidle, Nat.zero_le _⟩
  constructor
  · intro hfault
    by_contra hallowed
    rw [exec_fresh hfresh] at hfault
    exact drive_ne_fault (fun _ x _ => (unitOf_disciplined _ x (Bool.of_not_eq_false hallowed)).ne_fault) hfault
  · exact fun hforbidden => exec_of_fault hfresh (unitOf_forbidden _ Locals.init hforbidden hrsz)

/-! ### The cells of the port table (R152) -/

theorem portAllows_cbWrite_inbound {v : Byte} : portAllows p (.cbWrite .inbound v) = false ↔ p = .fg := by
  cases p <;> simp [portAllows, roleOf]

theorem portAllows_cbWrite_outbound {v : Byte} : portAllows p (.cbWrite .outbound v) = false ↔ p = .bh := by
  cases p <;> simp [portAllows, roleOf]

theorem portAllows_cbRead_inbound : portAllows p (.cbRead .inbound) = false ↔ p = .bh := by
  cases p <;> simp [portAllows, roleOf]

theorem portAllows_cbRead_outbound : portAllows p (.cbRead .outbound) = false ↔ p = .fg := by
  cases p <;> simp [portAllows, roleOf]

theorem beq_fg_false : (p == .fg) = false ↔ p = .bh := by cases p <;> decide

theorem beq_bh_false : (p == .bh) = false ↔ p = .fg := by cases p <;> decide

end

/-- Settles O18: an allowed command has no unit that breaks the discipline, a forbidden one breaks it at its first unit,
and the cells of the table are those listed. `SC.ENQ`, `SC.DEQ` and `SC.BHALF` check the port before any window (R149). -/
theorem portTableDecidesPortDiscipline : Obligations.PortTableDecidesPortDiscipline := by
  intro i s hidle
  have hfresh : Fresh s s.turn.port 0 := ⟨rfl, hidle, Nat.zero_le _⟩
  refine ⟨fun hin hout => ?table, fun hport v hcmd => ?queue, fun hport hcmd => ?bhalf⟩
  case table =>
    have hrsz : ∀ b, (s.buf b).rsz = false := by rintro (_ | _) <;> assumption
    rw [exec_portDiscipline_iff hidle hrsz]
    cases i with
    | cbWrite b v =>
      cases b with
      | inbound => exact portAllows_cbWrite_inbound
      | outbound => exact portAllows_cbWrite_outbound
    | cbRead b =>
      cases b with
      | inbound => exact portAllows_cbRead_inbound
      | outbound => exact portAllows_cbRead_outbound
    | scEnq v => exact beq_fg_false
    | scDeq => exact beq_fg_false
    | scBhalf => exact beq_bh_false
    | cbResize | cbIsEmpty | cbIsFull | cbCount | scBrdb | scBwrb | scBwrite | scResize | scArmrx | scArmtx | scDistx
    | scStat => simp [portAllows]
  case queue =>
    have hne : s.turn.port ≠ .fg := by simp [hport]
    rcases hcmd with rfl | rfl
    · exact exec_of_fault hfresh (unitScEnq_forbidden _ Locals.init hne)
    · exact exec_of_fault hfresh (unitScDeq_forbidden _ Locals.init hne)
  case bhalf =>
    subst hcmd
    exact exec_of_fault hfresh (unitScBhalf_forbidden _ Locals.init (by simp [hport]))

end Sys2Proof.Machine

namespace Sys2Proof.Machine

/-! ### Construction (`70_reset_and_hazards.md` R160 to R162) -/

theorem stateConstruct_zero (par : Params) (rxq : List Byte) (rdy : Bool) :
    State.construct par 0 rxq rdy = .error .invalidCapacity := if_pos rfl

theorem stateConstruct_of_ne_zero (par : Params) {n : Half} (hn : n ≠ 0) (rxq : List Byte) (rdy : Bool) :
    State.construct par n rxq rdy = .ok (State.init par n rxq rdy) := if_neg hn

theorem loneConstruct_zero (w : ElementWidth) : LoneBuffer.construct w 0 = .error .invalidCapacity := if_pos rfl

theorem loneConstruct_of_ne_zero (w : ElementWidth) {n : Half} (hn : n ≠ 0) :
    LoneBuffer.construct w n = .ok ⟨CBuf.init (BitVec w.bits) n, none⟩ := if_neg hn

/-- No slot of a buffer right after construction holds a value (R14, R32). -/
@[simp] theorem memGet_init_mem (α : Type) (n : Half) (i : Nat) : memGet (CBuf.init α n).mem i = none := memGet_nil i

/-- No event flag is set after construction, so neither level of `ENV` raises `IRQ`. -/
theorem irq_init (par : Params) (n : Half) (rxq : List Byte) (rdy : Bool) :
    irq (State.init par n rxq rdy) = false := by
  have hevRx : (State.init par n rxq rdy).evRx = false := rfl
  have hevTx : (State.init par n rxq rdy).evTx = false := rfl
  simp [irq, hevRx, hevTx]

/-- Settles O55: the constructor branches on capacity 0 alone, and its other answer is the initial state, whose two
buffers are initial buffers and whose `IRQ` is down. -/
theorem constructionGivesTheResetValues : Obligations.ConstructionGivesTheResetValues := by
  refine ⟨fun par n rxq rdy => ⟨?zero, fun hn => ?legal⟩, fun w n => ⟨?loneZero, fun hn => ?loneLegal⟩⟩
  case zero =>
    rintro rfl
    exact stateConstruct_zero par rxq rdy
  case legal =>
    refine ⟨_, stateConstruct_of_ne_zero par hn rxq rdy, fun b => ?buffers, ?rest⟩
    case buffers =>
      rw [init_buf]
      exact ⟨rfl, rfl, rfl, rfl, rfl, rfl, memGet_init_mem Byte n⟩
    case rest =>
      exact ⟨rfl, rfl, rfl, rfl, rfl, rfl, rfl, rfl, rfl, rfl, rfl, rfl, rfl, rfl, irq_init par n rxq rdy⟩
  case loneZero =>
    rintro rfl
    exact loneConstruct_zero w
  case loneLegal =>
    exact ⟨_, loneConstruct_of_ne_zero w hn, rfl, rfl, rfl, rfl, rfl, rfl, memGet_init_mem _ n, rfl⟩

end Sys2Proof.Machine

namespace Sys2Proof.Machine

/-! ### The fields of a word (`30_encoding.md` R60) -/

/-- The word of five fields; `header` is the one with `rsv = 0`, and the patterns and masks of R64 are others. -/
def fieldsWord (opc : BitVec 8) (sel np : Bool) (rsv : BitVec 6) (imm : Half) : Word :=
  opc ++ BitVec.ofBool sel ++ BitVec.ofBool np ++ rsv ++ imm

theorem header_eq_fieldsWord (opc : BitVec 8) (sel np : Bool) (imm : Half) :
    header opc sel np imm = fieldsWord opc sel np 0 imm := rfl

section
variable (opc : BitVec 8) (sel np : Bool) (rsv : BitVec 6) (imm : Half)

theorem fieldsWord_getLsbD (i : Nat) : (fieldsWord opc sel np rsv imm).getLsbD i =
    if i < 16 then imm.getLsbD i
    else if i < 22 then rsv.getLsbD (i - 16)
    else if i < 23 then np
    else if i < 24 then sel
    else opc.getLsbD (i - 24) := by
  change BitVec.getLsbD (w := 8 + 1 + 1 + 6 + 16) (opc ++ BitVec.ofBool sel ++ BitVec.ofBool np ++ rsv ++ imm) i = _
  rw [BitVec.getLsbD_append, BitVec.getLsbD_append, BitVec.getLsbD_append, BitVec.getLsbD_append]
  split_ifs <;> try omega
  · rfl
  · rfl
  · rw [show i - 16 - 6 = 0 by omega]; simp
  · rw [show i - 16 - 6 - 1 = 0 by omega]; simp
  · rw [show i - 16 - 6 - 1 - 1 = i - 24 by omega]

@[simp] theorem wordImm_fieldsWord : wordImm (fieldsWord opc sel np rsv imm) = imm := by
  ext i hi
  rw [wordImm, BitVec.getElem_extractLsb', fieldsWord_getLsbD, if_pos (by omega), BitVec.getLsbD_eq_getElem (by omega)]
  simp

@[simp] theorem wordRsv_fieldsWord : wordRsv (fieldsWord opc sel np rsv imm) = rsv := by
  ext i hi
  rw [wordRsv, BitVec.getElem_extractLsb', fieldsWord_getLsbD, if_neg (by omega), if_pos (by omega),
    BitVec.getLsbD_eq_getElem (by omega)]
  simp

@[simp] theorem wordNp_fieldsWord : wordNp (fieldsWord opc sel np rsv imm) = np := fieldsWord_getLsbD _ _ _ _ _ 22

@[simp] theorem wordSel_fieldsWord : wordSel (fieldsWord opc sel np rsv imm) = sel := fieldsWord_getLsbD _ _ _ _ _ 23

@[simp] theorem wordOpc_fieldsWord : wordOpc (fieldsWord opc sel np rsv imm) = opc := by
  ext i hi
  rw [wordOpc, BitVec.getElem_extractLsb', fieldsWord_getLsbD, if_neg (by omega), if_neg (by omega), if_neg (by omega),
    if_neg (by omega), BitVec.getLsbD_eq_getElem (by omega)]
  simp

end

/-- A word is the word of its fields. -/
theorem fieldsWord_eta (w : Word) : fieldsWord (wordOpc w) (wordSel w) (wordNp w) (wordRsv w) (wordImm w) = w := by
  apply BitVec.eq_of_getLsbD_eq
  intro i hi
  rw [fieldsWord_getLsbD, wordOpc, wordSel, wordNp, wordRsv, wordImm]
  simp only [BitVec.getLsbD_extractLsb']
  split_ifs with h1 h2 h3 h4
  · simp [h1]
  · simp [show i - 16 < 6 by omega, show 16 + (i - 16) = i by omega]
  · rw [show i = 22 by omega]
  · rw [show i = 23 by omega]
  · simp [show i - 24 < 8 by omega, show 24 + (i - 24) = i by omega]

/-- Two words are equal exactly if their fields are. -/
theorem word_eq_iff (v w : Word) :
    v = w ↔ wordOpc v = wordOpc w ∧ wordSel v = wordSel w ∧ wordNp v = wordNp w ∧ wordRsv v = wordRsv w ∧
      wordImm v = wordImm w := by
  constructor
  · rintro rfl
    exact ⟨rfl, rfl, rfl, rfl, rfl⟩
  · rintro ⟨hopc, hsel, hnp, hrsv, himm⟩
    rw [← fieldsWord_eta v, ← fieldsWord_eta w, hopc, hsel, hnp, hrsv, himm]

/-- A mask is applied field by field. -/
theorem and_fieldsWord (w : Word) (opc : BitVec 8) (sel np : Bool) (rsv : BitVec 6) (imm : Half) :
    w &&& fieldsWord opc sel np rsv imm =
      fieldsWord (wordOpc w &&& opc) (wordSel w && sel) (wordNp w && np) (wordRsv w &&& rsv) (wordImm w &&& imm) := by
  apply BitVec.eq_of_getLsbD_eq
  intro i hi
  conv_lhs => rw [← fieldsWord_eta w]
  simp only [BitVec.getLsbD_and, fieldsWord_getLsbD]
  split_ifs <;> rfl

/-! ### The rows of the opcode map, through the fields (R61, R64) -/

/-- The mask of a row: the bits that R61 fixes, for a command that uses the fields said. -/
def rowMask (usesSel usesNp : Bool) (immUsed : Half) : Word := fieldsWord 0xFF (!usesSel) (!usesNp) 0x3F (~~~immUsed)

/-- The match value of a row: the opcode, every other bit 0. -/
def rowPattern (opc : BitVec 8) : Word := fieldsWord opc false false 0 0

theorem fieldError_eq_none {w : Word} {usesSel usesNp : Bool} {immUsed : Half} :
    fieldError w usesSel usesNp immUsed = none ↔
      wordRsv w = 0 ∧ (wordSel w && !usesSel) = false ∧ (wordNp w && !usesNp) = false ∧
        wordImm w &&& ~~~immUsed = 0 := by
  unfold fieldError
  split_ifs with hrsv hsel hnp himm
  · exact iff_of_false nofun fun h => hrsv h.1
  · exact iff_of_false nofun fun ⟨_, h, _⟩ => by simp [hsel.1, hsel.2] at h
  · exact iff_of_false nofun fun ⟨_, _, h, _⟩ => by simp [hnp.1, hnp.2] at h
  · exact iff_of_false nofun fun ⟨_, _, _, h⟩ => himm h
  · simp only [not_not] at hrsv himm
    have hsel : (wordSel w && !usesSel) = false := by cases usesSel <;> simp_all
    have hnp : (wordNp w && !usesNp) = false := by cases usesNp <;> simp_all
    simp only [hrsv, hsel, hnp, himm, and_self]

/-- A row covers a word exactly if the word has the row's opcode and its fields are as R61 asks. -/
theorem and_rowMask_eq_iff {w : Word} {opc : BitVec 8} {usesSel usesNp : Bool} {immUsed : Half} :
    w &&& rowMask usesSel usesNp immUsed = rowPattern opc ↔
      wordOpc w = opc ∧ fieldError w usesSel usesNp immUsed = none := by
  rw [rowMask, and_fieldsWord, rowPattern, word_eq_iff, fieldError_eq_none]
  have hopc : wordOpc w &&& 0xFF = wordOpc w := BitVec.and_allOnes
  have hrsv : wordRsv w &&& 0x3F = wordRsv w := BitVec.and_allOnes
  simp only [wordOpc_fieldsWord, wordSel_fieldsWord, wordNp_fieldsWord, wordRsv_fieldsWord, wordImm_fieldsWord, hopc,
    hrsv]
  tauto

end Sys2Proof.Machine

namespace Sys2Proof.Machine

/-! ### Payload words (R63) -/

@[simp] theorem byteLane_payloadWord_zero (v0 v1 v2 v3 : Byte) : byteLane (payloadWord v0 v1 v2 v3) 0 = v0 :=
  BitVec.extractLsb'_append_eq_right

@[simp] theorem byteLane_payloadWord_one (v0 v1 v2 v3 : Byte) : byteLane (payloadWord v0 v1 v2 v3) 1 = v1 :=
  (BitVec.extractLsb'_append_eq_of_le (by decide)).trans BitVec.extractLsb'_append_eq_right

@[simp] theorem byteLane_payloadWord_two (v0 v1 v2 v3 : Byte) : byteLane (payloadWord v0 v1 v2 v3) 2 = v2 :=
  (BitVec.extractLsb'_append_eq_of_le (by decide)).trans
    ((BitVec.extractLsb'_append_eq_of_le (by decide)).trans BitVec.extractLsb'_append_eq_right)

@[simp] theorem byteLane_payloadWord_three (v0 v1 v2 v3 : Byte) : byteLane (payloadWord v0 v1 v2 v3) 3 = v3 :=
  (BitVec.extractLsb'_append_eq_of_le (by decide)).trans
    ((BitVec.extractLsb'_append_eq_of_le (by decide)).trans
      ((BitVec.extractLsb'_append_eq_of_le (by decide)).trans BitVec.extractLsb'_eq_self))

/-- A payload word is the word of its byte lanes. -/
theorem payloadWord_byteLanes (w : Word) :
    payloadWord (byteLane w 0) (byteLane w 1) (byteLane w 2) (byteLane w 3) = w := by
  apply BitVec.eq_of_getLsbD_eq
  intro i hi
  change BitVec.getLsbD (w := 8 + 8 + 8 + 8) (byteLane w 3 ++ byteLane w 2 ++ byteLane w 1 ++ byteLane w 0) i = _
  simp only [BitVec.getLsbD_append, byteLane, BitVec.getLsbD_extractLsb']
  split_ifs with h0 h1 h2
  · simp [h0]
  · simp [h1, show 8 + (i - 8) = i by omega]
  · simp [h2, show 16 + (i - 8 - 8) = i by omega]
  · simp [show i - 8 - 8 - 8 < 8 by omega, show 24 + (i - 8 - 8 - 8) = i by omega]

/-- The payload words of `n` bytes are `ceil(n / 4)`. -/
theorem packPayload_length (bytes : List Byte) : (packPayload bytes).length = (bytes.length + 3) / 4 := by
  induction bytes using packPayload.induct with
  | case1 => rfl
  | case2 a => simp [packPayload]
  | case3 a b => simp [packPayload]
  | case4 a b c => simp [packPayload]
  | case5 a b c d rest ih => simp only [packPayload, List.length_cons, ih]; omega

/-- The lanes of packed bytes are the bytes, then padding lanes that are 0. -/
theorem payloadLanes_packPayload (bytes : List Byte) :
    payloadLanes (packPayload bytes) = bytes ++ List.replicate (4 * ((bytes.length + 3) / 4) - bytes.length) 0 := by
  induction bytes using packPayload.induct with
  | case1 => rfl
  | case2 a => simp [packPayload, payloadLanes, List.replicate]
  | case3 a b => simp [packPayload, payloadLanes, List.replicate]
  | case4 a b c => simp [packPayload, payloadLanes]
  | case5 a b c d rest ih =>
    have hpad : 4 * ((rest.length + 1 + 1 + 1 + 1 + 3) / 4) - (rest.length + 1 + 1 + 1 + 1) =
        4 * ((rest.length + 3) / 4) - rest.length := by omega
    simp only [packPayload, payloadLanes, byteLane_payloadWord_zero, byteLane_payloadWord_one, byteLane_payloadWord_two,
      byteLane_payloadWord_three, ih, List.length_cons, List.cons_append, hpad]

/-- Payload words with padding lanes 0 are the packing of the bytes they carry. -/
theorem packPayload_take {ws : List Word} {n : Nat} (hlen : ws.length = (n + 3) / 4)
    (hpad : ∀ v ∈ (payloadLanes ws).drop n, v = 0) : packPayload ((payloadLanes ws).take n) = ws := by
  induction ws generalizing n with
  | nil => simp [payloadLanes, packPayload]
  | cons w ws ih =>
    rw [List.length_cons] at hlen
    have hw := payloadWord_byteLanes w
    match n with
    | 0 => simp at hlen
    | 1 | 2 | 3 =>
      obtain rfl : ws = [] := List.length_eq_zero_iff.mp (by omega)
      simp only [payloadLanes, List.drop_succ_cons, List.drop_zero, List.mem_cons, List.not_mem_nil, or_false,
        forall_eq_or_imp, forall_eq] at hpad
      simp only [payloadLanes, List.take_succ_cons, List.take_zero, packPayload]
      simp only [hpad] at hw
      rw [hw]
    | n + 4 =>
      have hrest := ih (n := n) (by omega) (by simpa [payloadLanes] using hpad)
      simp only [payloadLanes, List.take_succ_cons, packPayload, hrest, hw]

/-! ### The decoder, row by row (R61, R64) -/

/-- What a row of R64 fixes of a command word: the opcode, and the fields that the command uses. -/
structure RowFields where
  opc : BitVec 8
  usesSel : Bool
  usesNp : Bool
  immUsed : Half

/-- The row of each command. -/
def rowFields : Instr → RowFields
  | .cbWrite _ _ => ⟨0x01, true, false, 0x00FF⟩
  | .cbRead _ => ⟨0x02, true, false, 0⟩
  | .cbResize _ _ => ⟨0x03, true, false, 0xFFFF⟩
  | .cbIsEmpty _ => ⟨0x04, true, false, 0⟩
  | .cbIsFull _ => ⟨0x05, true, false, 0⟩
  | .cbCount _ => ⟨0x06, true, false, 0⟩
  | .scBrdb => ⟨0x10, false, false, 0⟩
  | .scBwrb _ => ⟨0x11, false, false, 0x00FF⟩
  | .scBwrite _ _ _ => ⟨0x12, false, true, 0xFFFF⟩
  | .scEnq _ => ⟨0x13, false, false, 0x00FF⟩
  | .scDeq => ⟨0x14, false, false, 0⟩
  | .scResize _ => ⟨0x15, false, false, 0xFFFF⟩
  | .scBhalf => ⟨0x16, false, false, 0⟩
  | .scArmrx => ⟨0x17, false, false, 0⟩
  | .scArmtx => ⟨0x18, false, false, 0⟩
  | .scDistx => ⟨0x19, false, false, 0⟩
  | .scStat => ⟨0x1A, false, false, 0⟩

/-- A word has the opcode of a command's row, and R61 finds no error in it. -/
def HasFields (w : Word) (r : RowFields) : Prop :=
  wordOpc w = r.opc ∧ fieldError w r.usesSel r.usesNp r.immUsed = none

/-- The row of the opcode map that a command belongs to. -/
def rowOf (i : Instr) : OpcodeRow :=
  ⟨i.mnemonic, rowPattern (rowFields i).opc,
    rowMask (rowFields i).usesSel (rowFields i).usesNp (rowFields i).immUsed⟩

/-- A command of each row, in the order of the opcode map. -/
def sampleCommands : List Instr :=
  [.cbWrite .inbound 0, .cbRead .inbound, .cbResize .inbound 0, .cbIsEmpty .inbound, .cbIsFull .inbound,
    .cbCount .inbound, .scBrdb, .scBwrb 0, .scBwrite false 0 [], .scEnq 0, .scDeq, .scResize 0, .scBhalf, .scArmrx,
    .scArmtx, .scDistx, .scStat]

/-- The opcode map is the list of the commands' rows. -/
theorem opcodeTable_eq : opcodeTable = sampleCommands.map rowOf := by decide

theorem rowOf_mem (i : Instr) : rowOf i ∈ opcodeTable := by
  rw [opcodeTable_eq]
  cases i <;> simp [sampleCommands, rowOf, rowFields, Instr.mnemonic]

theorem exists_command_of_row {r : OpcodeRow} (h : r ∈ opcodeTable) : ∃ i, rowOf i = r := by
  rw [opcodeTable_eq] at h
  obtain ⟨i, -, hi⟩ := List.mem_map.mp h
  exact ⟨i, hi⟩

theorem covers_rowOf {i : Instr} {w : Word} : (rowOf i).covers w = true ↔ HasFields w (rowFields i) := by
  rw [OpcodeRow.covers, beq_iff_eq]
  exact and_rowMask_eq_iff

/-- No two rows of the opcode map cover one word: their opcodes differ. -/
theorem row_eq_of_covers {r r' : OpcodeRow} {w : Word} (hr : r ∈ opcodeTable) (hr' : r' ∈ opcodeTable)
    (h : r.covers w = true) (h' : r'.covers w = true) : r = r' := by
  have hdistinct : ∀ a ∈ opcodeTable, ∀ b ∈ opcodeTable, a.pattern = b.pattern → a = b := by decide
  refine hdistinct r hr r' hr' ?_
  obtain ⟨i, rfl⟩ := exists_command_of_row hr
  obtain ⟨j, rfl⟩ := exists_command_of_row hr'
  exact congrArg rowPattern ((covers_rowOf.mp h).1.symm.trans (covers_rowOf.mp h').1)

theorem checked_eq_ok {w : Word} {usesSel usesNp : Bool} {immUsed : Half} {i j : Instr} :
    checked w usesSel usesNp immUsed i = .ok j ↔ fieldError w usesSel usesNp immUsed = none ∧ j = i := by
  unfold checked
  cases fieldError w usesSel usesNp immUsed <;> simp [eq_comm]

/-- `SC.BWRITE` decodes exactly if its fields are legal and every padding lane is 0. -/
theorem decodeBwrite_eq_ok {w : Word} {payload : List Word} {i : Instr} :
    decodeBwrite w payload = .ok i ↔ fieldError w false true 0xFFFF = none ∧
      (∀ v ∈ (payloadLanes payload).drop (wordImm w).toNat, v = 0) ∧
      i = .scBwrite (wordNp w) (wordImm w) ((payloadLanes payload).take (wordImm w).toNat) := by
  unfold decodeBwrite
  simp only
  cases hfields : fieldError w false true 0xFFFF with
  | some e => simp
  | none =>
    dsimp only
    split
    · next hpad =>
      simp only [List.all_eq_true, beq_iff_eq] at hpad
      exact ⟨fun h => by cases h; exact ⟨rfl, hpad, rfl⟩, fun ⟨_, _, hi⟩ => by rw [hi]⟩
    · next hpad =>
      simp only [List.all_eq_true, beq_iff_eq] at hpad
      exact iff_of_false nofun fun ⟨_, h, _⟩ => hpad h

/-- A word that decodes has the fields of its command's row. -/
theorem hasFields_of_decode {w : Word} {payload : List Word} {i : Instr} (h : decodeCommand w payload = .ok i) :
    HasFields w (rowFields i) := by
  unfold decodeCommand at h
  simp only at h
  split at h
  case h_9 hopc =>
    obtain ⟨hfields, -, rfl⟩ := decodeBwrite_eq_ok.mp h
    exact ⟨BitVec.eq_of_toNat_eq hopc, hfields⟩
  case h_18 => cases h
  all_goals
    next hopc =>
      obtain ⟨hfields, rfl⟩ := checked_eq_ok.mp h
      exact ⟨BitVec.eq_of_toNat_eq hopc, hfields⟩

/-- A padding lane of the payload words a header announces is not 0. -/
def PaddingError (w : Word) (payload : List Word) : Prop :=
  wordOpc w = 0x12 ∧ ∃ v ∈ (payloadLanes payload).drop (wordImm w).toNat, v ≠ 0

/-- A word with the fields of a row decodes to a command of that row, or has a padding lane that is not 0. -/
theorem decodeCommand_of_hasFields {w : Word} {i : Instr} (payload : List Word) (h : HasFields w (rowFields i)) :
    (∃ j, decodeCommand w payload = .ok j ∧ j.mnemonic = i.mnemonic) ∨
      (decodeCommand w payload = .error .paddingNotZero ∧ PaddingError w payload) := by
  obtain ⟨hopc, hfields⟩ := h
  cases i
  case scBwrite =>
    have hdecode : decodeCommand w payload = decodeBwrite w payload := by simp [decodeCommand, hopc, rowFields]
    rw [hdecode]
    by_cases hpad : ∀ v ∈ (payloadLanes payload).drop (wordImm w).toNat, v = 0
    · exact .inl ⟨_, decodeBwrite_eq_ok.mpr ⟨hfields, hpad, rfl⟩, rfl⟩
    · refine .inr ⟨?_, hopc, by simpa using hpad⟩
      have hany : ((payloadLanes payload).drop (wordImm w).toNat).all (fun v => v == 0) = false := by
        simpa using hpad
      have hfields : fieldError w false true 0xFFFF = none := hfields
      simp only [decodeBwrite, hfields, hany, Bool.false_eq_true, if_false]
  all_goals
    simp only [rowFields] at hopc hfields
    left
    simp only [decodeCommand, hopc, checked, hfields]
    exact ⟨_, rfl, rfl⟩

/-- A padding error is an error of the decoder. -/
theorem decodeCommand_ne_ok_of_padding {w : Word} {payload : List Word} {i : Instr} (h : PaddingError w payload) :
    decodeCommand w payload ≠ .ok i := by
  obtain ⟨hopc, v, hv, hne⟩ := h
  have hdecode : decodeCommand w payload = decodeBwrite w payload := by simp [decodeCommand, hopc]
  rw [hdecode]
  exact fun hok => hne ((decodeBwrite_eq_ok.mp hok).2.1 v hv)

end Sys2Proof.Machine

namespace Sys2Proof.Machine

/-! ### The head of a command stream (R63, R67) -/

/-- Once the announced words have arrived, the decoder's answer is that of the header and those words. -/
theorem decode_of_ok {w : Word} {rest : List Word} {i : Instr} (h : announcedWords w ≤ rest.length)
    (hdecode : decodeCommand w (rest.take (announcedWords w)) = .ok i) :
    decode (w :: rest) = .legal i (1 + announcedWords w) := by
  simp only [decode, if_neg (Nat.not_lt.mpr h), hdecode]

theorem decode_of_error {w : Word} {rest : List Word} {e : DecodeError} (h : announcedWords w ≤ rest.length)
    (hdecode : decodeCommand w (rest.take (announcedWords w)) = .error e) :
    decode (w :: rest) = .illegal e (1 + announcedWords w) := by
  simp only [decode, if_neg (Nat.not_lt.mpr h), hdecode]

/-- The decoder's three answers. -/
theorem decode_cases (w : Word) (rest : List Word) :
    (rest.length < announcedWords w ∧ decode (w :: rest) = .starved) ∨
      (announcedWords w ≤ rest.length ∧
        ((∃ i, decodeCommand w (rest.take (announcedWords w)) = .ok i ∧
            decode (w :: rest) = .legal i (1 + announcedWords w)) ∨
          ∃ e, decodeCommand w (rest.take (announcedWords w)) = .error e ∧
            decode (w :: rest) = .illegal e (1 + announcedWords w))) := by
  by_cases h : rest.length < announcedWords w
  · exact .inl ⟨h, by simp only [decode, if_pos h]⟩
  · have harrived := Nat.le_of_not_lt h
    refine .inr ⟨harrived, ?_⟩
    cases hdecode : decodeCommand w (rest.take (announcedWords w)) with
    | ok i => exact .inl ⟨i, rfl, decode_of_ok harrived hdecode⟩
    | error e => exact .inr ⟨e, rfl, decode_of_error harrived hdecode⟩

theorem decode_legal {w : Word} {rest : List Word} {i : Instr} {n : Nat} (h : decode (w :: rest) = .legal i n) :
    announcedWords w ≤ rest.length ∧ decodeCommand w (rest.take (announcedWords w)) = .ok i ∧
      n = 1 + announcedWords w := by
  rcases decode_cases w rest with ⟨-, hd⟩ | ⟨hlen, ⟨j, hj, hd⟩ | ⟨e, -, hd⟩⟩ <;> rw [h] at hd <;> cases hd
  exact ⟨hlen, hj, rfl⟩

theorem announcedWords_of_opc {w : Word} (h : wordOpc w ≠ 0x12) : announcedWords w = 0 := if_neg fun ha => h ha.1

theorem announcedWords_header (opc : BitVec 8) (sel np : Bool) (imm : Half) :
    announcedWords (header opc sel np imm) = if opc = 0x12 ∧ np = false then payloadWordsOf imm else 0 := by
  rw [announcedWords, header_eq_fieldsWord, wordOpc_fieldsWord, wordNp_fieldsWord, wordImm_fieldsWord]

/-- A command word whose fields are as R61 asks is the header of its used fields. -/
theorem header_of_fields {w : Word} {usesSel usesNp : Bool} {immUsed : Half}
    (h : fieldError w usesSel usesNp immUsed = none) :
    header (wordOpc w) (wordSel w && usesSel) (wordNp w && usesNp) (wordImm w &&& immUsed) = w := by
  obtain ⟨hrsv, hsel, hnp, himm⟩ := fieldError_eq_none.mp h
  have hselEq : (wordSel w && usesSel) = wordSel w := by revert hsel; cases wordSel w <;> cases usesSel <;> simp
  have hnpEq : (wordNp w && usesNp) = wordNp w := by revert hnp; cases wordNp w <;> cases usesNp <;> simp
  have himmEq : wordImm w &&& immUsed = wordImm w := by
    ext i hi
    have hbit := congrArg (fun v : Half => v[i]) himm
    simp only [BitVec.getElem_and, BitVec.getElem_not] at hbit ⊢
    revert hbit
    cases (wordImm w)[i] <;> cases immUsed[i] <;> simp
  conv_rhs => rw [← fieldsWord_eta w, hrsv]
  rw [header_eq_fieldsWord, hselEq, hnpEq, himmEq]

@[simp] theorem toBit_ofBit (v : Bool) : (BufSel.ofBit v).toBit = v := by cases v <;> rfl

@[simp] theorem ofBit_toBit (b : BufSel) : BufSel.ofBit b.toBit = b := by cases b <;> rfl

theorem setWidth_setWidth_element (x : Half) : (x.setWidth 8).setWidth 16 = x &&& 0x00FF := by
  apply BitVec.eq_of_toNat_eq
  have hmask : (0x00FF : Half).toNat = 2 ^ 8 - 1 := rfl
  rw [BitVec.toNat_and, hmask, Nat.and_two_pow_sub_one_eq_mod, BitVec.toNat_setWidth, BitVec.toNat_setWidth]
  omega

/-- `SC.BWRITE`: the payload words are the packing of the payload bytes. -/
theorem encode_decodeBwrite {w : Word} {payload : List Word} {i : Instr} (hopc : wordOpc w = 0x12)
    (hlen : payload.length = announcedWords w) (h : decodeBwrite w payload = .ok i) :
    encode i = w :: payload ∧ wordCount i = 1 + announcedWords w := by
  obtain ⟨hfields, hpad, rfl⟩ := decodeBwrite_eq_ok.mp h
  have hheader := header_of_fields hfields
  have himm : wordImm w &&& 0xFFFF = wordImm w := BitVec.and_allOnes
  rw [hopc, Bool.and_false, Bool.and_true, himm] at hheader
  rw [encode, hheader]
  cases hnp : wordNp w with
  | true =>
    rw [announcedWords, if_neg (by simp [hnp])] at *
    obtain rfl := List.length_eq_zero_iff.mp hlen
    exact ⟨by simp [payloadLanes, packPayload], rfl⟩
  | false =>
    rw [announcedWords, if_pos ⟨hopc, hnp⟩] at *
    exact ⟨by rw [packPayload_take hlen hpad], rfl⟩

/-- A command of one word is spelled by the header of its used fields. -/
theorem encode_checked {w : Word} {payload : List Word} {usesSel usesNp : Bool} {immUsed : Half} {i j : Instr} {n : Nat}
    (hlen : payload.length = announcedWords w) (hopc : (wordOpc w).toNat = n) (hn : n ≠ 0x12)
    (hj : encode j =
      [header (BitVec.ofNat 8 n) (wordSel w && usesSel) (wordNp w && usesNp) (wordImm w &&& immUsed)])
    (hcount : wordCount j = 1) (h : checked w usesSel usesNp immUsed j = .ok i) :
    encode i = w :: payload ∧ wordCount i = 1 + announcedWords w := by
  obtain ⟨hfields, rfl⟩ := checked_eq_ok.mp h
  have hnone : announcedWords w = 0 := announcedWords_of_opc fun h12 => hn (by rw [← hopc, h12]; rfl)
  obtain rfl := List.length_eq_zero_iff.mp (hlen.trans hnone)
  rw [← hopc, BitVec.ofNat_toNat, BitVec.setWidth_eq, header_of_fields hfields] at hj
  exact ⟨hj, by rw [hcount, hnone]⟩

/-- A command that decodes is spelled by the words it was decoded from. -/
theorem encode_decodeCommand {w : Word} {payload : List Word} {i : Instr} (hlen : payload.length = announcedWords w)
    (h : decodeCommand w payload = .ok i) : encode i = w :: payload ∧ wordCount i = 1 + announcedWords w := by
  have hall : wordImm w &&& 0xFFFF = wordImm w := BitVec.and_allOnes
  have hzero : wordImm w &&& 0 = 0 := BitVec.and_zero
  unfold decodeCommand at h
  simp only at h
  split at h
  case h_9 hopc => exact encode_decodeBwrite (BitVec.eq_of_toNat_eq hopc) hlen h
  case h_18 => cases h
  all_goals
    next hopc =>
      refine encode_checked hlen hopc (by decide) ?_ rfl h
      simp only [encode, toBit_ofBit, setWidth_setWidth_element, Bool.and_true, Bool.and_false, hall, hzero]
      rfl

/-! ### The encoder's words decode (R61, R63) -/

/-- An element leaves the bits of `imm` that are not its own 0. -/
theorem element_and_unused (v : Byte) : v.setWidth 16 &&& 0xFF00#16 = 0#16 := by
  have hmask : 0xFF00#16 = 0xFF#8 ++ 0#8 := by decide
  have helement : v.setWidth 16 = 0#8 ++ v := by
    apply BitVec.eq_of_toNat_eq
    rw [BitVec.toNat_setWidth, BitVec.toNat_append]
    simp
    omega
  rw [helement, hmask, BitVec.and_append, BitVec.zero_and, BitVec.and_zero]
  rfl

/-- `SC.BWRITE`: a well-formed payload is packed into the words its header announces, and unpacked from them. -/
theorem decodeBwrite_encode {np : Bool} {len : Half} {bytes : List Byte} (h : (Instr.scBwrite np len bytes).Wf) :
    (packPayload bytes).length = announcedWords (header 0x12 false np len) ∧
      decodeBwrite (header 0x12 false np len) (packPayload bytes) = .ok (.scBwrite np len bytes) := by
  rw [announcedWords_header, decodeBwrite_eq_ok, header_eq_fieldsWord, fieldError_eq_none, packPayload_length,
    payloadLanes_packPayload]
  simp only [wordSel_fieldsWord, wordNp_fieldsWord, wordRsv_fieldsWord, wordImm_fieldsWord]
  cases np with
  | false =>
    have hlen := wf_scBwrite.mp h
    simp [payloadWordsOf, ← hlen]
  | true =>
    obtain rfl : bytes = [] := by simpa [Instr.Wf, Instr.wfError] using h
    simp

/-- The words of a well-formed command are its header and the words that header announces, and they decode to it. -/
theorem decodeCommand_encode {i : Instr} (h : i.Wf) :
    ∃ w payload, encode i = w :: payload ∧ payload.length = announcedWords w ∧ decodeCommand w payload = .ok i := by
  cases i
  case scBwrite np len bytes =>
    obtain ⟨hlen, hdecode⟩ := decodeBwrite_encode h
    refine ⟨_, _, rfl, hlen, ?_⟩
    rw [← hdecode]
    simp [decodeCommand, header_eq_fieldsWord]
  all_goals
    refine ⟨_, _, rfl, by simp [announcedWords_header], ?_⟩
    simp [decodeCommand, header_eq_fieldsWord, checked_eq_ok, fieldError_eq_none, element_and_unused]

end Sys2Proof.Machine

namespace Sys2Proof.Machine

/-- Settles O1: the encoder's words are a header and the words it announces, so whatever follows them is left over. -/
theorem wellFormedCommandDecodesBack : Obligations.WellFormedCommandDecodesBack := by
  intro i rest hwf
  obtain ⟨w, payload, hwords, hlen, hdecode⟩ := decodeCommand_encode hwf
  have hcount := (encode_decodeCommand hlen hdecode).2
  rw [hwords, hcount, List.cons_append]
  exact decode_of_ok (by rw [List.length_append]; omega) (by rw [List.take_left' hlen]; exact hdecode)

/-- Settles O2: each row's operands and padding lanes give the words back. -/
theorem legalWordsAreTheEncoding : Obligations.LegalWordsAreTheEncoding := by
  intro ws i n h
  refine ⟨decode_legal_wf h, ?_⟩
  cases ws with
  | nil => cases h
  | cons w rest =>
    obtain ⟨hlen, hdecode, rfl⟩ := decode_legal h
    obtain ⟨hwords, hcount⟩ := encode_decodeCommand (List.length_take_of_le hlen) hdecode
    exact ⟨hcount.symm, by rw [hwords, Nat.add_comm, List.take_succ_cons]⟩

/-- Settles O3: a word decodes to a command only if it has the fields of that command's row, and a row that covers a
word leaves nothing but its padding to be wrong. -/
theorem opcodeMapDecidesTheCommand : Obligations.OpcodeMapDecidesTheCommand := by
  refine fun w rest => ⟨fun i n h => ?_, fun r hr hcovers => ?_⟩
  · obtain ⟨-, hdecode, -⟩ := decode_legal h
    have hcovers := covers_rowOf.mpr (hasFields_of_decode hdecode)
    exact ⟨rowOf i, rowOf_mem i, hcovers, rfl, fun r' hr' h' => row_eq_of_covers hr' (rowOf_mem i) h' hcovers⟩
  · obtain ⟨i, rfl⟩ := exists_command_of_row hr
    have hcommand := decodeCommand_of_hasFields (rest.take (announcedWords w)) (covers_rowOf.mp hcovers)
    rcases decode_cases w rest with ⟨-, hd⟩ | ⟨-, ⟨j, hj, hd⟩ | ⟨e, he, hd⟩⟩
    · exact .inl hd
    · rw [hj] at hcommand
      obtain ⟨k, hk, hname⟩ := hcommand.resolve_right (by simp)
      cases hk
      exact .inr (.inl ⟨j, _, hd, hname⟩)
    · rw [he] at hcommand
      obtain ⟨hpad, -⟩ := hcommand.resolve_left (by simp)
      cases hpad
      exact .inr (.inr ⟨_, hd⟩)

/-- Settles O4: with its words arrived, a command decodes exactly if a row covers its header and no padding lane is
wrong. -/
theorem illegalExactlyWhenNoRowOrPadding : Obligations.IllegalExactlyWhenNoRowOrPadding := by
  intro w rest hlen
  rcases decode_cases w rest with ⟨hshort, -⟩ | ⟨-, ⟨i, hi, hd⟩ | ⟨e, he, hd⟩⟩
  · omega
  · refine ⟨iff_of_false (by rw [hd]; nofun) ?_, by rw [hd]; nofun⟩
    rintro (hnone | hpad)
    · have hcovers := covers_rowOf.mpr (hasFields_of_decode hi)
      rw [hnone _ (rowOf_mem i)] at hcovers
      cases hcovers
    · exact decodeCommand_ne_ok_of_padding hpad hi
  · refine ⟨iff_of_true ⟨e, _, hd⟩ ?_, fun e' n h => by rw [hd] at h; cases h; rfl⟩
    by_contra hneither
    obtain ⟨hrow, hpad⟩ := not_or.mp hneither
    obtain ⟨r, hr, hcovers⟩ : ∃ r ∈ opcodeTable, ¬ r.covers w = false := by simpa using hrow
    obtain ⟨i, rfl⟩ := exists_command_of_row hr
    rcases decodeCommand_of_hasFields (rest.take (announcedWords w))
      (covers_rowOf.mp (Bool.of_not_eq_false hcovers)) with ⟨j, hj, -⟩ | ⟨-, hbad⟩
    · rw [he] at hj; cases hj
    · exact hpad hbad

end Sys2Proof.Machine

namespace Sys2Proof.Machine

theorem decode_of_encode {i : Instr} {ws : List Word} (hwf : i.Wf) (h : encode i = ws) :
    decode ws = .legal i (wordCount i) := by
  have hback := wellFormedCommandDecodesBack i [] hwf
  rwa [List.append_nil, h] at hback

/-- Settles O5: each list is the encoder's spelling of its command. -/
theorem sampleWordsDecode : Obligations.SampleWordsDecode :=
  ⟨decode_of_encode rfl (by decide), decode_of_encode rfl (by decide), decode_of_encode rfl (by decide),
    decode_of_encode rfl (by decide), decode_of_encode rfl (by decide), decode_of_encode rfl (by decide),
    decode_of_encode rfl (by decide), decode_of_encode rfl (by decide), decode_of_encode rfl (by decide),
    decode_of_encode rfl (by decide), decode_of_encode rfl (by decide)⟩

/-! ### Element words (R61, R64) -/

/-- The bits of `imm` at and above the element width are those an element leaves 0. -/
theorem setWidth_and_shiftLeft {n : Nat} (v : BitVec n) : v.setWidth 16 &&& (0xFFFF : Half) <<< n = 0 := by
  ext i hi
  simp only [BitVec.getElem_and, BitVec.getElem_setWidth, BitVec.getElem_shiftLeft]
  by_cases h : i < n
  · simp [h]
  · simp [BitVec.getLsbD_of_ge v i (Nat.le_of_not_lt h)]

/-- The mask of `CB.WRITE` for a width is that of a row whose element takes the low `TW` bits of `imm`. -/
theorem cbWriteMask_eq (w : ElementWidth) : cbWriteMask w = rowMask true false (~~~((0xFFFF : Half) <<< w.bits)) := by
  have hrow : (0xFF7F0000 : Word) = fieldsWord 0xFF false true 0x3F 0 := by decide
  rw [cbWriteMask, hrow, rowMask, BitVec.not_not]
  apply BitVec.eq_of_getLsbD_eq
  intro i hi
  simp only [BitVec.getLsbD_or, fieldsWord_getLsbD, BitVec.getLsbD_setWidth]
  split_ifs with h16
  · simp [hi]
  all_goals rw [BitVec.getLsbD_of_ge _ i (Nat.le_of_not_lt h16)]; simp

theorem decodeElement_eq_ok {w : ElementWidth} {x : Word} {r : BufSel × BitVec w.bits} :
    decodeElement w x = .ok r ↔ HasFields x ⟨0x01, true, false, ~~~((0xFFFF : Half) <<< w.bits)⟩ ∧
      r = (BufSel.ofBit (wordSel x), (wordImm x).setWidth w.bits) := by
  unfold decodeElement HasFields
  split
  · next hopc => exact iff_of_false nofun fun h => hopc h.1.1
  · next hopc =>
    split
    · next e he => exact iff_of_false nofun fun h => by rw [h.1.2] at he; cases he
    · next hnone =>
      exact ⟨fun h => by cases h; exact ⟨⟨not_not.mp hopc, hnone⟩, rfl⟩, fun h => by rw [h.2]⟩

/-- Settles O6: the width's mask is that of a row which leaves the element's bits free, and an element has no others. -/
theorem elementWordsOfEveryWidth : Obligations.ElementWordsOfEveryWidth := by
  refine fun w => ⟨fun b v => ?_, fun x => ?_⟩
  · rw [decodeElement_eq_ok, HasFields, encodeElement, header_eq_fieldsWord, fieldError_eq_none]
    have himm := setWidth_and_shiftLeft v
    simpa [setWidth_response] using himm
  · have hpattern : (0x01000000 : Word) = rowPattern 0x01 := by decide
    rw [cbWriteMask_eq, hpattern, and_rowMask_eq_iff]
    exact ⟨fun ⟨r, hr⟩ => (decodeElement_eq_ok.mp hr).1, fun h => ⟨_, decodeElement_eq_ok.mpr ⟨h, rfl⟩⟩⟩

/-! ### The response word (R62, R65) -/

theorem rspWord_value (st : Status) (value : Half) : (rspWord st value).extractLsb' 0 16 = value :=
  BitVec.extractLsb'_append_eq_right

theorem rspWord_between (st : Status) (value : Half) : (rspWord st value).extractLsb' 16 12 = 0 :=
  (BitVec.extractLsb'_append_eq_of_le (by decide)).trans BitVec.extractLsb'_append_eq_right

theorem rspWord_status (st : Status) (value : Half) : (rspWord st value).extractLsb' 28 4 = st.code :=
  (BitVec.extractLsb'_append_eq_of_le (by decide)).trans BitVec.extractLsb'_append_eq_left

/-- Settles O7: the three fields are the parts the word is put together from, and the codes are those of R65. -/
theorem responseWordCarriesStatusAndValue : Obligations.ResponseWordCarriesStatusAndValue := by
  intro st value
  refine ⟨rspWord_between st value, rspWord_value st value, ?_⟩
  rw [rspWord_status]
  cases st <;> rfl

end Sys2Proof.Machine

namespace Sys2Proof.Machine

/-! ### A turn, unit by unit (`20_memory.md` R47) -/

section
variable {i : Instr} {unit : Port → Label → Locals → State → UnitResult} {p : Port} {more n : Nat} {l l' : Label}
  {x x' : Locals} {s t : State} {st : Status} {v : Half} {f : Fault}

theorem drive_of_retire (hu : unit p l x s = .retire st v t) :
    drive i unit p more l x s = .next (t.retire p (wordCount i) st v) := by
  cases more <;> simp only [drive, hu]

theorem drive_of_hold (hu : unit p l x s = .hold) : drive i unit p more l x s = .next (s.suspend p i l x) := by
  cases more <;> simp only [drive, hu]

theorem drive_of_fault (hu : unit p l x s = .fault f) : drive i unit p more l x s = .fault f := by
  cases more <;> simp only [drive, hu]

theorem drive_zero_of_goto (hu : unit p l x s = .goto l' x' t) :
    drive i unit p 0 l x s = .next (t.suspend p i l' x') := by
  simp only [drive, hu]

theorem drive_succ_of_goto (hu : unit p l x s = .goto l' x' t) :
    drive i unit p (more + 1) l x s = drive i unit p more l' x' t := by
  simp only [drive, hu]

/-- A long turn passes a unit that leaves its command in flight. -/
theorem drive_pos_of_goto (hmore : 0 < more) (hu : unit p l x s = .goto l' x' t) :
    drive i unit p more l x s = drive i unit p (more - 1) l' x' t := by
  obtain ⟨n, rfl⟩ := Nat.exists_eq_succ_of_ne_zero (Nat.pos_iff_ne_zero.mp hmore)
  exact drive_succ_of_goto hu

/-- A command in flight goes on at its unit. -/
theorem exec_busy (h : (s.port s.turn.port).infl = .busy ⟨i, l, x⟩) :
    exec i s = drive i (unitOf i) s.turn.port s.turn.more l x s := by
  rw [exec_eq_runCommand, runCommand_busy h]

theorem Fresh.mono (h : Fresh s p n) (hle : more ≤ n) : Fresh s p more := by
  obtain ⟨hport, hidle, hmore⟩ := h
  exact ⟨hport, hidle, Nat.le_trans hle hmore⟩

theorem AtUnit.exec (h : AtUnit s p i l x) : Machine.exec i s = drive i (unitOf i) p 0 l x s := by
  obtain ⟨hturn, hbusy⟩ := h
  rw [exec_busy (l := l) (x := x) (by rw [hturn]; exact hbusy), hturn]

theorem exec_atUnit_of_goto (h : AtUnit s p i l x) (hu : unitOf i p l x s = .goto l' x' t) :
    exec i s = .next (t.suspend p i l' x') := by
  rw [h.exec, drive_zero_of_goto hu]

theorem exec_atUnit_of_retire (h : AtUnit s p i l x) (hu : unitOf i p l x s = .retire st v t) :
    exec i s = .next (t.retire p (wordCount i) st v) := by
  rw [h.exec, drive_of_retire hu]

theorem exec_atUnit_of_fault (h : AtUnit s p i l x) (hu : unitOf i p l x s = .fault f) : exec i s = .fault f := by
  rw [h.exec, drive_of_fault hu]

/-- A command accepted for one unit that leaves it in flight. -/
theorem exec_accept_of_goto (hturn : s.turn = ⟨p, 0⟩) (hidle : (s.port p).infl = .idle)
    (hu : unitOf i p .u1 Locals.init s = .goto l x t) : exec i s = .next (t.suspend p i l x) := by
  rw [exec_fresh ⟨by rw [hturn], hidle, Nat.zero_le _⟩, hturn, drive_zero_of_goto hu]

/-- A command left in flight where it stood. -/
theorem suspend_self (h : (s.port p).infl = .busy ⟨i, l, x⟩) : s.suspend p i l x = s := by
  rw [State.suspend, ← h]
  cases p <;> rfl

/-- A wait whose level is false leaves the state as it is, however long the turn (`00_scope.md` R9). -/
theorem exec_busy_of_hold (h : (s.port s.turn.port).infl = .busy ⟨i, l, x⟩)
    (hu : unitOf i s.turn.port l x s = .hold) : exec i s = .next s := by
  rw [exec_busy h, drive_of_hold hu, suspend_self h]

theorem exec_busy_of_fault (h : (s.port s.turn.port).infl = .busy ⟨i, l, x⟩)
    (hu : unitOf i s.turn.port l x s = .fault f) : exec i s = .fault f := by
  rw [exec_busy h, drive_of_fault hu]

end

/-! ### The event of a port's turn -/

section
variable {s : State} {p : Port} {more : Nat} {rest : List Event}

/-- The state in which a turn's command runs: the event taken, the turn granted. -/
theorem step_run (h : s.script = .run p more :: rest) : step s = runPort p more { s with script := rest } := by
  rw [step, stepOnce, takeEvent_scripted s _ _ h, perform]

@[simp] theorem port_withScript (p' : Port) : ({ s with script := rest } : State).port p' = s.port p' := by
  cases p' <;> rfl

@[simp] theorem port_withTurn (τ : Turn) (p' : Port) : ({ s with turn := τ } : State).port p' = s.port p' := by
  cases p' <;> rfl

@[simp] theorem pending_withScript (p' : Port) : ({ s with script := rest } : State).pending p' = s.pending p' := by
  cases p' <;> rfl

theorem runPort_of_busy {c : InFlight} (h : (s.port p).infl = .busy c) :
    runPort p more s = exec c.cmd { s with turn := ⟨p, more⟩ } := by
  simp only [runPort, h]

theorem runPort_of_legal {i : Instr} {n : Nat} (h : (s.port p).infl = .idle) (hd : decode (s.pending p) = .legal i n) :
    runPort p more s = exec i { s with turn := ⟨p, more⟩ } := by
  simp only [runPort, h, hd]

theorem runPort_of_illegal {e : DecodeError} {n : Nat} (h : (s.port p).infl = .idle)
    (hd : decode (s.pending p) = .illegal e n) :
    runPort p more s = .next (illegalCommand p n { s with turn := ⟨p, more⟩ }) := by
  simp only [runPort, h, hd]

theorem runPort_of_starved (h : (s.port p).infl = .idle) (hd : decode (s.pending p) = .starved) :
    runPort p more s = .next { s with turn := ⟨p, more⟩ } := by
  simp only [runPort, h, hd]

end

/-- Settles O8: the step takes the event, and the port's turn runs what is in flight or what decodes. -/
theorem stepRunsTheDecodedCommand : Obligations.StepRunsTheDecodedCommand := by
  intro s p more rest hscript t
  rw [step_run hscript]
  refine ⟨fun i n hidle hd => ?legal, fun c hbusy => ?busy, fun hidle hd => ?starved⟩
  case legal => exact runPort_of_legal (by simpa using hidle) (by simpa using hd)
  case busy => exact runPort_of_busy (by simpa using hbusy)
  case starved => exact runPort_of_starved (by simpa using hidle) (by simpa using hd)

/-- Settles O9: the turn of an idle port whose next words are illegal only retires them. -/
theorem illegalCommandOnlyAnswers : Obligations.IllegalCommandOnlyAnswers := by
  intro s p more rest e n hscript hidle hd
  rw [step_run hscript, runPort_of_illegal (by simpa using hidle) (by simpa using hd)]
  cases p <;> simp only [port_fg, port_bh] at hidle <;>
    simp [illegalCommand, State.retire, State.setPort, State.port, ← hidle, rspWord, Status.code]

end Sys2Proof.Machine

namespace Sys2Proof.Machine

section
variable {p : Port} {l : Label} {x : Locals} {s : State} {b : BufSel} {v : Byte} {n : Half} {f : Fault}

/-! ### The transport write (`42_bottom_half_and_agents.md` R129) -/

/-- The state after a transport write by a ready port: the byte logged and traced, readiness drawn again. -/
def transmitted (p : Port) (v : Byte) (s : State) : State :=
  { (takeDraw s).2 with txReady := (takeDraw s).1, txLog := s.txLog ++ [v], trace := s.trace ++ [.twr p v] }

theorem transportWrite_of_ready (h : s.txReady = true) : transportWrite p v s = .ok (transmitted p v s) := by
  rw [transportWrite, if_pos h, transmitted]
  simp [State.note]

theorem transportWrite_of_unready (h : s.txReady = false) : transportWrite p v s = .error .transportNotReady := by
  rw [transportWrite, if_neg (by simp [h])]

/-- A transport write under a scripted draw (log 4). -/
theorem transmitted_of_draw {d : Bool} {ds : List Bool} (h : s.draws = d :: ds) :
    transmitted p v s =
      { s with txReady := d, draws := ds, txLog := s.txLog ++ [v], trace := s.trace ++ [.twr p v] } := by
  rw [transmitted, takeDraw_scripted s d ds h]

theorem takeDraw_free (h : s.draws = []) : takeDraw s = (Config.freeDraw s.tick, { s with tick := s.tick + 1 }) := by
  simp only [takeDraw, h]

/-! ### The channel's primitives, by what the buffer answers -/

theorem cbWrite_of {st : Status} {c : CBuf Byte} (h : (s.buf b).write s.par.sync (roleOf p b) v = .ok (st, c)) :
    cbWrite p b v s = .ok (st, s.setBuf b c) := by
  simp only [cbWrite, h]

theorem cbWrite_of_error (h : (s.buf b).write s.par.sync (roleOf p b) v = .error f) : cbWrite p b v s = .error f := by
  simp only [cbWrite, h]

theorem cbRead_of {r : Option Byte} {c : CBuf Byte} (h : (s.buf b).read s.par.sync (roleOf p b) = .ok (r, c)) :
    cbRead p b s = .ok (r, s.setBuf b c) := by
  simp only [cbRead, h]

theorem cbRead_of_error (h : (s.buf b).read s.par.sync (roleOf p b) = .error f) : cbRead p b s = .error f := by
  simp only [cbRead, h]

/-- An index in its window is refused, before the role is looked at (R79, R149). -/
theorem cbWrite_resizeRace (h : (s.buf b).rsz = true) : cbWrite p b v s = .error .resizeRace :=
  cbWrite_of_error (write_resizeRace h)

theorem cbRead_resizeRace (h : (s.buf b).rsz = true) : cbRead p b s = .error .resizeRace :=
  cbRead_of_error (read_resizeRace h)

theorem cbResizeOpen_resizeRace (h : (s.buf b).rsz = true) : cbResizeOpen b n s = .error .resizeRace := by
  simp [cbResizeOpen, CBuf.resizeOpen, h]

theorem cbResizeOpen_of (h : (s.buf b).rsz = false) (hn : n ≠ 0) :
    cbResizeOpen b n s = .ok (.ok, s.setBuf b { s.buf b with rsz := true }) := by
  simp only [cbResizeOpen, resizeOpen_opens h hn]

theorem cbResizeCopy_of {k : Nat} {c : CBuf Byte} (h : (s.buf b).resizeCopy n = .ok (k, c)) :
    cbResizeCopy b n s = .ok (k, s.setBuf b c) := by
  simp only [cbResizeCopy, h]

theorem query_resizeRace {α β : Type} {c : CBuf α} {a : β} (h : c.rsz = true) : c.query a = .error .resizeRace := by
  simp [CBuf.query, h]

theorem query_of {α β : Type} {c : CBuf α} {a : β} (h : c.rsz = false) : c.query a = .ok a := by
  simp [CBuf.query, h]

theorem attempt_of_ok {α : Type} {r : Except Fault α} {a : α} {k : α → UnitResult} (h : r = .ok a) :
    attempt r k = k a := by rw [h]; rfl

theorem attempt_of_error {α : Type} {r : Except Fault α} {k : α → UnitResult} (h : r = .error f) :
    attempt r k = .fault f := by rw [h]; rfl

theorem waitUntil_of_true {ready : Bool} (h : ready = true) : waitUntil ready l x s = .goto l x s := if_pos h

theorem waitUntil_of_false {ready : Bool} (h : ready = false) : waitUntil ready l x s = .hold := if_neg (by simp [h])

theorem dataAvailable_of_cons {rest : List Byte} (h : s.rxq = v :: rest) : dataAvailable s = true := by
  simp [h]

theorem dataAvailable_of_nil (h : s.rxq = []) : dataAvailable s = false := by simp [dataAvailable, h]

/-! ### The units of the transport commands (`41_serial_channel.md` R100 to R102) -/

theorem unitScBrdb_read {rest : List Byte} (h : s.rxq = v :: rest) :
    unitOf .scBrdb p .u2 x s =
      .retire .ok (v.setWidth 16) { s with rxq := rest, trace := s.trace ++ [.trd p v] } :=
  attempt_of_ok (transportRead_of_cons h)

theorem unitScBrdb_unready (h : s.rxq = []) : unitOf .scBrdb p .u2 x s = .fault .transportNotReady :=
  attempt_of_error (transportRead_of_nil h)

theorem unitScBwrb_write (h : s.txReady = true) : unitOf (.scBwrb v) p .u2 x s = .retire .ok 0 (transmitted p v s) :=
  attempt_of_ok (transportWrite_of_ready h)

theorem unitScBwrb_unready (h : s.txReady = false) : unitOf (.scBwrb v) p .u2 x s = .fault .transportNotReady :=
  attempt_of_error (transportWrite_of_unready h)

section
variable {np : Bool} {len : Half} {bytes : List Byte}

theorem unitScBwrite_reject (h : np = true ∨ len = 0) :
    unitOf (.scBwrite np len bytes) p .u1 x s = .retire .dataError 0 { s with fault := .dataError } := by
  rw [unitOf, unitScBwrite, if_pos h, raise]

theorem unitScBwrite_start (hlen : len ≠ 0) :
    unitOf (.scBwrite false len bytes) p .u1 x s = .goto .u2 { x with k := 0 } s := by
  rw [unitOf, unitScBwrite, if_neg (by simpa using hlen)]

theorem unitScBwrite_ready (h : s.txReady = true) : unitOf (.scBwrite np len bytes) p .u2 x s = .goto .u3 x s :=
  waitUntil_of_true h

theorem unitScBwrite_hold (h : s.txReady = false) : unitOf (.scBwrite np len bytes) p .u2 x s = .hold :=
  waitUntil_of_false h

theorem unitScBwrite_write (hv : bytes[x.k]? = some v) (h : s.txReady = true) :
    unitOf (.scBwrite np len bytes) p .u3 x s =
      .goto (if x.k + 1 < len.toNat then .u2 else .u4) { x with k := x.k + 1 } (transmitted p v s) := by
  simp only [unitOf, unitScBwrite, hv, attempt_of_ok (transportWrite_of_ready h)]

theorem unitScBwrite_unready (hv : bytes[x.k]? = some v) (h : s.txReady = false) :
    unitOf (.scBwrite np len bytes) p .u3 x s = .fault .transportNotReady := by
  simp only [unitOf, unitScBwrite, hv, attempt_of_error (transportWrite_of_unready h)]

end

/-! ### The units of `SC.BHALF` (`42_bottom_half_and_agents.md` R120) -/

theorem unitScBhalf_u1 :
    unitOf .scBhalf .bh .u1 x s = .goto (if s.rxArm = true ∧ s.rxq ≠ [] then .u2 else .u5) x s := by
  simp [unitOf, unitScBhalf]

theorem unitScBhalf_u2 {rest : List Byte} (h : s.rxq = v :: rest) :
    unitOf .scBhalf p .u2 x s =
      .goto .u3 { x with v := v } { s with rxq := rest, trace := s.trace ++ [.trd p v] } :=
  attempt_of_ok (transportRead_of_cons h)

theorem unitScBhalf_u2_unready (h : s.rxq = []) : unitOf .scBhalf p .u2 x s = .fault .transportNotReady :=
  attempt_of_error (transportRead_of_nil h)

/-- The bottom-half's write to `IN`, whose status the handler drops (corner case a). -/
theorem cbWrite_absorb (hrsz : s.inb.rsz = false) (hwr : s.inb.wr.toNat < s.inb.cap.toNat) :
    ∃ st, cbWrite .bh .inbound v s = .ok (st, { s with inb := absorb s.par.sync s.inb v }) := by
  unfold absorb
  split
  · next hfull =>
    have hwrite := (write_full_iff (sync := s.par.sync) (v := v) hrsz).mpr hfull
    exact ⟨_, cbWrite_of hwrite⟩
  · next hfull => exact ⟨_, cbWrite_of (write_accepts hrsz hwr hfull)⟩

theorem unitScBhalf_u3 (hrsz : s.inb.rsz = false) (hwr : s.inb.wr.toNat < s.inb.cap.toNat) :
    unitOf .scBhalf p .u3 x s = .goto .u4 x { s with inb := absorb s.par.sync s.inb x.v } := by
  obtain ⟨st, hst⟩ := cbWrite_absorb (v := x.v) hrsz hwr
  exact attempt_of_ok hst

theorem unitScBhalf_u4 : unitOf .scBhalf p .u4 x s = .goto (if s.rxq ≠ [] then .u2 else .u5) x s := by
  simp [unitOf, unitScBhalf]

theorem unitScBhalf_u5_armed (h : s.txArm = true) : unitOf .scBhalf p .u5 x s = .goto .u6 x s := if_pos h

theorem unitScBhalf_u5_disarmed (h : s.txArm = false) : unitOf .scBhalf p .u5 x s = .retire .ok 0 s :=
  if_neg (by simp [h])

theorem unitScBhalf_u6_empty (hrsz : s.outb.rsz = false) (h : s.outb.wrv = s.outb.rd) :
    unitOf .scBhalf p .u6 x s = .goto .u8 x s :=
  attempt_of_ok (cbRead_of (p := .bh) (b := .outbound) ((read_empty_iff (sync := s.par.sync) hrsz).mpr h))

theorem unitScBhalf_u6_taken (hrsz : s.outb.rsz = false) (h : s.outb.wrv ≠ s.outb.rd)
    (hrd : s.outb.rd.toNat < s.outb.cap.toNat) (hv : memGet s.outb.mem s.outb.rd.toNat = some v) :
    unitOf .scBhalf p .u6 x s =
      .goto (if s.par.backend = .register then .u7 else .u7a) { x with v := v }
        { s with outb := taken s.par.sync s.outb } := by
  have hread := cbRead_of (p := .bh) (b := .outbound) (read_takes (sync := s.par.sync) hrsz h hrd hv)
  rw [unitOf, unitScBhalf, attempt_of_ok hread]
  cases hback : s.par.backend <;> simp <;> rfl

theorem unitScBhalf_write (hl : l = .u7 ∨ l = .u7b) (h : s.txReady = true) :
    unitOf .scBhalf p l x s = .retire .ok 0 (transmitted p x.v s) := by
  rcases hl with rfl | rfl <;> exact attempt_of_ok (transportWrite_of_ready h)

theorem unitScBhalf_write_unready (hl : l = .u7 ∨ l = .u7b) (h : s.txReady = false) :
    unitOf .scBhalf p l x s = .fault .transportNotReady := by
  rcases hl with rfl | rfl <;> exact attempt_of_error (transportWrite_of_unready h)

theorem unitScBhalf_u7a (h : s.txReady = true) : unitOf .scBhalf p .u7a x s = .goto .u7b x s := waitUntil_of_true h

theorem unitScBhalf_u7a_hold (h : s.txReady = false) : unitOf .scBhalf p .u7a x s = .hold := waitUntil_of_false h

end

end Sys2Proof.Machine

namespace Sys2Proof.Machine

section
variable {i : Instr} {p : Port} {l l' : Label} {x x' : Locals} {s t t' : State} {st : Status} {v : Half} {n : Nat}

/-- A turn long enough for one unit more. -/
theorem exec_fresh_goto (h : Fresh s p (n + 1)) (hu : unitOf i p .u1 Locals.init s = .goto l x t) :
    exec i s = drive i (unitOf i) p (s.turn.more - 1) l x t := by
  have ⟨_, _, hmore⟩ := h
  rw [exec_fresh (h.mono (Nat.zero_le _)), drive_pos_of_goto (by omega) hu]

/-- A command of two units, run whole. -/
theorem exec_two_units (h : Fresh s p 1) (hu : unitOf i p .u1 Locals.init s = .goto l x t)
    (hu' : unitOf i p l x t = .retire st v t') : exec i s = .next (t'.retire p (wordCount i) st v) := by
  rw [exec_fresh_goto h hu, drive_of_retire hu']

end

/-- Settles O28: u1 passes when there is data, and u2 reads it; without data u1 holds. -/
theorem scBrdbReadsTheTransport : Obligations.ScBrdbReadsTheTransport := by
  refine fun s p hfresh => ⟨fun v rest hrxq => ?_, fun hrxq => ?_⟩
  · exact exec_two_units hfresh (waitUntil_of_true (dataAvailable_of_cons hrxq)) (unitScBrdb_read hrxq)
  · rw [exec_fresh (hfresh.mono (Nat.zero_le _))]
    exact drive_of_hold (waitUntil_of_false (dataAvailable_of_nil hrxq))

/-- Settles O29: u1 passes when the transport is ready, and u2 writes the byte; unready, u1 holds. -/
theorem scBwrbWritesTheTransport : Obligations.ScBwrbWritesTheTransport := by
  refine fun v s p hfresh => ⟨fun hready => ?_, fun hready => ?_⟩
  · exact exec_two_units hfresh (waitUntil_of_true hready) (unitScBwrb_write hready)
  · rw [exec_fresh (hfresh.mono (Nat.zero_le _))]
    exact drive_of_hold (waitUntil_of_false hready)

/-- Settles O30: the first unit rejects the operand and ends the command. -/
theorem scBwriteRejectsAnEmptyPayload : Obligations.ScBwriteRejectsAnEmptyPayload :=
  fun _ _ _ _ _ hfresh h => exec_of_retire hfresh (unitScBwrite_reject h)

/-- Settles O32: a wait with its level false holds, and a transfer without readiness is the transport's fault. -/
theorem holdsChangeNothingAndUnreadyTransfersFault : Obligations.HoldsChangeNothingAndUnreadyTransfersFault := by
  refine fun s x => ⟨fun hrxq => ⟨?brdbWait, ?brdbRead, ?bhalfRead⟩,
    fun hready => ⟨?bwrbWait, ?bwrbWrite, ?bwriteWait, ?bwriteWrite, ?bhalfWait⟩⟩
  case brdbWait => exact fun h => exec_busy_of_hold h (waitUntil_of_false (dataAvailable_of_nil hrxq))
  case brdbRead => exact fun h => exec_busy_of_fault h (unitScBrdb_unready hrxq)
  case bhalfRead => exact fun h => exec_busy_of_fault h (unitScBhalf_u2_unready hrxq)
  case bwrbWait => exact fun v h => exec_busy_of_hold h (waitUntil_of_false hready)
  case bwrbWrite => exact fun v h => exec_busy_of_fault h (unitScBwrb_unready hready)
  case bwriteWait => exact fun np len bytes h => exec_busy_of_hold h (unitScBwrite_hold hready)
  case bwriteWrite =>
    exact fun np len bytes hk h =>
      exec_busy_of_fault h (unitScBwrite_unready (List.getElem?_eq_getElem hk) hready)
  case bhalfWait => exact fun h => exec_busy_of_hold h (unitScBhalf_u7a_hold hready)

/-- Settles O17: the window is the first check of every primitive, so the unit that calls one faults. -/
theorem primitiveInAResizeWindowFaults : Obligations.PrimitiveInAResizeWindowFaults := by
  intro b s hrsz
  refine ⟨fun hidle => ?first, ?receive, ?transmit, ?resizeIn, ?resizeOut⟩
  case first =>
    have hfresh : Fresh s s.turn.port 0 := ⟨rfl, hidle, Nat.zero_le _⟩
    refine ⟨fun v => exec_of_fault hfresh (attempt_of_error (cbWrite_resizeRace hrsz)),
      exec_of_fault hfresh (attempt_of_error (cbRead_resizeRace hrsz)),
      fun n => exec_of_fault hfresh (attempt_of_error (cbResizeOpen_resizeRace hrsz)),
      exec_of_fault hfresh (attempt_of_error (query_resizeRace hrsz)),
      exec_of_fault hfresh (attempt_of_error (query_resizeRace hrsz)),
      exec_of_fault hfresh (attempt_of_error (query_resizeRace hrsz)), fun hport hb v => ?_, fun hport hb => ?_⟩
    all_goals
      rw [hport] at hfresh
      subst hb
    · exact exec_of_fault hfresh (attempt_of_error (cbWrite_resizeRace hrsz))
    · exact exec_of_fault hfresh (attempt_of_error (cbRead_resizeRace hrsz))
  case receive =>
    rintro x rfl h
    exact exec_busy_of_fault h (attempt_of_error (cbWrite_resizeRace hrsz))
  case transmit =>
    rintro x rfl h
    exact exec_busy_of_fault h (attempt_of_error (cbRead_resizeRace hrsz))
  case resizeIn =>
    rintro n x rfl h
    exact exec_busy_of_fault h (attempt_of_error (cbResizeOpen_resizeRace hrsz))
  case resizeOut =>
    rintro n x rfl h
    exact exec_busy_of_fault h (attempt_of_error (cbResizeOpen_resizeRace hrsz))

/-- Settles O33: u1 writes `OUT` and keeps the status, u2 sets the flag, u3 enables the event and answers the status. -/
theorem scEnqQueuesAndArms : Obligations.ScEnqQueuesAndArms := by
  intro v s hfresh hrsz hwr c
  have ⟨_, _, hmore⟩ := hfresh
  have hrun {st : Status} {d : CBuf Byte} (hw : s.outb.write s.par.sync .producer v = .ok (st, d)) :
      exec (.scEnq v) s = .next (({ s with
        outb := d, txArm := true, evTx := true, trace := s.trace ++ [.enTx .fg] } : State).retire .fg 1 st 0) := by
    have hu : unitOf (.scEnq v) .fg .u1 Locals.init s = .goto .u2 { Locals.init with r := st } (s.setBuf .outbound d) :=
      attempt_of_ok (cbWrite_of (p := .fg) (b := .outbound) hw)
    rw [exec_fresh_goto hfresh hu, drive_pos_of_goto (by omega) rfl]
    exact drive_of_retire rfl
  split
  · next hfull => exact hrun ((write_full_iff hrsz).mpr hfull)
  · next hfull => exact hrun (write_accepts hrsz hwr hfull)

/-- Settles O34: the command is its one unit, a read of `IN`. -/
theorem scDeqTakesTheOldestOrReportsEmpty : Obligations.ScDeqTakesTheOldestOrReportsEmpty := by
  intro s hfresh hrsz c
  refine ⟨fun hempty => ?_, fun v hseen hrd hv => ?_⟩
  · exact exec_of_retire hfresh
      (attempt_of_ok (cbRead_of (p := .fg) (b := .inbound) ((read_empty_iff (sync := s.par.sync) hrsz).mpr hempty)))
  · exact exec_of_retire hfresh
      (attempt_of_ok (cbRead_of (p := .fg) (b := .inbound) (read_takes (sync := s.par.sync) hrsz hseen hrd hv)))

/-- Settles O36: two units each, the flag and then the platform action. -/
theorem armingCommandsWriteFlagThenEvent : Obligations.ArmingCommandsWriteFlagThenEvent := by
  intro s p hfresh
  have ⟨hport, hidle, _⟩ := hfresh
  have hone (hmore : s.turn.more = 0) : s.turn = ⟨p, 0⟩ := by rw [← hport, ← hmore]
  have htwo (hmore : 1 ≤ s.turn.more) : Fresh s p 1 := ⟨hport, hidle, hmore⟩
  exact ⟨fun h => exec_accept_of_goto (hone h) hidle rfl, fun h => exec_two_units (htwo h) rfl rfl,
    fun h => exec_accept_of_goto (hone h) hidle rfl, fun h => exec_two_units (htwo h) rfl rfl,
    fun h => exec_accept_of_goto (hone h) hidle rfl, fun h => exec_two_units (htwo h) rfl rfl⟩

/-- Settles O37: the units from the flag on, each by its definition. -/
theorem flagFirstThenPlatformAction : Obligations.FlagFirstThenPlatformAction :=
  fun _ _ _ => ⟨fun _ h => exec_atUnit_of_goto h rfl, fun _ h => exec_atUnit_of_retire h rfl,
    fun h => exec_atUnit_of_retire h rfl, fun h => exec_atUnit_of_retire h rfl, fun h => exec_atUnit_of_goto h rfl,
    fun h => exec_atUnit_of_retire h rfl⟩

/-- Settles O41: the units u1 to u4 of the handler, each by its equation. -/
theorem bhalfReceiveUnits : Obligations.BhalfReceiveUnits :=
  fun _ _ => ⟨fun hturn hidle => exec_accept_of_goto hturn hidle unitScBhalf_u1,
    fun _ _ h hrxq => exec_atUnit_of_goto h (unitScBhalf_u2 hrxq),
    fun h hrsz hwr => exec_atUnit_of_goto h (unitScBhalf_u3 hrsz hwr), fun h => exec_atUnit_of_goto h unitScBhalf_u4⟩

/-- Settles O42: the units u5 to u7b of the handler, each by its equation. -/
theorem bhalfTransmitUnits : Obligations.BhalfTransmitUnits := by
  refine fun s x => ⟨fun h => ?_, fun h hrsz hempty => exec_atUnit_of_goto h (unitScBhalf_u6_empty hrsz hempty),
    fun v h hrsz hseen hrd hv => exec_atUnit_of_goto h (unitScBhalf_u6_taken hrsz hseen hrd hv),
    fun l hl h => ⟨fun hready => exec_atUnit_of_retire h (unitScBhalf_write hl hready),
      fun hready => exec_atUnit_of_fault h (unitScBhalf_write_unready hl hready)⟩,
    fun h hready => exec_atUnit_of_goto h (unitScBhalf_u7a hready)⟩
  split
  · next harmed => exact exec_atUnit_of_goto h (unitScBhalf_u5_armed harmed)
  · next harmed => exact exec_atUnit_of_retire h (unitScBhalf_u5_disarmed (by simpa using harmed))

section
variable {s : State} {x : Locals} {more : Nat}

/-! ### The transmit step of `SC.BHALF` run whole (R120, u5 on) -/

/-- The draw does not look at `OUT`. -/
theorem transmitted_withOutb (p : Port) (v : Byte) (c : CBuf Byte) :
    transmitted p v { s with outb := c } = { transmitted p v s with outb := c } := by
  unfold transmitted takeDraw
  cases s.draws <;> rfl

/-- Disarmed, the transmit step only retires. -/
theorem drive_u5_disarmed (h : s.txArm = false) :
    drive .scBhalf (unitOf .scBhalf) .bh more .u5 x s = .next (s.retire .bh 1 .ok 0) :=
  drive_of_retire (unitScBhalf_u5_disarmed h)

/-- Armed with no byte in sight, it disarms. -/
theorem drive_u5_empty (hmore : 3 ≤ more) (harm : s.txArm = true) (hrsz : s.outb.rsz = false)
    (hempty : s.outb.wrv = s.outb.rd) :
    drive .scBhalf (unitOf .scBhalf) .bh more .u5 x s =
      .next
        (({ s with txArm := false, evTx := false, trace := s.trace ++ [.disTx .bh] } : State).retire .bh 1 .ok 0) := by
  rw [drive_pos_of_goto (by omega) (unitScBhalf_u5_armed harm),
    drive_pos_of_goto (by omega) (unitScBhalf_u6_empty hrsz hempty), drive_pos_of_goto (by omega) rfl]
  exact drive_of_retire rfl

/-- Armed with a byte in sight and the transport ready, it takes the byte and writes it, under either `BACKEND`. -/
theorem drive_u5_send {v : Byte} (hmore : 3 ≤ more) (harm : s.txArm = true) (hrsz : s.outb.rsz = false)
    (hseen : s.outb.wrv ≠ s.outb.rd) (hrd : s.outb.rd.toNat < s.outb.cap.toNat)
    (hv : memGet s.outb.mem s.outb.rd.toNat = some v) (hready : s.txReady = true) :
    drive .scBhalf (unitOf .scBhalf) .bh more .u5 x s =
      .next (({ transmitted .bh v s with outb := taken s.par.sync s.outb } : State).retire .bh 1 .ok 0) := by
  rw [drive_pos_of_goto (by omega) (unitScBhalf_u5_armed harm),
    drive_pos_of_goto (by omega) (unitScBhalf_u6_taken hrsz hseen hrd hv), ← transmitted_withOutb]
  split
  · exact drive_of_retire (unitScBhalf_write (.inl rfl) hready)
  · rw [drive_pos_of_goto (by omega) (unitScBhalf_u7a (s := { s with outb := taken s.par.sync s.outb }) hready)]
    exact drive_of_retire (unitScBhalf_write (.inr rfl) hready)

/-- With the receive gate closed the handler goes to its transmit step. -/
theorem exec_scBhalf_closed {n : Nat} (h : Fresh s .bh (n + 1)) (hclosed : s.rxArm = false ∨ s.rxq = []) :
    exec .scBhalf s = drive .scBhalf (unitOf .scBhalf) .bh (s.turn.more - 1) .u5 Locals.init s := by
  have hgate : ¬ (s.rxArm = true ∧ s.rxq ≠ []) := by rcases hclosed with h | h <;> simp [h]
  have hu := unitScBhalf_u1 (x := Locals.init) (s := s)
  rw [if_neg hgate] at hu
  exact exec_fresh_goto h hu

end

/-- Settles O44: past the closed gate the transmit step does one of three things. -/
theorem bhalfSendsOneByteOrDisarms : Obligations.BhalfSendsOneByteOrDisarms := by
  intro s hfresh hclosed
  have ⟨_, _, hmore⟩ := hfresh
  rw [exec_scBhalf_closed hfresh hclosed]
  exact ⟨drive_u5_disarmed, drive_u5_empty (by omega), fun v => drive_u5_send (by omega)⟩

/-- Settles O45: the disarming outcome, with both events off and `OUT` not touched. -/
theorem laggingViewDisarmsWithBytesQueued : Obligations.LaggingViewDisarmsWithBytesQueued := by
  intro s hfresh hrx hevRx harm hrsz hempty hcount
  refine ⟨_, (bhalfSendsOneByteOrDisarms s hfresh (.inl hrx)).2.1 harm hrsz hempty, rfl, rfl, ?_, rfl, hcount, rfl⟩
  simp [irq, hevRx]

/-! ### The transport write, `SYNC` and `ENV` (R123 to R129, R133) -/

/-- Settles O52: the two lists of draws, and the fault without readiness. -/
theorem transportWriteDrawsReadiness : Obligations.TransportWriteDrawsReadiness := by
  refine fun p v s => ⟨fun hready d ds hdraws => ?_, fun hready hdraws => ⟨Config.freeDraw s.tick, ?_⟩,
    transportWrite_of_unready⟩
  · rw [transportWrite_of_ready hready, transmitted_of_draw hdraws]
  · rw [transportWrite_of_ready hready, transmitted, takeDraw_free hdraws]

theorem mayMoveWrv_iff {α : Type} {c : CBuf α} {y : Half} :
    c.mayMoveWrv y = true ↔ y.toNat < c.cap.toNat ∧ occ c.wrv y c.cap ≤ occ c.wrv c.wr c.cap := by
  simp [CBuf.mayMoveWrv]

theorem mayMoveRdv_iff {α : Type} {c : CBuf α} {y : Half} :
    c.mayMoveRdv y = true ↔ y.toNat < c.cap.toNat ∧ occ c.rdv y c.cap ≤ occ c.rdv c.rd c.cap := by
  simp [CBuf.mayMoveRdv]

theorem step_scripted {s : State} {e : Event} {rest : List Event} (h : s.script = e :: rest) :
    step s = perform e { s with script := rest } := by
  rw [step, stepOnce, takeEvent_scripted s _ _ h]

@[simp] theorem buf_withScript {s : State} {rest : List Event} (b : BufSel) :
    ({ s with script := rest } : State).buf b = s.buf b := by cases b <;> rfl

/-- Settles O53: each event is its own step, and the guards of the views are those of R123 and R124. -/
theorem synchronizerAndEnvironmentSteps : Obligations.SynchronizerAndEnvironmentSteps := by
  intro s rest t
  refine ⟨fun b y => ⟨fun h => ?syncW, fun h => ?syncR⟩, fun v h => step_scripted h, fun h => step_scripted h,
    fun p w h => ?present⟩
  case syncW =>
    simp only [step_scripted h, perform, syncWStep, buf_withScript, mayMoveWrv_iff]
    rfl
  case syncR =>
    simp only [step_scripted h, perform, syncRStep, buf_withScript, mayMoveRdv_iff]
    rfl
  case present =>
    rw [step_scripted h, perform, presentStep, port_withScript]

/-! ### Construction (R32, R33) -/

theorem BufInv.init {α : Type} (sync : Sync) {n : Half} (hn : n ≠ 0) : BufInv sync (CBuf.init α n) := by
  have hpos : 0 < n.toNat := Nat.pos_of_ne_zero fun h0 => hn (BitVec.eq_of_toNat_eq h0)
  have hcount : (CBuf.init α n).count = 0 := occ_self 0 n
  refine ⟨⟨hpos, hpos, hpos, hpos, hpos⟩, ?_, ⟨rfl, by simp [CBuf.init], by simp [hcount]⟩, fun _ => ⟨rfl, rfl⟩⟩
  simp [RingOrder, CBuf.init]

theorem inv_init (par : Params) {n : Half} (rxq : List Byte) (rdy : Bool) (hn : n ≠ 0) :
    Inv (State.init par n rxq rdy) :=
  ⟨BufInv.init _ hn, BufInv.init _ hn, rfl, rfl, ⟨rfl, rfl⟩, ⟨rfl, rfl⟩, rfl⟩

/-- Settles O57: both buffers are empty, both ports idle and the transport log and trace empty. -/
theorem constructionMeetsTheInvariant : Obligations.ConstructionMeetsTheInvariant := by
  refine ⟨inv_init _ _ _ (by decide), fun par n rxq rdy => inv_init par rxq rdy, fun w sync n c h => ?_⟩
  obtain ⟨hn, rfl⟩ := construct_ok h
  exact ⟨BufInv.init sync hn, rfl, rfl⟩

/-! ### The queries (`40_circular_buffer.md` R83 to R85) -/

/-- Settles O16: each query is one unit that answers from the two indices its side sees. -/
theorem queriesAnswerWhatTheirSideSees : Obligations.QueriesAnswerWhatTheirSideSees := by
  intro b s p r w hfresh hrsz hproducer hconsumer
  have hseen : seenRead (roleOf p b) (s.buf b) = r ∧ seenWrite (roleOf p b) (s.buf b) = w := by
    cases hrole : roleOf p b with
    | producer => obtain ⟨rfl, rfl⟩ := hproducer hrole; exact ⟨rfl, rfl⟩
    | consumer => obtain ⟨rfl, rfl⟩ := hconsumer hrole; exact ⟨rfl, rfl⟩
  obtain ⟨hr, hw⟩ := hseen
  have hempty : boolValue ((s.buf b).isEmptyFor (roleOf p b)) = if w = r then 1 else 0 := by
    simp [boolValue, CBuf.isEmptyFor, hr, hw]
  have hfull : boolValue ((s.buf b).isFullFor (roleOf p b)) = if inc w (s.buf b).cap = r then 1 else 0 := by
    simp [boolValue, CBuf.isFullFor, hr, hw]
  have hcount : (s.buf b).countFor (roleOf p b) = occ r w (s.buf b).cap := by simp [CBuf.countFor, hr, hw]
  rw [← hempty, ← hfull, ← hcount]
  exact ⟨exec_of_retire hfresh (attempt_of_ok (query_of hrsz)), exec_of_retire hfresh (attempt_of_ok (query_of hrsz)),
    exec_of_retire hfresh (attempt_of_ok (query_of hrsz))⟩

/-- Settles O20: the queue lies between the two counts, which add the slots a view has not caught up with (R17). -/
theorem producerCountsHighConsumerLow : Obligations.ProducerCountsHighConsumerLow := by
  intro c hin hring
  have hqueue := RingOrder.count_eq hin hring
  have hview := RingOrder.occ_rdv_wr_eq_count hin hring
  have hproducer : c.countFor .producer = occ c.rdv c.wr c.cap := rfl
  have hconsumer : c.countFor .consumer = occ c.rd c.wrv c.cap := rfl
  omega

end Sys2Proof.Machine

namespace Sys2Proof.Machine

@[simp] theorem setBuf_setBuf (s : State) (b : BufSel) (c d : CBuf Byte) : 
    (s.setBuf b c).setBuf b d = s.setBuf b d := by
  cases b <;> rfl

/-- A storage list whose slots all lie below `k` holds no value from slot `k` on. -/
theorem memGet_eq_none {α : Type} {m : List (Nat × α)} {k i : Nat} (h : ∀ e ∈ m, e.1 < k) (hi : k ≤ i) :
    memGet m i = none := by
  induction m with
  | nil => rfl
  | cons e rest ih =>
    obtain ⟨he, hrest⟩ := List.forall_mem_cons.mp h
    obtain ⟨j, v⟩ := e
    rw [memGet, if_neg (Nat.ne_of_gt (Nat.lt_of_lt_of_le he hi)), ih hrest]

section
variable {α : Type} {sync : Sync} {c d : CBuf α} {n : Half} {k : Nat}

/-- The copy of a resize, with every slot of the new storage said (R82). -/
theorem resizeCopy_eq (h : c.resizeCopy n = .ok (k, d)) :
    k = c.count - min c.count (n.toNat - 1) ∧
      d = ⟨n, BitVec.ofNat 16 (min c.count (n.toNat - 1)), 0, BitVec.ofNat 16 (min c.count (n.toNat - 1)), 0, d.mem,
        false⟩ ∧
      memWf d.mem = true ∧ ∀ i, memGet d.mem i =
        if i < min c.count (n.toNat - 1) then memGet c.mem ((c.rd.toNat + k + i) % c.cap.toNat) else none := by
  obtain ⟨hk, hcap, hrd, hrdv, hwr, hwrv, hrsz, hwf, -, hslots, hcopied⟩ := resizeCopy_ok h
  refine ⟨hk, ?_, hwf, fun i => ?_⟩
  · obtain ⟨cap, wr, rd, wrv, rdv, mem, rsz⟩ := d
    simp only at hcap hrd hrdv hwr hwrv hrsz
    rw [hcap, hrd, hrdv, hwrv, hwr, hrsz]
  · split
    · next hi => exact (hcopied i hi).1
    · next hi => exact memGet_eq_none hslots (Nat.le_of_not_lt hi)

end

section
variable {s : State} {p : Port} {b : BufSel} {n : Half} {x : Locals}

/-! ### The units of the resizing commands (R82, R105) -/

theorem unitCbResize_zero (hrsz : (s.buf b).rsz = false) :
    unitOf (.cbResize b 0) p .u1 x s = .retire .invalidCapacity 0 s := by
  simp [unitOf, unitCbResize, cbResizeOpen, CBuf.resizeOpen, hrsz, attempt, raise]

theorem unitCbResize_open (hrsz : (s.buf b).rsz = false) (hn : n ≠ 0) :
    unitOf (.cbResize b n) p .u1 x s = .goto .u2 x (s.setBuf b { s.buf b with rsz := true }) :=
  attempt_of_ok (cbResizeOpen_of hrsz hn)

theorem unitCbResize_copy {k : Nat} {c : CBuf Byte} (h : (s.buf b).resizeCopy n = .ok (k, c)) :
    unitOf (.cbResize b n) p .u2 x s =
      .retire (if k = 0 then .ok else .truncated) (BitVec.ofNat 16 k) (s.setBuf b c) := by
  rw [unitOf, unitCbResize, attempt_of_ok (cbResizeCopy_of h)]
  dsimp only
  split
  · next hk => rw [hk]; rfl
  · rfl

theorem unitScResize_zero : unitOf (.scResize 0) p .u1 x s = .retire .invalidCapacity 0 s := rfl

theorem unitScResize_start (hn : n ≠ 0) : unitOf (.scResize n) p .u1 x s = .goto .u2 x s := if_neg hn

theorem unitScResize_openIn (hrsz : s.inb.rsz = false) (hn : n ≠ 0) :
    unitOf (.scResize n) p .u2 x s = .goto .u3 x { s with inb := { s.inb with rsz := true } } :=
  attempt_of_ok (cbResizeOpen_of (b := .inbound) hrsz hn)

theorem unitScResize_copyIn {k : Nat} {c : CBuf Byte} (h : s.inb.resizeCopy n = .ok (k, c)) :
    unitOf (.scResize n) p .u3 x s = .goto .u4 { x with tin := decide (k ≠ 0) } { s with inb := c } :=
  attempt_of_ok (cbResizeCopy_of (b := .inbound) h)

theorem unitScResize_openOut (hrsz : s.outb.rsz = false) (hn : n ≠ 0) :
    unitOf (.scResize n) p .u4 x s = .goto .u5 x { s with outb := { s.outb with rsz := true } } :=
  attempt_of_ok (cbResizeOpen_of (b := .outbound) hrsz hn)

/-- The value of a truncating `SC.RESIZE` is the sum of its two bits (R73). -/
theorem truncatedValue_eq (tin tout : Bool) :
    truncatedValue tin tout = (if tin then 1 else 0) + (if tout then 2 else 0) := by
  cases tin <;> cases tout <;> rfl

theorem unitScResize_copyOut {k : Nat} {c : CBuf Byte} (h : s.outb.resizeCopy n = .ok (k, c)) :
    unitOf (.scResize n) p .u5 x s =
      .retire (if x.tin = false ∧ k = 0 then .ok else .truncated)
        ((if x.tin then 1 else 0) + (if k = 0 then 0 else 2)) { s with outb := c } := by
  rw [unitOf, unitScResize, attempt_of_ok (cbResizeCopy_of (b := .outbound) h)]
  simp only [truncatedValue_eq]
  cases x.tin <;> by_cases hk : k = 0 <;> simp [hk] <;> rfl

end

/-- Settles O15: u1 rejects or opens the window, and u2 answers the copy of the newest elements. -/
theorem cbResizeRepacksTheNewest : Obligations.CbResizeRepacksTheNewest := by
  intro b n s p hfresh hrsz c keep drop
  have ⟨hport, hidle, _⟩ := hfresh
  refine ⟨?zero, fun hn hmore => ?first, fun hn hmore hinv => ?whole⟩
  case zero =>
    rintro rfl
    exact exec_of_retire hfresh (unitCbResize_zero hrsz)
  case first => exact exec_accept_of_goto (by rw [← hport, ← hmore]) hidle (unitCbResize_open hrsz hn)
  case whole =>
    obtain ⟨-, -, hst, -⟩ := hinv
    obtain ⟨k, d, hcopy⟩ := hst.resizeCopy_answers n
    obtain ⟨rfl, hd, hwf, hslots⟩ := resizeCopy_eq hcopy
    refine ⟨d.mem, ?_, hwf, hslots⟩
    have hcopy' : ((s.setBuf b { s.buf b with rsz := true }).buf b).resizeCopy n = .ok (drop, d) := by
      rw [setBuf_buf_same]; exact hcopy
    rw [← hd, exec_two_units ⟨hport, hidle, hmore⟩ (unitCbResize_open hrsz hn) (unitCbResize_copy hcopy'),
      setBuf_setBuf]
    rfl

/-- Settles O35: the five units one by one, and in a row. -/
theorem scResizeResizesBothBuffers : Obligations.ScResizeResizesBothBuffers := by
  refine fun n s p => ⟨?zero, fun hn hfresh hrszIn hrszOut hin hout => ?whole,
    fun hn hturn hidle => exec_accept_of_goto hturn hidle (unitScResize_start hn), fun x =>
    ⟨fun hn h hrsz => exec_atUnit_of_goto h (unitScResize_openIn hrsz hn),
      fun k c h hcopy => exec_atUnit_of_goto h (unitScResize_copyIn hcopy),
      fun hn h hrsz => exec_atUnit_of_goto h (unitScResize_openOut hrsz hn),
      fun k c h hcopy => exec_atUnit_of_retire h (unitScResize_copyOut hcopy)⟩⟩
  case zero =>
    rintro rfl hfresh
    exact exec_of_retire hfresh unitScResize_zero
  case whole =>
    obtain ⟨-, -, hstIn, -⟩ := hin
    obtain ⟨-, -, hstOut, -⟩ := hout
    obtain ⟨ki, ci, hci⟩ := hstIn.resizeCopy_answers n
    obtain ⟨ko, co, hco⟩ := hstOut.resizeCopy_answers n
    obtain ⟨-, hcapIn, -⟩ := resizeCopy_ok hci
    obtain ⟨-, hcapOut, -⟩ := resizeCopy_ok hco
    refine ⟨ki, ko, ci, co, hci, hco, hcapIn, hcapOut, ?_⟩
    have ⟨_, _, hmore⟩ := hfresh
    let opened : State := { s with inb := { s.inb with rsz := true } }
    let copied : State := { s with inb := ci }
    let reopened : State := { s with inb := ci, outb := { s.outb with rsz := true } }
    rw [exec_fresh_goto hfresh (unitScResize_start hn),
      drive_pos_of_goto (by omega) (unitScResize_openIn hrszIn hn),
      drive_pos_of_goto (by omega) (unitScResize_copyIn (s := opened) hci),
      drive_pos_of_goto (by omega) (unitScResize_openOut (s := copied) hrszOut hn),
      drive_of_retire (unitScResize_copyOut (s := reopened) hco)]
    simp only [decide_eq_false_iff_not, decide_eq_true_eq, not_not, ite_not]
    rfl

/-! ### `SC.BWRITE` run whole (R102) -/

/-- From u2 on, each of the bytes left takes two units and one scripted draw, and u4 ends the command. -/
theorem drive_scBwrite {len : Half} {bytes : List Byte} {p : Port} {d : Bool} {ds : List Bool}
    (hlen : bytes.length = len.toNat) {n more : Nat} {x : Locals} {s : State} (hn : x.k + (n + 1) = bytes.length)
    (hmore : 2 * (n + 1) ≤ more) (hready : s.txReady = true) (hdraws : s.draws = List.replicate n true ++ d :: ds) :
    drive (.scBwrite false len bytes) (unitOf (.scBwrite false len bytes)) p more .u2 x s =
      .next (({ s with
        txLog := s.txLog ++ bytes.drop x.k, trace := s.trace ++ (bytes.drop x.k).map (.twr p), txReady := d,
        draws := ds,
        fault := .noFault } : State).retire p (1 + (len.toNat + 3) / 4) .ok 0) := by
  induction n generalizing more x s with
  | zero =>
    have hk : x.k < bytes.length := by omega
    have hrest : bytes.drop x.k = [bytes[x.k]] := by
      rw [List.drop_eq_getElem_cons hk, List.drop_of_length_le (by omega)]
    rw [drive_pos_of_goto (by omega) (unitScBwrite_ready hready),
      drive_pos_of_goto (by omega) (unitScBwrite_write (List.getElem?_eq_getElem hk) hready),
      transmitted_of_draw hdraws, if_neg (by omega), hrest]
    exact drive_of_retire rfl
  | succ n ih =>
    have hk : x.k < bytes.length := by omega
    have hwrite := unitScBwrite_write (np := false) (len := len) (p := p) (List.getElem?_eq_getElem hk) hready
    rw [transmitted_of_draw hdraws, if_pos (by omega)] at hwrite
    rw [drive_pos_of_goto (by omega) (unitScBwrite_ready hready), drive_pos_of_goto (by omega) hwrite,
      ih (by simp only; omega) (by omega) rfl rfl, List.drop_eq_getElem_cons hk]
    simp only [List.append_assoc, List.map_cons, List.cons_append, List.nil_append]

/-- Settles O31: the units one by one, and in a row by induction on the bytes left. -/
theorem scBwriteSendsItsPayload : Obligations.ScBwriteSendsItsPayload := by
  intro len bytes s p hlen hpos
  have hlenPos : 0 < bytes.length := by
    rw [hlen]; exact Nat.pos_of_ne_zero fun h0 => hpos (BitVec.eq_of_toNat_eq h0)
  refine ⟨fun d ds hfresh hready hdraws => ?whole,
    fun hturn hidle => exec_accept_of_goto hturn hidle (unitScBwrite_start hpos), fun x =>
      ⟨fun h hready => exec_atUnit_of_goto h (unitScBwrite_ready hready), fun v h hready hv => ?write,
        fun h => exec_atUnit_of_retire h rfl⟩⟩
  case whole =>
    have ⟨_, _, hmore⟩ := hfresh
    rw [exec_fresh_goto hfresh (unitScBwrite_start hpos),
      drive_scBwrite hlen (n := bytes.length - 1) (by simp only; omega) (by omega) hready hdraws]
    rfl
  case write =>
    rw [exec_atUnit_of_goto h (unitScBwrite_write hv hready), hlen]
    rfl

/-! ### The receive step of `SC.BHALF` run whole (R120) -/

/-- Absorbing a byte leaves the window and the ranges that the next one needs. -/
theorem absorb_keeps {sync : Sync} {c : CBuf Byte} {v : Byte} (hrsz : c.rsz = false)
    (hwr : c.wr.toNat < c.cap.toNat) :
    (absorb sync c v).rsz = false ∧ (absorb sync c v).wr.toNat < (absorb sync c v).cap.toNat := by
  unfold absorb
  split
  · exact ⟨hrsz, hwr⟩
  · exact ⟨hrsz, inc_lt hwr⟩

/-- From u2 on, each byte the transport holds takes three units, and then the transmit step begins. -/
theorem drive_drain {q : List Byte} {more : Nat} {x : Locals} {s : State} (hrxq : s.rxq = q) (hq : q ≠ [])
    (hmore : 3 * q.length ≤ more) (hrsz : s.inb.rsz = false) (hwr : s.inb.wr.toNat < s.inb.cap.toNat) :
    ∃ y, drive .scBhalf (unitOf .scBhalf) .bh more .u2 x s =
      drive .scBhalf (unitOf .scBhalf) .bh (more - 3 * q.length) .u5 y
        { s with inb := q.foldl (absorb s.par.sync) s.inb, rxq := [], trace := s.trace ++ q.map (.trd .bh) } := by
  induction q generalizing more x s with
  | nil => exact absurd rfl hq
  | cons v rest ih =>
    rw [List.length_cons] at hmore
    let read : State := { s with rxq := rest, trace := s.trace ++ [.trd .bh v] }
    let stored : State := { read with inb := absorb s.par.sync s.inb v }
    have hloop : drive .scBhalf (unitOf .scBhalf) .bh more .u2 x s =
        drive .scBhalf (unitOf .scBhalf) .bh (more - 1 - 1 - 1) (if rest ≠ [] then .u2 else .u5) { x with v := v }
          stored := by
      rw [drive_pos_of_goto (by omega) (unitScBhalf_u2 hrxq),
        drive_pos_of_goto (by omega) (unitScBhalf_u3 (s := read) hrsz hwr),
        drive_pos_of_goto (by omega) (unitScBhalf_u4 (s := stored))]
    obtain ⟨hrsz', hwr'⟩ := absorb_keeps (sync := s.par.sync) (v := v) hrsz hwr
    by_cases hrest : rest = []
    · subst hrest
      exact ⟨_, by rw [hloop, if_neg (by simp)]; rfl⟩
    · obtain ⟨y, hy⟩ :=
        ih (s := stored) (more := more - 1 - 1 - 1) (x := { x with v := v }) rfl hrest (by omega) hrsz' hwr'
      have hleft : more - 1 - 1 - 1 - 3 * rest.length = more - 3 * (rest.length + 1) := by omega
      refine ⟨y, ?_⟩
      rw [hloop, if_pos hrest, hy, List.length_cons, hleft]
      simp [stored, read]

/-- Settles O43: the drain loop by induction on `RXQ`, and a transmit step that finds transmission disarmed. -/
theorem bhalfDrainsTheTransport : Obligations.BhalfDrainsTheTransport := by
  intro s hfresh harm hrxq hdisarmed hrsz hwr
  have ⟨_, _, hmore⟩ := hfresh
  have hu := unitScBhalf_u1 (x := Locals.init) (s := s)
  rw [if_pos ⟨harm, hrxq⟩] at hu
  obtain ⟨y, hy⟩ := drive_drain (x := Locals.init) (more := s.turn.more - 1) rfl hrxq (by omega) hrsz hwr
  rw [exec_fresh_goto hfresh hu, hy]
  exact drive_u5_disarmed hdisarmed

end Sys2Proof.Machine

namespace Sys2Proof.Machine

/-! ### How many units an invocation has left (`70_reset_and_hazards.md` R176) -/

/-- The most units that `SC.BHALF` runs after the one it stands at, under `REGISTER`, if no byte arrives. -/
def bhalfUnitsLeft (l : Label) (s : State) : Nat :=
  match l with
  | .u1 => 3 * s.rxq.length + 4
  | .u2 => 3 * s.rxq.length + 3
  | .u3 => 3 * s.rxq.length + 5
  | .u4 => 3 * s.rxq.length + 4
  | .u5 => 3
  | .u6 => 2
  | .u7 => 0
  | .u7a => 0
  | .u7b => 0
  | .u8 => 1
  | .u9 => 0

/-- What a unit of the handler at `l` leaves under `REGISTER`: it does not wait, and if it leaves the handler in flight,
then with fewer units. -/
def UnitResult.FewerUnits (l : Label) (s : State) : UnitResult → Prop
  | .goto l' _ s' => l' ≠ .u7a ∧ s'.par.backend = .register ∧ bhalfUnitsLeft l' s' < bhalfUnitsLeft l s
  | .retire _ _ _ => True
  | .hold => False
  | .fault _ => True
  | .refuse _ => True

/-- A property of the results of a unit that calls a primitive. -/
theorem attempt_induct {α : Type} {P : UnitResult → Prop} {r : Except Fault α} {k : α → UnitResult}
    (herror : ∀ f, r = .error f → P (.fault f)) (hok : ∀ a, r = .ok a → P (k a)) : P (attempt r k) := by
  cases r with
  | error f => exact herror f rfl
  | ok a => exact hok a rfl

theorem unitScBhalf_fewerUnits {p : Port} {l : Label} {x : Locals} {s : State} (hback : s.par.backend = .register)
    (hl : l ≠ .u7a) : (unitScBhalf p l x s).FewerUnits l s := by
  unfold unitScBhalf
  cases l with
  | u1 =>
    dsimp only
    split
    · trivial
    · split <;> exact ⟨by decide, hback, by simp [bhalfUnitsLeft]⟩
  | u2 =>
    refine attempt_induct (fun _ _ => trivial) fun r hr => ?_
    obtain ⟨rest, hrxq, hnext⟩ := transportRead_ok hr
    rw [hnext]
    exact ⟨by decide, hback, by simp [bhalfUnitsLeft, hrxq]; omega⟩
  | u3 =>
    refine attempt_induct (fun _ _ => trivial) fun r hr => ?_
    obtain ⟨c, -, hnext⟩ := cbWrite_ok hr
    rw [hnext]
    exact ⟨by decide, hback, by simp [bhalfUnitsLeft]⟩
  | u4 =>
    dsimp only
    split <;> exact ⟨by decide, hback, by simp [bhalfUnitsLeft]⟩
  | u5 =>
    dsimp only
    split
    · exact ⟨by decide, hback, by simp [bhalfUnitsLeft]⟩
    · trivial
  | u6 =>
    refine attempt_induct (fun _ _ => trivial) fun r hr => ?_
    obtain ⟨c, -, hnext⟩ := cbRead_ok hr
    rw [hnext]
    split
    · exact ⟨by decide, hback, by simp [bhalfUnitsLeft]⟩
    · rw [hback]
      exact ⟨by decide, hback, by simp [bhalfUnitsLeft]⟩
  | u7 => exact attempt_induct (fun _ _ => trivial) fun _ _ => trivial
  | u7a => exact absurd rfl hl
  | u7b => exact attempt_induct (fun _ _ => trivial) fun _ _ => trivial
  | u8 => exact ⟨by decide, hback, by simp [bhalfUnitsLeft]⟩
  | u9 => trivial

/-- Given as many units as it can have left, the handler retires or stops the run. -/
theorem drive_scBhalf_retires {p : Port} {more : Nat} {l : Label} {x : Locals} {s t : State}
    (hback : s.par.backend = .register) (hl : l ≠ .u7a) (hmore : bhalfUnitsLeft l s ≤ more)
    (h : drive .scBhalf unitScBhalf p more l x s = .next t) : (t.port p).infl = .idle := by
  induction more generalizing l x s with
  | zero =>
    have hfewer := unitScBhalf_fewerUnits (p := p) (x := x) hback hl
    unfold drive at h
    split at h
    · next hu => rw [hu] at hfewer; obtain ⟨-, -, hless⟩ := hfewer; omega
    · cases h; rw [retire_port_same]
    · next hu => rw [hu] at hfewer; exact hfewer.elim
    · cases h
    · cases h
  | succ more ih =>
    have hfewer := unitScBhalf_fewerUnits (p := p) (x := x) hback hl
    unfold drive at h
    split at h
    · next hu =>
      rw [hu] at hfewer
      obtain ⟨hl', hback', hless⟩ := hfewer
      exact ih hback' hl' (by omega) h
    · cases h; rw [retire_port_same]
    · next hu => rw [hu] at hfewer; exact hfewer.elim
    · cases h
    · cases h

/-- Settles O47: the units left fall with every unit, and the turn has as many as there are at the start. -/
theorem registerHandlerReturnsInBoundedUnits : Obligations.RegisterHandlerReturnsInBoundedUnits := by
  intro s t hfresh hback h
  have ⟨_, _, hmore⟩ := hfresh
  rw [exec_fresh (hfresh.mono (Nat.zero_le _))] at h
  exact drive_scBhalf_retires hback (by decide) hmore h

/-! ### Invocations in a row (R121) -/

theorem invokeBhalf_succ {n : Nat} {s t : State}
    (h : exec .scBhalf { s with turn := ⟨.bh, unitBound s⟩ } = .next t) : invokeBhalf (n + 1) s = invokeBhalf n t := by
  simp only [invokeBhalf, h]

/-- An invocation by an idle port `BH` that receives nothing is granted enough units for its transmit step. -/
theorem exec_invocation {s : State} (hidle : s.bh.infl = .idle) (hclosed : s.rxArm = false ∨ s.rxq = []) :
    exec .scBhalf { s with turn := ⟨.bh, unitBound s⟩ } =
      drive .scBhalf (unitOf .scBhalf) .bh (unitBound s - 1) .u5 Locals.init { s with turn := ⟨.bh, unitBound s⟩ } :=
  exec_scBhalf_closed (n := 0) ⟨rfl, hidle, Nat.le_add_left _ _⟩ hclosed

theorem three_le_unitBound (s : State) : 3 ≤ unitBound s - 1 := by unfold unitBound; omega

/-- What holds between the invocations that send a queue: the receive gate closed, transmission armed, the transport
ready and `OUT` in order with a current view of its write index. -/
structure Sending (s : State) : Prop where
  idle : s.bh.infl = .idle
  closed : s.rxArm = false ∨ s.rxq = []
  armed : s.txArm = true
  rsz : s.outb.rsz = false
  inv : BufInv s.par.sync s.outb
  view : s.outb.wrv = s.outb.wr
  ready : s.txReady = true

/-- One invocation sends the head of the queue. -/
theorem Sending.invoke {s : State} {v : Byte} {q : List Byte} {ds : List Bool} (h : Sending s)
    (hqueue : s.outb.queued = v :: q) (hdraws : s.draws = true :: ds) :
    ∃ t, exec .scBhalf { s with turn := ⟨.bh, unitBound s⟩ } = .next t ∧ Sending t ∧ t.outb.queued = q ∧ t.draws = ds ∧
      t.txLog = s.txLog ++ [v] ∧ t.evTx = s.evTx := by
  obtain ⟨hread, hrest⟩ := h.inv.read_head h.rsz h.view hqueue
  obtain ⟨-, -, ⟨-, hnone, -⟩ | ⟨hseen, hrd, u, hslot, hu, -⟩⟩ := read_ok hread
  · cases hnone
  cases hu
  have hsend := drive_u5_send (s := { s with turn := ⟨.bh, unitBound s⟩ }) (x := Locals.init) (three_le_unitBound s)
    h.armed h.rsz hseen hrd hslot h.ready
  rw [transmitted_of_draw (s := { s with turn := ⟨.bh, unitBound s⟩ }) hdraws] at hsend
  refine ⟨_, (exec_invocation h.idle h.closed).trans hsend, ?_, hrest, rfl, rfl, rfl⟩
  exact ⟨rfl, h.closed, h.armed, h.rsz, h.inv.read hread, h.view, rfl⟩

/-- As many invocations as the queue has bytes send it in order. -/
theorem Sending.invokeAll {s : State} {q : List Byte} {ds : List Bool} (h : Sending s) (hqueue : s.outb.queued = q)
    (hdraws : s.draws = List.replicate q.length true ++ ds) :
    ∃ t, invokeBhalf q.length s = .next t ∧ Sending t ∧ t.outb.queued = [] ∧ t.txLog = s.txLog ++ q ∧
      t.evTx = s.evTx := by
  induction q generalizing s with
  | nil => exact ⟨s, rfl, h, hqueue, by simp, rfl⟩
  | cons v q ih =>
    obtain ⟨t, hexec, ht, htq, htd, htlog, htev⟩ := h.invoke hqueue hdraws
    obtain ⟨u, hrun, hu, huq, hulog, huev⟩ := ih ht htq htd
    exact ⟨u, (invokeBhalf_succ hexec).trans hrun, hu, huq,
      by rw [hulog, htlog, List.append_assoc, List.singleton_append],
      huev.trans htev⟩

/-- An invocation that sees an empty `OUT` disarms, and writes nothing. -/
theorem Sending.disarm {s : State} (h : Sending s) (hempty : s.outb.queued = []) :
    ∃ t, invokeBhalf 1 s = .next t ∧ t.txArm = false ∧ t.evTx = false ∧ t.txLog = s.txLog ∧ t.outb = s.outb ∧
      t.bh.infl = .idle ∧ (t.rxArm = false ∨ t.rxq = []) := by
  have ⟨hin, hring, hst, _⟩ := h.inv
  have hcount : s.outb.count = 0 := by rw [← hst.length_queued, hempty]; rfl
  have hseen := RingOrder.seen_empty_of_empty hin hring hcount
  have hexec := (exec_invocation h.idle h.closed).trans
    (drive_u5_empty (s := { s with turn := ⟨.bh, unitBound s⟩ }) (three_le_unitBound s) h.armed h.rsz hseen)
  exact ⟨_, invokeBhalf_succ hexec, rfl, rfl, rfl, rfl, rfl, h.closed⟩

/-- With transmission disarmed an invocation changes its port alone. -/
theorem invoke_disarmed {s : State} (hidle : s.bh.infl = .idle) (hclosed : s.rxArm = false ∨ s.rxq = [])
    (hdisarmed : s.txArm = false) :
    ∃ t, invokeBhalf 1 s = .next t ∧ t = { s with bh := t.bh, turn := t.turn } ∧ t.bh.infl = .idle :=
  ⟨_, invokeBhalf_succ ((exec_invocation hidle hclosed).trans (drive_u5_disarmed hdisarmed)), rfl, rfl⟩

/-- Settles O46: the queue is sent by induction on it; the next invocation sees an empty buffer, the one after a cleared
flag. -/
theorem queueIsSentInOrderThenDisarmed : Obligations.QueueIsSentInOrderThenDisarmed := by
  intro s ds hidle hclosed harm hrsz hinv hview hready hdraws
  have ⟨_, _, hst, _⟩ := hinv
  rw [← hst.length_queued] at *
  obtain ⟨t, hrun, ht, hempty, hlog, hev⟩ :=
    Sending.invokeAll ⟨hidle, hclosed, harm, hrsz, hinv, hview, hready⟩ rfl hdraws
  obtain ⟨u, hdisarm, huarm, huev, hulog, huout, huidle, huclosed⟩ := ht.disarm hempty
  obtain ⟨w, hlast, hw, hwidle⟩ := invoke_disarmed huidle huclosed huarm
  exact ⟨t, hrun, hlog, hempty, ht.armed, hev, u, hdisarm, huarm, huev, hulog, huout, w, hlast, hw, hwidle⟩

end Sys2Proof.Machine

namespace Sys2Proof.Machine

/-! ### No unit reads or writes a port or the turn (`60_exceptions.md` R150, R151; log 2) -/

/-- The state with its ports and its turn changed. -/
def State.reframe (F G : PortState → PortState) (T : Turn → Turn) (s : State) : State :=
  { s with fg := F s.fg, bh := G s.bh, turn := T s.turn }

/-- The result of a unit with the state it leaves changed. -/
def UnitResult.map (f : State → State) : UnitResult → UnitResult
  | .goto l x s => .goto l x (f s)
  | .retire st v s => .retire st v (f s)
  | .hold => .hold
  | .fault e => .fault e
  | .refuse r => .refuse r

section
variable {F G : PortState → PortState} {T : Turn → Turn} {s : State} {p : Port} {b : BufSel} {l : Label} {x : Locals}

@[simp] theorem reframe_buf : (s.reframe F G T).buf b = s.buf b := by cases b <;> rfl

@[simp] theorem reframe_setBuf (c : CBuf Byte) : (s.reframe F G T).setBuf b c = (s.setBuf b c).reframe F G T := by
  cases b <;> rfl

theorem attempt_reframe {α : Type} {f : State → State} {r' r : Except Fault α} {g : α → α} {k' k : α → UnitResult}
    (hr : r' = r.map g) (hk : ∀ a, k' (g a) = (k a).map f) : attempt r' k' = (attempt r k).map f := by
  rw [hr]
  cases r with
  | error e => rfl
  | ok a => exact hk a

theorem attempt_same_reframe {α : Type} {f : State → State} {r : Except Fault α} {k' k : α → UnitResult}
    (hk : ∀ a, k' a = (k a).map f) : attempt r k' = (attempt r k).map f := by
  cases r with
  | error e => rfl
  | ok a => exact hk a

theorem waitUntil_reframe {ready : Bool} {f : State → State} :
    waitUntil ready l x (f s) = (waitUntil ready l x s).map f := by
  cases ready <;> rfl

theorem cbWrite_reframe {v : Byte} :
    cbWrite p b v (s.reframe F G T) = (cbWrite p b v s).map (Prod.map id (State.reframe F G T)) := by
  have hpar : (s.reframe F G T).par = s.par := rfl
  rw [cbWrite, cbWrite, reframe_buf, hpar]
  cases (s.buf b).write s.par.sync (roleOf p b) v with
  | error e => rfl
  | ok r => exact congrArg Except.ok (Prod.ext rfl (reframe_setBuf _))

theorem cbRead_reframe :
    cbRead p b (s.reframe F G T) = (cbRead p b s).map (Prod.map id (State.reframe F G T)) := by
  have hpar : (s.reframe F G T).par = s.par := rfl
  rw [cbRead, cbRead, reframe_buf, hpar]
  cases (s.buf b).read s.par.sync (roleOf p b) with
  | error e => rfl
  | ok r => exact congrArg Except.ok (Prod.ext rfl (reframe_setBuf _))

theorem cbResizeOpen_reframe {n : Half} :
    cbResizeOpen b n (s.reframe F G T) = (cbResizeOpen b n s).map (Prod.map id (State.reframe F G T)) := by
  rw [cbResizeOpen, cbResizeOpen, reframe_buf]
  cases (s.buf b).resizeOpen n with
  | error e => rfl
  | ok r => exact congrArg Except.ok (Prod.ext rfl (reframe_setBuf _))

theorem cbResizeCopy_reframe {n : Half} :
    cbResizeCopy b n (s.reframe F G T) = (cbResizeCopy b n s).map (Prod.map id (State.reframe F G T)) := by
  rw [cbResizeCopy, cbResizeCopy, reframe_buf]
  cases (s.buf b).resizeCopy n with
  | error e => rfl
  | ok r => exact congrArg Except.ok (Prod.ext rfl (reframe_setBuf _))

theorem transportRead_reframe :
    transportRead p (s.reframe F G T) = (transportRead p s).map (Prod.map id (State.reframe F G T)) := by
  unfold transportRead State.reframe
  dsimp only
  cases s.rxq <;> rfl

theorem transportWrite_reframe {v : Byte} :
    transportWrite p v (s.reframe F G T) = (transportWrite p v s).map (State.reframe F G T) := by
  unfold transportWrite takeDraw State.reframe
  dsimp only
  cases s.txReady
  · rfl
  · cases s.draws <;> rfl

/-- Unit u1 of a resize, inside the command whose unit it is. -/
theorem unit_resizeOpen_reframe {n : Half} :
    (attempt (cbResizeOpen b n (s.reframe F G T)) fun r => if r.1 = .ok then .goto l x r.2 else raise r.1 r.2) =
      UnitResult.map (State.reframe F G T)
        (attempt (cbResizeOpen b n s) fun r => if r.1 = .ok then .goto l x r.2 else raise r.1 r.2) := by
  refine attempt_reframe cbResizeOpen_reframe fun r => ?_
  obtain ⟨st, t⟩ := r
  dsimp only [Prod.map, id]
  split <;> rfl

/-- A unit does to the rest of the state what it does whatever the ports and the turn are, and leaves those as they are.
-/
theorem unitOf_reframe (i : Instr) :
    unitOf i p l x (s.reframe F G T) = (unitOf i p l x s).map (State.reframe F G T) := by
  cases i with
  | cbWrite b v =>
    cases l
    case u1 => exact attempt_reframe cbWrite_reframe fun _ => rfl
    all_goals rfl
  | cbRead b =>
    cases l
    case u1 => exact attempt_reframe cbRead_reframe fun r => by obtain ⟨_ | v, t⟩ := r <;> rfl
    all_goals rfl
  | cbResize b n =>
    cases l
    case u1 => exact unit_resizeOpen_reframe
    case u2 =>
      refine attempt_reframe cbResizeCopy_reframe fun r => ?_
      dsimp only [Prod.map, id]
      split <;> rfl
    all_goals rfl
  | cbIsEmpty b =>
    cases l
    case u1 => simp only [unitOf, unitCbIsEmpty, reframe_buf]; exact attempt_same_reframe fun _ => rfl
    all_goals rfl
  | cbIsFull b =>
    cases l
    case u1 => simp only [unitOf, unitCbIsFull, reframe_buf]; exact attempt_same_reframe fun _ => rfl
    all_goals rfl
  | cbCount b =>
    cases l
    case u1 => simp only [unitOf, unitCbCount, reframe_buf]; exact attempt_same_reframe fun _ => rfl
    all_goals rfl
  | scBrdb =>
    cases l
    case u1 => exact waitUntil_reframe
    case u2 => exact attempt_reframe transportRead_reframe fun _ => rfl
    all_goals rfl
  | scBwrb v =>
    cases l
    case u1 => exact waitUntil_reframe
    case u2 => exact attempt_reframe transportWrite_reframe fun _ => rfl
    all_goals rfl
  | scBwrite np len bytes =>
    cases l
    case u1 => simp only [unitOf, unitScBwrite]; split <;> rfl
    case u2 => exact waitUntil_reframe
    case u3 =>
      simp only [unitOf, unitScBwrite]
      split
      · rfl
      · exact attempt_reframe transportWrite_reframe fun _ => rfl
    all_goals rfl
  | scEnq v =>
    cases l
    case u1 =>
      simp only [unitOf, unitScEnq]
      split
      · rfl
      · exact attempt_reframe cbWrite_reframe fun _ => rfl
    all_goals rfl
  | scDeq =>
    cases l
    case u1 =>
      simp only [unitOf, unitScDeq]
      split
      · rfl
      · exact attempt_reframe cbRead_reframe fun r => by obtain ⟨_ | v, t⟩ := r <;> rfl
    all_goals rfl
  | scResize n =>
    cases l
    case u1 => simp only [unitOf, unitScResize]; split <;> rfl
    case u2 => exact unit_resizeOpen_reframe
    case u3 => exact attempt_reframe cbResizeCopy_reframe fun _ => rfl
    case u4 => exact unit_resizeOpen_reframe
    case u5 =>
      refine attempt_reframe cbResizeCopy_reframe fun r => ?_
      dsimp only [Prod.map, id]
      split <;> rfl
    all_goals rfl
  | scBhalf =>
    cases l with
    | u1 => simp only [unitOf, unitScBhalf]; split <;> rfl
    | u2 => exact attempt_reframe transportRead_reframe fun _ => rfl
    | u3 => exact attempt_reframe cbWrite_reframe fun _ => rfl
    | u4 => rfl
    | u5 =>
      have harm : (s.reframe F G T).txArm = s.txArm := rfl
      simp only [unitOf, unitScBhalf, harm]
      split <;> rfl
    | u6 => exact attempt_reframe cbRead_reframe fun r => by obtain ⟨_ | v, t⟩ := r <;> rfl
    | u7 => exact attempt_reframe transportWrite_reframe fun _ => rfl
    | u7a => exact waitUntil_reframe
    | u7b => exact attempt_reframe transportWrite_reframe fun _ => rfl
    | u8 => rfl
    | u9 => rfl
  | scArmrx => cases l <;> rfl
  | scArmtx => cases l <;> rfl
  | scDistx => cases l <;> rfl
  | scStat => cases l <;> rfl

end

end Sys2Proof.Machine

namespace Sys2Proof.Machine

section
variable {i : Instr} {p : Port} {l : Label} {x : Locals} {s t : State} {more : Nat}

/-! ### What a turn does to the ports -/

/-- `t` has the ports and the turn of `s`. -/
structure SamePorts (s t : State) : Prop where
  fg : t.fg = s.fg
  bh : t.bh = s.bh
  turn : t.turn = s.turn

theorem SamePorts.port (h : SamePorts s t) (p : Port) : t.port p = s.port p := by
  cases p
  · exact h.fg
  · exact h.bh

/-- A state is its own with its own ports and turn put in. -/
theorem reframe_self (s : State) : s.reframe (fun _ => s.fg) (fun _ => s.bh) (fun _ => s.turn) = s := rfl

/-- No unit touches a port or the turn. -/
theorem unitOf_samePorts : (unitOf i p l x s).Leaves (SamePorts s) := by
  have hunit := unitOf_reframe (F := fun _ => s.fg) (G := fun _ => s.bh) (T := fun _ => s.turn) (s := s) (p := p)
    (l := l) (x := x) i
  rw [reframe_self] at hunit
  cases hr : unitOf i p l x s with
  | goto l' x' t => rw [hr] at hunit; injection hunit with _ _ ht; rw [ht]; exact ⟨rfl, rfl, rfl⟩
  | retire st v t => rw [hr] at hunit; injection hunit with _ _ ht; rw [ht]; exact ⟨rfl, rfl, rfl⟩
  | hold => trivial
  | fault f => trivial
  | refuse r => trivial

/-- What a turn that runs `i` on port `p` can do to the ports: `p` has `i` in flight, or has retired it, and the other
port is as it was. -/
def PortsAfter (i : Instr) (p : Port) (s t : State) : Prop :=
  t.port (otherPort p) = s.port (otherPort p) ∧
    ((∃ l x, t.port p = { s.port p with infl := .busy ⟨i, l, x⟩ }) ∨
      ∃ st v, t.port p = { s.port p with
        pos := (s.port p).pos + wordCount i, infl := .idle, rsps := (s.port p).rsps ++ [rspWord st v] })

theorem drive_portsAfter (h : drive i (unitOf i) p more l x s = .next t) : PortsAfter i p s t := by
  refine drive_induct (I := fun _ _ u => SamePorts s u) (Q := PortsAfter i p s) ?_ ?_ ?_ ⟨rfl, rfl, rfl⟩ h
  · intro l x u l' x' u' hu hgoto
    have hunit := unitOf_samePorts (i := i) (p := p) (l := l) (x := x) (s := u)
    rw [hgoto] at hunit
    exact ⟨hunit.fg.trans hu.fg, hunit.bh.trans hu.bh, hunit.turn.trans hu.turn⟩
  · intro l x u st v u' hu hretire
    have hunit := unitOf_samePorts (i := i) (p := p) (l := l) (x := x) (s := u)
    rw [hretire] at hunit
    have hport (q : Port) : u'.port q = s.port q := (hunit.port q).trans (hu.port q)
    refine ⟨?_, .inr ⟨st, v, ?_⟩⟩
    · rw [retire_port_other _ _ _ _ _ _ (otherPort_ne p), hport]
    · rw [retire_port_same, hport]
  · intro l x u hu
    refine ⟨?_, .inl ⟨l, x, ?_⟩⟩
    · rw [suspend_port_other _ _ _ _ _ _ (otherPort_ne p), hu.port]
    · rw [suspend_port_same, hu.port]

/-- A turn that answers a next state has run its command, or has found another one in flight and done nothing. -/
theorem exec_portsAfter (h : exec i s = .next t) :
    PortsAfter i s.turn.port s t ∨ ((∃ c, (s.port s.turn.port).infl = .busy c ∧ c.cmd ≠ i) ∧ t = s) := by
  rw [exec_eq_runCommand] at h
  rcases runCommand_next h with ⟨-, hd⟩ | ⟨c, -, -, hd⟩ | ⟨c, hbusy, hne, rfl⟩
  · exact .inl (drive_portsAfter hd)
  · exact .inl (drive_portsAfter hd)
  · exact .inr ⟨⟨c, hbusy, hne⟩, rfl⟩

/-- What a port's turn can do to the ports (R150, R151). -/
theorem runPort_ports (h : runPort p more s = .next t) :
    t.port (otherPort p) = s.port (otherPort p) ∧
      (t.port p = s.port p ∨ (t.port p).infl = .idle ∨
        ∃ i l x, nextCommand s p = some i ∧ t.port p = { s.port p with infl := .busy ⟨i, l, x⟩ }) := by
  have hafter {i : Instr} (hnext : nextCommand s p = some i) (he : exec i { s with turn := ⟨p, more⟩ } = .next t) :
      t.port (otherPort p) = s.port (otherPort p) ∧
        (t.port p = s.port p ∨ (t.port p).infl = .idle ∨
          ∃ i l x, nextCommand s p = some i ∧ t.port p = { s.port p with infl := .busy ⟨i, l, x⟩ }) := by
    rcases exec_portsAfter he with ⟨hother, ⟨l, x, hp⟩ | ⟨st, v, hp⟩⟩ | ⟨-, rfl⟩
    · simp only [port_withTurn] at hother hp
      exact ⟨hother, .inr (.inr ⟨i, l, x, hnext, hp⟩)⟩
    · simp only [port_withTurn] at hother hp
      exact ⟨hother, .inr (.inl (by rw [hp]))⟩
    · exact ⟨port_withTurn .., .inl (port_withTurn ..)⟩
  rcases runPort_next h with ⟨c, hbusy, he⟩ | ⟨hidle, ⟨i, n, hd, he⟩ | ⟨e, n, -, rfl⟩ | ⟨-, rfl⟩⟩
  · exact hafter (by simp [nextCommand, hbusy]) he
  · exact hafter (by simp [nextCommand, hidle, hd]) he
  · refine ⟨(retire_port_other _ _ _ _ _ _ (otherPort_ne p)).trans (port_withTurn ..), .inr (.inl ?_)⟩
    rw [illegalCommand, retire_port_same]
  · exact ⟨port_withTurn .., .inl (port_withTurn ..)⟩

end

/-- Settles O11: a unit touches no port, and the turn ends by writing its own. -/
theorem turnLeavesTheOtherPort : Obligations.TurnLeavesTheOtherPort := by
  intro s t p more hevent h
  rw [step, stepOnce, show (takeEvent s).1 = .run p more from hevent, perform] at h
  rw [(runPort_ports h).1, takeEvent_port]

/-! ### A long turn is its units one after the other (log 2) -/

section
variable {i : Instr} {p : Port} {l : Label} {x : Locals} {s : State} {more : Nat}

theorem setInfl_eq_reframe (p : Port) (y : Infl) : ∃ F G, ∀ s : State, s.setInfl p y = s.reframe F G id := by
  cases p
  · exact ⟨fun q => { q with infl := y }, id, fun _ => rfl⟩
  · exact ⟨id, fun q => { q with infl := y }, fun _ => rfl⟩

/-- A unit does not look at what its port has in flight. -/
theorem unitOf_setInfl (p' : Port) (y : Infl) :
    unitOf i p l x (s.setInfl p' y) = (unitOf i p l x s).map (State.setInfl · p' y) := by
  obtain ⟨F, G, hreframe⟩ := setInfl_eq_reframe p' y
  have hfun : (State.setInfl · p' y) = State.reframe F G id := funext hreframe
  rw [hfun, hreframe]
  exact unitOf_reframe i

/-- The state with another turn granted. -/
def State.withTurn (s : State) (τ : Turn) : State := { s with turn := τ }

/-- A unit does not look at the turn. -/
theorem unitOf_withTurn (τ : Turn) :
    unitOf i p l x (s.withTurn τ) = (unitOf i p l x s).map (State.withTurn · τ) :=
  unitOf_reframe (F := id) (G := id) (T := fun _ => τ) i

/-- So the rest of a turn is the same whatever the record its port still holds. -/
theorem drive_setInfl (y : Infl) :
    drive i (unitOf i) p more l x (s.setInfl p y) = drive i (unitOf i) p more l x s := by
  induction more generalizing l x s with
  | zero =>
    simp only [drive, unitOf_setInfl]
    cases unitOf i p l x s <;> simp [UnitResult.map]
  | succ more ih =>
    simp only [drive, unitOf_setInfl]
    cases unitOf i p l x s <;> simp [UnitResult.map, ih]

@[simp] theorem suspend_withTurn (τ : Turn) : (s.withTurn τ).suspend p i l x = (s.suspend p i l x).withTurn τ := by
  cases p <;> rfl

@[simp] theorem retire_withTurn (τ : Turn) (n : Nat) (st : Status) (v : Half) :
    (s.withTurn τ).retire p n st v = (s.retire p n st v).withTurn τ := by cases p <;> rfl

@[simp] theorem sansTurn_withTurn (τ : Turn) : sansTurn (.next (s.withTurn τ)) = sansTurn (.next s) := rfl

/-- And whatever turn the state records. -/
theorem sansTurn_drive_withTurn (τ : Turn) :
    sansTurn (drive i (unitOf i) p more l x (s.withTurn τ)) = sansTurn (drive i (unitOf i) p more l x s) := by
  induction more generalizing l x s with
  | zero =>
    simp only [drive, unitOf_withTurn]
    cases unitOf i p l x s <;> simp [UnitResult.map]
  | succ more ih =>
    simp only [drive, unitOf_withTurn]
    cases unitOf i p l x s <;> simp [UnitResult.map, ih]

/-- What a turn goes on with after its first unit: nothing if the port is idle, else the command in flight. -/
def resume (i : Instr) (p : Port) (n : Nat) : Host.Outcome State Fault Refusal → Host.Outcome State Fault Refusal
  | .next t => if (t.port p).infl = .idle then sansTurn (.next t) else sansTurn (exec i { t with turn := ⟨p, n⟩ })
  | .fault f => .fault f
  | .refused r => .refused r

/-- A turn granted to a port that has a command at a unit runs from there. -/
theorem sansTurn_exec_suspend (n : Nat) (τ : Turn) :
    sansTurn (exec i { (s.withTurn τ).suspend p i l x with turn := ⟨p, n⟩ }) =
      sansTurn (drive i (unitOf i) p n l x s) := by
  have hstate : ({ (s.withTurn τ).suspend p i l x with turn := ⟨p, n⟩ } : State) =
      (s.setInfl p (.busy ⟨i, l, x⟩)).withTurn ⟨p, n⟩ := by cases p <;> rfl
  have hbusy : (((s.setInfl p (.busy ⟨i, l, x⟩)).withTurn ⟨p, n⟩).port p).infl = .busy ⟨i, l, x⟩ := by cases p <;> rfl
  rw [hstate, exec_busy (l := l) (x := x) hbusy]
  exact (sansTurn_drive_withTurn _).trans (congrArg sansTurn (drive_setInfl _))

/-- The units of a turn of `n + 2`: the first, and then the turn of the rest. -/
theorem sansTurn_drive_succ (n : Nat) (τ τ' : Turn) :
    sansTurn (drive i (unitOf i) p (n + 1) l x (s.withTurn τ)) =
      resume i p n (drive i (unitOf i) p 0 l x (s.withTurn τ')) := by
  rw [sansTurn_drive_withTurn]
  have hresume (l' : Label) (x' : Locals) (s' : State) :
      resume i p n (.next ((s'.withTurn τ').suspend p i l' x')) = sansTurn (drive i (unitOf i) p n l' x' s') := by
    rw [resume, if_neg (by rw [suspend_port_same]; nofun), sansTurn_exec_suspend]
  simp only [drive, unitOf_withTurn]
  cases hu : unitOf i p l x s with
  | goto l' x' s' => exact (hresume l' x' s').symm
  | retire st v s' =>
    simp only [UnitResult.map, resume]
    rw [if_pos (by rw [retire_port_same]), retire_withTurn, sansTurn_withTurn]
  | hold =>
    simp only [UnitResult.map]
    rw [hresume, drive_of_hold hu]
  | fault f => rfl
  | refuse r => rfl

end

/-- Settles O10: no unit looks at the turn or at its port's record, so a long turn may be cut after any unit. -/
theorem turnIsTheSequenceOfItsUnits : Obligations.TurnIsTheSequenceOfItsUnits := by
  intro i s p n
  suffices h : sansTurn (exec i (s.withTurn ⟨p, n + 1⟩)) = resume i p n (exec i (s.withTurn ⟨p, 0⟩)) by
    refine h.trans ?_
    unfold resume State.withTurn
    cases exec i { s with turn := ⟨p, 0⟩ } <;> rfl
  have hport (m : Nat) : (s.withTurn ⟨p, m⟩).port p = s.port p := port_withTurn ..
  rw [exec_eq_runCommand, exec_eq_runCommand]
  cases hinfl : (s.port p).infl with
  | idle =>
    rw [runCommand_idle (by rw [← hport (n + 1)] at hinfl; exact hinfl),
      runCommand_idle (by rw [← hport 0] at hinfl; exact hinfl)]
    exact sansTurn_drive_succ n _ _
  | busy c =>
    have hrun (m : Nat) : runCommand i (unitOf i) (s.withTurn ⟨p, m⟩) =
        if c.cmd = i then drive i (unitOf i) p m c.unit c.locals (s.withTurn ⟨p, m⟩)
        else .next (s.withTurn ⟨p, m⟩) := by
      simp only [runCommand, show (s.withTurn ⟨p, m⟩).turn = ⟨p, m⟩ from rfl, hport, hinfl]
    rw [hrun, hrun]
    split
    · exact sansTurn_drive_succ n _ _
    · next hne =>
      rw [resume, if_neg (by rw [hport, hinfl]; nofun)]
      have hskip : exec i (s.withTurn ⟨p, n⟩) = .next (s.withTurn ⟨p, n⟩) := by
        rw [exec_eq_runCommand, hrun, if_neg hne]
      exact (congrArg sansTurn hskip).symm

/-! ### The words of the command in flight (R11, R26) -/

section
variable {s t : State} {p : Port} {b : BufSel}

theorem flightIsStream_of_idle (h : (s.port p).infl = .idle) : flightIsStream s p = true := by
  simp only [flightIsStream, h]

theorem flightIsStream_of_busy {c : InFlight} (h : (s.port p).infl = .busy c) :
    flightIsStream s p = true ↔ decode (s.pending p) = .legal c.cmd (wordCount c.cmd) := by
  simp only [flightIsStream, h, beq_iff_eq]

/-- It speaks of the port alone. -/
theorem flightIsStream_congr (h : t.port p = s.port p) : flightIsStream t p = flightIsStream s p := by
  simp only [flightIsStream, State.pending, h]

/-- What a port runs next is what its words say, if they say it of the command in flight. -/
theorem decode_of_nextCommand {i : Instr} (hs : flightIsStream s p = true) (h : nextCommand s p = some i) :
    decode (s.pending p) = .legal i (wordCount i) := by
  cases hinfl : (s.port p).infl with
  | busy c =>
    rw [nextCommand, hinfl] at h
    cases h
    exact (flightIsStream_of_busy hinfl).mp hs
  | idle =>
    simp only [nextCommand, hinfl] at h
    cases hd : decode (s.pending p) with
    | legal j n =>
      rw [hd] at h
      cases h
      rw [(legalWordsAreTheEncoding _ _ _ hd).2.1]
    | illegal e n => rw [hd] at h; cases h
    | starved => rw [hd] at h; cases h

/-- A word presented after a command that stands whole in the stream changes nothing for it. -/
theorem decode_append {ws : List Word} {i : Instr} {n : Nat} (w : Word) (h : decode ws = .legal i n) :
    decode (ws ++ [w]) = .legal i n := by
  obtain ⟨hwf, hn, hwords⟩ := legalWordsAreTheEncoding ws i n h
  rw [← List.take_append_drop n ws, ← hwords, List.append_assoc, hn]
  exact wellFormedCommandDecodesBack i _ hwf

theorem flightIsStream_present (p : Port) (w : Word) (q : Port) (h : flightIsStream s q = true) :
    flightIsStream (presentStep p w s) q = true := by
  by_cases hq : q = p
  · subst hq
    have hport : (presentStep q w s).port q = { s.port q with stream := (s.port q).stream ++ [w] } := by
      rw [presentStep, setPort_port_same]
    cases hinfl : (s.port q).infl with
    | idle => exact flightIsStream_of_idle (by rw [hport]; exact hinfl)
    | busy c =>
      have hd := (flightIsStream_of_busy hinfl).mp h
      rw [flightIsStream_of_busy (c := c) (by rw [hport]; exact hinfl), State.pending, hport]
      have hpos : (s.port q).pos ≤ (s.port q).stream.length := by
        by_contra hgt
        rw [State.pending, List.drop_of_length_le (by omega)] at hd
        cases hd
      rw [List.drop_append_of_le_length hpos]
      exact decode_append w hd
  · exact (flightIsStream_congr (setPort_port_other _ _ _ _ hq)).trans h

theorem eq_otherPort {q : Port} (h : q ≠ p) : q = otherPort p := by
  revert h
  cases p <;> cases q <;> decide

theorem flightIsStream_runPort {more : Nat} (hs : ∀ q, flightIsStream s q = true) (h : runPort p more s = .next t)
    (q : Port) : flightIsStream t q = true := by
  obtain ⟨hother, hown⟩ := runPort_ports h
  by_cases hq : q = p
  · subst hq
    rcases hown with hsame | hidle | ⟨i, l, x, hnext, hbusy⟩
    · exact (flightIsStream_congr hsame).trans (hs q)
    · exact flightIsStream_of_idle hidle
    · rw [flightIsStream_of_busy (c := ⟨i, l, x⟩) (by rw [hbusy]), State.pending, hbusy]
      exact decode_of_nextCommand (hs q) hnext
  · obtain rfl := eq_otherPort hq
    exact (flightIsStream_congr hother).trans (hs _)

theorem syncWStep_port {y : Half} (q : Port) : (syncWStep b y s).port q = s.port q := by
  rcases syncWStep_cases b y s with heq | ⟨-, -, heq⟩ <;> rw [heq]
  exact setBuf_port ..

theorem syncRStep_port {y : Half} (q : Port) : (syncRStep b y s).port q = s.port q := by
  rcases syncRStep_cases b y s with heq | ⟨-, -, heq⟩ <;> rw [heq]
  exact setBuf_port ..

theorem flightIsStream_perform {e : Event} (hs : ∀ q, flightIsStream s q = true) (h : perform e s = .next t)
    (q : Port) : flightIsStream t q = true := by
  cases e with
  | run p more => exact flightIsStream_runPort hs h q
  | syncW b y => cases h; exact (flightIsStream_congr (syncWStep_port q)).trans (hs q)
  | syncR b y => cases h; exact (flightIsStream_congr (syncRStep_port q)).trans (hs q)
  | envRx v => cases h; exact (flightIsStream_congr (by cases q <;> rfl)).trans (hs q)
  | envTxReady => cases h; exact (flightIsStream_congr (by cases q <;> rfl)).trans (hs q)
  | present p w => cases h; exact flightIsStream_present p w q (hs q)

end

/-- Settles O12: a turn leaves its port idle or with the command its words say, and a presented word follows them. -/
theorem stepKeepsTheCommandInTheStream : Obligations.StepKeepsTheCommandInTheStream := by
  intro s t hfg hbh h
  have hs (q : Port) : flightIsStream (takeEvent s).2 q = true := by
    rw [flightIsStream_congr (takeEvent_port s q)]
    cases q <;> assumption
  exact ⟨flightIsStream_perform hs h .fg, flightIsStream_perform hs h .bh⟩

end Sys2Proof.Machine

namespace Sys2Proof.Machine

/-! ### Everything a unit can do, said once -/

/-- The port in whose name a unit uses the buffers: `SC.BHALF` is the bottom-half's (`42_bottom_half_and_agents.md`
R120). -/
def actsAs (p : Port) : Instr → Port
  | .scBhalf => .bh
  | _ => p

/-- The buffer a unit stores to with `cb_write`. -/
def unitStoresTo (i : Instr) (l : Label) : Option BufSel :=
  match i, l with
  | .cbWrite b _, .u1 => some b
  | .scEnq _, .u1 => some .outbound
  | .scBhalf, .u3 => some .inbound
  | _, _ => none

/-- The byte such a unit offers. -/
def storedValue (i : Instr) (x : Locals) : Byte :=
  match i with
  | .cbWrite _ v => v
  | .scEnq v => v
  | _ => x.v

/-- The buffer whose resize window a unit opens. -/
def unitOpens (i : Instr) (l : Label) : Option BufSel :=
  match i, l with
  | .cbResize b _, .u1 => some b
  | .scResize _, .u2 => some .inbound
  | .scResize _, .u4 => some .outbound
  | _, _ => none

/-- The capacity that a resizing command names. -/
def resizeCapacity : Instr → Half
  | .cbResize _ n => n
  | .scResize n => n
  | _ => 0

/-- Whether a unit reads the transport (`42_bottom_half_and_agents.md` R128). -/
def unitReadsTransport (i : Instr) (l : Label) : Bool :=
  match i, l with
  | .scBrdb, .u2 => true
  | .scBhalf, .u2 => true
  | _, _ => false

/-- Whether a unit is a wait whose level is false (`00_scope.md` R9). -/
def unitHolds (i : Instr) (l : Label) (s : State) : Bool :=
  match i, l with
  | .scBrdb, .u1 => !dataAvailable s
  | .scBwrb _, .u1 => !readyToSend s
  | .scBwrite _ _ _, .u2 => !readyToSend s
  | .scBhalf, .u7a => !readyToSend s
  | _, _ => false

/-- Whether a command arms transmission, or ends with a platform action that does. -/
def armsTransmit : Instr → Bool
  | .scEnq _ => true
  | .scArmtx => true
  | _ => false

/-- Whether a command disarms transmission. -/
def disarmsTransmit : Instr → Bool
  | .scDistx => true
  | .scBhalf => true
  | _ => false

/-- What a unit of the command `i` at the label `l` can do to the state. -/
inductive UnitEffect (p : Port) (i : Instr) (l : Label) (x : Locals) (s : State) : State → Prop
  | nothing : UnitEffect p i l x s s
  | write {b : BufSel} {st : Status} {c : CBuf Byte} (hb : unitStoresTo i l = some b)
      (h : (s.buf b).write s.par.sync (roleOf (actsAs p i) b) (storedValue i x) = .ok (st, c)) :
      UnitEffect p i l x s (s.setBuf b c)
  | read {b : BufSel} {r : Option Byte} {c : CBuf Byte} (hb : unitTakesFrom i l = some b)
      (h : (s.buf b).read s.par.sync (roleOf (actsAs p i) b) = .ok (r, c)) : UnitEffect p i l x s (s.setBuf b c)
  | resizeOpen {b : BufSel} {st : Status} {c : CBuf Byte} (hb : unitOpens i l = some b)
      (h : (s.buf b).resizeOpen (resizeCapacity i) = .ok (st, c)) : UnitEffect p i l x s (s.setBuf b c)
  | resizeCopy {b : BufSel} {k : Nat} {c : CBuf Byte} (hb : InFlight.window ⟨i, l, x⟩ = some b)
      (h : (s.buf b).resizeCopy (resizeCapacity i) = .ok (k, c)) : UnitEffect p i l x s (s.setBuf b c)
  | fault (f : FaultState) (hi : blockingWrite i = true) : UnitEffect p i l x s { s with fault := f }
  | transportRead {v : Byte} {rest : List Byte} (hl : unitReadsTransport i l = true) (h : s.rxq = v :: rest) :
      UnitEffect p i l x s { s with rxq := rest, trace := s.trace ++ [.trd p v] }
  | transportWrite {v : Byte} (hl : unitWritesTransport i l = true) (h : s.txReady = true) :
      UnitEffect p i l x s (transmitted p v s)
  | armReceive (hi : i = .scArmrx) : UnitEffect p i l x s { s with rxArm := true }
  | enableReceive (hi : i = .scArmrx) : UnitEffect p i l x s (enableReceive p s)
  | armTransmit (hi : armsTransmit i = true) : UnitEffect p i l x s { s with txArm := true }
  | enableTransmit (hi : armsTransmit i = true) : UnitEffect p i l x s (enableTransmit p s)
  | disarmTransmit (hi : disarmsTransmit i = true) : UnitEffect p i l x s { s with txArm := false }
  | disableTransmit (hi : disarmsTransmit i = true) : UnitEffect p i l x s (disableTransmit p s)

/-- Why a unit of the command `i` at the label `l` can fault: the port table, an open window, a transport that is not
ready, or a buffer that is not in order. -/
inductive FaultCause (p : Port) (i : Instr) (l : Label) (s : State) : Fault → Prop
  | discipline (h : portAllows p i = false) : FaultCause p i l s .portDiscipline
  | window {b : BufSel} (hb : unitBuffer i l = some b) (hl : ∀ x, InFlight.window ⟨i, l, x⟩ = none)
      (h : (s.buf b).rsz = true) : FaultCause p i l s .resizeRace
  | noData (hl : unitReadsTransport i l = true) (h : s.rxq = []) : FaultCause p i l s .transportNotReady
  | notReady (hl : unitWritesTransport i l = true) (h : s.txReady = false) : FaultCause p i l s .transportNotReady
  | disorder {b : BufSel} {f : Fault} (h : ∀ sync, ¬ BufInv sync (s.buf b)) : FaultCause p i l s f

/-- What the result of a unit says of it. -/
def UnitResult.Explained (p : Port) (i : Instr) (l : Label) (x : Locals) (s : State) : UnitResult → Prop
  | .goto _ _ t => UnitEffect p i l x s t
  | .retire _ _ t => UnitEffect p i l x s t
  | .hold => unitHolds i l s = true
  | .fault f => FaultCause p i l s f
  | .refuse _ => l ≠ .u1 ∧ ∀ par, recordOk par p ⟨i, l, x⟩ = false

section
variable {α : Type} {sync sync' : Sync} {c : CBuf α} {v : α} {f : Fault} {n : Half}

/-- A buffer in order answers its producer. -/
theorem BufInv.write_answers (hc : BufInv sync' c) (hrsz : c.rsz = false) : ∃ r, c.write sync .producer v = .ok r := by
  obtain ⟨⟨-, hwr, -⟩, -⟩ := hc
  by_cases hfull : inc c.wr c.cap = c.rdv
  · exact ⟨_, (write_full_iff hrsz).mpr hfull⟩
  · exact ⟨_, write_accepts hrsz hwr hfull⟩

/-- A buffer in order that the consumer does not see empty has a value in the slot it reads. -/
theorem BufInv.head_filled (hc : BufInv sync' c) (hseen : c.wrv ≠ c.rd) :
    c.rd.toNat < c.cap.toNat ∧ ∃ v, memGet c.mem c.rd.toNat = some v := by
  obtain ⟨hin, hring, ⟨-, -, hfilled⟩, -⟩ := hc
  have hpos : 0 < c.count := Nat.pos_of_ne_zero fun h0 => hseen (RingOrder.seen_empty_of_empty hin hring h0)
  obtain ⟨-, -, hrd, -⟩ := hin
  have hslot := hfilled 0 hpos
  rw [Nat.add_zero, Nat.mod_eq_of_lt hrd] at hslot
  exact ⟨hrd, Option.isSome_iff_exists.mp hslot⟩

/-- A buffer in order answers its consumer. -/
theorem BufInv.read_answers (hc : BufInv sync' c) (hrsz : c.rsz = false) : ∃ r, c.read sync .consumer = .ok r := by
  by_cases hseen : c.wrv = c.rd
  · exact ⟨_, (read_empty_iff hrsz).mpr hseen⟩
  · obtain ⟨hrd, v, hv⟩ := hc.head_filled hseen
    exact ⟨_, read_takes hrsz hseen hrd hv⟩

end

section
variable {p : Port} {i : Instr} {l : Label} {x x' : Locals} {s t : State} {b : BufSel} {f : Fault}

/-! ### The labels at which a unit uses a buffer -/

theorem unitBuffer_of_stores (h : unitStoresTo i l = some b) :
    unitBuffer i l = some b ∧ InFlight.window ⟨i, l, x⟩ = none ∧
      (roleOf (actsAs p i) b = .producer ∨ portAllows p i = false) := by
  unfold unitStoresTo at h
  split at h
  · cases h
    exact ⟨rfl, rfl, by cases hrole : roleOf p b <;> simp [actsAs, portAllows, hrole]⟩
  · cases h
    exact ⟨rfl, rfl, by cases p <;> simp [actsAs, portAllows, roleOf]⟩
  · cases h
    exact ⟨rfl, rfl, .inl rfl⟩
  · cases h

theorem unitBuffer_of_takes (h : unitTakesFrom i l = some b) :
    unitBuffer i l = some b ∧ InFlight.window ⟨i, l, x⟩ = none ∧
      (roleOf (actsAs p i) b = .consumer ∨ portAllows p i = false) := by
  unfold unitTakesFrom at h
  split at h
  · cases h
    exact ⟨rfl, rfl, by cases hrole : roleOf p b <;> simp [actsAs, portAllows, hrole]⟩
  · cases h
    exact ⟨rfl, rfl, by cases p <;> simp [actsAs, portAllows, roleOf]⟩
  · cases h
    exact ⟨rfl, rfl, .inl rfl⟩
  · cases h

theorem unitBuffer_of_opens (h : unitOpens i l = some b) :
    unitBuffer i l = some b ∧ InFlight.window ⟨i, l, x⟩ = none := by
  unfold unitOpens at h
  split at h <;> cases h <;> exact ⟨rfl, rfl⟩

/-! ### Each primitive explained -/

/-- A unit that calls `cb_write` where its command stores. -/
theorem explained_cbWrite {k : Status × State → UnitResult} (hb : unitStoresTo i l = some b)
    (hk : ∀ r, UnitEffect p i l x s r.2 → (k r).Explained p i l x s) :
    (attempt (cbWrite (actsAs p i) b (storedValue i x) s) k).Explained p i l x s := by
  obtain ⟨hbuf, -, hrole⟩ := unitBuffer_of_stores (p := p) (x := x) hb
  refine attempt_induct (fun f hf => ?_) fun r hr => ?_
  · have herror := cbWrite_error hf
    cases hrsz : (s.buf b).rsz with
    | true =>
      rw [write_resizeRace hrsz] at herror
      cases herror
      exact .window hbuf (fun _ => (unitBuffer_of_stores (p := p) hb).2.1) hrsz
    | false =>
      cases hr : roleOf (actsAs p i) b with
      | producer =>
        rw [hr] at herror
        refine .disorder (b := b) fun sync hinv => ?_
        obtain ⟨r, hr⟩ := hinv.write_answers (sync := s.par.sync) (v := storedValue i x) hrsz
        rw [hr] at herror
        cases herror
      | consumer =>
        rw [hr, write_portDiscipline hrsz] at herror
        cases herror
        exact .discipline (hrole.resolve_left (by simp [hr]))
  · obtain ⟨c, hc, ht⟩ := cbWrite_ok hr
    exact hk r (ht ▸ .write hb hc)

/-- A unit that calls `cb_read` where its command takes an element. -/
theorem explained_cbRead {k : Option Byte × State → UnitResult} (hb : unitTakesFrom i l = some b)
    (hk : ∀ r, UnitEffect p i l x s r.2 → (k r).Explained p i l x s) :
    (attempt (cbRead (actsAs p i) b s) k).Explained p i l x s := by
  obtain ⟨hbuf, -, hrole⟩ := unitBuffer_of_takes (p := p) (x := x) hb
  refine attempt_induct (fun f hf => ?_) fun r hr => ?_
  · have herror := cbRead_error hf
    cases hrsz : (s.buf b).rsz with
    | true =>
      rw [read_resizeRace hrsz] at herror
      cases herror
      exact .window hbuf (fun _ => (unitBuffer_of_takes (p := p) hb).2.1) hrsz
    | false =>
      cases hr : roleOf (actsAs p i) b with
      | consumer =>
        rw [hr] at herror
        refine .disorder (b := b) fun sync hinv => ?_
        obtain ⟨r, hr⟩ := hinv.read_answers (sync := s.par.sync) hrsz
        rw [hr] at herror
        cases herror
      | producer =>
        rw [hr, read_portDiscipline hrsz] at herror
        cases herror
        exact .discipline (hrole.resolve_left (by simp [hr]))
  · obtain ⟨c, hc, ht⟩ := cbRead_ok hr
    exact hk r (ht ▸ .read hb hc)

/-- A unit that opens the window of a resize. -/
theorem explained_resizeOpen (hb : unitOpens i l = some b) {l' : Label} :
    (attempt (cbResizeOpen b (resizeCapacity i) s) fun r =>
      if r.1 = .ok then .goto l' x' r.2 else raise r.1 r.2).Explained p i l x s := by
  obtain ⟨hbuf, -⟩ := unitBuffer_of_opens (x := x) hb
  refine attempt_induct (fun f hf => ?_) fun r hr => ?_
  · obtain ⟨hrsz, rfl⟩ := resizeOpen_error (cbResizeOpen_error hf)
    exact .window hbuf (fun _ => (unitBuffer_of_opens hb).2) hrsz
  · obtain ⟨c, hc, ht⟩ := cbResizeOpen_ok hr
    have heffect : UnitEffect p i l x s r.2 := ht ▸ .resizeOpen hb hc
    split <;> exact heffect

/-- A unit that copies inside the window of a resize. -/
theorem explained_resizeCopy {k : Nat × State → UnitResult} (hb : InFlight.window ⟨i, l, x⟩ = some b)
    (hk : ∀ r, UnitEffect p i l x s r.2 → (k r).Explained p i l x s) :
    (attempt (cbResizeCopy b (resizeCapacity i) s) k).Explained p i l x s := by
  refine attempt_induct (fun f hf => ?_) fun r hr => ?_
  · refine .disorder (b := b) fun sync ⟨_, _, hst, _⟩ => ?_
    obtain ⟨k, d, hcopy⟩ := hst.resizeCopy_answers (resizeCapacity i)
    have herror := cbResizeCopy_error hf
    rw [hcopy] at herror
    cases herror
  · obtain ⟨c, hc, ht⟩ := cbResizeCopy_ok hr
    exact hk r (ht ▸ .resizeCopy hb hc)

/-- A query. -/
theorem explained_query {α : Type} {answer : α} {k : α → UnitResult} (hb : unitBuffer i l = some b)
    (hl : ∀ x, InFlight.window ⟨i, l, x⟩ = none) (hk : ∀ a, (k a).Explained p i l x s) :
    (attempt ((s.buf b).query answer) k).Explained p i l x s := by
  refine attempt_induct (fun f hf => ?_) fun a _ => hk a
  obtain ⟨hrsz, rfl⟩ := query_error hf
  exact .window hb hl hrsz

theorem explained_transportRead {k : Byte × State → UnitResult} (hl : unitReadsTransport i l = true)
    (hk : ∀ r, UnitEffect p i l x s r.2 → (k r).Explained p i l x s) :
    (attempt (transportRead p s) k).Explained p i l x s := by
  cases hq : s.rxq with
  | nil =>
    rw [attempt_of_error (transportRead_of_nil hq)]
    exact .noData hl hq
  | cons v rest =>
    rw [attempt_of_ok (transportRead_of_cons hq)]
    exact hk _ (.transportRead hl hq)

theorem explained_transportWrite {v : Byte} {k : State → UnitResult} (hl : unitWritesTransport i l = true)
    (hk : ∀ t, UnitEffect p i l x s t → (k t).Explained p i l x s) :
    (attempt (transportWrite p v s) k).Explained p i l x s := by
  cases hr : s.txReady with
  | false =>
    rw [attempt_of_error (transportWrite_of_unready hr)]
    exact .notReady hl hr
  | true =>
    rw [attempt_of_ok (transportWrite_of_ready hr)]
    exact hk _ (.transportWrite hl hr)

theorem explained_waitUntil {ready : Bool} {l' : Label} (hl : unitHolds i l s = !ready) :
    (waitUntil ready l' x' s).Explained p i l x s := by
  cases ready with
  | false => exact hl
  | true => exact .nothing

theorem explained_readAnswer {r : Option Byte} (h : UnitEffect p i l x s t) :
    UnitResult.Explained p i l x s (match r with
      | none => raise .bufferEmpty t
      | some v => .retire .ok (v.setWidth 16) t) := by
  cases r <;> exact h

/-- A label that a command does not have. -/
theorem explained_malformed (hl : l ≠ .u1) (h : ∀ par, recordOk par p ⟨i, l, x⟩ = false) :
    (UnitResult.refuse .malformedRecord).Explained p i l x s := ⟨hl, h⟩

/-! ### Every unit explained -/

theorem explained_scBwrite {np : Bool} {len : Half} {bytes : List Byte} :
    (unitScBwrite np len bytes p l x s).Explained p (.scBwrite np len bytes) l x s := by
  cases l
  case u1 =>
    rw [unitScBwrite]
    split
    · exact .fault _ rfl
    · exact .nothing
  case u2 => exact explained_waitUntil rfl
  case u3 =>
    rw [unitScBwrite]
    split
    · next hnone =>
      refine explained_malformed (by decide) fun par => ?_
      rw [List.getElem?_eq_none_iff] at hnone
      simp only [recordOk, Bool.and_eq_false_iff, decide_eq_false_iff_not, beq_eq_false_iff_ne]
      by_cases hlen : bytes.length = len.toNat
      · exact .inr (by omega)
      · exact .inl (.inr hlen)
    · exact explained_transportWrite rfl fun _ h => h
  case u4 => exact .fault _ rfl
  all_goals exact explained_malformed (by decide) fun _ => rfl

theorem explained_scBhalf : (unitScBhalf p l x s).Explained p .scBhalf l x s := by
  cases l with
  | u1 =>
    rw [unitScBhalf]
    split
    · next hport => exact .discipline (by simpa [portAllows] using hport)
    · exact .nothing
  | u2 => exact explained_transportRead rfl fun _ h => h
  | u3 => exact explained_cbWrite rfl fun _ h => h
  | u4 => exact .nothing
  | u5 => rw [unitScBhalf]; split <;> exact .nothing
  | u6 => exact explained_cbRead rfl fun r h => by split <;> exact h
  | u7 => exact explained_transportWrite rfl fun _ h => h
  | u7a => exact explained_waitUntil rfl
  | u7b => exact explained_transportWrite rfl fun _ h => h
  | u8 => exact .disarmTransmit rfl
  | u9 => exact .disableTransmit rfl

theorem explained_scEnq {v : Byte} : (unitScEnq v p l x s).Explained p (.scEnq v) l x s := by
  cases l
  case u1 =>
    rw [unitScEnq]
    split
    · next hport => exact .discipline (by simpa [portAllows] using hport)
    · next hport =>
      obtain rfl := not_not.mp hport
      exact explained_cbWrite (i := .scEnq v) (x := x) rfl fun _ h => h
  case u2 => exact .armTransmit rfl
  case u3 => exact .enableTransmit rfl
  all_goals exact explained_malformed (by decide) fun _ => rfl

theorem explained_scDeq : (unitScDeq p l x s).Explained p .scDeq l x s := by
  cases l
  case u1 =>
    rw [unitScDeq]
    split
    · next hport => exact .discipline (by simpa [portAllows] using hport)
    · next hport =>
      obtain rfl := not_not.mp hport
      exact explained_cbRead (i := .scDeq) rfl fun _ h => explained_readAnswer h
  all_goals exact explained_malformed (by decide) fun _ => rfl

theorem explained_scResize {n : Half} : (unitScResize n p l x s).Explained p (.scResize n) l x s := by
  cases l
  case u1 => rw [unitScResize]; split <;> exact .nothing
  case u2 => exact explained_resizeOpen (i := .scResize n) rfl
  case u3 => exact explained_resizeCopy (i := .scResize n) rfl fun _ h => h
  case u4 => exact explained_resizeOpen (i := .scResize n) rfl
  case u5 =>
    refine explained_resizeCopy (i := .scResize n) rfl fun r h => ?_
    dsimp only
    split <;> exact h
  all_goals exact explained_malformed (by decide) fun _ => rfl

/-- Every result of every unit, explained. -/
theorem unitOf_explained (i : Instr) (p : Port) (l : Label) (x : Locals) (s : State) :
    (unitOf i p l x s).Explained p i l x s := by
  cases i with
  | cbWrite b v =>
    cases l
    case u1 => exact explained_cbWrite (i := .cbWrite b v) (x := x) rfl fun _ h => h
    all_goals exact explained_malformed (by decide) fun _ => rfl
  | cbRead b =>
    cases l
    case u1 => exact explained_cbRead (i := .cbRead b) rfl fun _ h => explained_readAnswer h
    all_goals exact explained_malformed (by decide) fun _ => rfl
  | cbResize b n =>
    cases l
    case u1 => exact explained_resizeOpen (i := .cbResize b n) rfl
    case u2 => exact explained_resizeCopy (i := .cbResize b n) rfl fun r h => by split <;> exact h
    all_goals exact explained_malformed (by decide) fun _ => rfl
  | cbIsEmpty b =>
    cases l
    case u1 => exact explained_query rfl (fun _ => rfl) fun _ => .nothing
    all_goals exact explained_malformed (by decide) fun _ => rfl
  | cbIsFull b =>
    cases l
    case u1 => exact explained_query rfl (fun _ => rfl) fun _ => .nothing
    all_goals exact explained_malformed (by decide) fun _ => rfl
  | cbCount b =>
    cases l
    case u1 => exact explained_query rfl (fun _ => rfl) fun _ => .nothing
    all_goals exact explained_malformed (by decide) fun _ => rfl
  | scBrdb =>
    cases l
    case u1 => exact explained_waitUntil rfl
    case u2 => exact explained_transportRead rfl fun _ h => h
    all_goals exact explained_malformed (by decide) fun _ => rfl
  | scBwrb v =>
    cases l
    case u1 => exact explained_waitUntil rfl
    case u2 => exact explained_transportWrite rfl fun _ h => h
    all_goals exact explained_malformed (by decide) fun _ => rfl
  | scBwrite np len bytes => exact explained_scBwrite
  | scEnq v => exact explained_scEnq
  | scDeq => exact explained_scDeq
  | scResize n => exact explained_scResize
  | scBhalf => exact explained_scBhalf
  | scArmrx =>
    cases l
    case u1 => exact .armReceive rfl
    case u2 => exact .enableReceive rfl
    all_goals exact explained_malformed (by decide) fun _ => rfl
  | scArmtx =>
    cases l
    case u1 => exact .armTransmit rfl
    case u2 => exact .enableTransmit rfl
    all_goals exact explained_malformed (by decide) fun _ => rfl
  | scDistx =>
    cases l
    case u1 => exact .disarmTransmit rfl
    case u2 => exact .disableTransmit rfl
    all_goals exact explained_malformed (by decide) fun _ => rfl
  | scStat =>
    cases l
    case u1 => exact .nothing
    all_goals exact explained_malformed (by decide) fun _ => rfl

end

end Sys2Proof.Machine

namespace Sys2Proof.Machine

/-! ### What every effect of a command keeps, its turns keep -/

section
variable {i : Instr} {p : Port} {l : Label} {x : Locals} {s t : State} {more : Nat} {P : State → Prop}

/-- The state a unit leaves, if it leaves one, is an effect of it. -/
theorem unitOf_effect : (unitOf i p l x s).Leaves (UnitEffect p i l x s) := by
  have h := unitOf_explained i p l x s
  cases hr : unitOf i p l x s with
  | goto l' x' t => rw [hr] at h; exact h
  | retire st v t => rw [hr] at h; exact h
  | hold => trivial
  | fault f => trivial
  | refuse r => trivial

/-- A property of the state that speaks of no port is kept by a turn if each effect of its command keeps it. -/
theorem drive_keeps (hport : ∀ u q, P u → P (u.setPort p q))
    (heffect : ∀ l x u t, P u → UnitEffect p i l x u t → P t) (hs : P s)
    (h : drive i (unitOf i) p more l x s = .next t) : P t := by
  refine drive_induct (I := fun _ _ u => P u) (Q := P) ?_ ?_ (fun l x u hu => hport _ _ hu) hs h
  · intro l x u l' x' u' hu hgoto
    have heff := unitOf_effect (i := i) (p := p) (l := l) (x := x) (s := u)
    rw [hgoto] at heff
    exact heffect _ _ _ _ hu heff
  · intro l x u st v u' hu hretire
    have heff := unitOf_effect (i := i) (p := p) (l := l) (x := x) (s := u)
    rw [hretire] at heff
    exact hport _ _ (heffect _ _ _ _ hu heff)

theorem exec_keeps (hport : ∀ u p q, P u → P (u.setPort p q))
    (heffect : ∀ l x u t, P u → UnitEffect s.turn.port i l x u t → P t) (hs : P s) (h : exec i s = .next t) : P t := by
  rw [exec_eq_runCommand] at h
  rcases runCommand_next h with ⟨-, hd⟩ | ⟨c, -, -, hd⟩ | ⟨c, -, -, rfl⟩
  · exact drive_keeps (fun u => hport u _) heffect hs hd
  · exact drive_keeps (fun u => hport u _) heffect hs hd
  · exact hs

/-- A turn of a port runs its next command and no other. -/
theorem runPort_keeps (hport : ∀ u p q, P u → P (u.setPort p q)) (hturn : ∀ u τ, P u → P (u.withTurn τ))
    (heffect : ∀ i, nextCommand s p = some i → ∀ l x u t, P u → UnitEffect p i l x u t → P t) (hs : P s)
    (h : runPort p more s = .next t) : P t := by
  rcases runPort_next h with ⟨c, hbusy, he⟩ | ⟨hidle, ⟨i, n, hd, he⟩ | ⟨e, n, -, rfl⟩ | ⟨-, rfl⟩⟩
  · exact exec_keeps hport (heffect _ (by simp [nextCommand, hbusy])) (hturn s ⟨p, more⟩ hs) he
  · exact exec_keeps hport (heffect _ (by simp [nextCommand, hidle, hd])) (hturn s ⟨p, more⟩ hs) he
  · exact hport _ _ _ (hturn s ⟨p, more⟩ hs)
  · exact hturn s ⟨p, more⟩ hs

/-- The state with another schedule ahead of it. -/
def State.withSchedule (s : State) (script : List Event) (tick : Nat) : State :=
  { s with script := script, tick := tick }

/-- The event that happens next happens in the state it finds, but for the schedule's own fields (log 1). -/
theorem step_eq_perform (s : State) :
    ∃ script tick, step s = perform (nextEvent s) (s.withSchedule script tick) := by
  rw [step, stepOnce, nextEvent]
  unfold takeEvent
  cases s.script with
  | nil => exact ⟨_, _, rfl⟩
  | cons e rest => exact ⟨rest, s.tick, rfl⟩

end

/-! ### Reception stays armed (`10_state.md` R21) -/

/-- `t` has reception and its event armed where `s` has. -/
def StillReceives (s t : State) : Prop := (s.rxArm = true → t.rxArm = true) ∧ (s.evRx = true → t.evRx = true)

theorem StillReceives.refl (s : State) : StillReceives s s := ⟨id, id⟩

section
variable {i : Instr} {p : Port} {l : Label} {x : Locals} {s t u : State}

theorem StillReceives.of_eq (harm : t.rxArm = s.rxArm) (hev : t.evRx = s.evRx) : StillReceives s t :=
  ⟨harm.trans, hev.trans⟩

theorem StillReceives.trans (h : StillReceives s t) (h' : StillReceives t u) : StillReceives s u :=
  ⟨h'.1 ∘ h.1, h'.2 ∘ h.2⟩

/-- A transport write changes `TXLOG`, `TRACE`, `TXRDY` and what the draws are kept in (R129, log 4). -/
theorem transmitted_eq (p : Port) (v : Byte) (s : State) : ∃ rdy draws tick, transmitted p v s =
    { s with
      txReady := rdy, draws := draws, tick := tick, txLog := s.txLog ++ [v], trace := s.trace ++ [.twr p v] } := by
  unfold transmitted takeDraw
  cases s.draws with
  | nil => exact ⟨_, [], _, rfl⟩
  | cons d ds => exact ⟨d, ds, s.tick, rfl⟩

theorem transmitted_rxArm (v : Byte) : (transmitted p v s).rxArm = s.rxArm := by
  obtain ⟨rdy, draws, tick, heq⟩ := transmitted_eq p v s
  rw [heq]

theorem transmitted_evRx (v : Byte) : (transmitted p v s).evRx = s.evRx := by
  obtain ⟨rdy, draws, tick, heq⟩ := transmitted_eq p v s
  rw [heq]

theorem UnitEffect.stillReceives (h : UnitEffect p i l x s t) : StillReceives s t := by
  cases h with
  | nothing => exact .refl s
  | write _ _ => exact .of_eq (setBuf_rxArm ..) (setBuf_evRx ..)
  | read _ _ => exact .of_eq (setBuf_rxArm ..) (setBuf_evRx ..)
  | resizeOpen _ _ => exact .of_eq (setBuf_rxArm ..) (setBuf_evRx ..)
  | resizeCopy _ _ => exact .of_eq (setBuf_rxArm ..) (setBuf_evRx ..)
  | fault _ _ => exact .of_eq rfl rfl
  | transportRead _ _ => exact .of_eq rfl rfl
  | transportWrite _ _ => exact .of_eq (transmitted_rxArm _) (transmitted_evRx _)
  | armReceive _ => exact ⟨fun _ => rfl, id⟩
  | enableReceive _ => exact ⟨id, fun _ => rfl⟩
  | armTransmit _ => exact .of_eq rfl rfl
  | enableTransmit _ => exact .of_eq rfl rfl
  | disarmTransmit _ => exact .of_eq rfl rfl
  | disableTransmit _ => exact .of_eq rfl rfl

theorem perform_stillReceives {e : Event} (h : perform e s = .next t) : StillReceives s t := by
  cases e with
  | run p more =>
    exact runPort_keeps (P := StillReceives s)
      (fun u p q hu => hu.trans (.of_eq (setPort_rxArm ..) (setPort_evRx ..))) (fun _ _ hu => hu)
      (fun _ _ _ _ _ _ hu heffect => hu.trans heffect.stillReceives) (.refl s) h
  | syncW b y =>
    cases h
    rcases syncWStep_cases b y s with heq | ⟨-, -, heq⟩ <;> rw [heq]
    · exact .refl s
    · exact .of_eq (setBuf_rxArm ..) (setBuf_evRx ..)
  | syncR b y =>
    cases h
    rcases syncRStep_cases b y s with heq | ⟨-, -, heq⟩ <;> rw [heq]
    · exact .refl s
    · exact .of_eq (setBuf_rxArm ..) (setBuf_evRx ..)
  | envRx v => cases h; exact .refl s
  | envTxReady => cases h; exact .refl s
  | present p w => cases h; exact .of_eq (setPort_rxArm ..) (setPort_evRx ..)

end

/-- Settles O40: no effect of a unit, and no other event, takes reception back. -/
theorem receptionStaysArmed : Obligations.ReceptionStaysArmed := by
  intro s t h
  obtain ⟨script, tick, hstep⟩ := step_eq_perform s
  rw [hstep] at h
  exact perform_stillReceives (s := s.withSchedule script tick) h

end Sys2Proof.Machine

namespace Sys2Proof.Machine

/-! ### What a unit does to each buffer (`20_memory.md` R41) -/

/-- What a unit of `i` at `l` does to the buffer `b`, which it finds as `c`. -/
inductive BufEffect (p : Port) (i : Instr) (l : Label) (x : Locals) (sync : Sync) (b : BufSel) (c : CBuf Byte) :
    CBuf Byte → Prop
  | same : BufEffect p i l x sync b c c
  | write {st : Status} {d : CBuf Byte} (hb : unitStoresTo i l = some b)
      (h : c.write sync (roleOf (actsAs p i) b) (storedValue i x) = .ok (st, d)) : BufEffect p i l x sync b c d
  | read {r : Option Byte} {d : CBuf Byte} (hb : unitTakesFrom i l = some b)
      (h : c.read sync (roleOf (actsAs p i) b) = .ok (r, d)) : BufEffect p i l x sync b c d
  | resizeOpen {st : Status} {d : CBuf Byte} (hb : unitOpens i l = some b)
      (h : c.resizeOpen (resizeCapacity i) = .ok (st, d)) : BufEffect p i l x sync b c d
  | resizeCopy {k : Nat} {d : CBuf Byte} (hb : InFlight.window ⟨i, l, x⟩ = some b)
      (h : c.resizeCopy (resizeCapacity i) = .ok (k, d)) : BufEffect p i l x sync b c d

section
variable {p : Port} {i : Instr} {l : Label} {x : Locals} {s t : State} {b b' : BufSel} {sync : Sync} {c d : CBuf Byte}
  {v : Byte}

@[simp] theorem transmitted_buf : (transmitted p v s).buf b = s.buf b := by
  obtain ⟨rdy, draws, tick, heq⟩ := transmitted_eq p v s
  rw [heq]
  cases b <;> rfl

@[simp] theorem transmitted_par : (transmitted p v s).par = s.par := by
  obtain ⟨rdy, draws, tick, heq⟩ := transmitted_eq p v s
  rw [heq]

@[simp] theorem transmitted_rxq : (transmitted p v s).rxq = s.rxq := by
  obtain ⟨rdy, draws, tick, heq⟩ := transmitted_eq p v s
  rw [heq]

/-- An operation on one buffer, seen from any. -/
theorem bufEffect_setBuf (h : BufEffect p i l x sync b (s.buf b) c) :
    BufEffect p i l x sync b' (s.buf b') ((s.setBuf b c).buf b') := by
  by_cases hb : b' = b
  · subst hb
    rw [setBuf_buf_same]
    exact h
  · rw [setBuf_buf_other _ _ _ _ hb]
    exact .same

theorem UnitEffect.buf (h : UnitEffect p i l x s t) (b : BufSel) :
    BufEffect p i l x s.par.sync b (s.buf b) (t.buf b) := by
  have hsame (heq : t.buf b = s.buf b) : BufEffect p i l x s.par.sync b (s.buf b) (t.buf b) := by
    rw [heq]
    exact .same
  cases h with
  | nothing => exact .same
  | write hb h => exact bufEffect_setBuf (.write hb h)
  | read hb h => exact bufEffect_setBuf (.read hb h)
  | resizeOpen hb h => exact bufEffect_setBuf (.resizeOpen hb h)
  | resizeCopy hb h => exact bufEffect_setBuf (.resizeCopy hb h)
  | fault _ _ => exact hsame (by cases b <;> rfl)
  | transportRead _ _ => exact hsame (by cases b <;> rfl)
  | transportWrite _ _ => exact hsame transmitted_buf
  | armReceive _ => exact hsame (by cases b <;> rfl)
  | enableReceive _ => exact hsame (by cases b <;> rfl)
  | armTransmit _ => exact hsame (by cases b <;> rfl)
  | enableTransmit _ => exact hsame (by cases b <;> rfl)
  | disarmTransmit _ => exact hsame (by cases b <;> rfl)
  | disableTransmit _ => exact hsame (by cases b <;> rfl)

theorem UnitEffect.par (h : UnitEffect p i l x s t) : t.par = s.par := by
  cases h with
  | nothing => rfl
  | write _ _ => exact setBuf_par ..
  | read _ _ => exact setBuf_par ..
  | resizeOpen _ _ => exact setBuf_par ..
  | resizeCopy _ _ => exact setBuf_par ..
  | fault _ _ => rfl
  | transportRead _ _ => rfl
  | transportWrite _ _ => exact transmitted_par
  | armReceive _ => rfl
  | enableReceive _ => rfl
  | armTransmit _ => rfl
  | enableTransmit _ => rfl
  | disarmTransmit _ => rfl
  | disableTransmit _ => rfl

/-- A command that does not resize has no unit that opens a window or copies in one. -/
theorem unitOpens_of_not_isResize (h : isResize i = false) : unitOpens i l = none := by
  cases i with
  | cbResize => cases h
  | scResize => cases h
  | _ => rfl

theorem window_of_not_isResize (h : isResize i = false) : InFlight.window ⟨i, l, x⟩ = none := by
  cases i with
  | cbResize => cases h
  | scResize => cases h
  | _ => rfl

/-! ### Commands that store nothing (O27) -/

/-- Whether no unit of a command stores to a buffer. -/
def storesNothing (i : Instr) : Prop := isResize i = false ∧ ∀ l, unitStoresTo i l = none

theorem BufEffect.of_storesNothing (hi : storesNothing i) (h : BufEffect p i l x sync b c d) :
    d = c ∨ ∃ r, unitTakesFrom i l = some b ∧ c.read sync (roleOf (actsAs p i) b) = .ok (r, d) := by
  obtain ⟨hresize, hstores⟩ := hi
  cases h with
  | same => exact .inl rfl
  | write hb _ => rw [hstores] at hb; cases hb
  | read hb h => exact .inr ⟨_, hb, h⟩
  | resizeOpen hb _ => rw [unitOpens_of_not_isResize hresize] at hb; cases hb
  | resizeCopy hb _ => rw [window_of_not_isResize hresize] at hb; cases hb

/-- A read moves an index and no slot. -/
theorem read_mem {α : Type} {role : Role} {c d : CBuf α} {r : Option α} (h : c.read sync role = .ok (r, d)) :
    d.mem = c.mem := by
  obtain ⟨-, -, ⟨-, -, rfl⟩ | ⟨-, -, v, -, -, rfl⟩⟩ := read_ok h <;> rfl

/-- A command that stores nothing keeps every slot, and whole each buffer that it does not read. -/
theorem exec_storesNothing (hi : storesNothing i) (h : exec i s = .next t) (b : BufSel) :
    (t.buf b).mem = (s.buf b).mem ∧ ((∀ l, unitTakesFrom i l ≠ some b) → t.buf b = s.buf b) := by
  refine exec_keeps (P := fun u => (u.buf b).mem = (s.buf b).mem ∧
    ((∀ l, unitTakesFrom i l ≠ some b) → u.buf b = s.buf b)) ?_ ?_ ⟨rfl, fun _ => rfl⟩ h
  · intro u p q hu
    rw [setPort_buf]
    exact hu
  · intro l x u t ⟨hmem, hwhole⟩ heffect
    rcases (heffect.buf b).of_storesNothing hi with heq | ⟨r, hb, hr⟩
    · rw [heq]
      exact ⟨hmem, hwhole⟩
    · exact ⟨(read_mem hr).trans hmem, fun hnone => absurd hb (hnone l)⟩

end

/-- Settles O27: the only effect these commands have on a buffer is a read, and a read writes no slot. -/
theorem otherCommandsStoreNothing : Obligations.OtherCommandsStoreNothing := by
  intro i s t h hi
  have hnone : storesNothing i := by
    cases i with
    | cbWrite => exact hi.elim
    | cbResize => exact hi.elim
    | scEnq => exact hi.elim
    | scResize => exact hi.elim
    | scBhalf => exact hi.elim
    | _ => exact ⟨rfl, fun _ => rfl⟩
  have hbuf := exec_storesNothing hnone h
  have hreads {b : BufSel} (hread : i ≠ .cbRead b) (hdeq : i ≠ .scDeq ∨ b ≠ .inbound) (l : Label) :
      unitTakesFrom i l ≠ some b := by
    intro htakes
    unfold unitTakesFrom at htakes
    split at htakes
    · cases htakes; exact hread rfl
    · cases htakes; exact hdeq.elim (· rfl) (· rfl)
    · exact hi
    · cases htakes
  refine ⟨fun b a => by rw [(hbuf b).1], fun hread hdeq => ?_, fun b hb b' hne => ?_⟩
  · exact ⟨(hbuf .inbound).2 (hreads (hread _) (.inl hdeq)), (hbuf .outbound).2 (hreads (hread _) (.inl hdeq))⟩
  · refine (hbuf b').2 (hreads ?_ ?_)
    · rintro rfl
      rcases hb with hb | ⟨hb, -⟩ <;> cases hb
      exact hne rfl
    · rcases hb with rfl | ⟨-, rfl⟩
      · exact .inl (by nofun)
      · exact .inr hne

/-! ### The storing commands (O26) -/

section
variable {i : Instr} {p : Port} {l : Label} {x : Locals} {s t u : State} {b : BufSel} {v : Byte}

/-- What `CB.WRITE` and `SC.ENQ` leave of a state: all but their buffer, and for `SC.ENQ` the arming of transmission. -/
structure StoreFrame (i : Instr) (b : BufSel) (s t : State) : Prop where
  others : ∀ b', b' ≠ b → t.buf b' = s.buf b'
  fault : t.fault = s.fault
  rxArm : t.rxArm = s.rxArm
  evRx : t.evRx = s.evRx
  rxq : t.rxq = s.rxq
  txReady : t.txReady = s.txReady
  txLog : t.txLog = s.txLog
  par : t.par = s.par
  arming : armsTransmit i = false → t.txArm = s.txArm ∧ t.evTx = s.evTx ∧ t.trace = s.trace

theorem StoreFrame.refl : StoreFrame i b s s :=
  ⟨fun _ _ => rfl, rfl, rfl, rfl, rfl, rfl, rfl, rfl, fun _ => ⟨rfl, rfl, rfl⟩⟩

theorem StoreFrame.setPort (h : StoreFrame i b s t) (q : PortState) : StoreFrame i b s (t.setPort p q) := by
  obtain ⟨h1, h2, h3, h4, h5, h6, h7, h8, h9⟩ := h
  cases p <;> exact ⟨fun b' hb => (by cases b' <;> exact h1 _ hb), h2, h3, h4, h5, h6, h7, h8, h9⟩

theorem StoreFrame.setBuf (h : StoreFrame i b s t) (c : CBuf Byte) : StoreFrame i b s (t.setBuf b c) := by
  obtain ⟨h1, h2, h3, h4, h5, h6, h7, h8, h9⟩ := h
  refine ⟨fun b' hb => by rw [setBuf_buf_other _ _ _ _ hb, h1 b' hb], ?_, ?_, ?_, ?_, ?_, ?_, ?_, ?_⟩ <;>
    cases b <;> assumption

/-- The two commands that store one byte on their own account. -/
def StoresByte (i : Instr) (b : BufSel) (v : Byte) : Prop := i = .cbWrite b v ∨ (i = .scEnq v ∧ b = .outbound)

/-- What such a command has done between its units to the state `s` it was accepted in. -/
structure StoredAtMost (i : Instr) (b : BufSel) (v : Byte) (s t : State) : Prop where
  frame : StoreFrame i b s t
  slots : ∀ a, a ≠ (s.buf b).wr.toNat → memGet (t.buf b).mem a = memGet (s.buf b).mem a
  stored : memGet (t.buf b).mem (s.buf b).wr.toNat = some v ∨ t.buf b = s.buf b

theorem StoredAtMost.refl : StoredAtMost i b v s s := ⟨.refl, fun _ _ => rfl, .inr rfl⟩

theorem StoredAtMost.setPort (h : StoredAtMost i b v s t) (q : PortState) : StoredAtMost i b v s (t.setPort p q) := by
  obtain ⟨hframe, hslots, hstored⟩ := h
  exact ⟨hframe.setPort q, by rwa [setPort_buf], by rwa [setPort_buf]⟩

theorem StoredAtMost.of_write {role : Role} {st : Status} {c : CBuf Byte}
    (h : (s.buf b).write s.par.sync role v = .ok (st, c)) : StoredAtMost i b v s (s.setBuf b c) := by
  refine ⟨StoreFrame.refl.setBuf c, ?_, ?_⟩ <;> rw [setBuf_buf_same] <;>
    obtain ⟨-, -, ⟨-, -, rfl⟩ | ⟨-, -, -, rfl⟩⟩ := write_ok h
  · exact fun _ _ => rfl
  · exact fun a ha => memGet_memSet_other _ _ _ _ ha
  · exact .inr rfl
  · exact .inl (memGet_memSet_same ..)

theorem StoredAtMost.armTransmit (h : StoredAtMost i b v s t) (hi : armsTransmit i = true) :
    StoredAtMost i b v s { t with txArm := true } := by
  obtain ⟨⟨h1, h2, h3, h4, h5, h6, h7, h8, -⟩, hslots, hstored⟩ := h
  refine ⟨⟨fun b' hb => ?_, h2, h3, h4, h5, h6, h7, h8, fun hno => by rw [hi] at hno; cases hno⟩, ?_, ?_⟩
  · cases b' <;> exact h1 _ hb
  · cases b <;> exact hslots
  · cases b <;> exact hstored

theorem StoredAtMost.enableTransmit (h : StoredAtMost i b v s t) (hi : armsTransmit i = true) :
    StoredAtMost i b v s (enableTransmit p t) := by
  obtain ⟨⟨h1, h2, h3, h4, h5, h6, h7, h8, -⟩, hslots, hstored⟩ := h
  refine ⟨⟨fun b' hb => ?_, h2, h3, h4, h5, h6, h7, h8, fun hno => by rw [hi] at hno; cases hno⟩, ?_, ?_⟩
  · cases b' <;> exact h1 _ hb
  · cases b <;> exact hslots
  · cases b <;> exact hstored

/-- A unit of such a command stores at u1 only. -/
theorem StoredAtMost.unit (hi : StoresByte i b v) (h : StoredAtMost i b v s t) (hfirst : l = .u1 → t = s)
    (heffect : UnitEffect p i l x t u) : StoredAtMost i b v s u := by
  rcases hi with rfl | ⟨rfl, rfl⟩ <;> cases heffect with
  | nothing => exact h
  | write hb hw =>
    cases l <;> cases hb
    rw [hfirst rfl] at hw ⊢
    exact .of_write hw
  | armTransmit hi => exact h.armTransmit hi
  | enableTransmit hi => exact h.enableTransmit hi
  | read hb => cases l <;> cases hb
  | resizeOpen hb => cases l <;> cases hb
  | resizeCopy hb => cases l <;> cases hb
  | transportRead hl => cases l <;> cases hl
  | transportWrite hl => cases l <;> cases hl
  | fault _ hi => cases hi
  | armReceive hi => cases hi
  | enableReceive hi => cases hi
  | disarmTransmit hi => cases hi
  | disableTransmit hi => cases hi

/-- The result does not send its command back to unit u1. -/
def UnitResult.GoesOn : UnitResult → Prop
  | .goto l _ _ => l ≠ .u1
  | .retire _ _ _ => True
  | .hold => True
  | .fault _ => True
  | .refuse _ => True

theorem StoresByte.goesOn (hi : StoresByte i b v) : (unitOf i p l x s).GoesOn := by
  rcases hi with rfl | ⟨rfl, rfl⟩
  · cases l
    case u1 => exact attempt_induct (fun _ _ => trivial) fun _ _ => trivial
    all_goals trivial
  · cases l
    case u1 =>
      rw [unitOf, unitScEnq]
      split
      · trivial
      · exact attempt_induct (fun _ _ => trivial) fun _ _ h => by cases h
    case u2 => exact fun h => by cases h
    all_goals trivial

theorem exec_storedAtMost (hi : StoresByte i b v) (hidle : (s.port s.turn.port).infl = .idle) (h : exec i s = .next t) :
    StoredAtMost i b v s t := by
  rw [exec_eq_runCommand, runCommand_idle hidle] at h
  refine drive_induct (I := fun l _ u => StoredAtMost i b v s u ∧ (l = .u1 → u = s)) (Q := StoredAtMost i b v s) ?_ ?_
    (fun l x u hu => hu.1.setPort _) ⟨.refl, fun _ => rfl⟩ h
  · intro l x u l' x' u' ⟨hu, hfirst⟩ hgoto
    have heffect := unitOf_effect (i := i) (p := s.turn.port) (l := l) (x := x) (s := u)
    have hgoes := hi.goesOn (p := s.turn.port) (l := l) (x := x) (s := u)
    rw [hgoto] at heffect hgoes
    exact ⟨hu.unit hi hfirst heffect, fun hl => absurd hl hgoes⟩
  · intro l x u st w u' ⟨hu, hfirst⟩ hretire
    have heffect := unitOf_effect (i := i) (p := s.turn.port) (l := l) (x := x) (s := u)
    rw [hretire] at heffect
    exact (hu.unit hi hfirst heffect).setPort _

end

/-- Settles O26: unit u1 stores at the write index it finds, and the units after it write flags only. -/
theorem storingCommandsTouchOneSlot : Obligations.StoringCommandsTouchOneSlot := by
  intro i b v s t hi hidle h
  obtain ⟨⟨hothers, hfault, hrxArm, hevRx, hrxq, hready, hlog, hpar, harming⟩, hslots, hstored⟩ :=
    exec_storedAtMost hi hidle h
  exact ⟨hslots, hstored, hothers, hfault, hrxArm, hevRx, hrxq, hready, hlog, hpar,
    fun heq => harming (by rw [heq]; rfl)⟩

end Sys2Proof.Machine

namespace Sys2Proof.Machine

/-! ### The unit a port runs next, and what follows it -/

/-- The locals a port's next unit finds. -/
def nextLocals (s : State) (p : Port) : Locals :=
  match (s.port p).infl with
  | .busy c => c.locals
  | .idle => Locals.init

section
variable {i : Instr} {p : Port} {l : Label} {x : Locals} {s t : State} {more : Nat} {c : InFlight}

theorem nextLabel_of_busy (h : (s.port p).infl = .busy c) : nextLabel s p = c.unit := by simp only [nextLabel, h]

theorem nextLabel_of_idle (h : (s.port p).infl = .idle) : nextLabel s p = .u1 := by simp only [nextLabel, h]

theorem nextLocals_of_busy (h : (s.port p).infl = .busy c) : nextLocals s p = c.locals := by simp only [nextLocals, h]

theorem nextLocals_of_idle (h : (s.port p).infl = .idle) : nextLocals s p = Locals.init := by simp only [nextLocals, h]

theorem nextCommand_of_busy (h : (s.port p).infl = .busy c) : nextCommand s p = some c.cmd := by
  simp only [nextCommand, h]

/-- What a port runs next is in flight, or decodes from its words. -/
theorem nextCommand_cases (h : nextCommand s p = some i) :
    (s.port p).infl = .busy ⟨i, nextLabel s p, nextLocals s p⟩ ∨
      ((s.port p).infl = .idle ∧ ∃ n, decode (s.pending p) = .legal i n) := by
  cases hinfl : (s.port p).infl with
  | busy c =>
    rw [nextCommand_of_busy hinfl] at h
    cases h
    rw [nextLabel_of_busy hinfl, nextLocals_of_busy hinfl]
    exact .inl rfl
  | idle =>
    simp only [nextCommand, hinfl] at h
    cases hd : decode (s.pending p) with
    | legal j n => rw [hd] at h; cases h; exact .inr ⟨rfl, n, rfl⟩
    | illegal e n => rw [hd] at h; cases h
    | starved => rw [hd] at h; cases h

/-- A port that runs no command has none in flight. -/
theorem infl_idle_of_none (hnext : nextCommand s p = none) : (s.port p).infl = .idle := by
  cases hinfl : (s.port p).infl with
  | idle => rfl
  | busy c => rw [nextCommand_of_busy hinfl] at hnext; cases hnext

/-- A port with a command to run drives it from its next unit. -/
theorem runPort_of_some (h : nextCommand s p = some i) :
    runPort p more s = drive i (unitOf i) p more (nextLabel s p) (nextLocals s p) (s.withTurn ⟨p, more⟩) := by
  rcases nextCommand_cases h with hbusy | ⟨hidle, n, hd⟩
  · rw [runPort_of_busy hbusy]
    exact exec_busy (s := s.withTurn ⟨p, more⟩) ((congrArg PortState.infl (port_withTurn ..)).trans hbusy)
  · rw [runPort_of_legal hidle hd, nextLabel_of_idle hidle, nextLocals_of_idle hidle]
    exact exec_fresh (s := s.withTurn ⟨p, more⟩)
      ⟨rfl, (congrArg PortState.infl (port_withTurn ..)).trans hidle, Nat.zero_le _⟩

/-- A port with none leaves everything but itself as it is, and stays idle. -/
theorem runPort_of_none (h : nextCommand s p = none) :
    ∃ q, q.infl = .idle ∧ runPort p more s = .next ((s.withTurn ⟨p, more⟩).setPort p q) := by
  cases hinfl : (s.port p).infl with
  | busy c => rw [nextCommand_of_busy hinfl] at h; cases h
  | idle =>
    simp only [nextCommand, hinfl] at h
    cases hd : decode (s.pending p) with
    | legal j n => rw [hd] at h; cases h
    | illegal e n => exact ⟨_, rfl, runPort_of_illegal hinfl hd⟩
    | starved =>
      refine ⟨s.port p, hinfl, ?_⟩
      rw [runPort_of_starved hinfl hd]
      cases p <;> rfl

/-- What a turn of one unit leaves, by the unit's result. -/
def UnitResult.settle (i : Instr) (p : Port) (l : Label) (x : Locals) (s : State) :
    UnitResult → Host.Outcome State Fault Refusal
  | .goto l' x' t => .next ((t.suspend p i l' x').withTurn ⟨p, 0⟩)
  | .retire st v t => .next ((t.retire p (wordCount i) st v).withTurn ⟨p, 0⟩)
  | .hold => .next ((s.suspend p i l x).withTurn ⟨p, 0⟩)
  | .fault f => .fault f
  | .refuse r => .refused r

/-- A turn of one unit is the unit. -/
theorem runPort_one (h : nextCommand s p = some i) :
    runPort p 0 s =
      (unitOf i p (nextLabel s p) (nextLocals s p) s).settle i p (nextLabel s p) (nextLocals s p) s := by
  rw [runPort_of_some h]
  simp only [drive, unitOf_withTurn]
  cases unitOf i p (nextLabel s p) (nextLocals s p) s <;> simp [UnitResult.map, UnitResult.settle]

/-- From a state that meets the invariant, a port stands properly at the unit it runs next. -/
theorem Inv.standing (h : Inv s) (hnext : nextCommand s p = some i) :
    Standing s.par p ⟨i, nextLabel s p, nextLocals s p⟩ s := by
  obtain ⟨haround, hport⟩ := (inv_iff_around p s).mp h
  rcases nextCommand_cases hnext with hbusy | ⟨hidle, n, hd⟩
  · rw [hbusy] at haround
    rw [portOk, hbusy] at hport
    exact ⟨haround, .inl hport⟩
  · rw [hidle] at haround
    rw [nextLabel_of_idle hidle, nextLocals_of_idle hidle]
    exact ⟨by rw [window_u1]; exact haround, .inr ⟨rfl, decode_legal_wf hd⟩⟩

/-! ### The port whose buffers a command uses -/

theorem actsAs_of_ne (h : i ≠ .scBhalf) : actsAs p i = p := by
  cases i with
  | scBhalf => exact absurd rfl h
  | _ => rfl

/-- A command that does not fault at once uses the buffers in its own port's name. -/
theorem Standing.actsAs_eq {par : Params} (h : Standing par p ⟨i, l, x⟩ s)
    (hu : unitOf i p l x s ≠ .fault .portDiscipline) : actsAs p i = p := by
  by_cases hi : i = .scBhalf
  · subst hi
    rcases h.record with hrecord | ⟨hl, -⟩
    · exact (recordOk_scBhalf_port hrecord).symm
    · obtain rfl : l = .u1 := hl
      cases p with
      | bh => rfl
      | fg => exact (hu (unitScBhalf_forbidden (s := s) .fg x (by decide))).elim
  · exact actsAs_of_ne hi

theorem Inv.actsAs_eq (h : Inv s) (hnext : nextCommand s p = some i) (ht : runPort p more s = .next t) :
    actsAs p i = p := by
  refine (h.standing hnext).actsAs_eq fun hu => ?_
  have hfault : unitOf i p (nextLabel s p) (nextLocals s p) (s.withTurn ⟨p, more⟩) = .fault .portDiscipline := by
    rw [unitOf_withTurn, hu]
    rfl
  rw [runPort_of_some hnext, drive_of_fault hfault] at ht
  cases ht

end

/-! ### The single-writer table (`10_state.md` R18) -/

/-- What a turn of port `p` that does not resize leaves of a buffer. -/
structure OwnWrites (role : Role) (sync : Sync) (c d : CBuf Byte) : Prop where
  rd : role = .producer → d.rd = c.rd
  wr : role = .consumer → d.wr = c.wr ∧ d.mem = c.mem
  cap : d.cap = c.cap
  rsz : d.rsz = c.rsz
  views : sync = .lagged → d.wrv = c.wrv ∧ d.rdv = c.rdv

section
variable {role : Role} {sync : Sync} {c d e : CBuf Byte} {v : Byte} {i : Instr} {p : Port} {l : Label} {x : Locals}
  {b : BufSel} {s t : State}

theorem OwnWrites.refl : OwnWrites role sync c c :=
  ⟨fun _ => rfl, fun _ => ⟨rfl, rfl⟩, rfl, rfl, fun _ => ⟨rfl, rfl⟩⟩

theorem OwnWrites.trans (h : OwnWrites role sync c d) (h' : OwnWrites role sync d e) : OwnWrites role sync c e :=
  ⟨fun hr => (h'.rd hr).trans (h.rd hr),
    fun hr => ⟨(h'.wr hr).1.trans (h.wr hr).1, (h'.wr hr).2.trans (h.wr hr).2⟩, h'.cap.trans h.cap, h'.rsz.trans h.rsz,
    fun hs => ⟨(h'.views hs).1.trans (h.views hs).1, (h'.views hs).2.trans (h.views hs).2⟩⟩

theorem ownWrites_write {st : Status} (h : c.write sync role v = .ok (st, d)) : OwnWrites role sync c d := by
  obtain ⟨-, rfl, ⟨-, -, rfl⟩ | ⟨-, -, -, rfl⟩⟩ := write_ok h
  · exact .refl
  · exact ⟨fun _ => rfl, nofun, rfl, rfl, fun hs => ⟨by rw [hs]; rfl, rfl⟩⟩

theorem ownWrites_read {r : Option Byte} (h : c.read sync role = .ok (r, d)) : OwnWrites role sync c d := by
  obtain ⟨-, rfl, ⟨-, -, rfl⟩ | ⟨-, -, -, -, -, rfl⟩⟩ := read_ok h
  · exact .refl
  · exact ⟨nofun, fun _ => ⟨rfl, rfl⟩, rfl, rfl, fun hs => ⟨rfl, by rw [hs]; rfl⟩⟩

theorem BufEffect.ownWrites (hi : isResize i = false) (hacts : actsAs p i = p) (h : BufEffect p i l x sync b c d) :
    OwnWrites (roleOf p b) sync c d := by
  cases h with
  | same => exact .refl
  | write _ h => rw [hacts] at h; exact ownWrites_write h
  | read _ h => rw [hacts] at h; exact ownWrites_read h
  | resizeOpen hb _ => rw [unitOpens_of_not_isResize hi] at hb; cases hb
  | resizeCopy hb _ => rw [window_of_not_isResize hi] at hb; cases hb

theorem runPort_ownWrites {more : Nat} (hinv : Inv s) (hi : ∀ i, nextCommand s p = some i → isResize i = false)
    (h : runPort p more s = .next t) (b : BufSel) : OwnWrites (roleOf p b) s.par.sync (s.buf b) (t.buf b) := by
  suffices hkept : t.par = s.par ∧ OwnWrites (roleOf p b) s.par.sync (s.buf b) (t.buf b) from hkept.2
  refine runPort_keeps (P := fun u => u.par = s.par ∧ OwnWrites (roleOf p b) s.par.sync (s.buf b) (u.buf b)) ?_ ?_ ?_
    ⟨rfl, .refl⟩ h
  · intro u p q hu
    rw [setPort_par, setPort_buf]
    exact hu
  · exact fun u τ hu => by cases b <;> exact hu
  · intro i hnext l x u t ⟨hpar, hu⟩ heffect
    have hbuf := (heffect.buf b).ownWrites (hi i hnext) (hinv.actsAs_eq hnext h)
    rw [hpar] at hbuf
    exact ⟨heffect.par.trans hpar, hu.trans hbuf⟩

end

/-- Settles O25: of a command that does not resize, each unit writes only what its port's role owns. -/
theorem singleWriterTable : Obligations.SingleWriterTable := by
  intro s t p more b hinv hevent h hi
  obtain ⟨script, tick, hstep⟩ := step_eq_perform s
  rw [hstep, hevent] at h
  have hcommand : nextCommand (s.withSchedule script tick) p = nextCommand s p := nextCommand_congr (by cases p <;> rfl)
  have hown := runPort_ownWrites (s := s.withSchedule script tick) hinv (by rwa [hcommand]) h b
  obtain ⟨hrd, hwr, hcap, hrsz, hviews⟩ : OwnWrites (roleOf p b) s.par.sync (s.buf b) (t.buf b) := by
    cases b <;> exact hown
  exact ⟨hrd, hwr, hcap, hrsz, hviews⟩

end Sys2Proof.Machine

namespace Sys2Proof.Machine

/-! ### A turn of one unit, by the effect of its unit -/

section
variable {i : Instr} {p : Port} {l : Label} {x : Locals} {s t : State} {b : BufSel}

@[simp] theorem withTurn_buf (τ : Turn) : (s.withTurn τ).buf b = s.buf b := by cases b <;> rfl

/-- A turn of one unit leaves what its unit leaves, but for its own port. -/
theorem runPort_one_effect (hnext : nextCommand s p = some i) (h : runPort p 0 s = .next t) :
    ∃ u q, UnitEffect p i (nextLabel s p) (nextLocals s p) s u ∧ t = (u.setPort p q).withTurn ⟨p, 0⟩ := by
  rw [runPort_one hnext] at h
  have heffect := unitOf_effect (i := i) (p := p) (l := nextLabel s p) (x := nextLocals s p) (s := s)
  cases hu : unitOf i p (nextLabel s p) (nextLocals s p) s with
  | goto l' x' u => rw [hu] at h heffect; cases h; exact ⟨u, _, heffect, rfl⟩
  | retire st v u => rw [hu] at h heffect; cases h; exact ⟨u, _, heffect, rfl⟩
  | hold => rw [hu] at h; cases h; exact ⟨s, _, .nothing, rfl⟩
  | fault f => rw [hu] at h; cases h
  | refuse r => rw [hu] at h; cases h

theorem runPort_one_buf (hnext : nextCommand s p = some i) (h : runPort p 0 s = .next t) (b : BufSel) :
    BufEffect p i (nextLabel s p) (nextLocals s p) s.par.sync b (s.buf b) (t.buf b) := by
  obtain ⟨u, q, heffect, rfl⟩ := runPort_one_effect hnext h
  rw [withTurn_buf, setPort_buf]
  exact heffect.buf b

/-- A port that runs no command leaves the buffers. -/
theorem runPort_none_buf {more : Nat} (hnext : nextCommand s p = none) (h : runPort p more s = .next t) :
    t.buf b = s.buf b := by
  obtain ⟨q, -, hrun⟩ := runPort_of_none (more := more) hnext
  rw [hrun] at h
  cases h
  rw [setPort_buf, withTurn_buf]

/-! ### The machine's units as FIFO actions (`10_state.md` R18, `20_memory.md` R51) -/

/-- What an operation of a port with the role `role` does to a queue, if `resizes` says whether it stands in a resize of
the buffer. -/
def FifoAction (role : Role) (resizes : Bool) (c d : CBuf Byte) : Prop :=
  d.queued = c.queued ∨ (role = .producer ∧ ∃ v, d.queued = c.queued ++ [v]) ∨
    (role = .consumer ∧ ∃ v, c.queued = v :: d.queued) ∨
    (resizes = true ∧ d.queued = c.queued.drop (c.queued.length - min c.queued.length (d.cap.toNat - 1)))

theorem fifoAction_write {role : Role} {resizes : Bool} {sync : Sync} {c d : CBuf Byte} {v : Byte} {st : Status}
    (hc : BufInv sync c) (h : c.write sync role v = .ok (st, d)) : FifoAction role resizes c d := by
  obtain ⟨-, hrole, ⟨-, -, rfl⟩ | ⟨-, -, rfl, -⟩⟩ := write_ok h
  · exact .inl rfl
  · exact .inr (.inl ⟨hrole, v, queued_write hc h⟩)

theorem fifoAction_read {role : Role} {resizes : Bool} {sync : Sync} {c d : CBuf Byte} {r : Option Byte}
    (hc : BufInv sync c) (h : c.read sync role = .ok (r, d)) : FifoAction role resizes c d := by
  obtain ⟨-, hrole, ⟨-, -, rfl⟩ | ⟨-, -, v, -, rfl, -⟩⟩ := read_ok h
  · exact .inl rfl
  · exact .inr (.inr (.inl ⟨hrole, v, queued_read hc h⟩))

theorem fifoAction_resizeOpen {role : Role} {resizes : Bool} {c d : CBuf Byte} {n : Half} {st : Status}
    (h : c.resizeOpen n = .ok (st, d)) : FifoAction role resizes c d := by
  obtain ⟨-, ⟨-, -, rfl⟩ | ⟨-, -, rfl⟩⟩ := resizeOpen_ok h <;> exact .inl rfl

theorem fifoAction_resizeCopy {role : Role} {c d : CBuf Byte} {n : Half} {k : Nat} (hst : StorageOk c) (hn : n ≠ 0)
    (h : c.resizeCopy n = .ok (k, d)) : FifoAction role true c d := by
  obtain ⟨hk, hcap, -⟩ := resizeCopy_ok h
  refine .inr (.inr (.inr ⟨rfl, ?_⟩))
  rw [queued_resizeCopy hst hn h, hst.length_queued, hk, hcap]

/-- A port at the second unit of a resize has it in flight, with a capacity that its first unit has passed. -/
theorem Standing.of_window {par : Params} (h : Standing par p ⟨i, l, x⟩ s) (hb : InFlight.window ⟨i, l, x⟩ = some b) :
    l ≠ .u1 ∧ resizeCapacity i ≠ 0 := by
  have hl : l ≠ .u1 := by
    rintro rfl
    rw [window_u1] at hb
    cases hb
  have hrecord := h.record.resolve_right fun ⟨hu, _⟩ => hl hu
  refine ⟨hl, ?_⟩
  simp only [InFlight.window] at hb
  split at hb
  case h_1 => simpa [recordOk, resizeCapacity] using hrecord
  case h_2 => simpa [recordOk, resizeCapacity] using hrecord
  case h_3 => simpa [recordOk, resizeCapacity] using hrecord
  case h_4 => cases hb

theorem runPort_one_fifo (hinv : Inv s) (h : runPort p 0 s = .next t) (b : BufSel) :
    FifoAction (roleOf p b) ((s.port p).resizes b) (s.buf b) (t.buf b) := by
  cases hnext : nextCommand s p with
  | none =>
    rw [runPort_none_buf hnext h]
    exact .inl rfl
  | some i =>
    have hstanding := hinv.standing hnext
    have heffect := runPort_one_buf hnext h b
    generalize t.buf b = d at heffect
    cases heffect with
    | same => exact .inl rfl
    | write _ hw => rw [hinv.actsAs_eq hnext h] at hw; exact fifoAction_write (hinv.buf b) hw
    | read _ hr => rw [hinv.actsAs_eq hnext h] at hr; exact fifoAction_read (hinv.buf b) hr
    | resizeOpen _ ho => exact fifoAction_resizeOpen ho
    | resizeCopy hb hcopy =>
      obtain ⟨hl, hn⟩ := hstanding.of_window hb
      have hresizes : (s.port p).resizes b = true := by
        rcases nextCommand_cases hnext with hbusy | ⟨hidle, -⟩
        · rw [resizes_eq_window, hbusy, Infl.window, hb, beq_self_eq_true]
        · exact absurd (nextLabel_of_idle hidle) hl
      rw [hresizes]
      exact fifoAction_resizeCopy (hinv.buf b).2.2.1 hn hcopy

/-- A view that moves leaves the queue. -/
theorem syncWStep_queued {b' : BufSel} {y : Half} : ((syncWStep b' y s).buf b).queued = (s.buf b).queued := by
  rcases syncWStep_cases b' y s with heq | ⟨-, -, heq⟩ <;> rw [heq]
  by_cases hb : b = b'
  · subst hb; rw [setBuf_buf_same]; rfl
  · rw [setBuf_buf_other _ _ _ _ hb]

theorem syncRStep_queued {b' : BufSel} {y : Half} : ((syncRStep b' y s).buf b).queued = (s.buf b).queued := by
  rcases syncRStep_cases b' y s with heq | ⟨-, -, heq⟩ <;> rw [heq]
  by_cases hb : b = b'
  · subst hb; rw [setBuf_buf_same]; rfl
  · rw [setBuf_buf_other _ _ _ _ hb]

/-- Every event of one unit is a FIFO action on each buffer. -/
theorem perform_fifo {e : Event} (hinv : Inv s) (hone : oneUnit e = true) (h : perform e s = .next t) (b : BufSel) :
    (t.buf b).queued = (s.buf b).queued ∨
      ∃ p, e = .run p 0 ∧ FifoAction (roleOf p b) ((s.port p).resizes b) (s.buf b) (t.buf b) := by
  cases e with
  | run p more =>
    obtain rfl : more = 0 := by simpa [oneUnit] using hone
    exact .inr ⟨p, rfl, runPort_one_fifo hinv h b⟩
  | syncW b' y => cases h; exact .inl syncWStep_queued
  | syncR b' y => cases h; exact .inl syncRStep_queued
  | envRx v => cases h; exact .inl (by cases b <;> rfl)
  | envTxReady => cases h; exact .inl (by cases b <;> rfl)
  | present p w => cases h; exact .inl (by rw [presentStep, setPort_buf])

end

/-- Settles O24: an event of one unit runs a unit of a port, and its operation on the buffer is a FIFO action. -/
theorem everyUnitIsAFifoAction : Obligations.EveryUnitIsAFifoAction := by
  intro s t b hinv hone h
  obtain ⟨script, tick, hstep⟩ := step_eq_perform s
  rw [hstep] at h
  have hbuf : (s.withSchedule script tick).buf b = s.buf b := by cases b <;> rfl
  have hport (p : Port) : (s.withSchedule script tick).port p = s.port p := by cases p <;> rfl
  have haction := perform_fifo (s := s.withSchedule script tick) hinv hone h b
  simp only [hbuf, hport] at haction
  rcases haction with hsame | ⟨p, hevent, hsame | ⟨hrole, v, hq⟩ | ⟨hrole, v, hq⟩ | ⟨hresizes, hq⟩⟩
  · exact .inl hsame
  · exact .inl hsame
  · exact .inr (.inl ⟨p, v, hevent, hrole, hq⟩)
  · exact .inr (.inr (.inl ⟨p, v, hevent, hrole, hq⟩))
  · exact .inr (.inr (.inr ⟨p, hevent, hresizes, hq⟩))

/-! ### Why a step stops (`60_exceptions.md` R155) -/

/-- The spec's three faults. -/
def IsSpecFault (f : Fault) : Prop := f = .portDiscipline ∨ f = .resizeRace ∨ f = .transportNotReady

/-- An outcome that is a next state or one of the spec's faults. -/
def StopsAsSpecified : Host.Outcome State Fault Refusal → Prop
  | .next _ => True
  | .fault f => IsSpecFault f
  | .refused _ => False

section
variable {i : Instr} {p : Port} {l : Label} {x : Locals} {s : State} {more : Nat} {par : Params}
  {f : Fault} {r : Refusal}

/-- A buffer in order never is the cause of a fault. -/
theorem FaultCause.isSpecFault (hbufs : ∀ b, BufInv par.sync (s.buf b)) (h : FaultCause p i l s f) : IsSpecFault f := by
  cases h with
  | discipline _ => exact .inl rfl
  | window _ _ _ => exact .inr (.inl rfl)
  | noData _ _ => exact .inr (.inr rfl)
  | notReady _ _ => exact .inr (.inr rfl)
  | disorder h => exact absurd (hbufs _) (h _)

theorem unitOf_faultCause (hu : unitOf i p l x s = .fault f) : FaultCause p i l s f := by
  have hexplained := unitOf_explained i p l x s
  rwa [hu] at hexplained

/-- A port that stands properly at a unit is never refused there. -/
theorem Standing.not_refuse (h : Standing par p ⟨i, l, x⟩ s) : unitOf i p l x s ≠ .refuse r := by
  intro hu
  have hexplained := unitOf_explained i p l x s
  rw [hu] at hexplained
  obtain ⟨hl, hrecord⟩ := hexplained
  rcases h.record with hok | ⟨hfirst, -⟩
  · rw [hrecord] at hok
    cases hok
  · exact hl hfirst

theorem drive_stopsAsSpecified (h : Standing par p ⟨i, l, x⟩ s) :
    StopsAsSpecified (drive i (unitOf i) p more l x s) := by
  induction more generalizing l x s with
  | zero =>
    cases hu : unitOf i p l x s with
    | goto l' x' s' => rw [drive_zero_of_goto hu]; trivial
    | retire st v s' => rw [drive_of_retire hu]; trivial
    | hold => rw [drive_of_hold hu]; trivial
    | fault f => rw [drive_of_fault hu]; exact (unitOf_faultCause hu).isSpecFault h.around.bufs
    | refuse r => exact absurd hu h.not_refuse
  | succ more ih =>
    have hkeeps := unitOf_keeps h
    cases hu : unitOf i p l x s with
    | goto l' x' s' => rw [drive_succ_of_goto hu]; rw [hu] at hkeeps; exact ih ⟨hkeeps.1, .inl hkeeps.2⟩
    | retire st v s' => rw [drive_of_retire hu]; trivial
    | hold => rw [drive_of_hold hu]; trivial
    | fault f => rw [drive_of_fault hu]; exact (unitOf_faultCause hu).isSpecFault h.around.bufs
    | refuse r => exact absurd hu h.not_refuse

/-- The turn is not looked at by the invariant. -/
theorem Standing.withTurn {c : InFlight} (h : Standing par p c s) (τ : Turn) : Standing par p c (s.withTurn τ) := by
  obtain ⟨⟨hpar, hbufs, hother, hrsz, halone, hlog⟩, hrecord⟩ := h
  have hport (q : Port) : (s.withTurn τ).port q = s.port q := port_withTurn ..
  refine ⟨⟨hpar, fun b => ?_, ?_, fun b => ?_, fun b => ?_, hlog⟩, hrecord⟩
  · rw [withTurn_buf]; exact hbufs b
  · rw [hport]; exact hother
  · rw [withTurn_buf, hport]; exact hrsz b
  · rw [hport]; exact halone b

theorem perform_stopsAsSpecified {e : Event} (hinv : Inv s) : StopsAsSpecified (perform e s) := by
  cases e with
  | run p more =>
    cases hnext : nextCommand s p with
    | none =>
      obtain ⟨q, -, hrun⟩ := runPort_of_none (more := more) hnext
      rw [perform, hrun]
      trivial
    | some i =>
      rw [perform, runPort_of_some hnext]
      exact drive_stopsAsSpecified ((hinv.standing hnext).withTurn _)
  | _ => trivial

end

/-- Settles O59: a unit of a port that stands properly faults for one of three causes, and is never refused. -/
theorem onlyTheThreeFaults : Obligations.OnlyTheThreeFaults := by
  intro s hinv
  obtain ⟨script, tick, hstep⟩ := step_eq_perform s
  have hstops : StopsAsSpecified (step s) := by
    rw [hstep]
    exact perform_stopsAsSpecified (s := s.withSchedule script tick) hinv
  refine ⟨fun f hf => ?_, fun r hr => ?_⟩
  · rwa [hf] at hstops
  · rwa [hr] at hstops

/-! ### The premises that exclude every fault (`00_scope.md` R8) -/

section
variable {i : Instr} {p : Port} {l : Label} {x : Locals} {s : State} {f : Fault}

/-- A unit makes a transfer only where `transferReady` asks for its level. -/
theorem rxq_of_transferReady {more : Nat} (hnext : nextCommand s p = some i)
    (hreads : unitReadsTransport i (nextLabel s p) = true) (h : transferReady s (.run p more) = true) : s.rxq ≠ [] := by
  rw [← dataAvailable_iff]
  simp only [transferReady, hnext] at h
  unfold unitReadsTransport at hreads
  split at hreads
  · next hl => simpa only [hl] using h
  · next hl => simpa only [hl] using h
  · cases hreads

theorem txReady_of_transferReady {more : Nat} (hnext : nextCommand s p = some i)
    (hwrites : unitWritesTransport i (nextLabel s p) = true) (h : transferReady s (.run p more) = true) :
    s.txReady = true := by
  simp only [transferReady, hnext] at h
  unfold unitWritesTransport at hwrites
  split at hwrites
  · next hl => simpa only [hl] using h
  · next hl => simpa only [hl] using h
  · next hl => simpa only [hl] using h
  · next hl => simpa only [hl] using h
  · cases hwrites

theorem portAllows_of_spsc {more : Nat} (hnext : nextCommand s p = some i) (h : spsc s (.run p more) = true) :
    portAllows p i = true := by
  simpa only [spsc, hnext] using h

theorem not_resizes_of_resizeExclusive {more : Nat} {b : BufSel} (hnext : nextCommand s p = some i)
    (hb : unitBuffer i (nextLabel s p) = some b) (h : resizeExclusive s (.run p more) = true) :
    (s.port (otherPort p)).resizes b = false := by
  simpa only [resizeExclusive, hnext, hb, Bool.not_eq_true'] using h

/-- Under the premises, no cause of a fault is left. -/
theorem not_faultCause (hinv : Inv s) (hnext : nextCommand s p = some i) (hspsc : spsc s (.run p 0) = true)
    (hexclusive : resizeExclusive s (.run p 0) = true) (hready : transferReady s (.run p 0) = true) :
    ¬ FaultCause p i (nextLabel s p) s f := by
  intro h
  cases h with
  | discipline h => rw [portAllows_of_spsc hnext hspsc] at h; cases h
  | window hb hl hrsz =>
    have hwindow := (hinv.standing hnext).around.rsz
    rw [hwindow, hl, not_resizes_of_resizeExclusive hnext hb hexclusive] at hrsz
    cases hrsz
  | noData hl h => exact rxq_of_transferReady hnext hl hready h
  | notReady hl h => rw [txReady_of_transferReady hnext hl hready] at h; cases h
  | disorder h => exact h _ (hinv.buf _)

theorem perform_next_of_premises {e : Event} (hinv : Inv s) (hone : oneUnit e = true) (hspsc : spsc s e = true)
    (hexclusive : resizeExclusive s e = true) (hready : transferReady s e = true) : ∃ t, perform e s = .next t := by
  cases e with
  | run p more =>
    obtain rfl : more = 0 := by simpa [oneUnit] using hone
    cases hnext : nextCommand s p with
    | none =>
      obtain ⟨q, -, hrun⟩ := runPort_of_none (more := 0) hnext
      exact ⟨_, hrun⟩
    | some i =>
      rw [perform, runPort_one hnext]
      cases hu : unitOf i p (nextLabel s p) (nextLocals s p) s with
      | goto l' x' t => exact ⟨_, rfl⟩
      | retire st v t => exact ⟨_, rfl⟩
      | hold => exact ⟨_, rfl⟩
      | fault f => exact absurd (unitOf_faultCause hu) (not_faultCause hinv hnext hspsc hexclusive hready)
      | refuse r => exact absurd hu (hinv.standing hnext).not_refuse
  | _ => exact ⟨_, rfl⟩

end

/-- Settles O60: each cause of a fault is excluded by one of the premises, or by the invariant. -/
theorem premisesExcludeEveryFault : Obligations.PremisesExcludeEveryFault := by
  intro s hinv hone hspsc hexclusive hready
  obtain ⟨script, tick, hstep⟩ := step_eq_perform s
  rw [hstep]
  exact perform_next_of_premises (s := s.withSchedule script tick) hinv hone hspsc hexclusive hready

end Sys2Proof.Machine

namespace Sys2Proof.Machine

/-! ### What the handler's queries found is still so (`70_reset_and_hazards.md` R175, R178) -/

/-- What an `SC.BHALF` at the unit `l` relies on. -/
def readyAt (l : Label) (s : State) : Bool :=
  match l with
  | .u2 => s.rxArm && dataAvailable s
  | .u3 => s.rxArm
  | .u4 => s.rxArm
  | .u7b => s.txReady
  | _ => true

section
variable {i : Instr} {p : Port} {l : Label} {x : Locals} {s t : State} {c : InFlight} {more : Nat}

theorem handlerReady_of_idle (h : s.bh.infl = .idle) : handlerReady s = true := by simp only [handlerReady, h]

theorem handlerReady_of_scBhalf (h : s.bh.infl = .busy ⟨.scBhalf, l, x⟩) : handlerReady s = readyAt l s := by
  cases l <;> simp only [handlerReady, h, readyAt]

theorem handlerReady_of_other (h : s.bh.infl = .busy c) (hc : c.cmd ≠ .scBhalf) : handlerReady s = true := by
  obtain ⟨i, l, x⟩ := c
  cases i with
  | scBhalf => exact absurd rfl hc
  | _ => simp only [handlerReady, h]

/-- What the handler relies on, seen from the port it may be in flight on. -/
theorem handlerReady_iff :
    handlerReady s = true ↔ ∀ l x, s.bh.infl = .busy ⟨.scBhalf, l, x⟩ → readyAt l s = true := by
  constructor
  · intro h l x hbusy
    rwa [← handlerReady_of_scBhalf hbusy]
  · intro h
    cases hinfl : s.bh.infl with
    | idle => exact handlerReady_of_idle hinfl
    | busy c =>
      obtain ⟨i, l, x⟩ := c
      by_cases hi : i = .scBhalf
      · subst hi
        rw [handlerReady_of_scBhalf hinfl]
        exact h l x hinfl
      · exact handlerReady_of_other hinfl hi

/-- Reception that stays armed, data that stays and a transmitter that stays ready where the handler counts on it. -/
theorem readyAt_mono (hrx : s.rxArm = true → t.rxArm = true)
    (hdata : s.rxArm = true → s.rxq ≠ [] → t.rxq ≠ []) (htx : l = .u7b → s.txReady = true → t.txReady = true)
    (h : readyAt l s = true) : readyAt l t = true := by
  cases l with
  | u2 =>
    simp only [readyAt, Bool.and_eq_true, dataAvailable_iff] at h ⊢
    exact ⟨hrx h.1, hdata h.1 h.2⟩
  | u3 => exact hrx h
  | u4 => exact hrx h
  | u7b => exact htx rfl h
  | _ => rfl

theorem handlerReady_mono (hinfl : t.bh.infl = s.bh.infl) (hrx : s.rxArm = true → t.rxArm = true)
    (hdata : s.rxArm = true → s.rxq ≠ [] → t.rxq ≠ [])
    (htx : ∀ x, s.bh.infl = .busy ⟨.scBhalf, .u7b, x⟩ → s.txReady = true → t.txReady = true)
    (h : handlerReady s = true) : handlerReady t = true := by
  rw [handlerReady_iff] at h ⊢
  intro l x hbusy
  rw [hinfl] at hbusy
  exact readyAt_mono hrx hdata (fun hl => htx x (hl ▸ hbusy)) (h l x hbusy)

/-! ### The premises on the foreground's unit -/

/-- A port's own next command is live in its turn. -/
theorem liveCommand_of_next (hnext : nextCommand s p = some i) : liveCommand s (.run p more) p = some i := by
  rcases nextCommand_cases hnext with hbusy | ⟨hidle, -⟩
  · simp only [liveCommand, hbusy]
  · simp only [liveCommand, hidle, if_true, hnext]

theorem not_blockingRead (hsafe : transportSafe s (.run p more) = true) (hnext : nextCommand s p = some i)
    (hrx : s.rxArm = true) : blockingRead i = false := by
  rw [transportSafe, List.all_eq_true] at hsafe
  have hport := hsafe p (by cases p <;> decide)
  simp only [liveCommand_of_next hnext, hrx, Bool.and_true, Bool.and_eq_true, Bool.not_eq_true'] at hport
  exact hport.1

theorem not_blockingWrite (hapart : handlerWriteApart s (.run .fg more) = true) (hnext : nextCommand s .fg = some i)
    (hbusy : s.bh.infl = .busy ⟨.scBhalf, .u7b, x⟩) : blockingWrite i = false := by
  simpa only [handlerWriteApart, hbusy, hnext, Bool.not_eq_true'] using hapart

theorem blockingRead_of_reads (hi : i ≠ .scBhalf) (h : unitReadsTransport i l = true) : blockingRead i = true := by
  unfold unitReadsTransport at h
  split at h
  · rfl
  · exact absurd rfl hi
  · cases h

theorem blockingWrite_of_writes (hi : i ≠ .scBhalf) (h : unitWritesTransport i l = true) : blockingWrite i = true := by
  unfold unitWritesTransport at h
  split at h
  · rfl
  · rfl
  · exact absurd rfl hi
  · exact absurd rfl hi
  · cases h

/-- A unit that reads no transport leaves its bytes. -/
theorem UnitEffect.rxq (h : UnitEffect p i l x s t) (hreads : unitReadsTransport i l = false) : t.rxq = s.rxq := by
  cases h with
  | transportRead hl _ => rw [hreads] at hl; cases hl
  | nothing => rfl
  | write _ _ => exact setBuf_rxq ..
  | read _ _ => exact setBuf_rxq ..
  | resizeOpen _ _ => exact setBuf_rxq ..
  | resizeCopy _ _ => exact setBuf_rxq ..
  | transportWrite _ _ => exact transmitted_rxq
  | fault _ _ => rfl
  | armReceive _ => rfl
  | enableReceive _ => rfl
  | armTransmit _ => rfl
  | enableTransmit _ => rfl
  | disarmTransmit _ => rfl
  | disableTransmit _ => rfl

/-- A unit that writes no transport leaves its readiness. -/
theorem UnitEffect.txReady (h : UnitEffect p i l x s t) (hwrites : unitWritesTransport i l = false) :
    t.txReady = s.txReady := by
  cases h with
  | transportWrite hl _ => rw [hwrites] at hl; cases hl
  | nothing => rfl
  | write _ _ => exact setBuf_txReady ..
  | read _ _ => exact setBuf_txReady ..
  | resizeOpen _ _ => exact setBuf_txReady ..
  | resizeCopy _ _ => exact setBuf_txReady ..
  | transportRead _ _ => rfl
  | fault _ _ => rfl
  | armReceive _ => rfl
  | enableReceive _ => rfl
  | armTransmit _ => rfl
  | enableTransmit _ => rfl
  | disarmTransmit _ => rfl
  | disableTransmit _ => rfl

/-- The foreground's unit leaves the handler what it relies on. -/
theorem handlerReady_fg (hinv : Inv s) (hsafe : transportSafe s (.run .fg 0) = true)
    (hapart : handlerWriteApart s (.run .fg 0) = true) (h : runPort .fg 0 s = .next t)
    (hready : handlerReady s = true) : handlerReady t = true := by
  have hbh : t.bh = s.bh := (runPort_ports h).1
  cases hnext : nextCommand s .fg with
  | none =>
    obtain ⟨q, -, hrun⟩ := runPort_of_none (more := 0) hnext
    rw [hrun] at h
    cases h
    exact hready
  | some i =>
    have hi : i ≠ .scBhalf := by
      rintro rfl
      cases hinv.actsAs_eq hnext h
    obtain ⟨u, q, heffect, rfl⟩ := runPort_one_effect hnext h
    refine handlerReady_mono (congrArg _ hbh) heffect.stillReceives.1 (fun hrx hdata => ?_)
      (fun x hbusy hr => ?_) hready
    · have hno := not_blockingRead hsafe hnext hrx
      have hreads : unitReadsTransport i (nextLabel s .fg) = false := by
        by_contra hreads
        rw [blockingRead_of_reads hi (by simpa using hreads)] at hno
        cases hno
      exact (heffect.rxq hreads).symm ▸ hdata
    · have hno := not_blockingWrite hapart hnext hbusy
      have hwrites : unitWritesTransport i (nextLabel s .fg) = false := by
        by_contra hwrites
        rw [blockingWrite_of_writes hi (by simpa using hwrites)] at hno
        cases hno
      exact (heffect.txReady hwrites).trans hr

/-! ### The handler's own unit -/

/-- If the result leaves the handler in flight, it has what it relies on. -/
def UnitResult.LeavesReady : UnitResult → Prop
  | .goto l _ t => readyAt l t = true
  | .retire _ _ _ => True
  | .hold => True
  | .fault _ => True
  | .refuse _ => True

theorem unitScBhalf_leavesReady (h : readyAt l s = true) : (unitScBhalf p l x s).LeavesReady := by
  cases l with
  | u1 =>
    rw [unitScBhalf]
    split
    · trivial
    · show readyAt (if s.rxArm && dataAvailable s then .u2 else .u5) s = true
      split
      · next hgate => exact hgate
      · rfl
  | u2 =>
    simp only [readyAt, Bool.and_eq_true, dataAvailable_iff] at h
    refine attempt_induct (fun _ _ => trivial) fun r hr => ?_
    obtain ⟨rest, -, ht⟩ := transportRead_ok hr
    rw [ht]
    exact h.1
  | u3 =>
    refine attempt_induct (fun _ _ => trivial) fun r hr => ?_
    obtain ⟨d, -, ht⟩ := cbWrite_ok hr
    rw [ht]
    exact (setBuf_rxArm ..).trans h
  | u4 =>
    show readyAt (if dataAvailable s then .u2 else .u5) s = true
    split
    · next hgate => exact (Bool.and_eq_true ..).mpr ⟨h, hgate⟩
    · rfl
  | u5 => rw [unitScBhalf]; split <;> trivial
  | u6 =>
    refine attempt_induct (fun _ _ => trivial) fun r hr => ?_
    split
    · rfl
    · show readyAt _ _ = true
      split <;> rfl
  | u7 => exact attempt_induct (fun _ _ => trivial) fun _ _ => trivial
  | u7a =>
    rw [unitScBhalf, waitUntil]
    split
    · next hr => exact hr
    · trivial
  | u7b => exact attempt_induct (fun _ _ => trivial) fun _ _ => trivial
  | u8 => rfl
  | u9 => trivial

/-- The bottom-half's unit leaves the handler what it relies on from there. -/
theorem handlerReady_bh (h : runPort .bh 0 s = .next t) (hready : handlerReady s = true) : handlerReady t = true := by
  cases hnext : nextCommand s .bh with
  | none =>
    obtain ⟨q, hidle, hrun⟩ := runPort_of_none (more := 0) hnext
    rw [hrun] at h
    cases h
    exact handlerReady_of_idle hidle
  | some i =>
    rw [runPort_one hnext] at h
    by_cases hi : i = .scBhalf
    · subst hi
      have hat : readyAt (nextLabel s .bh) s = true := by
        rcases nextCommand_cases hnext with hbusy | ⟨hidle, -⟩
        · rwa [← handlerReady_of_scBhalf hbusy]
        · rw [nextLabel_of_idle hidle]; rfl
      have hleaves := unitScBhalf_leavesReady (p := .bh) (x := nextLocals s .bh) hat
      change (unitOf .scBhalf .bh (nextLabel s .bh) (nextLocals s .bh) s).LeavesReady at hleaves
      cases hu : unitOf .scBhalf .bh (nextLabel s .bh) (nextLocals s .bh) s with
      | goto l' x' u => rw [hu] at h hleaves; cases h; exact (handlerReady_of_scBhalf rfl).trans hleaves
      | retire st v u => rw [hu] at h; cases h; exact handlerReady_of_idle rfl
      | hold => rw [hu] at h; cases h; exact (handlerReady_of_scBhalf rfl).trans hat
      | fault f => rw [hu] at h; cases h
      | refuse r => rw [hu] at h; cases h
    · cases hu : unitOf i .bh (nextLabel s .bh) (nextLocals s .bh) s with
      | goto l' x' u => rw [hu] at h; cases h; exact handlerReady_of_other rfl hi
      | retire st v u => rw [hu] at h; cases h; exact handlerReady_of_idle rfl
      | hold => rw [hu] at h; cases h; exact handlerReady_of_other rfl hi
      | fault f => rw [hu] at h; cases h
      | refuse r => rw [hu] at h; cases h

theorem perform_handlerReady {e : Event} (hinv : Inv s) (hone : oneUnit e = true) (hsafe : transportSafe s e = true)
    (hapart : handlerWriteApart s e = true) (hready : handlerReady s = true) (h : perform e s = .next t) :
    handlerReady t = true := by
  have hsame {b : BufSel} {d : CBuf Byte} : handlerReady (s.setBuf b d) = true := by
    refine handlerReady_mono (by cases b <;> rfl) ?_ (fun _ => ?_) (fun _ _ => ?_) hready <;> cases b <;> exact id
  cases e with
  | run p more =>
    obtain rfl : more = 0 := by simpa [oneUnit] using hone
    cases p with
    | fg => exact handlerReady_fg hinv hsafe hapart h hready
    | bh => exact handlerReady_bh h hready
  | syncW b y =>
    cases h
    rcases syncWStep_cases b y s with heq | ⟨-, -, heq⟩ <;> rw [heq]
    · exact hready
    · exact hsame
  | syncR b y =>
    cases h
    rcases syncRStep_cases b y s with heq | ⟨-, -, heq⟩ <;> rw [heq]
    · exact hready
    · exact hsame
  | envRx v =>
    cases h
    exact handlerReady_mono (s := s) rfl id (fun _ _ => List.append_ne_nil_of_right_ne_nil _ (List.cons_ne_nil _ _))
      (fun _ _ => id) hready
  | envTxReady => cases h; exact handlerReady_mono (s := s) rfl id (fun _ => id) (fun _ _ _ => rfl) hready
  | present p w =>
    cases h
    refine handlerReady_mono (by cases p <;> rfl) ?_ (fun _ => ?_) (fun _ _ => ?_) hready <;> cases p <;> exact id

/-- Where the handler finds what it relies on, it does not fault for a transport that is not ready. -/
theorem handler_not_unready (hinv : Inv s) (hready : handlerReady s = true) (hnext : nextCommand s .bh = some .scBhalf)
    (htx : txReadyAtBh s (.run .bh 0) = true ∨ s.par.backend = .host) :
    runPort .bh 0 s ≠ .fault .transportNotReady := by
  rw [runPort_one hnext]
  intro hfault
  have hu : unitOf .scBhalf .bh (nextLabel s .bh) (nextLocals s .bh) s = .fault .transportNotReady := by
    cases hu : unitOf .scBhalf .bh (nextLabel s .bh) (nextLocals s .bh) s <;> rw [hu] at hfault <;> cases hfault
    rfl
  have hbusy (hl : nextLabel s .bh ≠ .u1) : s.bh.infl = .busy ⟨.scBhalf, nextLabel s .bh, nextLocals s .bh⟩ :=
    (nextCommand_cases hnext).resolve_right fun ⟨hidle, _⟩ => hl (nextLabel_of_idle hidle)
  have hat (hl : nextLabel s .bh ≠ .u1) : readyAt (nextLabel s .bh) s = true :=
    handlerReady_iff.mp hready _ _ (hbusy hl)
  have hrecord := (hinv.standing hnext).record
  cases unitOf_faultCause hu with
  | noData hl hrxq =>
    generalize nextLabel s .bh = l at hl hat
    cases l <;> cases hl
    have := hat (by decide)
    rw [readyAt, dataAvailable_of_nil hrxq, Bool.and_false] at this
    cases this
  | notReady hl hno =>
    have hu7 : nextLabel s .bh = .u7 → s.txReady = true := by
      intro hl
      rcases htx with htx | hhost
      · simpa [txReadyAtBh, runsBhalf, hnext, hl] using htx
      · rw [hl] at hrecord
        simp [recordOk, hhost] at hrecord
    generalize nextLabel s .bh = l at hl hat hu7
    cases l <;> cases hl
    · rw [hu7 rfl] at hno; cases hno
    · rw [show s.txReady = true from hat (by decide)] at hno; cases hno
  | disorder h => exact h _ (hinv.buf _)

end

/-- Settles O50: every unit leaves the handler what it relies on, and a handler that has it makes its transfer. -/
theorem handlerTransfersAreReady : Obligations.HandlerTransfersAreReady := by
  intro s hinv hready hone hsafe hapart
  obtain ⟨script, tick, hstep⟩ := step_eq_perform s
  rw [hstep]
  refine ⟨fun t h => ?_, fun hpremise hevent hnext => ?_⟩
  · exact perform_handlerReady (s := s.withSchedule script tick) hinv hone hsafe hapart hready h
  · rw [hevent] at hpremise ⊢
    simp only [premiseAt, Bool.and_eq_true, Bool.or_eq_true, beq_iff_eq] at hpremise
    exact handler_not_unready (s := s.withSchedule script tick) hinv hready hnext hpremise.1

end Sys2Proof.Machine

namespace Sys2Proof.Machine

/-! ### A turn that carries a property of its port's record along -/

/-- A property of a port's `INFL` and of the state holds wherever the result of a unit of `i` leaves off. -/
def UnitResult.Carries (f : Infl → State → Prop) (i : Instr) : UnitResult → Prop
  | .goto l x t => f (.busy ⟨i, l, x⟩) t
  | .retire _ _ t => f .idle t
  | .hold => True
  | .fault _ => True
  | .refuse _ => True

section
variable {i : Instr} {p : Port} {l : Label} {x : Locals} {s t : State} {more : Nat} {par : Params}
  {f : Infl → State → Prop}

theorem drive_carries (hport : ∀ y u q, f y u → f y (u.setPort p q))
    (hunit : ∀ l x u, Standing par p ⟨i, l, x⟩ u → f (.busy ⟨i, l, x⟩) u → (unitOf i p l x u).Carries f i)
    (hstanding : Standing par p ⟨i, l, x⟩ s) (hf : f (.busy ⟨i, l, x⟩) s)
    (h : drive i (unitOf i) p more l x s = .next t) : f (t.port p).infl t := by
  refine drive_induct (I := fun l x u => Standing par p ⟨i, l, x⟩ u ∧ f (.busy ⟨i, l, x⟩) u)
    (Q := fun t => f (t.port p).infl t) ?_ ?_ ?_ ⟨hstanding, hf⟩ h
  · intro l x u l' x' u' ⟨hu, hfu⟩ hgoto
    have hkeeps := unitOf_keeps hu
    have hcarries := hunit l x u hu hfu
    rw [hgoto] at hkeeps hcarries
    exact ⟨⟨hkeeps.1, .inl hkeeps.2⟩, hcarries⟩
  · intro l x u st v u' ⟨hu, hfu⟩ hretire
    have hcarries := hunit l x u hu hfu
    rw [hretire] at hcarries
    rw [retire_port_same]
    exact hport _ _ _ hcarries
  · intro l x u ⟨_, hfu⟩
    rw [suspend_port_same]
    exact hport _ _ _ hfu

/-- From a state that meets the invariant, for a property that does not look at the turn, nor at a command that is only
being accepted. -/
theorem runPort_carries (hinv : Inv s) (hport : ∀ y u q, f y u → f y (u.setPort p q))
    (hturn : ∀ y u τ, f y u → f y (u.withTurn τ))
    (haccept : ∀ i u, f .idle u → f (.busy ⟨i, .u1, Locals.init⟩) u)
    (hunit : ∀ i, nextCommand s p = some i → ∀ l x u, Standing s.par p ⟨i, l, x⟩ u → f (.busy ⟨i, l, x⟩) u →
      (unitOf i p l x u).Carries f i)
    (hf : f (s.port p).infl s) (h : runPort p more s = .next t) : f (t.port p).infl t := by
  cases hnext : nextCommand s p with
  | none =>
    obtain ⟨q, hidle, hrun⟩ := runPort_of_none (more := more) hnext
    rw [hrun] at h
    cases h
    rw [setPort_port_same, hidle]
    rw [infl_idle_of_none hnext] at hf
    exact hport _ _ _ (hturn _ _ _ hf)
  | some i =>
    rw [runPort_of_some hnext] at h
    refine drive_carries hport (hunit i hnext) ((hinv.standing hnext).withTurn _) (hturn _ _ _ ?_) h
    rcases nextCommand_cases hnext with hbusy | ⟨hidle, -⟩
    · rwa [hbusy] at hf
    · rw [hidle] at hf
      rw [nextLabel_of_idle hidle, nextLocals_of_idle hidle]
      exact haccept i s hf

end

/-! ### Transmission stays armed (`70_reset_and_hazards.md` R174) -/

/-- Whether a foreground with this record owes `TXARM = 1` while bytes are queued: all but one that is about to set it.
-/
def owesArm : Infl → Bool
  | .busy ⟨.scEnq _, .u2, _⟩ => false
  | _ => true

/-- Whether it owes `EVTX = 1` too. -/
def owesEvent : Infl → Bool
  | .busy ⟨.scEnq _, .u2, _⟩ => false
  | .busy ⟨.scEnq _, .u3, _⟩ => false
  | _ => true

/-- Whether a bottom-half with this record is disarming transmission. -/
def disarming : Infl → Bool
  | .busy ⟨.scBhalf, .u8, _⟩ => true
  | .busy ⟨.scBhalf, .u9, _⟩ => true
  | _ => false

/-- Transmission is armed as the two ports' records ask, `y` the foreground's and `z` the bottom-half's. -/
structure Armed (y z : Infl) (s : State) : Prop where
  arm : 0 < s.outb.count → owesArm y = true → s.txArm = true
  event : 0 < s.outb.count → owesEvent y = true → s.evTx = true
  empty : disarming z = true → s.outb.count = 0

section
variable {i : Instr} {p : Port} {l : Label} {x : Locals} {s t u : State} {par : Params} {y z : Infl} {v : Byte}

theorem owesArm_of_ne (hi : ∀ v, i ≠ .scEnq v) : owesArm (.busy ⟨i, l, x⟩) = true := by
  cases i with
  | scEnq v => exact absurd rfl (hi v)
  | _ => rfl

theorem owesEvent_of_ne (hi : ∀ v, i ≠ .scEnq v) : owesEvent (.busy ⟨i, l, x⟩) = true := by
  cases i with
  | scEnq v => exact absurd rfl (hi v)
  | _ => rfl

theorem disarming_of_ne (hi : i ≠ .scBhalf) : disarming (.busy ⟨i, l, x⟩) = false := by
  cases i with
  | scBhalf => exact absurd rfl hi
  | _ => rfl

/-- A foreground that is not past unit u1 of an `SC.ENQ` owes both. -/
theorem owes_of_not_enqueueing (h2 : ∀ v x, y = .busy ⟨.scEnq v, .u2, x⟩ → False)
    (h3 : ∀ v x, y = .busy ⟨.scEnq v, .u3, x⟩ → False) : owesArm y = true ∧ owesEvent y = true := by
  unfold owesArm owesEvent
  constructor <;> split
  · next v x => exact (h2 v x rfl).elim
  · rfl
  · next v x => exact (h2 v x rfl).elim
  · next v x => exact (h3 v x rfl).elim
  · rfl

theorem disarming_of_not (h8 : ∀ x, z = .busy ⟨.scBhalf, .u8, x⟩ → False)
    (h9 : ∀ x, z = .busy ⟨.scBhalf, .u9, x⟩ → False) : disarming z = false := by
  unfold disarming
  split
  · next x => exact (h8 x rfl).elim
  · next x => exact (h9 x rfl).elim
  · rfl

theorem transmitArmed_iff : transmitArmed s = true ↔ Armed s.fg.infl s.bh.infl s := by
  have hiff : Armed s.fg.infl s.bh.infl s ↔
      (0 < s.outb.count → (owesArm s.fg.infl = true → s.txArm = true) ∧ (owesEvent s.fg.infl = true → s.evTx = true)) ∧
        (disarming s.bh.infl = true → s.outb.count = 0) :=
    ⟨fun ⟨harm, hevent, hempty⟩ => ⟨fun hq => ⟨harm hq, hevent hq⟩, hempty⟩,
      fun ⟨hq, hempty⟩ => ⟨fun h => (hq h).1, fun h => (hq h).2, hempty⟩⟩
  rw [hiff, transmitArmed, Bool.and_eq_true]
  refine and_congr ?_ ?_
  · split
    · next heq => simp [heq, owesArm, owesEvent]
    · next heq => simp [heq, owesArm, owesEvent, Nat.pos_iff_ne_zero, imp_iff_not_or]
    · next h2 h3 =>
      obtain ⟨harm, hevent⟩ := owes_of_not_enqueueing h2 h3
      simp [harm, hevent, Nat.pos_iff_ne_zero, imp_iff_not_or]
  · split
    · next heq => simp [heq, disarming]
    · next heq => simp [heq, disarming]
    · next h8 h9 => simp [disarming_of_not h8 h9]

/-- `Armed` speaks of three things of the state, and of no more of a record than it owes. -/
theorem Armed.congr {y' z' : Infl} (h : Armed y z s) (hcount : t.outb.count = s.outb.count) (harm : t.txArm = s.txArm)
    (hevent : t.evTx = s.evTx) (hya : owesArm y' = true → owesArm y = true)
    (hye : owesEvent y' = true → owesEvent y = true) (hz : disarming z' = true → disarming z = true) :
    Armed y' z' t := by
  refine ⟨fun hq ha => ?_, fun hq he => ?_, fun hd => ?_⟩
  · rw [harm]; exact h.arm (hcount ▸ hq) (hya ha)
  · rw [hevent]; exact h.event (hcount ▸ hq) (hye he)
  · rw [hcount]; exact h.empty (hz hd)

theorem Armed.setPort (h : Armed y z s) (p : Port) (q : PortState) : Armed y z (s.setPort p q) :=
  h.congr (by rw [setPort_outb]) (setPort_txArm ..) (setPort_evTx ..) id id id

/-! ### Commands that do not touch transmission -/

theorem inbound_of_beq {b : BufSel} (h : (b == .outbound) = false) : b = .inbound := by
  cases b
  · rfl
  · cases h

/-- Such a command has no unit that operates on `OUT` otherwise than to ask. -/
theorem inbound_of_not_touching (hi : touchesTransmit i = false) {b : BufSel}
    (hb : unitStoresTo i l = some b ∨ unitTakesFrom i l = some b ∨ unitOpens i l = some b ∨
      InFlight.window ⟨i, l, x⟩ = some b) : b = .inbound := by
  rcases hb with hstores | htakes | hopens | hwindow
  · unfold unitStoresTo at hstores
    split at hstores
    · cases hstores; exact inbound_of_beq hi
    · cases hi
    · cases hi
    · cases hstores
  · unfold unitTakesFrom at htakes
    split at htakes
    · cases htakes; exact inbound_of_beq hi
    · cases htakes; rfl
    · cases hi
    · cases htakes
  · unfold unitOpens at hopens
    split at hopens
    · cases hopens; exact inbound_of_beq hi
    · cases hi
    · cases hi
    · cases hopens
  · simp only [InFlight.window] at hwindow
    split at hwindow
    · cases hwindow; exact inbound_of_beq hi
    · cases hi
    · cases hi
    · cases hwindow

theorem UnitEffect.transmitFrame (hi : touchesTransmit i = false) (h : UnitEffect p i l x s t) :
    t.outb = s.outb ∧ t.txArm = s.txArm ∧ t.evTx = s.evTx := by
  have harms : armsTransmit i = false ∧ disarmsTransmit i = false := by
    cases i with
    | scEnq v => cases hi
    | scArmtx => cases hi
    | scDistx => cases hi
    | scBhalf => cases hi
    | _ => exact ⟨rfl, rfl⟩
  obtain ⟨hno, hnot⟩ := harms
  cases h with
  | nothing => exact ⟨rfl, rfl, rfl⟩
  | write hb _ => obtain rfl := inbound_of_not_touching (x := x) hi (.inl hb); exact ⟨rfl, rfl, rfl⟩
  | read hb _ => obtain rfl := inbound_of_not_touching (x := x) hi (.inr (.inl hb)); exact ⟨rfl, rfl, rfl⟩
  | resizeOpen hb _ => obtain rfl := inbound_of_not_touching (x := x) hi (.inr (.inr (.inl hb))); exact ⟨rfl, rfl, rfl⟩
  | resizeCopy hb _ => obtain rfl := inbound_of_not_touching hi (.inr (.inr (.inr hb))); exact ⟨rfl, rfl, rfl⟩
  | fault _ _ => exact ⟨rfl, rfl, rfl⟩
  | transportRead _ _ => exact ⟨rfl, rfl, rfl⟩
  | transportWrite _ _ =>
    obtain ⟨rdy, draws, tick, heq⟩ := transmitted_eq p _ s
    rw [heq]
    exact ⟨rfl, rfl, rfl⟩
  | armReceive _ => exact ⟨rfl, rfl, rfl⟩
  | enableReceive _ => exact ⟨rfl, rfl, rfl⟩
  | armTransmit h => rw [hno] at h; cases h
  | enableTransmit h => rw [hno] at h; cases h
  | disarmTransmit h => rw [hnot] at h; cases h
  | disableTransmit h => rw [hnot] at h; cases h

theorem not_enq_of_not_touching (hi : touchesTransmit i = false) (v : Byte) : i ≠ .scEnq v := by
  rintro rfl
  cases hi

/-- A command that does not touch transmission carries `Armed` along, on either port. -/
theorem carries_of_not_touching {f : Infl → State → Prop} (hi : touchesTransmit i = false)
    (hf : ∀ y t, (y = .idle ∨ ∃ l x, y = .busy ⟨i, l, x⟩) → t.outb = s.outb → t.txArm = s.txArm →
      t.evTx = s.evTx → f y t) :
    (unitOf i p l x s).Carries f i := by
  have heffect := unitOf_effect (i := i) (p := p) (l := l) (x := x) (s := s)
  cases hu : unitOf i p l x s with
  | goto l' x' t =>
    rw [hu] at heffect
    obtain ⟨hout, harm, hev⟩ := UnitEffect.transmitFrame hi heffect
    exact hf _ _ (.inr ⟨l', x', rfl⟩) hout harm hev
  | retire st v t =>
    rw [hu] at heffect
    obtain ⟨hout, harm, hev⟩ := UnitEffect.transmitFrame hi heffect
    exact hf _ _ (.inl rfl) hout harm hev
  | hold => trivial
  | fault f => trivial
  | refuse r => trivial

theorem armed_fg_of_not_touching (hi : touchesTransmit i = false) (h : Armed (.busy ⟨i, l, x⟩) z s) :
    (unitOf i .fg l x s).Carries (fun y t => Armed y z t) i := by
  refine carries_of_not_touching hi fun y t hy hout harm hev => ?_
  have hne := not_enq_of_not_touching hi
  exact h.congr (by rw [hout]) harm hev (fun _ => owesArm_of_ne hne) (fun _ => owesEvent_of_ne hne) id

theorem armed_bh_of_not_touching (hi : touchesTransmit i = false) (h : Armed y (.busy ⟨i, l, x⟩) s) :
    (unitOf i .bh l x s).Carries (fun z t => Armed y z t) i := by
  refine carries_of_not_touching hi fun z t hz hout harm hev => ?_
  have hne : i ≠ .scBhalf := by
    rintro rfl
    cases hi
  refine h.congr (by rw [hout]) harm hev id id fun hd => ?_
  rcases hz with rfl | ⟨l', x', rfl⟩
  · cases hd
  · rw [disarming_of_ne hne] at hd
    cases hd

/-! ### `SC.ENQ` arms after it has queued -/

theorem armed_scEnq (hz : disarming z = false) (h : Armed (.busy ⟨.scEnq v, l, x⟩) z s) :
    (unitOf (.scEnq v) .fg l x s).Carries (fun y t => Armed y z t) (.scEnq v) := by
  have hempty {t : State} (hd : disarming z = true) : t.outb.count = 0 := by
    rw [hz] at hd
    cases hd
  cases l with
  | u1 =>
    rw [unitOf, unitScEnq, if_neg (by decide)]
    refine attempt_induct (fun _ _ => trivial) fun _ _ => ⟨fun _ ha => ?_, fun _ he => ?_, hempty⟩
    · cases ha
    · cases he
  | u2 => exact ⟨fun _ _ => rfl, fun _ he => (by cases he), hempty⟩
  | u3 => exact ⟨fun hq _ => h.arm hq rfl, fun _ _ => rfl, hempty⟩
  | _ => trivial

/-! ### `SC.BHALF` disarms only an empty queue -/

/-- Taking an element leaves one element fewer. -/
theorem count_read {role : Role} {sync : Sync} {c d : CBuf Byte} {w : Byte} (hc : BufInv sync c) (hd : StorageOk d)
    (h : c.read sync role = .ok (some w, d)) : c.count = d.count + 1 := by
  rw [← hc.2.2.1.length_queued, ← hd.length_queued, queued_read hc h, List.length_cons]

/-- A buffer in order whose write view is current is empty where its consumer sees it empty. -/
theorem count_of_seen_empty {sync : Sync} {c : CBuf Byte} (hc : BufInv sync c) (hview : c.wrv = c.wr)
    (hseen : c.wrv = c.rd) : c.count = 0 := by
  obtain ⟨⟨-, hwr, hrd, -⟩, -⟩ := hc
  exact (occ_eq_zero hrd hwr).mpr (hseen.symm.trans hview)

theorem armed_scBhalf (hbuf : BufInv s.par.sync s.outb) (hview : l = .u6 → s.outb.wrv = s.outb.wr)
    (h : Armed y (.busy ⟨.scBhalf, l, x⟩) s) :
    (unitOf .scBhalf .bh l x s).Carries (fun z t => Armed y z t) .scBhalf := by
  have hkept {t : State} {z : Infl} (hout : t.outb.count = s.outb.count) (harm : t.txArm = s.txArm)
      (hev : t.evTx = s.evTx) (hz : disarming z = true → disarming (.busy ⟨.scBhalf, l, x⟩) = true) : Armed y z t :=
    h.congr hout harm hev id id hz
  have hwrite {l' : Label} (hl : l' = .u7 ∨ l' = .u7b) :
      (unitOf .scBhalf .bh l' x s).Carries (fun z t => Armed y z t) .scBhalf := by
    cases hr : s.txReady with
    | false => rw [unitScBhalf_write_unready hl hr]; trivial
    | true =>
      rw [unitScBhalf_write hl hr]
      obtain ⟨rdy, draws, tick, heq⟩ := transmitted_eq .bh x.v s
      rw [heq]
      exact hkept rfl rfl rfl fun hd => by cases hd
  cases l with
  | u1 => rw [unitScBhalf_u1]; exact hkept rfl rfl rfl (by split <;> exact id)
  | u2 =>
    refine attempt_induct (fun _ _ => trivial) fun r hr => ?_
    obtain ⟨rest, -, ht⟩ := transportRead_ok hr
    rw [ht]
    exact hkept rfl rfl rfl id
  | u3 =>
    refine attempt_induct (fun _ _ => trivial) fun r hr => ?_
    obtain ⟨c, -, ht⟩ := cbWrite_ok hr
    rw [ht]
    exact hkept rfl rfl rfl id
  | u4 => rw [unitScBhalf_u4]; exact hkept rfl rfl rfl (by split <;> exact id)
  | u5 =>
    cases harm : s.txArm with
    | true => rw [unitScBhalf_u5_armed harm]; exact hkept rfl rfl rfl id
    | false => rw [unitScBhalf_u5_disarmed harm]; exact hkept rfl rfl rfl id
  | u6 =>
    refine attempt_induct (fun _ _ => trivial) fun ⟨o, t⟩ hr => ?_
    obtain ⟨c, hread, rfl⟩ := cbRead_ok hr
    cases o with
    | none =>
      obtain ⟨-, -, ⟨hseen, -, rfl⟩ | ⟨-, -, v, -, hv, -⟩⟩ := read_ok hread
      · have hcount : s.outb.count = 0 := count_of_seen_empty hbuf (hview rfl) hseen
        exact ⟨h.arm, h.event, fun _ => hcount⟩
      · cases hv
    | some w =>
      have hcount : s.outb.count = c.count + 1 := count_read hbuf (BufInv.read hbuf hread).2.2.1 hread
      have hq : 0 < s.outb.count := by omega
      refine ⟨fun _ => h.arm hq, fun _ => h.event hq, fun hd => ?_⟩
      split at hd <;> cases hd
  | u7 => exact hwrite (.inl rfl)
  | u7a =>
    cases hr : s.txReady with
    | true => rw [unitScBhalf_u7a hr]; exact hkept rfl rfl rfl id
    | false => rw [unitScBhalf_u7a_hold hr]; trivial
  | u7b => exact hwrite (.inr rfl)
  | u8 => exact ⟨fun hq _ => absurd (h.empty rfl) (Nat.pos_iff_ne_zero.mp hq), h.event, fun _ => h.empty rfl⟩
  | u9 =>
    have hempty := h.empty rfl
    exact ⟨fun hq _ => absurd hempty (Nat.pos_iff_ne_zero.mp hq), fun hq _ => absurd hempty (Nat.pos_iff_ne_zero.mp hq),
      fun hd => by cases hd⟩

/-! ### Every event -/

/-- The commands that `enqOnly` admits. -/
theorem enqOnly_cases {more : Nat} (h : enqOnly s (.run p more) = true) (hnext : nextCommand s p = some i) :
    touchesTransmit i = false ∨ (p = .fg ∧ ∃ v, i = .scEnq v) ∨ (p = .bh ∧ i = .scBhalf) := by
  simp only [enqOnly, hnext] at h
  split at h
  · exact .inr (.inl ⟨rfl, _, rfl⟩)
  · exact .inr (.inr ⟨rfl, rfl⟩)
  · exact .inl (by simpa using h)

/-- Under `Preempt` no disarming bottom-half is in flight when the foreground runs. -/
theorem not_disarming_of_preempts {more : Nat} (h : preempts s (.run .fg more) = true) :
    disarming s.bh.infl = false := by
  cases hinfl : s.bh.infl with
  | idle => rfl
  | busy c =>
    refine disarming_of_ne fun hc => ?_
    have hnext : nextCommand s .bh = some c.cmd := nextCommand_of_busy hinfl
    simp [preempts, runsBhalf, hnext, hc, hinfl] at h

theorem armed_accept_fg (i : Instr) (u : State) (h : Armed .idle z u) : Armed (.busy ⟨i, .u1, Locals.init⟩) z u :=
  h.congr rfl rfl rfl (fun _ => rfl) (fun _ => rfl) id

theorem armed_accept_bh (i : Instr) (u : State) (h : Armed y .idle u) : Armed y (.busy ⟨i, .u1, Locals.init⟩) u := by
  refine h.congr rfl rfl rfl id id fun hd => ?_
  cases i <;> cases hd

/-- What `Armed` asks of the two ports, from the turn of either. -/
theorem runPort_armed {more : Nat} (hinv : Inv s) (hsync : s.par.sync = .direct)
    (hpre : preempts s (.run p more) = true) (henq : enqOnly s (.run p more) = true)
    (h : runPort p more s = .next t) (ha : Armed s.fg.infl s.bh.infl s) :
    Armed t.fg.infl t.bh.infl t := by
  have hother := (runPort_ports h).1
  cases p with
  | fg =>
    rw [show t.bh = s.bh from hother]
    refine runPort_carries (f := fun y u => Armed y s.bh.infl u) hinv (fun _ _ q hu => hu.setPort .fg q)
      (fun _ _ _ hu => hu.congr rfl rfl rfl id id id) (fun i u => armed_accept_fg i u)
      (fun i hnext l x u _ hu => ?_) ha h
    rcases enqOnly_cases henq hnext with hi | ⟨-, v, rfl⟩ | ⟨hp, -⟩
    · exact armed_fg_of_not_touching hi hu
    · exact armed_scEnq (not_disarming_of_preempts hpre) hu
    · cases hp
  | bh =>
    rw [show t.fg = s.fg from hother]
    refine runPort_carries (f := fun z u => Armed s.fg.infl z u) hinv (fun _ _ q hu => hu.setPort .bh q)
      (fun _ _ _ hu => hu.congr rfl rfl rfl id id id) (fun i u => armed_accept_bh i u)
      (fun i hnext l x u hstanding hu => ?_) ha h
    rcases enqOnly_cases henq hnext with hi | ⟨hp, -⟩ | ⟨-, rfl⟩
    · exact armed_bh_of_not_touching hi hu
    · cases hp
    · have hbuf : BufInv s.par.sync u.outb := hstanding.around.bufs .outbound
      have ⟨_, _, _, hviews⟩ := hbuf
      exact armed_scBhalf (hstanding.around.par_eq ▸ hbuf) (fun _ => (hviews hsync).1) hu

/-- A move of a view does not touch transmission. -/
theorem Armed.setViews {b : BufSel} {c : CBuf Byte} (h : Armed y z s) (hwr : c.wr = (s.buf b).wr)
    (hrd : c.rd = (s.buf b).rd) (hcap : c.cap = (s.buf b).cap) : Armed y z (s.setBuf b c) := by
  cases b
  · exact h.congr rfl rfl rfl id id id
  · refine h.congr ?_ rfl rfl id id id
    show occ c.rd c.wr c.cap = occ s.outb.rd s.outb.wr s.outb.cap
    rw [hrd, hwr, hcap]
    rfl

/-- An event that is no turn of a port touches neither transmission nor what the ports have in flight. -/
theorem perform_armed_agent {e : Event} (he : ∀ p more, e ≠ .run p more) (h : perform e s = .next t) :
    t.fg.infl = s.fg.infl ∧ t.bh.infl = s.bh.infl ∧ ∀ y z, Armed y z s → Armed y z t := by
  cases e with
  | run p more => exact absurd rfl (he p more)
  | syncW b y =>
    cases h
    refine ⟨congrArg PortState.infl (syncWStep_port .fg), congrArg PortState.infl (syncWStep_port .bh),
      fun y z ha => ?_⟩
    rcases syncWStep_cases b _ s with heq | ⟨-, -, heq⟩ <;> rw [heq]
    · exact ha
    · exact ha.setViews rfl rfl rfl
  | syncR b y =>
    cases h
    refine ⟨congrArg PortState.infl (syncRStep_port .fg), congrArg PortState.infl (syncRStep_port .bh),
      fun y z ha => ?_⟩
    rcases syncRStep_cases b _ s with heq | ⟨-, -, heq⟩ <;> rw [heq]
    · exact ha
    · exact ha.setViews rfl rfl rfl
  | envRx v => cases h; exact ⟨rfl, rfl, fun y z ha => ha.congr rfl rfl rfl id id id⟩
  | envTxReady => cases h; exact ⟨rfl, rfl, fun y z ha => ha.congr rfl rfl rfl id id id⟩
  | present p w => cases h; cases p <;> exact ⟨rfl, rfl, fun y z ha => ha.congr rfl rfl rfl id id id⟩

end

/-- Settles O48: each unit of the commands that the premises admit carries `Armed` along, and no other event touches it.
-/
theorem preemptKeepsTransmissionArmed : Obligations.PreemptKeepsTransmissionArmed := by
  intro s t hinv hsync hpre henq ha h
  obtain ⟨script, tick, hstep⟩ := step_eq_perform s
  rw [hstep] at h
  rw [transmitArmed_iff] at ha ⊢
  have harmed : Armed (s.withSchedule script tick).fg.infl (s.withSchedule script tick).bh.infl
      (s.withSchedule script tick) := ha.congr rfl rfl rfl id id id
  cases hevent : nextEvent s with
  | run p more =>
    rw [hevent] at h hpre henq
    exact runPort_armed (s := s.withSchedule script tick) hinv hsync hpre henq h harmed
  | _ =>
    rw [hevent] at h
    obtain ⟨hfg, hbh, harmedAfter⟩ := perform_armed_agent (fun _ _ he => by cases he) h
    rw [hfg, hbh]
    exact harmedAfter _ _ harmed

end Sys2Proof.Machine

namespace Sys2Proof.Machine

/-! ### A view that is current stays so while its index stands still (`20_memory.md` R50) -/

section
variable {i : Instr} {p : Port} {l : Label} {x : Locals} {s t : State} {b b' : BufSel} {c d : CBuf Byte} {e : Event}
  {y : Half}

/-- Under `LAGGED` a port's unit moves a view only in a resize, which makes it current. -/
theorem BufEffect.views (h : BufEffect p i l x .lagged b c d) :
    (d.wrv = c.wrv ∨ d.wrv = d.wr) ∧ (d.rdv = c.rdv ∨ d.rdv = d.rd) := by
  cases h with
  | same => exact ⟨.inl rfl, .inl rfl⟩
  | write _ h => obtain ⟨-, -, ⟨-, -, rfl⟩ | ⟨-, -, -, rfl⟩⟩ := write_ok h <;> exact ⟨.inl rfl, .inl rfl⟩
  | read _ h => obtain ⟨-, -, ⟨-, -, rfl⟩ | ⟨-, -, v, -, -, rfl⟩⟩ := read_ok h <;> exact ⟨.inl rfl, .inl rfl⟩
  | resizeOpen _ h => obtain ⟨-, ⟨-, -, rfl⟩ | ⟨-, -, rfl⟩⟩ := resizeOpen_ok h <;> exact ⟨.inl rfl, .inl rfl⟩
  | resizeCopy _ h =>
    obtain ⟨-, -, hrd, hrdv, -, hwrv, -⟩ := resizeCopy_ok h
    exact ⟨.inr hwrv, .inr (hrdv.trans hrd.symm)⟩

theorem runPort_one_views (hsync : s.par.sync = .lagged) (h : runPort p 0 s = .next t) (b : BufSel) :
    ((t.buf b).wrv = (s.buf b).wrv ∨ (t.buf b).wrv = (t.buf b).wr) ∧
      ((t.buf b).rdv = (s.buf b).rdv ∨ (t.buf b).rdv = (t.buf b).rd) := by
  cases hnext : nextCommand s p with
  | none => rw [runPort_none_buf hnext h]; exact ⟨.inl rfl, .inl rfl⟩
  | some i =>
    have heffect := runPort_one_buf hnext h b
    rw [hsync] at heffect
    exact heffect.views

/-- The guard of `SyncW` leaves a view that is current where it is. -/
theorem eq_of_mayMoveWrv (hin : InRange c) (hcurrent : c.wrv = c.wr) (h : c.mayMoveWrv y = true) : y = c.wr := by
  obtain ⟨hy, hle⟩ := mayMoveWrv_iff.mp h
  obtain ⟨-, hwr, -⟩ := hin
  rw [hcurrent, occ_self, Nat.le_zero] at hle
  exact ((occ_eq_zero hwr hy).mp hle).symm

theorem eq_of_mayMoveRdv (hin : InRange c) (hcurrent : c.rdv = c.rd) (h : c.mayMoveRdv y = true) : y = c.rd := by
  obtain ⟨hy, hle⟩ := mayMoveRdv_iff.mp h
  obtain ⟨-, -, hrd, -⟩ := hin
  rw [hcurrent, occ_self, Nat.le_zero] at hle
  exact ((occ_eq_zero hrd hy).mp hle).symm

/-- `SyncW` moves the write view of its buffer, and no other view or index. -/
theorem syncWStep_views (b b' : BufSel) (y : Half) (s : State) :
    (((syncWStep b' y s).buf b).wrv = (s.buf b).wrv ∨
        ((s.buf b).mayMoveWrv y = true ∧ ((syncWStep b' y s).buf b).wrv = y)) ∧
      ((syncWStep b' y s).buf b).rdv = (s.buf b).rdv ∧ ((syncWStep b' y s).buf b).wr = (s.buf b).wr ∧
      ((syncWStep b' y s).buf b).rd = (s.buf b).rd := by
  rcases syncWStep_cases b' y s with heq | ⟨-, hmove, heq⟩ <;> rw [heq]
  · exact ⟨.inl rfl, rfl, rfl, rfl⟩
  · by_cases hb : b = b'
    · subst hb
      rw [setBuf_buf_same]
      exact ⟨.inr ⟨hmove, rfl⟩, rfl, rfl, rfl⟩
    · rw [setBuf_buf_other _ _ _ _ hb]
      exact ⟨.inl rfl, rfl, rfl, rfl⟩

theorem syncRStep_views (b b' : BufSel) (y : Half) (s : State) :
    (((syncRStep b' y s).buf b).rdv = (s.buf b).rdv ∨
        ((s.buf b).mayMoveRdv y = true ∧ ((syncRStep b' y s).buf b).rdv = y)) ∧
      ((syncRStep b' y s).buf b).wrv = (s.buf b).wrv ∧ ((syncRStep b' y s).buf b).wr = (s.buf b).wr ∧
      ((syncRStep b' y s).buf b).rd = (s.buf b).rd := by
  rcases syncRStep_cases b' y s with heq | ⟨-, hmove, heq⟩ <;> rw [heq]
  · exact ⟨.inl rfl, rfl, rfl, rfl⟩
  · by_cases hb : b = b'
    · subst hb
      rw [setBuf_buf_same]
      exact ⟨.inr ⟨hmove, rfl⟩, rfl, rfl, rfl⟩
    · rw [setBuf_buf_other _ _ _ _ hb]
      exact ⟨.inl rfl, rfl, rfl, rfl⟩

/-- No other agent touches a buffer. -/
theorem perform_buf_agent (hrun : ∀ p more, e ≠ .run p more) (hw : ∀ b y, e ≠ .syncW b y) (hr : ∀ b y, e ≠ .syncR b y)
    (h : perform e s = .next t) : t.buf b = s.buf b := by
  cases e with
  | run p more => exact absurd rfl (hrun p more)
  | syncW b y => exact absurd rfl (hw b y)
  | syncR b y => exact absurd rfl (hr b y)
  | envRx v => cases h; cases b <;> rfl
  | envTxReady => cases h; cases b <;> rfl
  | present p w => cases h; rw [presentStep, setPort_buf]

theorem perform_keeps_wrv (hinv : Inv s) (hsync : s.par.sync = .lagged) (hone : oneUnit e = true)
    (h : perform e s = .next t) (hstill : (t.buf b).wr = (s.buf b).wr) (hcurrent : (s.buf b).wrv = (s.buf b).wr) :
    (t.buf b).wrv = (t.buf b).wr := by
  cases e with
  | run p more =>
    obtain rfl : more = 0 := by simpa [oneUnit] using hone
    rcases (runPort_one_views hsync h b).1 with hsame | hview
    · rw [hsame, hcurrent, hstill]
    · exact hview
  | syncW b' y =>
    cases h
    rcases (syncWStep_views b b' y s).1 with hsame | ⟨hmove, hview⟩
    · rw [hsame, hcurrent, hstill]
    · rw [hview, hstill]
      exact eq_of_mayMoveWrv (hinv.buf b).1 hcurrent hmove
  | syncR b' y => cases h; rw [(syncRStep_views b b' y s).2.1, hcurrent, hstill]
  | _ =>
    rw [perform_buf_agent (fun _ _ he => by cases he) (fun _ _ he => by cases he) (fun _ _ he => by cases he) h]
    exact hcurrent

theorem perform_keeps_rdv (hinv : Inv s) (hsync : s.par.sync = .lagged) (hone : oneUnit e = true)
    (h : perform e s = .next t) (hstill : (t.buf b).rd = (s.buf b).rd) (hcurrent : (s.buf b).rdv = (s.buf b).rd) :
    (t.buf b).rdv = (t.buf b).rd := by
  cases e with
  | run p more =>
    obtain rfl : more = 0 := by simpa [oneUnit] using hone
    rcases (runPort_one_views hsync h b).2 with hsame | hview
    · rw [hsame, hcurrent, hstill]
    · exact hview
  | syncW b' y => cases h; rw [(syncWStep_views b b' y s).2.1, hcurrent, hstill]
  | syncR b' y =>
    cases h
    rcases (syncRStep_views b b' y s).1 with hsame | ⟨hmove, hview⟩
    · rw [hsame, hcurrent, hstill]
    · rw [hview, hstill]
      exact eq_of_mayMoveRdv (hinv.buf b).1 hcurrent hmove
  | _ =>
    rw [perform_buf_agent (fun _ _ he => by cases he) (fun _ _ he => by cases he) (fun _ _ he => by cases he) h]
    exact hcurrent

/-- A full catch-up is always admitted (R123). -/
theorem syncWStep_catchesUp (hin : InRange (s.buf b)) (hsync : s.par.sync = .lagged) :
    ((syncWStep b (s.buf b).wr s).buf b).wrv = (s.buf b).wr := by
  obtain ⟨-, hwr, -⟩ := hin
  rw [syncWStep, if_pos ⟨hsync, mayMoveWrv_iff.mpr ⟨hwr, Nat.le_refl _⟩⟩, setBuf_buf_same]

theorem syncRStep_catchesUp (hin : InRange (s.buf b)) (hsync : s.par.sync = .lagged) :
    ((syncRStep b (s.buf b).rd s).buf b).rdv = (s.buf b).rd := by
  obtain ⟨-, -, hrd, -⟩ := hin
  rw [syncRStep, if_pos ⟨hsync, mayMoveRdv_iff.mpr ⟨hrd, Nat.le_refl _⟩⟩, setBuf_buf_same]

/-- The configuration never changes. -/
theorem perform_par (h : perform e s = .next t) : t.par = s.par := by
  cases e with
  | run p more =>
    exact runPort_keeps (P := fun u => u.par = s.par) (fun u p q hu => (setPort_par ..).trans hu) (fun _ _ hu => hu)
      (fun _ _ _ _ _ _ hu heffect => heffect.par.trans hu) rfl h
  | syncW b y =>
    cases h
    rcases syncWStep_cases b y s with heq | ⟨-, -, heq⟩ <;> rw [heq]
    exact setBuf_par ..
  | syncR b y =>
    cases h
    rcases syncRStep_cases b y s with heq | ⟨-, -, heq⟩ <;> rw [heq]
    exact setBuf_par ..
  | envRx v => cases h; rfl
  | envTxReady => cases h; rfl
  | present p w => cases h; exact setPort_par ..

end

/-! ### Fair runs -/

section
variable {sched : Nat → Event} {run : Nat → State} {b : BufSel} {n : Nat}

theorem IsRun.inv (hrun : IsRun sched run) (h0 : Inv (run 0)) (n : Nat) : Inv (run n) :=
  run_induction hrun h0 (fun _ _ _ hs h => perform_inv hs h) n

theorem IsRun.par (hrun : IsRun sched run) (n : Nat) : (run n).par = (run 0).par :=
  run_induction (P := fun s => s.par = (run 0).par) hrun rfl (fun _ _ _ hs h => (perform_par h).trans hs) n

/-- An index that stands still from `n` on, a step that brings the view to it, and steps that then leave it there. -/
theorem catches_up {index view : Nat → Half} (hstill : ∀ m, n ≤ m → index m = index n)
    (hcatch : ∃ m, n ≤ m ∧ view (m + 1) = index m)
    (hkeep : ∀ m, index (m + 1) = index m → view m = index m → view (m + 1) = index (m + 1)) :
    ∃ k, n ≤ k ∧ ∀ m, k ≤ m → view m = index m := by
  obtain ⟨m, hm, hview⟩ := hcatch
  refine ⟨m + 1, by omega, fun m' hm' => ?_⟩
  induction m', hm' using Nat.le_induction with
  | base => rw [hview, hstill m hm, hstill (m + 1) (by omega)]
  | succ m' hm' ih => exact hkeep m' (by rw [hstill m' (by omega), hstill (m' + 1) (by omega)]) ih

end

/-- Settles O54: after the index has stopped, the next full catch-up makes its view current, and nothing moves it away.
-/
theorem fairViewsCatchUp : Obligations.FairViewsCatchUp := by
  intro sched run hrun h0 hsync hfair b n
  have hinv := IsRun.inv hrun h0
  have hlagged (m : Nat) : (run m).par.sync = .lagged := by rw [IsRun.par hrun m, hsync]
  obtain ⟨hfairW, hfairR⟩ := hfair hsync b
  refine ⟨fun hstill => ?_, fun hstill => ?_⟩
  · obtain ⟨m, hm, hevent⟩ := hfairW n
    have hstep := (hrun m).2
    rw [hevent, perform] at hstep
    injection hstep with hstep
    refine catches_up hstill ⟨m, hm, ?_⟩ fun m hi hv =>
      perform_keeps_wrv (hinv m) (hlagged m) (hrun m).1 (hrun m).2 hi hv
    rw [← hstep]
    exact syncWStep_catchesUp ((hinv m).buf b).1 (hlagged m)
  · obtain ⟨m, hm, hevent⟩ := hfairR n
    have hstep := (hrun m).2
    rw [hevent, perform] at hstep
    injection hstep with hstep
    refine catches_up hstill ⟨m, hm, ?_⟩ fun m hi hv =>
      perform_keeps_rdv (hinv m) (hlagged m) (hrun m).1 (hrun m).2 hi hv
    rw [← hstep]
    exact syncRStep_catchesUp ((hinv m).buf b).1 (hlagged m)

end Sys2Proof.Machine

namespace Sys2Proof.Machine

/-! ### Where the accepted bytes are (`70_reset_and_hazards.md` R174) -/

/-- The byte that an `SC.BHALF` at a unit has in hand. -/
def inHandAt (l : Label) (x : Locals) : List Byte :=
  match l with
  | .u7 => [x.v]
  | .u7a => [x.v]
  | .u7b => [x.v]
  | _ => []

/-- What a unit of the handler does with the byte in hand, the queue and the log: it sends nothing while it goes on, and
what it has sent when it retires is what it had in hand. -/
def UnitResult.Accounts (l : Label) (x : Locals) (s : State) : UnitResult → Prop
  | .goto l' x' t => inHandAt l x ++ s.outb.queued = inHandAt l' x' ++ t.outb.queued ∧ t.txLog = s.txLog
  | .retire _ _ t => t.txLog = s.txLog ++ inHandAt l x ∧ t.outb.queued = s.outb.queued
  | .hold => True
  | .fault _ => True
  | .refuse _ => True

section
variable {i : Instr} {p : Port} {l l' : Label} {x x' : Locals} {s t : State} {more : Nat} {v : Byte} {e : Event}

theorem inHand_of_idle (h : s.bh.infl = .idle) : inHand s = [] := by simp only [inHand, h]

theorem inHand_of_scBhalf (h : s.bh.infl = .busy ⟨.scBhalf, l, x⟩) : inHand s = inHandAt l x := by
  cases l <;> simp only [inHand, h, inHandAt]

theorem inHand_congr (h : t.bh.infl = s.bh.infl) : inHand t = inHand s := by simp only [inHand, h]

theorem unitScBhalf_accounts (hbuf : BufInv s.par.sync s.outb) : (unitOf .scBhalf .bh l x s).Accounts l x s := by
  have hwrite {l' : Label} (hl : l' = .u7 ∨ l' = .u7b) : (unitOf .scBhalf .bh l' x s).Accounts l' x s := by
    cases hr : s.txReady with
    | false => rw [unitScBhalf_write_unready hl hr]; trivial
    | true =>
      rw [unitScBhalf_write hl hr]
      obtain ⟨rdy, draws, tick, heq⟩ := transmitted_eq .bh x.v s
      rw [heq]
      rcases hl with rfl | rfl <;> exact ⟨rfl, rfl⟩
  cases l with
  | u1 =>
    rw [unitScBhalf_u1]
    split <;> exact ⟨rfl, rfl⟩
  | u2 =>
    refine attempt_induct (fun _ _ => trivial) fun r hr => ?_
    obtain ⟨rest, -, ht⟩ := transportRead_ok hr
    rw [ht]
    exact ⟨rfl, rfl⟩
  | u3 =>
    refine attempt_induct (fun _ _ => trivial) fun r hr => ?_
    obtain ⟨c, -, ht⟩ := cbWrite_ok hr
    rw [ht]
    exact ⟨rfl, rfl⟩
  | u4 =>
    rw [unitScBhalf_u4]
    split <;> exact ⟨rfl, rfl⟩
  | u5 =>
    cases harm : s.txArm with
    | true => rw [unitScBhalf_u5_armed harm]; exact ⟨rfl, rfl⟩
    | false => rw [unitScBhalf_u5_disarmed harm]; exact ⟨(List.append_nil _).symm, rfl⟩
  | u6 =>
    refine attempt_induct (fun _ _ => trivial) fun ⟨o, t⟩ hr => ?_
    obtain ⟨c, hread, rfl⟩ := cbRead_ok hr
    cases o with
    | none =>
      obtain ⟨-, -, ⟨-, -, rfl⟩ | ⟨-, -, v, -, hv, -⟩⟩ := read_ok hread
      · exact ⟨rfl, rfl⟩
      · cases hv
    | some w =>
      have hqueue : s.outb.queued = w :: c.queued := queued_read hbuf hread
      refine ⟨?_, rfl⟩
      cases s.par.backend <;> exact hqueue
  | u7 => exact hwrite (.inl rfl)
  | u7a =>
    cases hr : s.txReady with
    | true => rw [unitScBhalf_u7a hr]; exact ⟨rfl, rfl⟩
    | false => rw [unitScBhalf_u7a_hold hr]; trivial
  | u7b => exact hwrite (.inr rfl)
  | u8 => exact ⟨rfl, rfl⟩
  | u9 => exact ⟨(List.append_nil _).symm, rfl⟩

/-- What an event does to the bytes accepted, sent, in hand and queued. -/
def BytesKept (s : State) (e : Event) (t : State) : Prop :=
  inHand s ++ s.outb.queued ++ enqueuedByte s e t = sentByte s e t ++ (inHand t ++ t.outb.queued)

/-- An event that accepts and sends nothing. -/
theorem BytesKept.of_quiet (henq : enqueuedByte s e t = []) (hsent : sentByte s e t = []) (hbh : t.bh.infl = s.bh.infl)
    (hqueue : t.outb.queued = s.outb.queued) : BytesKept s e t := by
  rw [BytesKept, henq, hsent, inHand_congr hbh, hqueue, List.append_nil, List.nil_append]

theorem enqueuedByte_of_ne (hnext : nextCommand s .fg = some i) (hi : ∀ v, i ≠ .scEnq v) :
    enqueuedByte s (.run .fg more) t = [] := by
  cases i with
  | scEnq v => exact absurd rfl (hi v)
  | _ => simp only [enqueuedByte, hnext]

theorem enqueuedByte_of_none (hnext : nextCommand s .fg = none) : enqueuedByte s (.run .fg more) t = [] := by
  simp only [enqueuedByte, hnext]

theorem enqueuedByte_of_label (hl : nextLabel s .fg ≠ .u1) : enqueuedByte s (.run .fg more) t = [] := by
  simp only [enqueuedByte]
  split
  · next h _ => exact absurd h hl
  · rfl

theorem enqueuedByte_of_write {c : InFlight} (hnext : nextCommand s .fg = some (.scEnq v)) (hl : nextLabel s .fg = .u1)
    (hc : t.fg.infl = .busy c) : enqueuedByte s (.run .fg more) t = if c.locals.r = .ok then [v] else [] := by
  simp only [enqueuedByte, hnext, hl, hc]

/-- If the result goes on, it has queued `v` exactly if it says so. -/
def UnitResult.Accepts (v : Byte) (s : State) : UnitResult → Prop
  | .goto _ x t => t.outb.queued = s.outb.queued ++ if x.r = .ok then [v] else []
  | .retire _ _ _ => False
  | .hold => False
  | .fault _ => True
  | .refuse _ => True

theorem unitScEnq_accepts (hbuf : BufInv s.par.sync s.outb) : (unitOf (.scEnq v) .fg .u1 x s).Accepts v s := by
  rw [unitOf, unitScEnq, if_neg (by decide)]
  refine attempt_induct (fun _ _ => trivial) fun ⟨st, t⟩ hr => ?_
  obtain ⟨c, hwrite, rfl⟩ := cbWrite_ok hr
  obtain ⟨-, -, ⟨-, rfl, rfl⟩ | ⟨-, -, rfl, -⟩⟩ := write_ok hwrite
  · exact (List.append_nil _).symm
  · exact queued_write hbuf hwrite

/-- After its first unit `SC.ENQ` leaves the buffers. -/
theorem BufEffect.eq_of_scEnq {sync : Sync} {b : BufSel} {c d : CBuf Byte} (hl : l ≠ .u1)
    (h : BufEffect p (.scEnq v) l x sync b c d) : d = c := by
  cases h with
  | same => rfl
  | write hb _ =>
    cases l
    case u1 => exact absurd rfl hl
    all_goals cases hb
  | read hb _ => cases l <;> cases hb
  | resizeOpen hb _ => cases l <;> cases hb
  | resizeCopy hb _ => cases l <;> cases hb

/-- The foreground's unit accepts at most the byte it queues. -/
theorem bytesKept_fg (hinv : Inv s) (henq : enqOnly s (.run .fg 0) = true) (h : runPort .fg 0 s = .next t) :
    BytesKept s (.run .fg 0) t := by
  have hbh : t.bh = s.bh := (runPort_ports h).1
  cases hnext : nextCommand s .fg with
  | none =>
    have hbuf := runPort_none_buf (b := .outbound) hnext h
    exact .of_quiet (enqueuedByte_of_none hnext) rfl (congrArg _ hbh) (congrArg CBuf.queued hbuf)
  | some i =>
    rcases enqOnly_cases henq hnext with hi | ⟨-, v, rfl⟩ | ⟨hp, -⟩
    · obtain ⟨u, q, heffect, rfl⟩ := runPort_one_effect hnext h
      exact .of_quiet (enqueuedByte_of_ne hnext (not_enq_of_not_touching hi)) rfl (congrArg _ hbh)
        (congrArg CBuf.queued (heffect.transmitFrame hi).1)
    · by_cases hl : nextLabel s .fg = .u1
      · rw [runPort_one hnext, hl] at h
        have haccepts := unitScEnq_accepts (v := v) (x := nextLocals s .fg) (hinv.buf .outbound)
        rw [BytesKept, inHand_congr (congrArg _ hbh), List.append_assoc]
        refine congrArg (inHand s ++ ·) ?_
        cases hu : unitOf (.scEnq v) .fg .u1 (nextLocals s .fg) s with
        | goto l' x' u =>
          rw [hu] at h haccepts
          cases h
          exact (congrArg _ (enqueuedByte_of_write hnext hl rfl)).trans haccepts.symm
        | retire st w u => rw [hu] at haccepts; exact haccepts.elim
        | hold => rw [hu] at haccepts; exact haccepts.elim
        | fault f => rw [hu] at h; cases h
        | refuse r => rw [hu] at h; cases h
      · have hbuf := (runPort_one_buf hnext h .outbound).eq_of_scEnq hl
        exact .of_quiet (enqueuedByte_of_label hl) rfl (congrArg _ hbh) (congrArg CBuf.queued hbuf)
    · cases hp

/-! ### The bottom-half's unit -/

/-- Port `BH` is idle or has an `SC.BHALF` in flight. -/
def RunsHandler (s : State) : Prop := s.bh.infl = .idle ∨ ∃ l x, s.bh.infl = .busy ⟨.scBhalf, l, x⟩

theorem handlerOnly_cases (h : handlerOnly s (.run .bh more) = true) (hnext : nextCommand s .bh = some i) :
    i = .scBhalf := by
  simpa only [handlerOnly, hnext, beq_iff_eq] using h

theorem runsBhalf_iff : runsBhalf s = true ↔ nextCommand s .bh = some .scBhalf := by
  simp only [runsBhalf, beq_iff_eq]

/-- What the handler has in hand at the unit it runs next. -/
theorem inHand_of_next (hnext : nextCommand s .bh = some .scBhalf) :
    inHand s = inHandAt (nextLabel s .bh) (nextLocals s .bh) := by
  rcases nextCommand_cases hnext with hbusy | ⟨hidle, -⟩
  · exact inHand_of_scBhalf hbusy
  · rw [inHand_of_idle hidle, nextLabel_of_idle hidle]
    rfl

/-- What the handler's unit adds to `TXLOG` is what it sends. -/
theorem sentByte_of_log {w : List Byte} (hnext : nextCommand s .bh = some .scBhalf) (hlog : t.txLog = s.txLog ++ w) :
    sentByte s (.run .bh more) t = w := by
  simp only [sentByte, runsBhalf_iff.mpr hnext, if_true, hlog, List.drop_left]

theorem bytesKept_bh (hinv : Inv s) (honly : handlerOnly s (.run .bh 0) = true) (h : runPort .bh 0 s = .next t) :
    BytesKept s (.run .bh 0) t := by
  cases hnext : nextCommand s .bh with
  | none =>
    have hno : runsBhalf s = false := by
      rw [← Bool.not_eq_true, runsBhalf_iff, hnext]
      nofun
    have hidle : s.bh.infl = .idle := infl_idle_of_none hnext
    have hbuf := runPort_none_buf (b := .outbound) hnext h
    obtain ⟨q, hq, hrun⟩ := runPort_of_none (more := 0) hnext
    rw [hrun] at h
    cases h
    exact .of_quiet rfl (if_neg (by rw [hno]; nofun)) (hq.trans hidle.symm) (congrArg CBuf.queued hbuf)
  | some i =>
    obtain rfl := handlerOnly_cases honly hnext
    have hkept {w : List Byte} (hlog : t.txLog = s.txLog ++ w)
        (hbytes : inHandAt (nextLabel s .bh) (nextLocals s .bh) ++ s.outb.queued = w ++ (inHand t ++ t.outb.queued)) :
        BytesKept s (.run .bh 0) t := by
      rw [BytesKept, inHand_of_next hnext, sentByte_of_log hnext hlog, ← hbytes]
      exact List.append_nil _
    have haccounts := unitScBhalf_accounts (l := nextLabel s .bh) (x := nextLocals s .bh) (hinv.buf .outbound)
    rw [runPort_one hnext] at h
    cases hu : unitOf .scBhalf .bh (nextLabel s .bh) (nextLocals s .bh) s with
    | goto l' x' u =>
      rw [hu] at h haccounts
      cases h
      obtain ⟨hbytes, hlog⟩ := haccounts
      refine hkept (hlog.trans (List.append_nil _).symm) ?_
      rw [inHand_of_scBhalf (l := l') (x := x') rfl]
      exact hbytes
    | retire st w u =>
      rw [hu] at h haccounts
      cases h
      obtain ⟨hlog, hqueue⟩ := haccounts
      refine hkept hlog ?_
      rw [inHand_of_idle rfl]
      exact congrArg (_ ++ ·) hqueue.symm
    | hold =>
      rw [hu] at h
      cases h
      refine hkept (List.append_nil _).symm ?_
      rw [inHand_of_scBhalf (l := nextLabel s .bh) (x := nextLocals s .bh) rfl]
      rfl
    | fault f => rw [hu] at h; cases h
    | refuse r => rw [hu] at h; cases h

/-- No byte is lost or made by an event of one unit. -/
theorem perform_bytesKept (hinv : Inv s) (hone : oneUnit e = true) (henq : enqOnly s e = true)
    (honly : handlerOnly s e = true) (h : perform e s = .next t) : BytesKept s e t := by
  cases e with
  | run p more =>
    obtain rfl : more = 0 := by simpa [oneUnit] using hone
    cases p with
    | fg => exact bytesKept_fg hinv henq h
    | bh => exact bytesKept_bh hinv honly h
  | syncW b y =>
    cases h
    exact .of_quiet rfl rfl (congrArg PortState.infl (syncWStep_port .bh)) (syncWStep_queued (b := .outbound))
  | syncR b y =>
    cases h
    exact .of_quiet rfl rfl (congrArg PortState.infl (syncRStep_port .bh)) (syncRStep_queued (b := .outbound))
  | envRx v => cases h; exact .of_quiet rfl rfl rfl rfl
  | envTxReady => cases h; exact .of_quiet rfl rfl rfl rfl
  | present p w => cases h; cases p <;> exact .of_quiet rfl rfl rfl rfl

/-- So along a run the bytes accepted are those sent, in hand and queued. -/
theorem bytes_accounted {sched : Nat → Event} {run : Nat → State} (hrun : IsRun sched run) (hinv : ∀ n, Inv (run n))
    (henq : Along enqOnly sched run) (honly : Along handlerOnly sched run)
    (h0 : inHand (run 0) ++ (run 0).outb.queued = []) (n : Nat) :
    bytesOver enqueuedByte sched run n = bytesOver sentByte sched run n ++ inHand (run n) ++ (run n).outb.queued := by
  induction n with
  | zero => simpa using h0
  | succ n ih =>
    have hkept := perform_bytesKept (hinv n) (hrun n).1 (henq n) (honly n) (hrun n).2
    rw [BytesKept] at hkept
    rw [bytesOver_succ, bytesOver_succ, ih]
    simp only [List.append_assoc] at hkept ⊢
    rw [hkept]

end

end Sys2Proof.Machine

namespace Sys2Proof.Machine

section
variable {i : Instr} {p : Port} {l l' : Label} {x x' : Locals} {s t u : State} {more : Nat} {e : Event} {y z : Infl}

/-! ### One event of such a run, seen from port `BH` -/

/-- Only its own turn changes what port `BH` has in flight. -/
theorem perform_bh_infl (hone : oneUnit e = true) (h : perform e s = .next t) :
    e = .run .bh 0 ∨ t.bh.infl = s.bh.infl := by
  cases e with
  | run p more =>
    obtain rfl : more = 0 := by simpa [oneUnit] using hone
    cases p with
    | fg => exact .inr (congrArg PortState.infl (runPort_ports h).1)
    | bh => exact .inl rfl
  | syncW b y => cases h; exact .inr (congrArg PortState.infl (syncWStep_port .bh))
  | syncR b y => cases h; exact .inr (congrArg PortState.infl (syncRStep_port .bh))
  | envRx v => cases h; exact .inr rfl
  | envTxReady => cases h; exact .inr rfl
  | present p w => cases h; cases p <;> exact .inr rfl

theorem perform_runsHandler (hone : oneUnit e = true) (honly : handlerOnly s e = true) (hs : RunsHandler s)
    (h : perform e s = .next t) : RunsHandler t := by
  rcases perform_bh_infl hone h with rfl | hsame
  · rcases (runPort_ports h).2 with hsame | hidle | ⟨i, l, x, hnext, hbusy⟩
    · rw [RunsHandler, show t.bh = s.bh from hsame]
      exact hs
    · exact .inl hidle
    · obtain rfl := handlerOnly_cases honly hnext
      exact .inr ⟨l, x, congrArg PortState.infl hbusy⟩
  · rwa [RunsHandler, hsame]

/-- Under `Preempt` the foreground runs only while port `BH` is idle. -/
theorem idle_of_fg_turn (hs : RunsHandler s) (hpre : preempts s (.run .fg more) = true) : s.bh.infl = .idle := by
  rcases hs with hidle | ⟨l, x, hbusy⟩
  · exact hidle
  · have hnext : nextCommand s .bh = some .scBhalf := nextCommand_of_busy (p := .bh) hbusy
    simp [preempts, runsBhalf, hnext, hbusy] at hpre

/-- A turn of the handler in flight is its unit. -/
theorem perform_handler (hat : s.bh.infl = .busy ⟨.scBhalf, l, x⟩) :
    perform (.run .bh 0) s = (unitOf .scBhalf .bh l x s).settle .scBhalf .bh l x s := by
  have hnext : nextCommand s .bh = some .scBhalf := nextCommand_of_busy (p := .bh) hat
  rw [perform, runPort_one hnext, nextLabel_of_busy (p := .bh) hat, nextLocals_of_busy (p := .bh) hat]

/-- Where a unit of the handler that goes on leaves it. -/
theorem handler_goto (hat : s.bh.infl = .busy ⟨.scBhalf, l, x⟩) (hu : unitOf .scBhalf .bh l x s = .goto l' x' u)
    (h : perform (.run .bh 0) s = .next t) : t.bh.infl = .busy ⟨.scBhalf, l', x'⟩ := by
  rw [perform_handler hat, hu] at h
  cases h
  rfl

/-- The handler that is issued is in flight after its first unit. -/
theorem busy_of_issue (hone : oneUnit e = true) (hissue : issuesBhalf s e = true) (h : perform e s = .next t) :
    t.bh.infl ≠ .idle := by
  unfold issuesBhalf at hissue
  split at hissue
  · next more =>
    obtain rfl : more = 0 := by simpa [oneUnit] using hone
    simp only [Bool.and_eq_true, beq_iff_eq, runsBhalf_iff] at hissue
    obtain ⟨hidle, hnext⟩ := hissue
    rw [perform, runPort_one hnext, nextLabel_of_idle (p := .bh) hidle, unitScBhalf_u1] at h
    cases h
    nofun
  · cases hissue

/-! ### The transmitter stays ready while no one writes -/

theorem setBuf_keeps_ready {b : BufSel} {c : CBuf Byte} (h : s.txReady = true) : (s.setBuf b c).txReady = true :=
  (setBuf_txReady ..).trans h

theorem perform_ready_agent (he : ∀ p more, e ≠ .run p more) (h : perform e s = .next t) (hr : s.txReady = true) :
    t.txReady = true := by
  cases e with
  | run p more => exact absurd rfl (he p more)
  | syncW b y =>
    cases h
    rcases syncWStep_cases b y s with heq | ⟨-, -, heq⟩ <;> rw [heq]
    · exact hr
    · exact setBuf_keeps_ready hr
  | syncR b y =>
    cases h
    rcases syncRStep_cases b y s with heq | ⟨-, -, heq⟩ <;> rw [heq]
    · exact hr
    · exact setBuf_keeps_ready hr
  | envRx v => cases h; exact hr
  | envTxReady => cases h; rfl
  | present p w => cases h; exact (setPort_txReady ..).trans hr

/-- While a handler is in flight, only its own units can be turns of a port. -/
theorem not_run_of_busy (hone : oneUnit e = true) (hs : RunsHandler s) (hpre : preempts s e = true)
    (hbusy : s.bh.infl ≠ .idle) (hturn : e ≠ .run .bh 0) (p : Port) (more : Nat) : e ≠ .run p more := by
  rintro rfl
  obtain rfl : more = 0 := by simpa [oneUnit] using hone
  cases p with
  | fg => exact hbusy (idle_of_fg_turn hs hpre)
  | bh => exact hturn rfl

/-- A blocking write does not run while transmission is armed (R175). -/
theorem not_blockingWrite_of_safe (hsafe : transportSafe s (.run p more) = true) (hnext : nextCommand s p = some i)
    (harm : s.txArm = true) : blockingWrite i = false := by
  rw [transportSafe, List.all_eq_true] at hsafe
  have hport := hsafe p (by cases p <;> decide)
  simp only [liveCommand_of_next hnext, harm, Bool.and_true, Bool.and_eq_true, Bool.not_eq_true'] at hport
  exact hport.2

/-- While transmission is armed and no handler comes into flight, the transmitter stays ready. -/
theorem perform_ready_idle (hinv : Inv s) (hone : oneUnit e = true) (honly : handlerOnly s e = true)
    (hsafe : transportSafe s e = true) (harm : s.txArm = true) (hs : s.bh.infl = .idle) (ht : t.bh.infl = .idle)
    (h : perform e s = .next t) (hr : s.txReady = true) : t.txReady = true := by
  cases e with
  | run p more =>
    obtain rfl : more = 0 := by simpa [oneUnit] using hone
    cases hnext : nextCommand s p with
    | none =>
      obtain ⟨q, -, hrun⟩ := runPort_of_none (more := 0) hnext
      rw [perform, hrun] at h
      cases h
      exact (setPort_txReady ..).trans hr
    | some i =>
      cases p with
      | fg =>
        have hi : i ≠ .scBhalf := by
          rintro rfl
          cases hinv.actsAs_eq hnext h
        have hno := not_blockingWrite_of_safe hsafe hnext harm
        obtain ⟨u, q, heffect, rfl⟩ := runPort_one_effect hnext h
        have hwrites : unitWritesTransport i (nextLabel s .fg) = false := by
          by_contra hwrites
          rw [blockingWrite_of_writes hi (by simpa using hwrites)] at hno
          cases hno
        exact (setPort_txReady ..).trans ((heffect.txReady hwrites).trans hr)
      | bh =>
        obtain rfl := handlerOnly_cases honly hnext
        refine absurd ht (busy_of_issue (e := .run .bh 0) rfl ?_ h)
        simp [issuesBhalf, hs, runsBhalf_iff.mpr hnext]
  | _ => exact perform_ready_agent (fun _ _ he => by cases he) h hr

/-! ### The receive drain loop (`42_bottom_half_and_agents.md` R120) -/

/-- Whether a unit belongs to the receive drain loop. -/
def isDrainLabel : Label → Bool
  | .u2 => true
  | .u3 => true
  | .u4 => true
  | _ => false

/-- A unit of the drain loop leads out of it to u5, or has fewer units of it left. -/
def UnitResult.Drains (l : Label) (s : State) : UnitResult → Prop
  | .goto l' _ t => l' = .u5 ∨ (isDrainLabel l' = true ∧ bhalfUnitsLeft l' t < bhalfUnitsLeft l s)
  | .retire _ _ _ => False
  | .hold => False
  | .fault _ => True
  | .refuse _ => True

theorem unitScBhalf_drains (hl : isDrainLabel l = true) : (unitOf .scBhalf .bh l x s).Drains l s := by
  cases l with
  | u2 =>
    cases hq : s.rxq with
    | nil => rw [unitScBhalf_u2_unready hq]; trivial
    | cons v rest =>
      rw [unitScBhalf_u2 hq]
      exact .inr ⟨rfl, by simp [bhalfUnitsLeft, hq]; omega⟩
  | u3 =>
    refine attempt_induct (fun _ _ => trivial) fun r hr => ?_
    obtain ⟨c, -, ht⟩ := cbWrite_ok hr
    rw [ht]
    exact .inr ⟨rfl, by simp [bhalfUnitsLeft]⟩
  | u4 =>
    rw [unitScBhalf_u4]
    split
    · exact .inr ⟨rfl, by simp [bhalfUnitsLeft]⟩
    · exact .inl rfl
  | _ => cases hl

theorem inDrainLoop_iff : inDrainLoop s = true ↔ ∃ l x, isDrainLabel l = true ∧ s.bh.infl = .busy ⟨.scBhalf, l, x⟩ := by
  constructor
  · intro h
    unfold inDrainLoop at h
    split at h
    · next x heq => exact ⟨.u2, x, rfl, heq⟩
    · next x heq => exact ⟨.u3, x, rfl, heq⟩
    · next x heq => exact ⟨.u4, x, rfl, heq⟩
    · cases h
  · rintro ⟨l, x, hl, hat⟩
    cases l with
    | u2 => simp only [inDrainLoop, hat]
    | u3 => simp only [inDrainLoop, hat]
    | u4 => simp only [inDrainLoop, hat]
    | _ => cases hl

/-- The units of the drain loop that a handler in it has left if no byte arrives. -/
def drainLeft (s : State) : Nat := bhalfUnitsLeft (nextLabel s .bh) s

theorem drainLeft_of_at (hat : s.bh.infl = .busy ⟨.scBhalf, l, x⟩) : drainLeft s = bhalfUnitsLeft l s := by
  rw [drainLeft, nextLabel_of_busy (p := .bh) hat]

/-- A turn of a handler in the drain loop. -/
theorem drain_turn (hat : s.bh.infl = .busy ⟨.scBhalf, l, x⟩) (hl : isDrainLabel l = true)
    (h : perform (.run .bh 0) s = .next t) :
    (∃ x', t.bh.infl = .busy ⟨.scBhalf, .u5, x'⟩) ∨ (inDrainLoop t = true ∧ drainLeft t < drainLeft s) := by
  have hdrains := unitScBhalf_drains (x := x) (s := s) hl
  rw [perform_handler hat] at h
  cases hu : unitOf .scBhalf .bh l x s with
  | goto l' x' u =>
    rw [hu] at h hdrains
    cases h
    rcases hdrains with rfl | ⟨hl', hlt⟩
    · exact .inl ⟨x', rfl⟩
    · refine .inr ⟨inDrainLoop_iff.mpr ⟨l', x', hl', rfl⟩, ?_⟩
      rw [drainLeft_of_at hat, drainLeft_of_at (l := l') (x := x') rfl]
      cases l' with
      | u2 => exact hlt
      | u3 => exact hlt
      | u4 => exact hlt
      | _ => cases hl'
  | retire st w u => rw [hu] at hdrains; exact hdrains.elim
  | hold => rw [hu] at hdrains; exact hdrains.elim
  | fault f => rw [hu] at h; cases h
  | refuse r => rw [hu] at h; cases h

theorem perform_rxq_agent (he : ∀ p more, e ≠ .run p more) (hrx : ∀ v, e ≠ .envRx v) (h : perform e s = .next t) :
    t.rxq = s.rxq := by
  cases e with
  | run p more => exact absurd rfl (he p more)
  | syncW b y =>
    cases h
    rcases syncWStep_cases b y s with heq | ⟨-, -, heq⟩ <;> rw [heq]
    exact setBuf_rxq ..
  | syncR b y =>
    cases h
    rcases syncRStep_cases b y s with heq | ⟨-, -, heq⟩ <;> rw [heq]
    exact setBuf_rxq ..
  | envRx v => exact absurd rfl (hrx v)
  | envTxReady => cases h; rfl
  | present p w => cases h; exact setPort_rxq ..

end

end Sys2Proof.Machine

namespace Sys2Proof.Machine

section
variable {i : Instr} {p : Port} {l : Label} {x : Locals} {s t : State} {more : Nat} {e : Event} {y z : Infl}
  {f : Infl → State → Prop}

/-! ### Transmission stays armed while the views are current -/

/-- `runPort_carries` for a turn of one unit: the unit is only asked of the state it runs in. -/
theorem runPort_one_carries (hport : ∀ y u q, f y u → f y (u.setPort p q)) (hturn : ∀ y u τ, f y u → f y (u.withTurn τ))
    (haccept : ∀ i u, f .idle u → f (.busy ⟨i, .u1, Locals.init⟩) u)
    (hunit : ∀ i, nextCommand s p = some i → f (.busy ⟨i, nextLabel s p, nextLocals s p⟩) s →
      (unitOf i p (nextLabel s p) (nextLocals s p) s).Carries f i)
    (hf : f (s.port p).infl s) (h : runPort p 0 s = .next t) : f (t.port p).infl t := by
  cases hnext : nextCommand s p with
  | none =>
    obtain ⟨q, hidle, hrun⟩ := runPort_of_none (more := 0) hnext
    rw [infl_idle_of_none hnext] at hf
    rw [hrun] at h
    cases h
    rw [setPort_port_same, hidle]
    exact hport _ _ _ (hturn _ _ _ hf)
  | some i =>
    have hat : f (.busy ⟨i, nextLabel s p, nextLocals s p⟩) s := by
      rcases nextCommand_cases hnext with hbusy | ⟨hidle, -⟩
      · rwa [hbusy] at hf
      · rw [hidle] at hf
        rw [nextLabel_of_idle hidle, nextLocals_of_idle hidle]
        exact haccept i s hf
    have hcarries := hunit i hnext hat
    rw [runPort_one hnext] at h
    cases hu : unitOf i p (nextLabel s p) (nextLocals s p) s with
    | goto l' x' u =>
      rw [hu] at h hcarries
      cases h
      rw [show ((u.suspend p i l' x').withTurn ⟨p, 0⟩).port p = _ from port_withTurn .., suspend_port_same]
      exact hturn _ _ _ (hport _ _ _ hcarries)
    | retire st w u =>
      rw [hu] at h hcarries
      cases h
      rw [show ((u.retire p (wordCount i) st w).withTurn ⟨p, 0⟩).port p = _ from port_withTurn .., retire_port_same]
      exact hturn _ _ _ (hport _ _ _ hcarries)
    | hold =>
      rw [hu] at h
      cases h
      rw [show ((s.suspend p i (nextLabel s p) (nextLocals s p)).withTurn ⟨p, 0⟩).port p = _ from port_withTurn ..,
        suspend_port_same]
      exact hturn _ _ _ (hport _ _ _ hat)
    | fault f => rw [hu] at h; cases h
    | refuse r => rw [hu] at h; cases h

/-- The bottom-half's unit keeps what `Armed` asks, whatever the foreground's record `y` owes. -/
theorem armed_bh_turn (hinv : Inv s) (hcurrent : ViewsCurrent s) (honly : handlerOnly s (.run .bh 0) = true)
    (h : perform (.run .bh 0) s = .next t) (ha : Armed y s.bh.infl s) : Armed y t.bh.infl t := by
  obtain ⟨-, hview, -⟩ := hcurrent
  refine runPort_one_carries (f := fun z u => Armed y z u) (p := .bh) (fun _ _ q hu => hu.setPort .bh q)
    (fun _ _ _ hu => hu.congr rfl rfl rfl id id id) (fun i u => armed_accept_bh i u) (fun i hnext hu => ?_) ha h
  obtain rfl := handlerOnly_cases honly hnext
  exact armed_scBhalf (hinv.buf .outbound) (fun _ => hview) hu

/-- The foreground's unit keeps it as its own record asks. -/
theorem armed_fg_turn (hpre : preempts s (.run .fg 0) = true) (henq : enqOnly s (.run .fg 0) = true)
    (h : perform (.run .fg 0) s = .next t) (ha : Armed s.fg.infl z s) (hz : z = s.bh.infl) : Armed t.fg.infl z t := by
  subst hz
  refine runPort_one_carries (f := fun y u => Armed y s.bh.infl u) (p := .fg) (fun _ _ q hu => hu.setPort .fg q)
    (fun _ _ _ hu => hu.congr rfl rfl rfl id id id) (fun i u => armed_accept_fg i u) (fun i hnext hu => ?_) ha h
  rcases enqOnly_cases henq hnext with hi | ⟨-, v, rfl⟩ | ⟨hp, -⟩
  · exact armed_fg_of_not_touching hi hu
  · exact armed_scEnq (not_disarming_of_preempts hpre) hu
  · cases hp

theorem perform_armed (hinv : Inv s) (hcurrent : ViewsCurrent s) (hone : oneUnit e = true) (hpre : preempts s e = true)
    (henq : enqOnly s e = true) (honly : handlerOnly s e = true) (h : perform e s = .next t)
    (ha : Armed s.fg.infl s.bh.infl s) : Armed t.fg.infl t.bh.infl t := by
  cases e with
  | run p more =>
    obtain rfl : more = 0 := by simpa [oneUnit] using hone
    have hother := (runPort_ports h).1
    cases p with
    | fg =>
      rw [show t.bh = s.bh from hother]
      exact armed_fg_turn hpre henq h ha rfl
    | bh =>
      rw [show t.fg = s.fg from hother]
      exact armed_bh_turn hinv hcurrent honly h ha
  | _ =>
    obtain ⟨hfg, hbh, hkept⟩ := perform_armed_agent (fun _ _ he => by cases he) h
    rw [hfg, hbh]
    exact hkept _ _ ha

/-- `SC.ENQ` and the commands that do not touch transmission never take the arming back. -/
theorem UnitEffect.staysArmed (hi : touchesTransmit i = false ∨ ∃ v, i = .scEnq v) (h : UnitEffect p i l x s t)
    (harm : s.txArm = true) (hev : s.evTx = true) : t.txArm = true ∧ t.evTx = true := by
  rcases hi with hi | ⟨v, rfl⟩
  · obtain ⟨-, hta, hte⟩ := h.transmitFrame hi
    exact ⟨hta.trans harm, hte.trans hev⟩
  · cases h with
    | nothing => exact ⟨harm, hev⟩
    | write _ _ => exact ⟨(setBuf_txArm ..).trans harm, (setBuf_evTx ..).trans hev⟩
    | armTransmit _ => exact ⟨rfl, hev⟩
    | enableTransmit _ => exact ⟨harm, rfl⟩
    | read hb _ => cases l <;> cases hb
    | resizeOpen hb _ => cases l <;> cases hb
    | resizeCopy hb _ => cases l <;> cases hb
    | transportRead hl _ => cases l <;> cases hl
    | transportWrite hl _ => cases l <;> cases hl
    | fault _ hi => cases hi
    | armReceive hi => cases hi
    | enableReceive hi => cases hi
    | disarmTransmit hi => cases hi
    | disableTransmit hi => cases hi

/-- While a byte is queued that was armed for, the foreground leaves transmission armed, whatever it is doing. -/
theorem armed_idle_fg_turn (hidle : s.bh.infl = .idle) (hq : 0 < s.outb.count) (henq : enqOnly s (.run .fg 0) = true)
    (h : perform (.run .fg 0) s = .next t) (ha : Armed .idle s.bh.infl s) : Armed .idle t.bh.infl t := by
  have hbh : t.bh = s.bh := (runPort_ports h).1
  have harm := ha.arm hq rfl
  have hev := ha.event hq rfl
  have hflags : t.txArm = true ∧ t.evTx = true := by
    cases hnext : nextCommand s .fg with
    | none =>
      obtain ⟨q, -, hrun⟩ := runPort_of_none (more := 0) hnext
      rw [perform, hrun] at h
      cases h
      exact ⟨harm, hev⟩
    | some i =>
      obtain ⟨u, q, heffect, rfl⟩ := runPort_one_effect hnext h
      refine heffect.staysArmed ?_ harm hev
      rcases enqOnly_cases henq hnext with hi | ⟨-, hi⟩ | ⟨hp, -⟩
      · exact .inl hi
      · exact .inr hi
      · cases hp
  refine ⟨fun _ _ => hflags.1, fun _ _ => hflags.2, fun hd => ?_⟩
  rw [hbh, hidle] at hd
  cases hd

/-! ### What stands pending -/

/-- Nothing pending, if nothing is in hand and nothing queued. -/
theorem count_pos_of_pending (hinv : Inv s) (hhand : inHand s = []) (hpend : inHand s ++ s.outb.queued ≠ []) :
    0 < s.outb.count := by
  rw [hhand, List.nil_append] at hpend
  have hlength : s.outb.queued.length = s.outb.count := (hinv.buf .outbound).2.2.1.length_queued
  rw [← hlength]
  exact List.length_pos_iff.mpr hpend

theorem perform_armed_idle (hinv : Inv s) (hcurrent : ViewsCurrent s) (hone : oneUnit e = true)
    (hpre : preempts s e = true) (henq : enqOnly s e = true) (honly : handlerOnly s e = true) (hs : RunsHandler s)
    (hpend : inHand s ++ s.outb.queued ≠ []) (h : perform e s = .next t) (ha : Armed .idle s.bh.infl s) :
    Armed .idle t.bh.infl t := by
  cases e with
  | run p more =>
    obtain rfl : more = 0 := by simpa [oneUnit] using hone
    cases p with
    | fg =>
      have hidle := idle_of_fg_turn hs hpre
      exact armed_idle_fg_turn hidle (count_pos_of_pending hinv (inHand_of_idle hidle) hpend) henq h ha
    | bh => exact armed_bh_turn hinv hcurrent honly h ha
  | _ =>
    obtain ⟨-, hbh, hkept⟩ := perform_armed_agent (fun _ _ he => by cases he) h
    rw [hbh]
    exact hkept _ _ ha

end

end Sys2Proof.Machine

namespace Sys2Proof.Machine

/-! ### The runs of the claim -/

/-- What holds along a run that meets the premises of "every enqueued byte is sent", beside its fairness. -/
structure SendingRun (sched : Nat → Event) (run : Nat → State) : Prop where
  isRun : IsRun sched run
  inv : ∀ n, Inv (run n)
  preempts : Along preempts sched run
  current : ∀ n, ViewsCurrent (run n)
  enqOnly : Along enqOnly sched run
  handlerOnly : Along handlerOnly sched run
  safe : Along transportSafe sched run
  handler : ∀ n, RunsHandler (run n)
  armed : ∀ n, Armed (run n).fg.infl (run n).bh.infl (run n)
  accounted : ∀ n, bytesOver enqueuedByte sched run n =
    bytesOver sentByte sched run n ++ inHand (run n) ++ (run n).outb.queued

/-- Its fairness. -/
structure FairSending (sched : Nat → Event) (run : Nat → State) : Prop where
  invocation : InvocationFair sched run
  ready : EnvMakesReady run
  drain : EnvEndsDrain sched run
  progress : HandlerProgress sched run

section
variable {sched : Nat → Event} {run : Nat → State} {n m k : Nat} {l l' : Label} {x x' : Locals}

/-- The premises, and a start at construction, give such a run. -/
theorem sendingRun_of_premises {par : Params} {capInit : Half} {rxq : List Byte} {rdy : Bool}
    (hstart : State.construct par capInit rxq rdy = .ok (run 0)) (hpremises : Premises .everyByteSent sched run)
    (honly : Along handlerOnly sched run) (hsafe : Along transportSafe sched run) : SendingRun sched run := by
  obtain ⟨hrun, hpre, hcurrent, henq, -, -⟩ := hpremises.everyByteSent
  obtain ⟨hcap, hinit⟩ := stateConstruct_ok hstart
  have hinv := IsRun.inv hrun (hinit ▸ inv_init par rxq rdy hcap)
  have hqueue : (run 0).outb.queued = [] := by
    have hlength : (run 0).outb.queued.length = (run 0).outb.count := ((hinv 0).buf .outbound).2.2.1.length_queued
    rw [← List.length_eq_zero_iff, hlength, hinit]
    exact occ_self 0 capInit
  have hhand : inHand (run 0) = [] := inHand_of_idle (by rw [hinit]; rfl)
  have harmed : ∀ n, Armed (run n).fg.infl (run n).bh.infl (run n) := by
    intro n
    induction n with
    | zero =>
      have hcount : (run 0).outb.count = 0 := by
        rw [hinit]
        exact occ_self 0 capInit
      exact ⟨fun hq => absurd hcount (Nat.pos_iff_ne_zero.mp hq), fun hq => absurd hcount (Nat.pos_iff_ne_zero.mp hq),
        fun _ => hcount⟩
    | succ n ih => exact perform_armed (hinv n) (hcurrent n) (hrun n).1 (hpre n) (henq n) (honly n) (hrun n).2 ih
  have hhandler : ∀ n, RunsHandler (run n) := by
    intro n
    induction n with
    | zero => exact .inl (by rw [hinit]; rfl)
    | succ n ih => exact perform_runsHandler (hrun n).1 (honly n) ih (hrun n).2
  exact ⟨hrun, hinv, hpre, hcurrent, henq, honly, hsafe, hhandler, harmed,
    bytes_accounted hrun hinv henq honly (by rw [hhand, hqueue]; rfl)⟩

/-- The handler at a unit stays there until its port's turn. -/
theorem SendingRun.stays (h : SendingRun sched run) (hturn : sched m ≠ .run .bh 0) :
    (run (m + 1)).bh.infl = (run m).bh.infl :=
  (perform_bh_infl (h.isRun m).1 (h.isRun m).2).resolve_left hturn

/-- A handler in flight that is not held runs its unit in the end. -/
theorem SendingRun.turn_of (h : SendingRun sched run) (hfair : FairSending sched run)
    (hat : (run m).bh.infl = .busy ⟨.scBhalf, l, x⟩) (hl : l ≠ .u7a) :
    ∃ k, m ≤ k ∧ (run k).bh.infl = .busy ⟨.scBhalf, l, x⟩ ∧ sched k = .run .bh 0 := by
  by_contra hno
  have hstuck (k : Nat) (hk : m ≤ k) : (run k).bh.infl = .busy ⟨.scBhalf, l, x⟩ := by
    induction k, hk using Nat.le_induction with
    | base => exact hat
    | succ k hk ih => rw [h.stays fun hturn => hno ⟨k, hk, ih, hturn⟩, ih]
  have hfree (k : Nat) (hk : m ≤ k) : held (run k) .bh = false := by
    cases l with
    | u7a => exact absurd rfl hl
    | _ => simp only [held, port_bh, hstuck k hk]
  obtain ⟨k, hk, more, hturn⟩ := hfair.progress m fun k hk => ⟨by rw [hstuck k hk]; nofun, hfree k hk⟩
  obtain rfl : more = 0 := by
    have hone := (h.isRun k).1
    rw [hturn] at hone
    simpa [oneUnit] using hone
  exact hno ⟨k, hk, hstuck k hk, hturn⟩

/-! ### The units of an invocation, one after the other -/

/-- The handler leaves the receive drain loop: bytes stop arriving, and each turn takes one unit off what it has left.
-/
theorem SendingRun.leaves_drain (h : SendingRun sched run) (hfair : FairSending sched run)
    (hat : inDrainLoop (run m) = true) : ∃ k x, m ≤ k ∧ (run k).bh.infl = .busy ⟨.scBhalf, .u5, x⟩ := by
  by_contra hno
  have hstep (k : Nat) (hk : m ≤ k) (hin : inDrainLoop (run k) = true) :
      (sched k ≠ .run .bh 0 ∧ (run (k + 1)).bh.infl = (run k).bh.infl) ∨
        (inDrainLoop (run (k + 1)) = true ∧ drainLeft (run (k + 1)) < drainLeft (run k)) := by
    by_cases hturn : sched k = .run .bh 0
    · obtain ⟨l, x, hl, hatk⟩ := inDrainLoop_iff.mp hin
      have hperform := (h.isRun k).2
      rw [hturn] at hperform
      exact .inr ((drain_turn hatk hl hperform).resolve_left fun ⟨x', hout⟩ => hno ⟨k + 1, x', by omega, hout⟩)
    · exact .inl ⟨hturn, h.stays hturn⟩
  have hloop (k : Nat) (hk : m ≤ k) : inDrainLoop (run k) = true := by
    induction k, hk using Nat.le_induction with
    | base => exact hat
    | succ k hk ih =>
      rcases hstep k hk ih with ⟨-, hsame⟩ | ⟨hin, -⟩
      · obtain ⟨l, x, hl, hatk⟩ := inDrainLoop_iff.mp ih
        exact inDrainLoop_iff.mpr ⟨l, x, hl, hsame.trans hatk⟩
      · exact hin
  obtain ⟨quiet, hquiet, hnone⟩ := hfair.drain m hloop
  have hwaits (k : Nat) (hk : quiet ≤ k) (hturn : sched k ≠ .run .bh 0) :
      drainLeft (run (k + 1)) = drainLeft (run k) := by
    obtain ⟨l, x, hl, hatk⟩ := inDrainLoop_iff.mp (hloop k (by omega))
    have hrun := not_run_of_busy (h.isRun k).1 (h.handler k) (h.preempts k) (by rw [hatk]; nofun) hturn
    have hrxq := perform_rxq_agent hrun (hnone k hk) (h.isRun k).2
    have hsame := h.stays hturn
    rw [drainLeft_of_at hatk, drainLeft_of_at (hsame.trans hatk)]
    cases l <;> simp only [bhalfUnitsLeft, hrxq]
  have hmono (k k' : Nat) (hk : quiet ≤ k) (hkk : k ≤ k') : drainLeft (run k') ≤ drainLeft (run k) := by
    induction k', hkk using Nat.le_induction with
    | base => exact Nat.le_refl _
    | succ k' hkk ih =>
      rcases hstep k' (by omega) (hloop k' (by omega)) with ⟨hturn, -⟩ | ⟨-, hlt⟩
      · rw [hwaits k' (by omega) hturn]; exact ih
      · omega
  have hnever (left : Nat) : ∀ k, quiet ≤ k → drainLeft (run k) ≠ left := by
    induction left using Nat.strong_induction_on with
    | _ left ih =>
      intro k hk hleft
      obtain ⟨l, x, hl, hatk⟩ := inDrainLoop_iff.mp (hloop k (by omega))
      obtain ⟨k', hk', -, hturn⟩ := h.turn_of hfair hatk (by rintro rfl; cases hl)
      have hle := hmono k k' hk hk'
      rcases hstep k' (by omega) (hloop k' (by omega)) with ⟨hnot, -⟩ | ⟨-, hlt⟩
      · exact hnot hturn
      · exact ih _ (by omega) (k' + 1) (by omega) rfl
  exact hnever _ quiet (Nat.le_refl _) rfl

/-- A handler that waits at u7a finds the transmitter ready in the end: no one else writes while it is in flight. -/
theorem SendingRun.leaves_wait (h : SendingRun sched run) (hfair : FairSending sched run)
    (hat : (run m).bh.infl = .busy ⟨.scBhalf, .u7a, x⟩) :
    ∃ k, m ≤ k ∧ (run k).bh.infl = .busy ⟨.scBhalf, .u7b, x⟩ := by
  by_contra hno
  have hpasses (k : Nat) (hk : m ≤ k) (hatk : (run k).bh.infl = .busy ⟨.scBhalf, .u7a, x⟩)
      (hr : (run k).txReady = true) : sched k ≠ .run .bh 0 := by
    intro hturn
    have hperform := (h.isRun k).2
    rw [hturn] at hperform
    exact hno ⟨k + 1, by omega, handler_goto hatk (unitScBhalf_u7a hr) hperform⟩
  have hstuck (k : Nat) (hk : m ≤ k) : (run k).bh.infl = .busy ⟨.scBhalf, .u7a, x⟩ := by
    induction k, hk using Nat.le_induction with
    | base => exact hat
    | succ k hk ih =>
      by_cases hturn : sched k = .run .bh 0
      · have hperform := (h.isRun k).2
        cases hr : (run k).txReady with
        | true => exact absurd hturn (hpasses k hk ih hr)
        | false =>
          rw [hturn, perform_handler ih, unitScBhalf_u7a_hold hr] at hperform
          injection hperform with hperform
          rw [← hperform]
          rfl
      · exact (h.stays hturn).trans ih
  obtain ⟨first, hfirst, hready⟩ := hfair.ready m
  have hstays (k : Nat) (hk : first ≤ k) : (run k).txReady = true := by
    induction k, hk using Nat.le_induction with
    | base => exact hready
    | succ k hk ih =>
      have hatk := hstuck k (by omega)
      have hrun := not_run_of_busy (h.isRun k).1 (h.handler k) (h.preempts k) (by rw [hatk]; nofun)
        (hpasses k (by omega) hatk ih)
      exact perform_ready_agent hrun (h.isRun k).2 ih
  have hfree (k : Nat) (hk : first ≤ k) : (run k).bh.infl ≠ .idle ∧ held (run k) .bh = false := by
    have hatk := hstuck k (by omega)
    refine ⟨by rw [hatk]; nofun, ?_⟩
    simp only [held, port_bh, hatk, readyToSend, hstays k hk, Bool.not_true]
  obtain ⟨k, hk, more, hturn⟩ := hfair.progress first hfree
  obtain rfl : more = 0 := by
    have hone := (h.isRun k).1
    rw [hturn] at hone
    simpa [oneUnit] using hone
  exact hpasses k (by omega) (hstuck k (by omega)) (hstays k hk) hturn

/-- A handler at its write writes. -/
theorem SendingRun.writes (h : SendingRun sched run) (hfair : FairSending sched run) (hl : l = .u7 ∨ l = .u7b)
    (hat : (run m).bh.infl = .busy ⟨.scBhalf, l, x⟩) :
    ∃ k, m ≤ k ∧ bytesOver sentByte sched run (k + 1) = bytesOver sentByte sched run k ++ [x.v] := by
  obtain ⟨k, hk, hatk, hturn⟩ := h.turn_of hfair hat (by rcases hl with rfl | rfl <;> decide)
  refine ⟨k, hk, ?_⟩
  have hperform := (h.isRun k).2
  rw [hturn, perform_handler hatk] at hperform
  rw [bytesOver_succ, hturn]
  refine congrArg (_ ++ ·) (sentByte_of_log (nextCommand_of_busy (p := .bh) hatk) ?_)
  cases hr : (run k).txReady with
  | false => rw [unitScBhalf_write_unready hl hr] at hperform; cases hperform
  | true =>
    rw [unitScBhalf_write hl hr] at hperform
    injection hperform with hperform
    rw [← hperform]
    obtain ⟨rdy, draws, tick, heq⟩ := transmitted_eq .bh x.v (run k)
    rw [heq]
    rfl

end

end Sys2Proof.Machine

namespace Sys2Proof.Machine

section
variable {sched : Nat → Event} {run : Nat → State} {n m k : Nat} {l l' : Label} {x x' : Locals} {s t : State}

/-! ### From a pending byte to its write -/

/-- A byte accepted before `n` is not sent yet, and transmission is armed for what is queued: from `n` on this stays so
while the claim fails. -/
structure Pending (run : Nat → State) (n : Nat) : Prop where
  bytes : ∀ m, n ≤ m → inHand (run m) ++ (run m).outb.queued ≠ []
  armed : ∀ m, n ≤ m → Armed .idle (run m).bh.infl (run m)

/-- Pending bytes with none in hand are queued. -/
theorem SendingRun.count_pos (h : SendingRun sched run) (hpend : Pending run n) (hm : n ≤ m)
    (hhand : inHand (run m) = []) : 0 < (run m).outb.count :=
  count_pos_of_pending (h.inv m) hhand (hpend.bytes m hm)

/-- A handler that asks for the next byte finds one. -/
theorem unitScBhalf_u6_finds (hbuf : BufInv s.par.sync s.outb) (hrsz : s.outb.rsz = false)
    (hview : s.outb.wrv = s.outb.wr) (hq : 0 < s.outb.count) :
    ∃ l' x' u, unitOf .scBhalf .bh .u6 x s = .goto l' x' u ∧ (l' = .u7 ∨ l' = .u7a) := by
  have hseen : s.outb.wrv ≠ s.outb.rd := fun hseen =>
    Nat.pos_iff_ne_zero.mp hq (count_of_seen_empty hbuf hview hseen)
  obtain ⟨hrd, v, hv⟩ := hbuf.head_filled hseen
  refine ⟨_, _, _, unitScBhalf_u6_taken hrsz hseen hrd hv, ?_⟩
  split
  · exact .inl rfl
  · exact .inr rfl

/-- A unit that has answered found no window open. -/
theorem SendingRun.outb_rsz (h : SendingRun sched run) (hat : (run m).bh.infl = .busy ⟨.scBhalf, .u6, x⟩)
    (hturn : sched m = .run .bh 0) : (run m).outb.rsz = false := by
  have hperform := (h.isRun m).2
  rw [hturn, perform_handler hat] at hperform
  cases hrsz : (run m).outb.rsz with
  | false => rfl
  | true =>
    have hfault : unitOf .scBhalf .bh .u6 x (run m) = .fault .resizeRace :=
      attempt_of_error (cbRead_resizeRace (b := .outbound) hrsz)
    rw [hfault] at hperform
    cases hperform

/-- From every unit that a handler in flight can stand at, the next byte is written in the end. -/
theorem SendingRun.sends_from_write (h : SendingRun sched run) (hfair : FairSending sched run)
    (hl : l = .u7 ∨ l = .u7a ∨ l = .u7b) (hat : (run m).bh.infl = .busy ⟨.scBhalf, l, x⟩) :
    ∃ k v, m ≤ k ∧ bytesOver sentByte sched run (k + 1) = bytesOver sentByte sched run k ++ [v] := by
  rcases hl with rfl | rfl | rfl
  · obtain ⟨k, hk, hsent⟩ := h.writes hfair (.inl rfl) hat
    exact ⟨k, _, hk, hsent⟩
  · obtain ⟨w, hw, hatw⟩ := h.leaves_wait hfair hat
    obtain ⟨k, hk, hsent⟩ := h.writes hfair (.inr rfl) hatw
    exact ⟨k, _, by omega, hsent⟩
  · obtain ⟨k, hk, hsent⟩ := h.writes hfair (.inr rfl) hat
    exact ⟨k, _, hk, hsent⟩

theorem SendingRun.sends_from_u6 (h : SendingRun sched run) (hfair : FairSending sched run) (hpend : Pending run n)
    (hm : n ≤ m) (hat : (run m).bh.infl = .busy ⟨.scBhalf, .u6, x⟩) :
    ∃ k v, m ≤ k ∧ bytesOver sentByte sched run (k + 1) = bytesOver sentByte sched run k ++ [v] := by
  obtain ⟨w, hw, hatw, hturn⟩ := h.turn_of hfair hat (by decide)
  have hq := h.count_pos hpend (show n ≤ w by omega) (inHand_of_scBhalf hatw)
  obtain ⟨l', x', u, hu, hl'⟩ := unitScBhalf_u6_finds (x := x) ((h.inv w).buf .outbound) (h.outb_rsz hatw hturn)
    (h.current w).2.1 hq
  have hstep := (h.isRun w).2
  rw [hturn] at hstep
  obtain ⟨k, v, hk, hsent⟩ := h.sends_from_write hfair (hl'.imp_right .inl) (handler_goto hatw hu hstep)
  exact ⟨k, v, by omega, hsent⟩

theorem SendingRun.sends_from_u5 (h : SendingRun sched run) (hfair : FairSending sched run) (hpend : Pending run n)
    (hm : n ≤ m) (hat : (run m).bh.infl = .busy ⟨.scBhalf, .u5, x⟩) :
    ∃ k v, m ≤ k ∧ bytesOver sentByte sched run (k + 1) = bytesOver sentByte sched run k ++ [v] := by
  obtain ⟨w, hw, hatw, hturn⟩ := h.turn_of hfair hat (by decide)
  have harm := (hpend.armed w (by omega)).arm (h.count_pos hpend (show n ≤ w by omega) (inHand_of_scBhalf hatw)) rfl
  have hstep := (h.isRun w).2
  rw [hturn] at hstep
  obtain ⟨k, v, hk, hsent⟩ := h.sends_from_u6 hfair hpend (show n ≤ w + 1 by omega)
    (handler_goto hatw (unitScBhalf_u5_armed harm) hstep)
  exact ⟨k, v, by omega, hsent⟩

theorem SendingRun.sends_from_drain (h : SendingRun sched run) (hfair : FairSending sched run) (hpend : Pending run n)
    (hm : n ≤ m) (hl : isDrainLabel l = true) (hat : (run m).bh.infl = .busy ⟨.scBhalf, l, x⟩) :
    ∃ k v, m ≤ k ∧ bytesOver sentByte sched run (k + 1) = bytesOver sentByte sched run k ++ [v] := by
  obtain ⟨w, x', hw, hatw⟩ := h.leaves_drain hfair (inDrainLoop_iff.mpr ⟨l, x, hl, hat⟩)
  obtain ⟨k, v, hk, hsent⟩ := h.sends_from_u5 hfair hpend (show n ≤ w by omega) hatw
  exact ⟨k, v, by omega, hsent⟩

/-- A handler does not disarm while bytes are pending. -/
theorem Pending.not_disarming (hpend : Pending run n) (h : SendingRun sched run) (hm : n ≤ m)
    (hhand : inHand (run m) = []) : disarming (run m).bh.infl = false := by
  by_contra hd
  have hempty := (hpend.armed m hm).empty (by simpa using hd)
  exact Nat.pos_iff_ne_zero.mp (h.count_pos hpend hm hhand) hempty

theorem SendingRun.sends_from_busy (h : SendingRun sched run) (hfair : FairSending sched run) (hpend : Pending run n)
    (hm : n ≤ m) (hat : (run m).bh.infl = .busy ⟨.scBhalf, l, x⟩) :
    ∃ k v, m ≤ k ∧ bytesOver sentByte sched run (k + 1) = bytesOver sentByte sched run k ++ [v] := by
  have hdisarming : inHandAt l x = [] → disarming (.busy ⟨.scBhalf, l, x⟩) = false := fun hhand =>
    hat ▸ hpend.not_disarming h hm ((inHand_of_scBhalf hat).trans hhand)
  cases l with
  | u1 =>
    have hok : portOk (run m).par .bh (run m).bh = true := ((inv_iff_around .bh _).mp (h.inv m)).2
    rw [portOk, hat] at hok
    cases hok
  | u2 => exact h.sends_from_drain hfair hpend hm rfl hat
  | u3 => exact h.sends_from_drain hfair hpend hm rfl hat
  | u4 => exact h.sends_from_drain hfair hpend hm rfl hat
  | u5 => exact h.sends_from_u5 hfair hpend hm hat
  | u6 => exact h.sends_from_u6 hfair hpend hm hat
  | u7 => exact h.sends_from_write hfair (.inl rfl) hat
  | u7a => exact h.sends_from_write hfair (.inr (.inl rfl)) hat
  | u7b => exact h.sends_from_write hfair (.inr (.inr rfl)) hat
  | u8 => cases hdisarming rfl
  | u9 => cases hdisarming rfl

/-! ### A handler is invoked -/

/-- Under `REGISTER` the event level, once up, stays up until the handler is issued. -/
theorem SendingRun.invoked_register (h : SendingRun sched run) (hfair : FairSending sched run) (hpend : Pending run n)
    (hregister : (run 0).par.backend = .register) (hm : n ≤ m) : ∃ k, m ≤ k ∧ (run k).bh.infl ≠ .idle := by
  by_contra hno
  have hidle (k : Nat) (hk : m ≤ k) : (run k).bh.infl = .idle := by
    by_contra hbusy
    exact hno ⟨k, hk, hbusy⟩
  have hq (k : Nat) (hk : m ≤ k) : 0 < (run k).outb.count :=
    h.count_pos hpend (by omega) (inHand_of_idle (hidle k hk))
  obtain ⟨first, hfirst, hready⟩ := hfair.ready m
  have hstays (k : Nat) (hk : first ≤ k) : (run k).txReady = true := by
    induction k, hk using Nat.le_induction with
    | base => exact hready
    | succ k hk ih =>
      exact perform_ready_idle (h.inv k) (h.isRun k).1 (h.handlerOnly k) (h.safe k)
        ((hpend.armed k (by omega)).arm (hq k (by omega)) rfl) (hidle k (by omega)) (hidle (k + 1) (by omega))
        (h.isRun k).2 ih
  have hlevel (k : Nat) (hk : first ≤ k) : irq (run k) = true ∧ (run k).bh.infl = .idle :=
    ⟨irq_iff.mpr (.inr ⟨(hpend.armed k (by omega)).event (hq k (by omega)) rfl, hstays k hk⟩), hidle k (by omega)⟩
  obtain ⟨k, hk, hissue⟩ := hfair.invocation.1 hregister first hlevel
  exact busy_of_issue (h.isRun k).1 hissue (h.isRun k).2 (hidle (k + 1) (by omega))

theorem SendingRun.invoked (h : SendingRun sched run) (hfair : FairSending sched run) (hpend : Pending run n)
    (hm : n ≤ m) : ∃ k, m ≤ k ∧ (run k).bh.infl ≠ .idle := by
  cases hbackend : (run 0).par.backend with
  | register => exact h.invoked_register hfair hpend hbackend hm
  | host =>
    obtain ⟨k, hk, hissue⟩ := hfair.invocation.2 hbackend m
    exact ⟨k + 1, by omega, busy_of_issue (h.isRun k).1 hissue (h.isRun k).2⟩

/-- While bytes are pending, one more is sent. -/
theorem SendingRun.sends (h : SendingRun sched run) (hfair : FairSending sched run) (hpend : Pending run n)
    (hm : n ≤ m) :
    ∃ k v, m ≤ k ∧ bytesOver sentByte sched run (k + 1) = bytesOver sentByte sched run k ++ [v] := by
  obtain ⟨w, hw, hbusy⟩ := h.invoked hfair hpend hm
  obtain ⟨l, x, hat⟩ := (h.handler w).resolve_left hbusy
  obtain ⟨k, v, hk, hsent⟩ := h.sends_from_busy hfair hpend (show n ≤ w by omega) hat
  exact ⟨k, v, by omega, hsent⟩

/-! ### Every accepted byte is sent -/

/-- As long as fewer bytes are sent than were accepted by `n`, they are pending, and armed for if the foreground was
idle then. -/
theorem SendingRun.pending_of_unsent (h : SendingRun sched run) (hidle : (run n).fg.infl = .idle)
    (hunsent : ∀ m, n ≤ m →
      (bytesOver sentByte sched run m).length < (bytesOver enqueuedByte sched run n).length) : Pending run n := by
  have hbytes (m : Nat) (hm : n ≤ m) : inHand (run m) ++ (run m).outb.queued ≠ [] := by
    intro hnone
    have haccounted := h.accounted m
    rw [List.append_assoc, hnone, List.append_nil] at haccounted
    have hlength := (bytesOver_prefix (f := enqueuedByte) (sched := sched) (run := run) hm).length_le
    rw [haccounted] at hlength
    exact absurd (hunsent m hm) (by omega)
  refine ⟨hbytes, fun m hm => ?_⟩
  induction m, hm using Nat.le_induction with
  | base => exact hidle ▸ h.armed n
  | succ m hm ih =>
    exact perform_armed_idle (h.inv m) (h.current m) (h.isRun m).1 (h.preempts m) (h.enqOnly m) (h.handlerOnly m)
      (h.handler m) (hbytes m hm) (h.isRun m).2 ih

/-- So as many are sent in the end as were accepted by `n`. -/
theorem SendingRun.eventually_sent (h : SendingRun sched run) (hfair : FairSending sched run)
    (hidle : (run n).fg.infl = .idle) :
    ∃ m, n ≤ m ∧ (bytesOver enqueuedByte sched run n).length ≤ (bytesOver sentByte sched run m).length := by
  by_contra hno
  have hunsent (m : Nat) (hm : n ≤ m) :
      (bytesOver sentByte sched run m).length < (bytesOver enqueuedByte sched run n).length := by
    by_contra hge
    exact hno ⟨m, hm, by omega⟩
  have hpend := h.pending_of_unsent hidle hunsent
  have hgrows (j : Nat) : ∃ m, n ≤ m ∧ j ≤ (bytesOver sentByte sched run m).length := by
    induction j with
    | zero => exact ⟨n, Nat.le_refl _, Nat.zero_le _⟩
    | succ j ih =>
      obtain ⟨m, hm, hj⟩ := ih
      obtain ⟨k, v, hk, hsent⟩ := h.sends hfair hpend hm
      have hle := (bytesOver_prefix (f := sentByte) (sched := sched) (run := run) hk).length_le
      refine ⟨k + 1, by omega, ?_⟩
      rw [hsent, List.length_append, List.length_singleton]
      omega
  obtain ⟨m, hm, hj⟩ := hgrows (bytesOver enqueuedByte sched run n).length
  exact absurd (hunsent m hm) (by omega)

/-! ### `TXLOG` holds what is sent -/

theorem UnitEffect.txLog_prefix {p : Port} {i : Instr} (h : UnitEffect p i l x s t) : s.txLog <+: t.txLog := by
  cases h with
  | nothing => exact List.prefix_rfl
  | write _ _ => rw [setBuf_txLog]
  | read _ _ => rw [setBuf_txLog]
  | resizeOpen _ _ => rw [setBuf_txLog]
  | resizeCopy _ _ => rw [setBuf_txLog]
  | transportWrite _ _ =>
    obtain ⟨rdy, draws, tick, heq⟩ := transmitted_eq p _ s
    rw [heq]
    exact List.prefix_append _ _
  | fault _ _ => exact List.prefix_rfl
  | transportRead _ _ => exact List.prefix_rfl
  | armReceive _ => exact List.prefix_rfl
  | enableReceive _ => exact List.prefix_rfl
  | armTransmit _ => exact List.prefix_rfl
  | enableTransmit _ => exact List.prefix_rfl
  | disarmTransmit _ => exact List.prefix_rfl
  | disableTransmit _ => exact List.prefix_rfl

theorem perform_txLog_prefix {e : Event} (h : perform e s = .next t) : s.txLog <+: t.txLog := by
  cases e with
  | run p more =>
    exact runPort_keeps (P := fun u => s.txLog <+: u.txLog) (fun u p q hu => by rwa [setPort_txLog]) (fun _ _ hu => hu)
      (fun _ _ _ _ _ _ hu heffect => hu.trans heffect.txLog_prefix) List.prefix_rfl h
  | syncW b y =>
    cases h
    rcases syncWStep_cases b y s with heq | ⟨-, -, heq⟩ <;> rw [heq]
    rw [setBuf_txLog]
  | syncR b y =>
    cases h
    rcases syncRStep_cases b y s with heq | ⟨-, -, heq⟩ <;> rw [heq]
    rw [setBuf_txLog]
  | envRx v => cases h; exact List.prefix_rfl
  | envTxReady => cases h; exact List.prefix_rfl
  | present p w => cases h; rw [presentStep, setPort_txLog]

/-- What an event sends is the end of the log it leaves, or nothing. -/
theorem sublist_of_sent {e : Event} {sent : List Byte} (hsent : sent.Sublist s.txLog) (h : perform e s = .next t) :
    (sent ++ sentByte s e t).Sublist t.txLog := by
  obtain ⟨rest, hrest⟩ := perform_txLog_prefix h
  have hcases : sentByte s e t = rest ∨ sentByte s e t = [] := by
    unfold sentByte
    split
    · split
      · exact .inl (by rw [← hrest, List.drop_left])
      · exact .inr rfl
    · exact .inr rfl
  rw [← hrest]
  rcases hcases with heq | heq <;> rw [heq]
  · exact hsent.append (List.Sublist.refl _)
  · exact hsent.append (List.nil_sublist _)

theorem IsRun.sent_sublist (hrun : IsRun sched run) (m : Nat) :
    (bytesOver sentByte sched run m).Sublist (run m).txLog := by
  induction m with
  | zero => exact List.nil_sublist _
  | succ m ih => exact sublist_of_sent ih (hrun m).2

end

/-- Settles O49: bytes are accounted for by every event, and as long as accepted bytes are pending the fair handler
sends another one. -/
theorem everyEnqueuedByteIsSent : Obligations.EveryEnqueuedByteIsSent := by
  intro par capInit rxq rdy sched run hstart hpremises honly hsafe hprogress
  have h := sendingRun_of_premises hstart hpremises honly hsafe
  obtain ⟨-, -, -, -, -, hinvocation, hready, hdrain⟩ := hpremises.everyByteSent
  refine ⟨h.accounted, fun n hidle => ?_⟩
  obtain ⟨m, hm, hlength⟩ := h.eventually_sent ⟨hinvocation, hready, hdrain, hprogress⟩ hidle
  have haccepted := bytesOver_prefix (f := enqueuedByte) (sched := sched) (run := run) hm
  have hsent : bytesOver sentByte sched run m <+: bytesOver enqueuedByte sched run m := by
    rw [h.accounted m, List.append_assoc]
    exact List.prefix_append _ _
  have hprefix := List.prefix_of_prefix_length_le haccepted hsent hlength
  exact ⟨m, hm, hprefix, hprefix.sublist.trans (h.isRun.sent_sublist m)⟩

end Sys2Proof.Machine
